-- ==== Sys2Proof/Word.lean ====
section
/-! DEFINITION. The widths the manual uses: bytes of a telegram, 16-bit fields, 32-bit counters. -/

namespace Sys2Proof

/-- One byte of a telegram. -/
abbrev Byte := BitVec 8

/-- A 16-bit field: object indexes, values, operands, the generation. -/
abbrev Word := BitVec 16

/-- A counter of the Counter Block (R185). -/
abbrev Count := BitVec 32

end Sys2Proof
end

