-- ==== Sys2Proof/Config.lean ====
section
/-! DEFINITION. What the manual fixes for the part: capacities, identity, and the names of its ports and stations.
The manual leaves no result open, so there is no free value here. -/

namespace Sys2Proof

/-- Segments 0 and 1, behind ports S0 and S1. -/
inductive Segment where
  | s0
  | s1
  deriving DecidableEq, Repr

/-- The three ports (00, "Ports"). -/
inductive Port where
  | u
  | s0
  | s1
  deriving DecidableEq, Repr

/-- The port a segment is wired to. -/
def Segment.port : Segment → Port
  | .s0 => .s0
  | .s1 => .s1

/-- A transaction slot index, 0-31 (R73). -/
abbrev SlotIx := Fin 32

/-- A physical station of a segment: `a` stands for the address `a + 1`, so 1-31 (R102). -/
abbrev StationAddr := Fin 31

/-- An Edit Record index, 0-63 (R25). -/
abbrev EditIx := Fin 64

/-- An Object Map entry index, 0-127 (R22). -/
abbrev MapIx := Fin 128

/-- A Translation Page index, 0-7 (R28). -/
abbrev PageIx := Fin 8

/-- A transmission number of a slot, 0-6; 7 marks probes (R12, R80). -/
abbrev TxNumber := Fin 7

namespace Config

/-- The Traffic Queue holds at most 24 telegrams (R135). -/
def trafficCapacity : Nat := 24

/-- The Reply Outbox holds at most 4 telegrams (R138). -/
def outboxCapacity : Nat := 4

/-- The Notice Queue holds at most 16 notices (R139). -/
def noticeCapacity : Nat := 16

/-- The Report Cache holds at most 64 entries (R126). -/
def cacheCapacity : Nat := 64

/-- At most four control telegrams go in a row while traffic waits (R141). -/
def controlLimit : Nat := 4

/-- The part code in the SYNC and READ_INFO data (R152, R157). -/
def partCode : Byte := 240

/-- The revision in the SYNC and READ_INFO data (R152, R157). -/
def revision : Byte := 3

/-- The shortest and the longest block a framer accepts, check included (R2). -/
def minBlock : Nat := 8
def maxBlock : Nat := 64

/-- The longest argument list of a MGMT telegram (R5, R13). -/
def maxArgs : Nat := 32

end Config

end Sys2Proof
end

