-- ==== Sys2Proof/Syntax.lean ====
section
/-! DEFINITION. The commands of the block: one constructor for each row of spec/opcode_table.json, in the table's order.

A telegram row carries the fields of the telegram the port hands over; the bytes a port receives are tied to these
fields in Machine/Framing.lean (R1 to R7). `args` are the argument bytes of a MGMT telegram; its kind, destination and
argument length are fixed by the form check of R5. -/

namespace Sys2Proof

inductive Instr where
  /-- PIN_RESET_ASSERT (R181): RESET_N is driven low. -/
  | pinResetAssert
  /-- PIN_RESET_RELEASE (R182): RESET_N is released with these levels on ADDR3..ADDR0 and S1_EN. -/
  | pinResetRelease (addr : BitVec 4) (s1En : Bool)
  /-- FRAMING_DISCARD (R2): a block ends on a port, given as its bytes with the check. -/
  | framingDiscard (port : Port) (block : List Byte)
  /-- S1_ABSENT_DISCARD (R7): a block ends on S1. -/
  | s1AbsentDiscard (block : List Byte)
  /-- REQUEST (R55): bytes 1 to 3, then the bytes from byte 4 up to the check. -/
  | request (dst src tag : Byte) (rest : List Byte)
  /-- REPLY (R86) on a segment port. -/
  | reply (seg : Segment) (dst src tag status : Byte) (index : Word) (count : Byte) (values : List Word)
  /-- CHANGE (R120) on a segment port. -/
  | change (seg : Segment) (dst src tag : Byte) (index value : Word)
  /-- SEGMENT_TRANSMISSION_END (R81). -/
  | segmentTransmissionEnd (seg : Segment)
  /-- PORT_U_TRANSMISSION_END (R142). -/
  | portUTransmissionEnd
  /-- SLOT_DEADLINE_EXPIRY (R82). -/
  | slotDeadlineExpiry (slot : SlotIx)
  /-- PROBE_DUE_EXPIRY (R109). -/
  | probeDueExpiry (seg : Segment) (addr : StationAddr)
  /-- PROBE_DEADLINE_EXPIRY (R113). -/
  | probeDeadlineExpiry (seg : Segment)
  /-- REFRESH_COUNTDOWN_EXPIRY (R131), for the cache entry with this key. -/
  | refreshCountdownExpiry (station : Byte) (index : Word)
  /-- DRAIN_EXPIRY (R176). -/
  | drainExpiry
  /-- SYNC (R152), command code 1. -/
  | sync (src seq : Byte) (args : List Byte)
  /-- READ_INFO (R157), command code 2. -/
  | readInfo (src seq : Byte) (args : List Byte)
  /-- SET_TIMING (R160), command code 3. -/
  | setTiming (src seq : Byte) (args : List Byte)
  /-- WRITE_MAP (R23), command code 4. -/
  | writeMap (src seq : Byte) (args : List Byte)
  /-- CLEAR_MAP (R24), command code 5. -/
  | clearMap (src seq : Byte) (args : List Byte)
  /-- WRITE_EDIT (R26), command code 6. -/
  | writeEdit (src seq : Byte) (args : List Byte)
  /-- CLEAR_EDIT (R27), command code 7. -/
  | clearEdit (src seq : Byte) (args : List Byte)
  /-- WRITE_PAGE (R28), command code 8. -/
  | writePage (src seq : Byte) (args : List Byte)
  /-- READ_MAP (R29), command code 9. -/
  | readMap (src seq : Byte) (args : List Byte)
  /-- READ_EDIT (R29), command code 10. -/
  | readEdit (src seq : Byte) (args : List Byte)
  /-- READ_PAGE (R29), command code 11. -/
  | readPage (src seq : Byte) (args : List Byte)
  /-- COPY_BANK (R30), command code 12. -/
  | copyBank (src seq : Byte) (args : List Byte)
  /-- COMMIT (R169), command code 13. -/
  | commit (src seq : Byte) (args : List Byte)
  /-- ABORT_COMMIT (R175), command code 14. -/
  | abortCommit (src seq : Byte) (args : List Byte)
  /-- READ_STATION (R114), command code 15. -/
  | readStation (src seq : Byte) (args : List Byte)
  /-- RESET_STATION (R116), command code 16. -/
  | resetStation (src seq : Byte) (args : List Byte)
  /-- READ_SLOT (R158), command code 17. -/
  | readSlot (src seq : Byte) (args : List Byte)
  /-- READ_COUNTERS (R159), command code 18. -/
  | readCounters (src seq : Byte) (args : List Byte)
  /-- RESTART (R163), command code 19. -/
  | restart (src seq : Byte) (args : List Byte)
  /-- UNKNOWN_COMMAND (R155): a MGMT with a command code outside 1 to 19. -/
  | unknownCommand (code src seq : Byte) (args : List Byte)
  deriving DecidableEq, Repr

end Sys2Proof
end

