-- ==== Sys2Proof/Machine/State.lean ====
section
/-! DEFINITION. The state of the part, block by block as 00_scope.md names them, and the state right after reset. -/

namespace Sys2Proof.Machine

/-- A timer of the Time Base: stopped, or running with the milliseconds it was loaded with (R180, log entry 2). -/
inductive Timer where
  | stopped
  | running (ms : Nat)
  deriving DecidableEq, Repr

/-! ### Configuration banks (chapter 2) -/

/-- The op of a REQUEST (section 1.4). -/
inductive Op where
  | read
  | write
  deriving DecidableEq, Repr

/-- The access of a map entry (R22). -/
inductive Access where
  | readOnly
  | writeOnly
  | readWrite
  deriving DecidableEq, Repr

/-- The change policy of a map entry; deadband and refresh are present only with DEADBAND (R22). -/
inductive ChangePolicy where
  | drop
  | forward
  | deadband (limit refresh : Word)
  deriving DecidableEq, Repr

/-- A valid Object Map entry (R22). An invalid entry is absent from its place (log entry 13). -/
structure MapEntry where
  station : Byte
  first : Word
  last : Word
  seg : Segment
  phys : StationAddr
  base : Word
  access : Access
  downEdit : Option EditIx
  upEdit : Option EditIx
  policy : ChangePolicy
  deriving DecidableEq, Repr

/-- Input and output types of an Edit Record (R25). -/
inductive ValueType where
  | unsigned
  | signed
  | decimal
  deriving DecidableEq, Repr

/-- Overflow policy of an Edit Record (R25). -/
inductive OverflowPolicy where
  | saturate
  | reject
  deriving DecidableEq, Repr

/-- Miss policy of an Edit Record (R25). -/
inductive MissPolicy where
  | useDefault
  | reject
  deriving DecidableEq, Repr

/-- The operation of an edit step (R25). -/
inductive StepOp where
  | add
  | scale
  | setBits
  | clearBits
  | flipBits
  | translate
  | limit
  deriving DecidableEq, Repr

/-- The guard of an edit step (R25, R43). -/
inductive Guard where
  | always
  | ifZ
  | ifNZ
  | ifN
  | ifNN
  | ifV
  | ifM
  deriving DecidableEq, Repr

/-- One step of an Edit Record: operation, guard and two operands as stored (R25). -/
structure EditStep where
  op : StepOp
  guard : Guard
  a : Word
  b : Word
  deriving DecidableEq, Repr

/-- A defined Edit Record (R25). An undefined record is absent from its place (log entry 13). -/
structure EditRecord where
  inType : ValueType
  outType : ValueType
  overflow : OverflowPolicy
  miss : MissPolicy
  steps : List EditStep
  deriving DecidableEq, Repr

/-- A Translation Page: 64 output words and a default word (R28). -/
structure Page where
  words : Vector Word 64
  dflt : Word
  deriving DecidableEq, Repr

/-- One configuration bank (chapter 2). -/
structure Bank where
  map : Vector (Option MapEntry) 128
  edits : Vector (Option EditRecord) 64
  pages : Vector Page 8
  deriving DecidableEq, Repr

/-- The letters of the two banks (R19). -/
inductive BankId where
  | a
  | b
  deriving DecidableEq, Repr

/-- The Bank Store: both banks, the role marker and the generation (R19, R20). -/
structure BankStore where
  bankA : Bank
  bankB : Bank
  active : BankId
  generation : Word
  deriving DecidableEq, Repr

/-! ### Telegrams (chapter 1) -/

/-- A traffic telegram, without its check: the layout REQUEST, REPLY and CHANGE share (section 1.4). -/
structure Telegram where
  kind : Byte
  dst : Byte
  src : Byte
  tag : Byte
  opStatus : Byte
  index : Word
  count : Byte
  values : List Word
  deriving DecidableEq, Repr

/-- The management statuses (R15). -/
inductive MgmtStatus where
  | done
  | accepted
  | badCommand
  | badArgument
  | notSynced
  | sequenceError
  | commitPending
  | nothingPending
  | invalidBank
  | restartPending
  deriving DecidableEq, Repr

/-- A MGMT_REPLY without its check (R13). -/
structure MgmtReply where
  dst : Byte
  src : Byte
  seq : Byte
  code : Byte
  status : MgmtStatus
  data : List Byte
  deriving DecidableEq, Repr

/-- Start-up causes (section 1.8). -/
inductive StartCause where
  | pin
  | command
  deriving DecidableEq, Repr

/-- Commit failure reasons (section 1.8). -/
inductive FailReason where
  | aborted
  | drainTimeout
  deriving DecidableEq, Repr

/-- The five notices with their data (R16, R143). -/
inductive NoticeEvent where
  | started (cause : StartCause) (generation : Word) (own : Byte) (s1Present : Bool)
  | commitDone (generation : Word)
  | commitFailed (reason : FailReason) (generation : Word) (refused : Nat)
  | stationSilent (seg : Segment) (addr : StationAddr)
  | stationOnline (seg : Segment) (addr : StationAddr)
  deriving DecidableEq, Repr

/-- A NOTICE without its check (R16). -/
structure Notice where
  dst : Byte
  src : Byte
  number : Byte
  lost : Byte
  event : NoticeEvent
  deriving DecidableEq, Repr

/-- A telegram on port U's transmit pair. -/
inductive UpTelegram where
  | traffic (t : Telegram)
  | mgmt (r : MgmtReply)
  | notice (n : Notice)
  deriving DecidableEq, Repr

/-! ### Transaction slots (chapter 5) -/

/-- The seven slot states (R73). -/
inductive SlotState where
  | free
  | parked
  | held
  | queued
  | sending
  | sent
  | replyReady
  deriving DecidableEq, Repr

/-- The reply statuses on port U (R17). -/
inductive ReplyStatus where
  | ok
  | station (code : Byte)
  | notMapped
  | accessDenied
  | malformed
  | editReject
  | stationSilent
  | timeout
  | noSlot
  | reconfig
  | stationFault
  | badKind
  deriving DecidableEq, Repr

/-- A built reply: its status, and the values of an OK to a READ (R73, R91). -/
structure BuiltReply where
  status : ReplyStatus
  values : List Word
  deriving DecidableEq, Repr

/-- A transaction slot (R73). -/
structure Slot where
  state : SlotState
  ctrlAddr : Byte
  ctrlTag : Byte
  logStation : Byte
  logIndex : Word
  count : Byte
  op : Op
  seg : Segment
  station : StationAddr
  physIndex : Word
  writeValues : List Word
  upEdit : Option EditIx
  generation : Word
  retriesLeft : Nat
  cur : TxNumber
  next : TxNumber
  deadline : Timer
  built : Option BuiltReply
  deriving DecidableEq, Repr

/-- A FREE slot: every field cleared, the two transmission numbers as given (R93, R100, R101).
The fields R73 calls not present while FREE hold placeholders no rule reads (log entry 12). -/
def Slot.cleared (cur next : TxNumber) : Slot :=
  { state := .free, ctrlAddr := 0, ctrlTag := 0, logStation := 0, logIndex := 0, count := 0, op := .read, seg := .s0,
    station := 0, physIndex := 0, writeValues := [], upEdit := none, generation := 0, retriesLeft := 0, cur := cur,
    next := next, deadline := .stopped, built := none }

/-! ### Segments: dispatchers and stations (chapters 5 and 6) -/

/-- Station health (R103). -/
inductive Health where
  | unknown
  | online
  | suspect
  | silent
  deriving DecidableEq, Repr

/-- A station record (R102). -/
structure Station where
  health : Health
  failures : Nat
  activeSlot : Option SlotIx
  held : List SlotIx
  dueTimer : Timer
  due : Bool
  deriving DecidableEq, Repr

/-- The values of a station record after pin reset and RESTART (R119). -/
def Station.initial : Station :=
  { health := .unknown, failures := 0, activeSlot := none, held := [], dueTimer := .stopped, due := false }

/-- The probe record of a segment (R110). -/
inductive ProbeRecord where
  | idle
  | sending (addr : StationAddr)
  | awaiting (addr : StationAddr) (deadline : Timer)
  deriving DecidableEq, Repr

/-- The transmission record of a segment's dispatcher, with the telegram its transmitter is sending (R77, R8).
The transmitter is FREE exactly when the record is `none` (log entry 16). -/
inductive TxRecord where
  | none
  | slot (i : SlotIx) (t : Telegram)
  | probe (t : Telegram)
  | void (t : Telegram)
  deriving DecidableEq, Repr

/-- A segment: its dispatcher's send queue, transmission record and probe record, and its station records. -/
structure SegState where
  queue : List SlotIx
  record : TxRecord
  probe : ProbeRecord
  stations : Vector Station 31
  deriving DecidableEq, Repr

/-- A segment after pin reset (R100, R119). -/
def SegState.initial : SegState :=
  { queue := [], record := .none, probe := .idle, stations := Vector.replicate 31 Station.initial }

/-! ### Report Cache (chapter 7) -/

/-- A Report Cache entry (R126). -/
structure CacheEntry where
  station : Byte
  index : Word
  lastValue : Word
  countdown : Timer
  due : Bool
  deriving DecidableEq, Repr

/-! ### Commit Controller (chapter 10) -/

/-- The commit state (R168). -/
inductive CommitState where
  | idle
  | draining
  deriving DecidableEq, Repr

/-- The Commit Controller's record (R168); the old-generation count is `State.oldGenCount` (log entry 15). -/
structure CommitControl where
  state : CommitState
  incoming : Option Word
  drainTimer : Timer
  deriving DecidableEq, Repr

/-- The Commit Controller after pin reset and RESTART (R179). -/
def CommitControl.initial : CommitControl :=
  { state := .idle, incoming := none, drainTimer := .stopped }

/-! ### Upstream Transmitter (chapter 8) -/

/-- The transmission record of port U as R140 gives it, a view of `Upstream.sending`. -/
inductive UpRecord where
  | none
  | outbox (code : Byte) (status : MgmtStatus)
  | notice
  | traffic
  deriving DecidableEq, Repr

/-- The Upstream Transmitter (R135 to R140). `sending` is the telegram port U is sending; the transmitter is FREE
exactly when it is absent (log entry 16). -/
structure Upstream where
  traffic : List Telegram
  waitList : List SlotIx
  outbox : List MgmtReply
  notices : List Notice
  nextNotice : Byte
  pendingLost : Byte
  control : Nat
  sending : Option UpTelegram
  deriving DecidableEq, Repr

/-- The Upstream Transmitter at pin reset, before the STARTED notice is raised (R146). -/
def Upstream.initial : Upstream :=
  { traffic := [], waitList := [], outbox := [], notices := [], nextNotice := 0, pendingLost := 0, control := 0,
    sending := none }

/-! ### Management Agent (chapter 9) -/

/-- The sync state (R148). -/
inductive SyncState where
  | unsynced
  | synced
  deriving DecidableEq, Repr

/-- The Management Agent's record (R148). -/
structure Agent where
  sync : SyncState
  lastSeq : Byte
  stored : Option MgmtReply
  ctrlAddr : Byte
  restartPending : Bool
  replyTimeout : Nat
  retries : Nat
  silentThreshold : Nat
  probeInterval : Nat
  drainLimit : Nat
  deriving DecidableEq, Repr

/-- The agent record after pin reset: the last column of R148. -/
def Agent.initial : Agent :=
  { sync := .unsynced, lastSeq := 0, stored := none, ctrlAddr := 0, restartPending := false, replyTimeout := 20,
    retries := 2, silentThreshold := 3, probeInterval := 10, drainLimit := 500 }

/-! ### Counter Block (chapter 11) -/

/-- The four PORT counters of one port (R185). -/
structure PortCounters where
  received : Count
  checkErrors : Count
  malformed : Count
  transmitted : Count
  deriving DecidableEq, Repr

/-- The eight TRAFFIC counters (R185). -/
structure TrafficCounters where
  admitted : Count
  refused : Count
  discarded : Count
  changesForwarded : Count
  changesSuppressed : Count
  changesDropped : Count
  changesUnmapped : Count
  mgmtDiscarded : Count
  deriving DecidableEq, Repr

/-- The three SEGMENT counters of one segment (R185). -/
structure SegmentCounters where
  retries : Count
  finalTimeouts : Count
  staleReplies : Count
  deriving DecidableEq, Repr

/-- The Counter Block (R185). -/
structure Counters where
  portU : PortCounters
  portS0 : PortCounters
  portS1 : PortCounters
  traffic : TrafficCounters
  seg0 : SegmentCounters
  seg1 : SegmentCounters
  deriving DecidableEq, Repr

/-- Each group at 0 (R185). -/
def PortCounters.zero : PortCounters := ⟨0, 0, 0, 0⟩
def TrafficCounters.zero : TrafficCounters := ⟨0, 0, 0, 0, 0, 0, 0, 0⟩
def SegmentCounters.zero : SegmentCounters := ⟨0, 0, 0⟩
def Counters.zero : Counters :=
  ⟨PortCounters.zero, PortCounters.zero, PortCounters.zero, TrafficCounters.zero, SegmentCounters.zero,
    SegmentCounters.zero⟩

/-! ### The whole part -/

/-- The state of the part, and the commands that wait to be taken (log entry 1). -/
structure State where
  resetHeld : Bool
  ownAddress : Byte
  s1Present : Bool
  store : BankStore
  slots : Vector Slot 32
  parked : List SlotIx
  seg0 : SegState
  seg1 : SegState
  cache : List CacheEntry
  commit : CommitControl
  up : Upstream
  agent : Agent
  counters : Counters
  pending : List Instr
  deriving DecidableEq, Repr

/-- The part has no way to stop: the spec answers, counts or ignores every event. No meaning raises a fault, which
is safe: no behaviour of the part is cut off. -/
inductive Fault where
  deriving DecidableEq, Repr

/-- Why a command has no outcome. -/
inductive Refusal where
  /-- Raised only by an arm of `exec` whose command has no meaning yet; safe, since nothing is claimed of it. -/
  | notModelled (mnemonic : String)
  deriving DecidableEq, Repr

/-- An empty Translation Page (R21). -/
def Page.empty : Page := { words := Vector.replicate 64 0, dflt := 0 }

/-- An empty bank (R21). -/
def Bank.empty : Bank :=
  { map := Vector.replicate 128 none, edits := Vector.replicate 64 none, pages := Vector.replicate 8 Page.empty }

/-- The Bank Store after pin reset (R21). -/
def BankStore.initial : BankStore :=
  { bankA := Bank.empty, bankB := Bank.empty, active := .a, generation := 0 }

/-- The pin-reset values of every block with the straps just sampled (R181, R182), before STARTED is raised. -/
def State.pinReset (addr : BitVec 4) (s1En : Bool) (pending : List Instr) : State :=
  { resetHeld := false
    ownAddress := 240 + addr.setWidth 8
    s1Present := s1En
    store := BankStore.initial
    slots := Vector.replicate 32 (Slot.cleared 0 0)
    parked := []
    seg0 := SegState.initial
    seg1 := SegState.initial
    cache := []
    commit := CommitControl.initial
    up := Upstream.initial
    agent := Agent.initial
    counters := Counters.zero
    pending := pending }

/-- The part right after pin reset: the release of RESET_N with ADDR 0 and S1 present (DESIGN CHOICE, log entry 4) has
been taken, so STARTED, number 0, is on port U's wire (R182, log entry 5). The statement
PinResetReleaseGivesTheResetValues ties this to PIN_RESET_RELEASE. -/
def State.reset : State :=
  { State.pinReset 0 true [] with
    up := { Upstream.initial with
      nextNotice := 1
      control := 1
      sending := some (.notice ⟨0, 240, 0, 0, .started .pin 0 240 true⟩) } }

end Sys2Proof.Machine
end

