-- ==== Sys2Proof/Machine/Operands.lean ====
section
/-! DEFINITION. Byte order, the encodings of section 1.8, the argument and data layouts of the management commands
(R14), and the bodies of the telegrams the part sends (R11, R13, R16). -/

namespace Sys2Proof.Machine

/-! ### Byte order: high-order byte first (00, "Bytes") -/

def wordOf (hi lo : Byte) : Word := hi ++ lo

def wordBytes (w : Word) : List Byte := [w.extractLsb' 8 8, w.extractLsb' 0 8]

def countBytes (c : Count) : List Byte :=
  [c.extractLsb' 24 8, c.extractLsb' 16 8, c.extractLsb' 8 8, c.extractLsb' 0 8]

def byteOf (n : Nat) : Byte := BitVec.ofNat 8 n

/-- Pairs of bytes as words; an odd number of bytes spells no words. -/
def wordsOf : List Byte → Option (List Word)
  | [] => some []
  | hi :: lo :: rest => (wordsOf rest).map (wordOf hi lo :: ·)
  | [_] => none

def wordsBytes (ws : List Word) : List Byte := ws.flatMap wordBytes

/-- A byte that must lie below `n`. -/
def finOf (n : Nat) (b : Byte) : Option (Fin n) :=
  if h : b.toNat < n then some ⟨b.toNat, h⟩ else none

/-! ### Encoded values (section 1.8) -/

def segmentCode : Segment → Byte
  | .s0 => 0
  | .s1 => 1

def segmentOf (b : Byte) : Option Segment :=
  if b = 0 then some .s0 else if b = 1 then some .s1 else none

/-- The address 1-31 of a station (R102). -/
def addrByte (a : StationAddr) : Byte := byteOf (a.val + 1)

/-- Addresses 1-31 name a station; 0 and 32-255 name none (R102). -/
def addrOf (b : Byte) : Option StationAddr :=
  if h : 1 ≤ b.toNat ∧ b.toNat ≤ 31 then some ⟨b.toNat - 1, by omega⟩ else none

def opCode : Op → Byte
  | .read => 1
  | .write => 2

def opOf (b : Byte) : Option Op :=
  if b = 1 then some .read else if b = 2 then some .write else none

def accessCode : Access → Byte
  | .readOnly => 1
  | .writeOnly => 2
  | .readWrite => 3

def accessOf (b : Byte) : Option Access :=
  if b = 1 then some .readOnly else if b = 2 then some .writeOnly else if b = 3 then some .readWrite else none

def typeCode : ValueType → Byte
  | .unsigned => 0
  | .signed => 1
  | .decimal => 2

def typeOf (b : Byte) : Option ValueType :=
  if b = 0 then some .unsigned else if b = 1 then some .signed else if b = 2 then some .decimal else none

def overflowCode : OverflowPolicy → Byte
  | .saturate => 0
  | .reject => 1

def overflowOf (b : Byte) : Option OverflowPolicy :=
  if b = 0 then some .saturate else if b = 1 then some .reject else none

def missCode : MissPolicy → Byte
  | .useDefault => 0
  | .reject => 1

def missOf (b : Byte) : Option MissPolicy :=
  if b = 0 then some .useDefault else if b = 1 then some .reject else none

def stepOpCode : StepOp → Byte
  | .add => 1
  | .scale => 2
  | .setBits => 3
  | .clearBits => 4
  | .flipBits => 5
  | .translate => 6
  | .limit => 7

def stepOpOf (b : Byte) : Option StepOp :=
  match b.toNat with
  | 1 => some .add
  | 2 => some .scale
  | 3 => some .setBits
  | 4 => some .clearBits
  | 5 => some .flipBits
  | 6 => some .translate
  | 7 => some .limit
  | _ => none

def guardCode : Guard → Byte
  | .always => 0
  | .ifZ => 1
  | .ifNZ => 2
  | .ifN => 3
  | .ifNN => 4
  | .ifV => 5
  | .ifM => 6

def guardOf (b : Byte) : Option Guard :=
  match b.toNat with
  | 0 => some .always
  | 1 => some .ifZ
  | 2 => some .ifNZ
  | 3 => some .ifN
  | 4 => some .ifNN
  | 5 => some .ifV
  | 6 => some .ifM
  | _ => none

/-- Optional references: 255 is absent (R14). -/
def refCode : Option EditIx → Byte
  | none => 255
  | some e => byteOf e.val

/-- 0-63, or 255 for absent (R23). -/
def refOf (b : Byte) : Option (Option EditIx) :=
  if b = 255 then some none else (finOf 64 b).map some

def healthCode : Health → Byte
  | .unknown => 0
  | .online => 1
  | .suspect => 2
  | .silent => 3

def slotStateCode : SlotState → Byte
  | .free => 0
  | .parked => 1
  | .held => 2
  | .queued => 3
  | .sending => 4
  | .sent => 5
  | .replyReady => 6

def commitStateCode : CommitState → Byte
  | .idle => 0
  | .draining => 1

def bankCode : BankId → Byte
  | .a => 0
  | .b => 1

def boolCode (b : Bool) : Byte := if b then 1 else 0

def startCauseCode : StartCause → Byte
  | .pin => 1
  | .command => 2

def failReasonCode : FailReason → Byte
  | .aborted => 1
  | .drainTimeout => 2

/-- Management statuses (R15). -/
def mgmtStatusCode : MgmtStatus → Byte
  | .done => 0
  | .accepted => 1
  | .badCommand => 2
  | .badArgument => 3
  | .notSynced => 4
  | .sequenceError => 5
  | .commitPending => 6
  | .nothingPending => 7
  | .invalidBank => 8
  | .restartPending => 9

/-- Reply statuses on port U (R17). -/
def replyStatusCode : ReplyStatus → Byte
  | .ok => 0
  | .station c => c
  | .notMapped => 0x40
  | .accessDenied => 0x41
  | .malformed => 0x42
  | .editReject => 0x43
  | .stationSilent => 0x44
  | .timeout => 0x45
  | .noSlot => 0x46
  | .reconfig => 0x47
  | .stationFault => 0x48
  | .badKind => 0x49

/-! ### The downstream tag (R12) -/

/-- Transmission number in bits 7-5, index in bits 4-0. -/
def tagOf (number index : Nat) : Byte := byteOf (32 * number + index)

def tagNumber (tag : Byte) : Nat := tag.toNat / 32

def tagIndex (tag : Byte) : Fin 32 := ⟨tag.toNat % 32, Nat.mod_lt _ (by decide)⟩

/-- The tag of a slot's transmission (R79). -/
def slotTag (n : TxNumber) (i : SlotIx) : Byte := tagOf n.val i.val

/-- The tag of a probe: 224 plus the address (R111). -/
def probeTag (a : StationAddr) : Byte := tagOf 7 (a.val + 1)

/-! ### Telegram bodies, byte 0 first -/

/-- Traffic telegrams (section 1.4). -/
def Telegram.body (t : Telegram) : List Byte :=
  [t.kind, t.dst, t.src, t.tag, t.opStatus] ++ wordBytes t.index ++ [t.count] ++ wordsBytes t.values

/-- MGMT_REPLY (R13): kind 5. -/
def MgmtReply.body (r : MgmtReply) : List Byte :=
  [5, r.dst, r.src, r.seq, r.code, mgmtStatusCode r.status, byteOf r.data.length] ++ r.data

/-- The notice codes (R16). -/
def NoticeEvent.code : NoticeEvent → Byte
  | .started .. => 1
  | .commitDone .. => 2
  | .commitFailed .. => 3
  | .stationSilent .. => 4
  | .stationOnline .. => 5

/-- The notice data (R16). -/
def NoticeEvent.data : NoticeEvent → List Byte
  | .started cause g own s1 => [startCauseCode cause] ++ wordBytes g ++ [own, boolCode s1]
  | .commitDone g => wordBytes g
  | .commitFailed reason g n => [failReasonCode reason] ++ wordBytes g ++ [byteOf n]
  | .stationSilent k a => [segmentCode k, addrByte a]
  | .stationOnline k a => [segmentCode k, addrByte a]

/-- NOTICE (R16): kind 6. -/
def Notice.body (n : Notice) : List Byte :=
  [6, n.dst, n.src, n.number, n.event.code, n.lost, byteOf n.event.data.length] ++ n.event.data

def UpTelegram.body : UpTelegram → List Byte
  | .traffic t => t.body
  | .mgmt r => r.body
  | .notice n => n.body

/-- The values of a traffic telegram sent on a segment or on port U (R11): kinds of section 1.4. -/
def kindRequest : Byte := 1
def kindReply : Byte := 2
def kindChange : Byte := 3
def kindMgmt : Byte := 4

/-! ### Argument layouts (R14), with the checks of the chapters that own the fields -/

/-- The change policy, with the refresh checked only under DEADBAND and both fields dropped otherwise (R23). -/
def policyOf (p : Byte) (limit refresh : Word) : Option ChangePolicy :=
  if p = 0 then some .drop
  else if p = 1 then some .forward
  else if p = 2 then (if refresh.toNat ≤ 600 then some (.deadband limit refresh) else none)
  else none

/-- The range checks of WRITE_MAP that relate fields (R23). -/
def mapRangesOk (station : Byte) (first last base : Word) : Bool :=
  decide (station.toNat ≤ 239 ∧ first.toNat ≤ last.toNat ∧ base.toNat + (last.toNat - first.toNat) ≤ 65535)

/-- The arguments of WRITE_MAP (R14, R23). -/
def parseMap : List Byte → Option (MapIx × MapEntry)
  | [ix, ls, f1, f0, l1, l0, sg, ps, b1, b0, ac, de, ue, cp, d1, d0, r1, r0] => do
    let ix ← finOf 128 ix
    let seg ← segmentOf sg
    let phys ← addrOf ps
    let access ← accessOf ac
    let downEdit ← refOf de
    let upEdit ← refOf ue
    let policy ← policyOf cp (wordOf d1 d0) (wordOf r1 r0)
    if mapRangesOk ls (wordOf f1 f0) (wordOf l1 l0) (wordOf b1 b0) then
      some (ix, { station := ls, first := wordOf f1 f0, last := wordOf l1 l0, seg := seg, phys := phys,
                  base := wordOf b1 b0, access := access, downEdit := downEdit, upEdit := upEdit, policy := policy })
    else none
  | _ => none

/-- The operand checks of one step (R26). -/
def stepOk (op : StepOp) (a b : Word) : Bool :=
  match op with
  | .scale => decide (b.toNat ≤ 15 ∨ (256 ≤ b.toNat ∧ b.toNat ≤ 271))
  | .translate => decide (a.toNat ≤ 7)
  | .limit => decide (a.toInt ≤ b.toInt)
  | .add => true
  | .setBits => true
  | .clearBits => true
  | .flipBits => true

/-- Exactly `k` steps of six bytes each (R14, R26). -/
def parseSteps : Nat → List Byte → Option (List EditStep)
  | 0, [] => some []
  | k + 1, o :: g :: a1 :: a0 :: b1 :: b0 :: rest => do
    let op ← stepOpOf o
    let guard ← guardOf g
    let steps ← parseSteps k rest
    if stepOk op (wordOf a1 a0) (wordOf b1 b0) then
      some ({ op := op, guard := guard, a := wordOf a1 a0, b := wordOf b1 b0 } :: steps)
    else none
  | _, _ => none

/-- The arguments of WRITE_EDIT (R14, R26). -/
def parseEdit : List Byte → Option (EditIx × EditRecord)
  | ri :: it :: ot :: ov :: ms :: k :: rest => do
    let ix ← finOf 64 ri
    let inType ← typeOf it
    let outType ← typeOf ot
    let overflow ← overflowOf ov
    let miss ← missOf ms
    if k.toNat ≤ 4 then
      let steps ← parseSteps k.toNat rest
      some (ix, { inType := inType, outType := outType, overflow := overflow, miss := miss, steps := steps })
    else none
  | _ => none

/-- The part of a page that WRITE_PAGE and READ_PAGE name. -/
inductive PageTarget where
  | words (first : Nat)
  | dflt
  deriving DecidableEq, Repr

/-- First entry and word count: 0-63 with first + w at most 64, or 255 with w 1; w is 1-8 (R28). -/
def pageTarget (first w : Byte) : Option PageTarget :=
  if 1 ≤ w.toNat ∧ w.toNat ≤ 8 then
    if first = 255 then (if w = 1 then some .dflt else none)
    else if first.toNat + w.toNat ≤ 64 then some (.words first.toNat)
    else none
  else none

/-- The arguments of WRITE_PAGE (R14, R28). -/
def parsePage : List Byte → Option (PageIx × PageTarget × List Word)
  | pg :: first :: w :: rest => do
    let ix ← finOf 8 pg
    let target ← pageTarget first w
    let ws ← wordsOf rest
    if ws.length = w.toNat then some (ix, target, ws) else none
  | _ => none

/-- The bank selector (section 1.8). -/
inductive BankRole where
  | active
  | shadow
  deriving DecidableEq, Repr

def roleOf (b : Byte) : Option BankRole :=
  if b = 0 then some .active else if b = 1 then some .shadow else none

/-- The arguments of READ_MAP (R14, R29). -/
def parseReadMap : List Byte → Option (BankRole × MapIx)
  | [sel, ix] => do
    let role ← roleOf sel
    let ix ← finOf 128 ix
    some (role, ix)
  | _ => none

/-- The arguments of READ_EDIT (R14, R29). -/
def parseReadEdit : List Byte → Option (BankRole × EditIx)
  | [sel, ix] => do
    let role ← roleOf sel
    let ix ← finOf 64 ix
    some (role, ix)
  | _ => none

/-- The arguments of READ_PAGE (R14, R29): bank, page, target, first entry and word count. -/
def parseReadPage : List Byte → Option (BankRole × PageIx × PageTarget × Byte × Byte)
  | [sel, pg, first, w] => do
    let role ← roleOf sel
    let ix ← finOf 8 pg
    let target ← pageTarget first w
    some (role, ix, target, first, w)
  | _ => none

/-- One index byte below `n`: CLEAR_MAP, CLEAR_EDIT, READ_SLOT (R24, R27, R158). -/
def parseIndex (n : Nat) : List Byte → Option (Fin n)
  | [ix] => finOf n ix
  | _ => none

/-- Segment and address: READ_STATION, RESET_STATION (R114, R116). -/
def parseStation : List Byte → Option (Segment × StationAddr)
  | [sg, ad] => do
    let seg ← segmentOf sg
    let addr ← addrOf ad
    some (seg, addr)
  | _ => none

/-- The counter groups (section 1.8). -/
inductive CounterGroup where
  | port
  | traffic
  | segment
  deriving DecidableEq, Repr

def counterGroupOf (b : Byte) : Option CounterGroup :=
  if b = 1 then some .port else if b = 2 then some .traffic else if b = 3 then some .segment else none

def flagOf (b : Byte) : Option Bool :=
  if b = 0 then some false else if b = 1 then some true else none

/-- The arguments of READ_COUNTERS: group and clear flag (R159). -/
def parseCounters : List Byte → Option (CounterGroup × Bool)
  | [g, c] => do
    let group ← counterGroupOf g
    let clear ← flagOf c
    some (group, clear)
  | _ => none

/-- The timing parameters by their ids (R160). -/
inductive TimingParam where
  | replyTimeout
  | retries
  | silentThreshold
  | probeInterval
  | drainLimit
  deriving DecidableEq, Repr

/-- The range of a timing parameter (R160). -/
def timingInRange (p : TimingParam) (v : Nat) : Bool :=
  match p with
  | .replyTimeout => decide (1 ≤ v ∧ v ≤ 250)
  | .retries => decide (v ≤ 3)
  | .silentThreshold => decide (1 ≤ v ∧ v ≤ 15)
  | .probeInterval => decide (1 ≤ v ∧ v ≤ 600)
  | .drainLimit => decide (10 ≤ v ∧ v ≤ 5000)

def timingParamOf (b : Byte) : Option TimingParam :=
  match b.toNat with
  | 1 => some .replyTimeout
  | 2 => some .retries
  | 3 => some .silentThreshold
  | 4 => some .probeInterval
  | 5 => some .drainLimit
  | _ => none

/-- The arguments of SET_TIMING (R160). -/
def parseTiming : List Byte → Option (TimingParam × Nat)
  | [id, v1, v0] => do
    let p ← timingParamOf id
    if timingInRange p (wordOf v1 v0).toNat then some (p, (wordOf v1 v0).toNat) else none
  | _ => none

/-! ### Data layouts (R14) -/

def policyCode : ChangePolicy → Byte
  | .drop => 0
  | .forward => 1
  | .deadband _ _ => 2

/-- Deadband and refresh read 0 without DEADBAND (R14). -/
def policyLimit : ChangePolicy → Word
  | .drop => 0
  | .forward => 0
  | .deadband limit _ => limit

def policyRefresh : ChangePolicy → Word
  | .drop => 0
  | .forward => 0
  | .deadband _ refresh => refresh

/-- The 17 bytes after the entry index in the WRITE_MAP argument order. -/
def mapFieldBytes (e : MapEntry) : List Byte :=
  [e.station] ++ wordBytes e.first ++ wordBytes e.last ++ [segmentCode e.seg, addrByte e.phys] ++ wordBytes e.base
    ++ [accessCode e.access, refCode e.downEdit, refCode e.upEdit, policyCode e.policy]
    ++ wordBytes (policyLimit e.policy) ++ wordBytes (policyRefresh e.policy)

/-- READ_MAP data: index, valid, and the fields, all 0 for an invalid entry (R14). -/
def mapData (ix : MapIx) : Option MapEntry → List Byte
  | some e => [byteOf ix.val, 1] ++ mapFieldBytes e
  | none => [byteOf ix.val, 0] ++ List.replicate 17 0

def stepBytes (st : EditStep) : List Byte :=
  [stepOpCode st.op, guardCode st.guard] ++ wordBytes st.a ++ wordBytes st.b

/-- READ_EDIT data: index, defined, and the WRITE_EDIT bytes; all 0 with k 0 for an undefined record (R14). -/
def editData (ix : EditIx) : Option EditRecord → List Byte
  | some r =>
    [byteOf ix.val, 1, typeCode r.inType, typeCode r.outType, overflowCode r.overflow, missCode r.miss,
      byteOf r.steps.length] ++ r.steps.flatMap stepBytes
  | none => [byteOf ix.val, 0, 0, 0, 0, 0, 0]

/-- READ_STATION data (R14, R114). -/
def stationData (k : Segment) (a : StationAddr) (r : Station) : List Byte :=
  [segmentCode k, addrByte a, healthCode r.health, byteOf r.failures,
    match r.activeSlot with
    | some i => byteOf i.val
    | none => 255,
    byteOf r.held.length, boolCode (decide (r.dueTimer ≠ .stopped)), boolCode r.due]

/-- READ_SLOT data (R14, R158). -/
def slotData (i : SlotIx) (x : Slot) : List Byte :=
  [byteOf i.val, slotStateCode x.state]
    ++ (if x.state = .free then List.replicate 15 0
        else [x.ctrlAddr, x.ctrlTag, x.logStation] ++ wordBytes x.logIndex ++ [x.count, opCode x.op, segmentCode x.seg,
          addrByte x.station] ++ wordBytes x.physIndex ++ [refCode x.upEdit] ++ wordBytes x.generation
          ++ [byteOf x.retriesLeft])
    ++ [byteOf x.cur.val, byteOf x.next.val]
    ++ [match x.state, x.built with
        | .replyReady, some b => replyStatusCode b.status
        | _, _ => 255]

def portCounterBytes (p : PortCounters) : List Byte :=
  countBytes p.received ++ countBytes p.checkErrors ++ countBytes p.malformed ++ countBytes p.transmitted

def trafficCounterBytes (t : TrafficCounters) : List Byte :=
  countBytes t.admitted ++ countBytes t.refused ++ countBytes t.discarded ++ countBytes t.changesForwarded
    ++ countBytes t.changesSuppressed ++ countBytes t.changesDropped ++ countBytes t.changesUnmapped
    ++ countBytes t.mgmtDiscarded

def segmentCounterBytes (c : SegmentCounters) : List Byte :=
  countBytes c.retries ++ countBytes c.finalTimeouts ++ countBytes c.staleReplies

/-- The counters of one group in the order of section 1.8. -/
def counterData (c : Counters) : CounterGroup → List Byte
  | .port => portCounterBytes c.portU ++ portCounterBytes c.portS0 ++ portCounterBytes c.portS1
  | .traffic => trafficCounterBytes c.traffic
  | .segment => segmentCounterBytes c.seg0 ++ segmentCounterBytes c.seg1

/-! ### Form conditions of telegrams (R2, R5, R6) -/

/-- R2: the block is 8 to 64 bytes, so the bytes from byte 4 up to the check are 2 to 58. -/
def requestLengthOk (rest : List Byte) : Bool :=
  decide (2 ≤ rest.length ∧ rest.length ≤ 58)

/-- The form conditions of a REPLY (R6). -/
def replyFormOk (status count : Byte) (values : List Word) : Bool :=
  if status = 0 then
    decide (1 ≤ count.toNat ∧ count.toNat ≤ 8) && (values.isEmpty || decide (values.length = count.toNat))
  else
    decide (count = 0) && values.isEmpty

/-- R5: the argument length is 0-32. -/
def argsOk (args : List Byte) : Bool :=
  decide (args.length ≤ Config.maxArgs)

/-- R155: the command codes 1 to 19 are known. -/
def knownCode (code : Byte) : Bool :=
  decide (1 ≤ code.toNat ∧ code.toNat ≤ 19)

end Sys2Proof.Machine
end

