-- ==== Sys2Proof/WellFormed.lean ====
section
/-! DEFINITION. Which commands a port can hand over: the length limits of R2 and the form conditions of R5 and R6
(the conditions themselves stand in Machine/Operands.lean, where the ports use them).
The meanings do not assume this: a term that breaks a form is the block its port discards (log entry 9). -/

namespace Sys2Proof

open Sys2Proof.Machine

/-- A command its row describes and, for a telegram, its port hands over. -/
def Instr.wellFormed : Instr → Bool
  | .pinResetAssert => true
  | .pinResetRelease _ _ => true
  | .framingDiscard _ _ => true
  | .s1AbsentDiscard _ => true
  | .request _ _ _ rest => requestLengthOk rest
  | .reply _ _ _ _ status _ count values => replyFormOk status count values
  | .change _ _ _ _ _ _ => true
  | .segmentTransmissionEnd _ => true
  | .portUTransmissionEnd => true
  | .slotDeadlineExpiry _ => true
  | .probeDueExpiry _ _ => true
  | .probeDeadlineExpiry _ => true
  | .refreshCountdownExpiry station _ => decide (station.toNat ≤ 239)
  | .drainExpiry => true
  | .sync _ _ args => argsOk args
  | .readInfo _ _ args => argsOk args
  | .setTiming _ _ args => argsOk args
  | .writeMap _ _ args => argsOk args
  | .clearMap _ _ args => argsOk args
  | .writeEdit _ _ args => argsOk args
  | .clearEdit _ _ args => argsOk args
  | .writePage _ _ args => argsOk args
  | .readMap _ _ args => argsOk args
  | .readEdit _ _ args => argsOk args
  | .readPage _ _ args => argsOk args
  | .copyBank _ _ args => argsOk args
  | .commit _ _ args => argsOk args
  | .abortCommit _ _ args => argsOk args
  | .readStation _ _ args => argsOk args
  | .resetStation _ _ args => argsOk args
  | .readSlot _ _ args => argsOk args
  | .readCounters _ _ args => argsOk args
  | .restart _ _ args => argsOk args
  | .unknownCommand code _ _ args => !knownCode code && argsOk args

end Sys2Proof
end

