-- ==== Sys2Proof/Decode.lean ====
section
/-! DEFINITION. The command a word of the table spells. No row of spec/opcode_table.json gives bits (every row's
`fields` is empty and none has a pattern), so no word spells a command; the bytes a port receives are decoded in
Machine/Framing.lean. -/

namespace Sys2Proof

/-- No row of the table gives bits: every word is turned away. -/
def decodeTableWord (_nbits _w : Nat) : Option Instr := none

end Sys2Proof
end

