-- ==== Sys2Proof/Machine/Flags.lean ====
section
/-! DEFINITION. The four flags of the Edit Engine and the guards that read them (R40, R43). -/

namespace Sys2Proof.Machine

/-- Z and N describe the last executed step; V and M are sticky (R40). -/
structure EditFlags where
  z : Bool
  n : Bool
  v : Bool
  m : Bool
  deriving DecidableEq, Repr

/-- At the start of each value all four flags are clear (R40). -/
def EditFlags.start : EditFlags := ⟨false, false, false, false⟩

/-- Each executed step sets Z and N afresh from its result (R40). -/
def EditFlags.fromResult (f : EditFlags) (w : Int) : EditFlags :=
  { f with z := decide (w = 0), n := decide (w < 0) }

/-- V, once set, stays set (R40). -/
def EditFlags.raiseV (f : EditFlags) (on : Bool) : EditFlags := { f with v := f.v || on }

/-- M, once set, stays set (R40). -/
def EditFlags.raiseM (f : EditFlags) (on : Bool) : EditFlags := { f with m := f.m || on }

/-- When a step executes (R43). -/
def Guard.passes (g : Guard) (f : EditFlags) : Bool :=
  match g with
  | .always => true
  | .ifZ => f.z
  | .ifNZ => !f.z
  | .ifN => f.n
  | .ifNN => !f.n
  | .ifV => f.v
  | .ifM => f.m

end Sys2Proof.Machine
end

