-- ==== Sys2Proof/Machine/EditEngine.lean ====
section
/-! DEFINITION. The Edit Engine (chapter 3): one application to one word, and the values of one telegram. -/

namespace Sys2Proof.Machine

/-- The working value, an exact integer, and its flags (R40). -/
structure Working where
  w : Int
  flags : EditFlags
  deriving DecidableEq, Repr

/-! ### Input (R41, R42) -/

/-- The hexadecimal digit of a word at a place, 0 the units. -/
def hexDigit (word : Word) (place : Nat) : Nat := word.toNat / 16 ^ place % 16

def allDigitsDecimal (word : Word) : Bool :=
  decide (hexDigit word 3 ≤ 9 ∧ hexDigit word 2 ≤ 9 ∧ hexDigit word 1 ≤ 9 ∧ hexDigit word 0 ≤ 9)

/-- The number four packed-decimal digits write (R42). -/
def decimalValue (word : Word) : Nat :=
  1000 * hexDigit word 3 + 100 * hexDigit word 2 + 10 * hexDigit word 1 + hexDigit word 0

/-- How the input word enters W (R41, R42): a bad packed-decimal digit gives 0 and sets V. -/
def takeInput (t : ValueType) (word : Word) : Working :=
  match t with
  | .unsigned => { w := (word.toNat : Int), flags := .start }
  | .signed => { w := word.toInt, flags := .start }
  | .decimal =>
    if allDigitsDecimal word then { w := (decimalValue word : Int), flags := .start }
    else { w := 0, flags := EditFlags.start.raiseV true }

/-! ### Steps (R43 to R48) -/

/-- The largest integer not above p / 2^s (R45). -/
def scaleFloor (p : Int) (s : Nat) : Int := p / 2 ^ s

/-- The integer nearest p / 2^s for p at or above 0, halves upward. -/
def nearestUp (p : Int) (s : Nat) : Int := (2 * p + 2 ^ s) / 2 ^ (s + 1)

/-- The integer nearest p / 2^s, halves away from zero (R45). -/
def scaleNearest (p : Int) (s : Nat) : Int :=
  if 0 ≤ p then nearestUp p s else -(nearestUp (-p) s)

/-- SCALE: b of 0-15 rounds down, b of 256-271 rounds to nearest (R45). Other b cannot be stored (R26, log entry 14). -/
def scaleValue (w : Int) (a b : Word) : Int :=
  if b.toNat < 256 then scaleFloor (w * a.toInt) b.toNat
  else scaleNearest (w * a.toInt) (b.toNat - 256)

def inWord (w : Int) : Bool := decide (0 ≤ w ∧ w ≤ 65535)

/-- The reduction the bit operations make first: the remainder modulo 65536 (R46). -/
def reduceWord (w : Int) : Word := BitVec.ofInt 16 w

/-- A page's output word, or its default word outside 0-63 (R47). -/
def pageWord (p : Page) (w : Int) : Word :=
  if h : 0 ≤ w ∧ w ≤ 63 then p.words[w.toNat]'(by omega) else p.dflt

/-- The page a TRANSLATE step names; a stored page number is 0-7 (R26, log entry 14). -/
def stepPage (bank : Bank) (a : Word) : Page := bank.pages[a.toNat % 8]'(Nat.mod_lt _ (by decide))

/-- LIMIT (R48). -/
def limitValue (w lo hi : Int) : Int := if w < lo then lo else if hi < w then hi else w

/-- The result of one executed step, before Z and N are set (R44 to R48). -/
def stepResult (bank : Bank) (st : EditStep) (x : Working) : Working :=
  match st.op with
  | .add => { x with w := x.w + st.a.toInt }
  | .scale => { x with w := scaleValue x.w st.a st.b }
  | .setBits => { w := ((reduceWord x.w ||| st.a).toNat : Int), flags := x.flags.raiseV (!inWord x.w) }
  | .clearBits => { w := ((reduceWord x.w &&& ~~~st.a).toNat : Int), flags := x.flags.raiseV (!inWord x.w) }
  | .flipBits => { w := ((reduceWord x.w ^^^ st.a).toNat : Int), flags := x.flags.raiseV (!inWord x.w) }
  | .translate =>
    { w := ((pageWord (stepPage bank st.a) x.w).toNat : Int),
      flags := x.flags.raiseM (!decide (0 ≤ x.w ∧ x.w ≤ 63)) }
  | .limit => { x with w := limitValue x.w st.a.toInt st.b.toInt }

/-- One visit of a step: skipped, or executed with Z and N set from its result (R43). -/
def visitStep (bank : Bank) (x : Working) (st : EditStep) : Working :=
  if st.guard.passes x.flags then
    let y := stepResult bank st x
    { y with flags := y.flags.fromResult y.w }
  else x

/-- The steps are visited in list order (R43). -/
def runSteps (bank : Bank) (steps : List EditStep) (x : Working) : Working :=
  steps.foldl (visitStep bank) x

/-! ### Output and verdict (R49, R50) -/

/-- The range of W an output type admits (R49). -/
def outputLow : ValueType → Int
  | .unsigned => 0
  | .signed => -32768
  | .decimal => 0

def outputHigh : ValueType → Int
  | .unsigned => 65535
  | .signed => 32767
  | .decimal => 9999

/-- Four packed-decimal digits (R49). -/
def packDecimal (n : Nat) : Word :=
  BitVec.ofNat 16 (4096 * (n / 1000 % 10) + 256 * (n / 100 % 10) + 16 * (n / 10 % 10) + n % 10)

def encodeOutput (t : ValueType) (w : Int) : Word :=
  match t with
  | .unsigned => BitVec.ofInt 16 w
  | .signed => BitVec.ofInt 16 w
  | .decimal => packDecimal w.toNat

/-- The output bounding: V is set and W replaced by the nearer bound when it lies outside (R49). -/
def boundOutput (t : ValueType) (x : Working) : Working :=
  { w := limitValue x.w (outputLow t) (outputHigh t),
    flags := x.flags.raiseV (!decide (outputLow t ≤ x.w ∧ x.w ≤ outputHigh t)) }

/-- The verdict (R50). -/
def verdictRejects (r : EditRecord) (f : EditFlags) : Bool :=
  (f.v && decide (r.overflow = .reject)) || (f.m && decide (r.miss = .reject))

/-- One application: an output word, or `none` for a reject (R38). -/
def applyRecord (bank : Bank) (r : EditRecord) (word : Word) : Option Word :=
  let x := boundOutput r.outType (runSteps bank r.steps (takeInput r.inType word))
  if verdictRejects r x.flags then none else some (encodeOutput r.outType x.w)

/-! ### Telegrams of several values (R51, R52) -/

/-- The fields of an undefined record, all 0 with no steps (R25); no edit of a valid bank names one (log entry 14). -/
def EditRecord.undefinedFields : EditRecord :=
  { inType := .unsigned, outType := .unsigned, overflow := .saturate, miss := .useDefault, steps := [] }

/-- The record an edit reference names in a bank (R36). -/
def Bank.record (bank : Bank) (e : EditIx) : EditRecord := bank.edits[e].getD EditRecord.undefinedFields

/-- The values of a telegram through an optional edit: unchanged when it is absent (R51), else each value by its own
application, rejected as a whole at the first reject (R52). -/
def editValues (bank : Bank) (edit : Option EditIx) (values : List Word) : Option (List Word) :=
  match edit with
  | none => some values
  | some e => values.mapM (applyRecord bank (bank.record e))

/-- How the deadband compare reads a word (R53, R128). -/
def compareReading (bank : Bank) (edit : Option EditIx) (word : Word) : Int :=
  match edit with
  | none => (word.toNat : Int)
  | some e =>
    match (bank.record e).outType with
    | .signed => word.toInt
    | .unsigned => (word.toNat : Int)
    | .decimal => (word.toNat : Int)

/-- The magnitude of the difference of two words (R128). -/
def valueDifference (bank : Bank) (edit : Option EditIx) (new last : Word) : Nat :=
  (compareReading bank edit new - compareReading bank edit last).natAbs

end Sys2Proof.Machine
end

