-- ==== Sys2Proof/Machine/Banks.lean ====
section
/-! DEFINITION. The Bank Store (chapter 2): roles, shadow writes, validity examination, lookups, swap. -/

namespace Sys2Proof.Machine

/-! ### Roles (R19, R37) -/

def BankId.other : BankId → BankId
  | .a => .b
  | .b => .a

/-- The bank that serves live traffic (R19). -/
def BankStore.activeBank (st : BankStore) : Bank :=
  match st.active with
  | .a => st.bankA
  | .b => st.bankB

/-- The bank that is not active (R19). -/
def BankStore.shadowBank (st : BankStore) : Bank :=
  match st.active with
  | .a => st.bankB
  | .b => st.bankA

def BankStore.ofRole (st : BankStore) : BankRole → Bank
  | .active => st.activeBank
  | .shadow => st.shadowBank

/-- Every configuration write reaches the shadow (R19). -/
def BankStore.setShadow (st : BankStore) (b : Bank) : BankStore :=
  match st.active with
  | .a => { st with bankB := b }
  | .b => { st with bankA := b }

/-- The next generation, modulo 65536 (R20). -/
def BankStore.nextGeneration (st : BankStore) : Word := st.generation + 1

/-- The swap: the role marker names the other bank, the generation advances, no contents change (R37). -/
def BankStore.swap (st : BankStore) : BankStore :=
  { st with active := st.active.other, generation := st.nextGeneration }

/-! ### Items of a bank -/

def Bank.entry (b : Bank) (ix : MapIx) : Option MapEntry := b.map[ix]

def Bank.setEntry (b : Bank) (ix : MapIx) (e : Option MapEntry) : Bank := { b with map := b.map.set ix e }

def Bank.setRecord (b : Bank) (ix : EditIx) (r : Option EditRecord) : Bank := { b with edits := b.edits.set ix r }

def Bank.page (b : Bank) (ix : PageIx) : Page := b.pages[ix]

def Bank.setPage (b : Bank) (ix : PageIx) (p : Page) : Bank := { b with pages := b.pages.set ix p }

/-- Words stored into inputs `first`, `first + 1`, and so on; the others keep their values (R28). -/
def Page.writeWords (p : Page) (first : Nat) : List Word → Page
  | [] => p
  | w :: ws =>
    Page.writeWords { p with words := p.words.setIfInBounds first w } (first + 1) ws

/-- What WRITE_PAGE does to a page (R28). -/
def Page.write (p : Page) (target : PageTarget) (ws : List Word) : Page :=
  match target with
  | .words first => p.writeWords first ws
  | .dflt =>
    match ws with
    | w :: _ => { p with dflt := w }
    | [] => p

/-- What READ_PAGE reads of a page (R29): `count` words from `first`, or the default word. -/
def Page.read (p : Page) (target : PageTarget) (count : Nat) : List Word :=
  match target with
  | .words first => (p.words.toList.drop first).take count
  | .dflt => [p.dflt]

/-- READ_PAGE data: page, first entry, word count and the words (R14). -/
def pageData (ix : PageIx) (first w : Byte) (ws : List Word) : List Byte :=
  [byteOf ix.val, first, w] ++ wordsBytes ws

/-! ### Ranges of an entry (R22) -/

def MapEntry.containsLogical (e : MapEntry) (x : Nat) : Bool := decide (e.first.toNat ≤ x ∧ x ≤ e.last.toNat)

/-- The last physical index, base + (last - first). -/
def MapEntry.physLast (e : MapEntry) : Nat := e.base.toNat + (e.last.toNat - e.first.toNat)

def MapEntry.containsPhysical (e : MapEntry) (y : Nat) : Bool := decide (e.base.toNat ≤ y ∧ y ≤ e.physLast)

/-- The physical index of a logical index: base + (x - first) (R22). -/
def MapEntry.toPhysical (e : MapEntry) (x : Word) : Word := e.base + (x - e.first)

/-- The logical index of a physical index: first + (y - base) (R22). -/
def MapEntry.toLogical (e : MapEntry) (y : Word) : Word := e.first + (y - e.base)

/-! ### Validity conditions (R31, R32) -/

/-- Two ranges overlap when p ≤ q' and p' ≤ q (R31). -/
def rangesOverlap (p q p' q' : Nat) : Bool := decide (p ≤ q' ∧ p' ≤ q)

/-- Condition (a) between two entries. -/
def overlapLogical (e f : MapEntry) : Bool :=
  decide (e.station = f.station) && rangesOverlap e.first.toNat e.last.toNat f.first.toNat f.last.toNat

/-- Condition (b) between two entries. -/
def overlapPhysical (e f : MapEntry) : Bool :=
  decide (e.seg = f.seg ∧ e.phys = f.phys) && rangesOverlap e.base.toNat e.physLast f.base.toNat f.physLast

/-- The valid entries below an index. -/
def Bank.lowerEntries (b : Bank) (ix : MapIx) : List MapEntry := (b.map.toList.take ix.val).filterMap id

/-- An edit reference that names an undefined record (condition (c)). -/
def Bank.undefinedRef (b : Bank) (edit : Option EditIx) : Bool :=
  match edit with
  | none => false
  | some e => b.edits[e].isNone

/-- The validity reason codes (section 1.8). -/
inductive ValidityReason where
  | overlapLogical
  | overlapPhysical
  | undefinedEdit
  | segmentAbsent
  deriving DecidableEq, Repr

def validityReasonCode : ValidityReason → Byte
  | .overlapLogical => 1
  | .overlapPhysical => 2
  | .undefinedEdit => 3
  | .segmentAbsent => 4

/-- The tests of one visited entry, (a) then (b) then (c) then (d) (R32). -/
def Bank.entryFault (b : Bank) (s1Present : Bool) (ix : MapIx) (e : MapEntry) : Option ValidityReason :=
  if (b.lowerEntries ix).any (overlapLogical e) then some .overlapLogical
  else if (b.lowerEntries ix).any (overlapPhysical e) then some .overlapPhysical
  else if b.undefinedRef e.downEdit || b.undefinedRef e.upEdit then some .undefinedEdit
  else if decide (e.seg = .s1) && !s1Present then some .segmentAbsent
  else none

/-- A visit of one index: invalid entries are skipped (R32). -/
def Bank.visitFault (b : Bank) (s1Present : Bool) (ix : MapIx) : Option (ValidityReason × MapIx) :=
  match b.entry ix with
  | none => none
  | some e => (b.entryFault s1Present ix e).map (·, ix)

/-- The examination in increasing index order, ended by the first fault (R32). -/
def Bank.examine (b : Bank) (s1Present : Bool) : Option (ValidityReason × MapIx) :=
  (List.finRange 128).findSome? (b.visitFault s1Present)

/-- The bank satisfies conditions (a) to (d) (R31). -/
def Bank.valid (b : Bank) (s1Present : Bool) : Bool := (b.examine s1Present).isNone

/-! ### Lookups (R34, R35) -/

def Bank.entries (b : Bank) : List MapEntry := b.map.toList.filterMap id

/-- The forward lookup of R34: the valid entry whose logical station is `station` and whose range contains `x`, with
the whole range of `count` objects inside it. -/
def Bank.forward (b : Bank) (station : Byte) (x : Word) (count : Nat) : Option MapEntry :=
  match b.entries.find? (fun e => decide (e.station = station) && e.containsLogical x.toNat) with
  | some e => if x.toNat + count - 1 ≤ e.last.toNat then some e else none
  | none => none

/-- The reverse lookup of R35. A source that names no station finds no entry (R121). -/
def Bank.reverse (b : Bank) (k : Segment) (src : Byte) (y : Word) : Option MapEntry :=
  b.entries.find? (fun e => decide (e.seg = k ∧ addrByte e.phys = src) && e.containsPhysical y.toNat)

end Sys2Proof.Machine
end

