-- ==== Sys2Proof/Machine/Framing.lean ====
section
/-! DEFINITION. The framers (R1, R2, R7) and the form checks of the ports (R4, R5, R6): what becomes of a block whose
closing delimiter arrives, and the block a transmitter sends for a body. -/

namespace Sys2Proof.Machine

/-! ### The check (R1) -/

/-- One bit into the check register, generator x^16 + x^12 + x^5 + 1. -/
def checkBit (reg : Word) (bit : Bool) : Word :=
  if reg.msb != bit then (reg <<< 1) ^^^ 0x1021 else reg <<< 1

/-- One byte, most significant bit first. -/
def checkByte (reg : Word) (b : Byte) : Word :=
  [7, 6, 5, 4, 3, 2, 1, 0].foldl (fun r i => checkBit r (b.getLsbD i)) reg

/-- The check over a body: the register starts at FFFFh and is not inverted at the end (R1). -/
def check (body : List Byte) : Word := body.foldl checkByte 0xFFFF

/-- What a transmitter sends for a body: the body and its check, high-order byte first (R1). -/
def withCheck (body : List Byte) : List Byte := body ++ wordBytes (check body)

/-- The blocks on the wires. -/
def Telegram.block (t : Telegram) : List Byte := withCheck t.body

def UpTelegram.block (t : UpTelegram) : List Byte := withCheck t.body

/-! ### The framer (R2) -/

/-- What a framer holds of a block at its closing delimiter: its length, and at most its first 64 bytes (R2). -/
structure Framed where
  length : Nat
  stored : List Byte
  deriving DecidableEq, Repr

def framed (block : List Byte) : Framed := { length := block.length, stored := block.take Config.maxBlock }

/-- The body of a stored block: every byte before the check. -/
def Framed.body (f : Framed) : List Byte := f.stored.take (f.length - 2)

/-- The last two bytes, high-order byte first. -/
def Framed.checkBytes (f : Framed) : List Byte := f.stored.drop (f.length - 2)

/-- The kinds a port accepts (R2, test 3). -/
def kindAccepted (p : Port) (kind : Byte) : Bool :=
  match p with
  | .u => decide (kind = kindRequest ∨ kind = kindMgmt)
  | .s0 => decide (kind = kindReply ∨ kind = kindChange)
  | .s1 => decide (kind = kindReply ∨ kind = kindChange)

/-- What the framer makes of a block: a body that passed, or the counter of the first test that failed (R2). -/
inductive FrameResult where
  | passed (body : List Byte)
  | malformed
  | checkError
  deriving DecidableEq, Repr

def examineFramed (p : Port) (f : Framed) : FrameResult :=
  if Config.minBlock ≤ f.length ∧ f.length ≤ Config.maxBlock then
    if f.checkBytes = wordBytes (check f.body) then
      if kindAccepted p (f.body.headD 0) then .passed f.body else .malformed
    else .checkError
  else .malformed

/-! ### Form checks and handing over (R4, R5, R6) -/

/-- A telegram a port hands to its taker, or the counter the block increments (R18). -/
inductive Delivery where
  | malformed
  | checkError
  | request (dst src tag : Byte) (rest : List Byte)
  | mgmt (src seq code : Byte) (args : List Byte)
  | reply (k : Segment) (dst src tag status : Byte) (index : Word) (count : Byte) (values : List Word)
  | change (k : Segment) (dst src tag : Byte) (index value : Word)
  deriving DecidableEq, Repr

/-- Port U: a REQUEST is handed over whatever its form (R4); a MGMT only when its argument length is 0-32 and agrees
with the block, and its destination is the own address (R5). -/
def formU (own : Byte) (body : List Byte) : Delivery :=
  match body with
  | kind :: dst :: src :: b3 :: rest =>
    if kind = kindRequest then .request dst src b3 rest
    else
      match rest with
      | code :: n :: args =>
        if args.length = n.toNat ∧ n.toNat ≤ Config.maxArgs ∧ dst = own then .mgmt src b3 code args else .malformed
      | _ => .malformed
  | _ => .malformed

/-- Ports S0 and S1: the form conditions of R6. -/
def formS (k : Segment) (body : List Byte) : Delivery :=
  match body with
  | kind :: dst :: src :: tag :: st :: i1 :: i0 :: count :: vs =>
    if kind = kindReply then
      match wordsOf vs with
      | some values =>
        if replyFormOk st count values then .reply k dst src tag st (wordOf i1 i0) count values else .malformed
      | none => .malformed
    else
      match vs with
      | [v1, v0] =>
        if st = 0 ∧ count = 1 then .change k dst src tag (wordOf i1 i0) (wordOf v1 v0) else .malformed
      | _ => .malformed
  | _ => .malformed

def formCheck (own : Byte) (p : Port) (body : List Byte) : Delivery :=
  match p with
  | .u => formU own body
  | .s0 => formS .s0 body
  | .s1 => formS .s1 body

/-- What becomes of a block at its closing delimiter (R2 to R7). While S1 is absent its blocks are untested (R7). -/
def receive (own : Byte) (s1Present : Bool) (p : Port) (block : List Byte) : Delivery :=
  if p = .s1 ∧ s1Present = false then .malformed
  else
    match examineFramed p (framed block) with
    | .passed body => formCheck own p body
    | .malformed => .malformed
    | .checkError => .checkError

end Sys2Proof.Machine
end

