-- ==== Sys2Proof/Machine/Ops.lean ====
section
/-! DEFINITION. The named operations every taking is made of: access to slots, segments and stations, the counters, and
the Upstream Transmitter's queues, notices and arbiter (chapters 5, 6, 8, 11). An operation takes the state last. -/

namespace Sys2Proof.Machine

/-! ### Access -/

def State.seg (s : State) : Segment → SegState
  | .s0 => s.seg0
  | .s1 => s.seg1

def State.setSeg (s : State) (k : Segment) (x : SegState) : State :=
  match k with
  | .s0 => { s with seg0 := x }
  | .s1 => { s with seg1 := x }

def State.slot (s : State) (i : SlotIx) : Slot := s.slots[i]

def State.setSlot (s : State) (i : SlotIx) (x : Slot) : State := { s with slots := s.slots.set i x }

def State.station (s : State) (k : Segment) (a : StationAddr) : Station := (s.seg k).stations[a]

def State.setStation (s : State) (k : Segment) (a : StationAddr) (r : Station) : State :=
  s.setSeg k { s.seg k with stations := (s.seg k).stations.set a r }

/-- The port of a segment is in service (R7). -/
def State.inService (s : State) : Segment → Bool
  | .s0 => true
  | .s1 => s.s1Present

/-- Slots in use: those not FREE (R157). -/
def State.slotsInUse (s : State) : Nat := s.slots.toList.countP (fun x => decide (x.state ≠ .free))

/-- The lowest-numbered FREE slot (R63). -/
def State.freeSlot? (s : State) : Option SlotIx :=
  (List.finRange 32).find? (fun i => decide ((s.slot i).state = .free))

/-- The transmission record of port U as R140 gives it. -/
def State.upRecord (s : State) : UpRecord :=
  match s.up.sending with
  | none => .none
  | some (.mgmt r) => .outbox r.code r.status
  | some (.notice _) => .notice
  | some (.traffic _) => .traffic

/-- A timer started with a load of some milliseconds (R180). -/
def startTimer (ms : Nat) : Timer := .running ms

/-- Units of 100 ms in milliseconds (00, "Time"). -/
def unitsMs (units : Nat) : Nat := units * 100

def Timer.isRunning (t : Timer) : Bool :=
  match t with
  | .stopped => false
  | .running _ => true

/-! ### Counters (R185) -/

/-- One occurrence: a counter at 4294967295 stays there. -/
def bump (c : Count) : Count := if c = BitVec.allOnes 32 then c else c + 1

def Counters.port (c : Counters) : Port → PortCounters
  | .u => c.portU
  | .s0 => c.portS0
  | .s1 => c.portS1

def Counters.setPort (c : Counters) (p : Port) (x : PortCounters) : Counters :=
  match p with
  | .u => { c with portU := x }
  | .s0 => { c with portS0 := x }
  | .s1 => { c with portS1 := x }

def Counters.seg (c : Counters) : Segment → SegmentCounters
  | .s0 => c.seg0
  | .s1 => c.seg1

def Counters.setSeg (c : Counters) (k : Segment) (x : SegmentCounters) : Counters :=
  match k with
  | .s0 => { c with seg0 := x }
  | .s1 => { c with seg1 := x }

def State.setCounters (s : State) (c : Counters) : State := { s with counters := c }

def countReceived (p : Port) (s : State) : State :=
  s.setCounters (s.counters.setPort p { s.counters.port p with received := bump (s.counters.port p).received })

def countCheckError (p : Port) (s : State) : State :=
  s.setCounters (s.counters.setPort p { s.counters.port p with checkErrors := bump (s.counters.port p).checkErrors })

def countMalformed (p : Port) (s : State) : State :=
  s.setCounters (s.counters.setPort p { s.counters.port p with malformed := bump (s.counters.port p).malformed })

def countTransmitted (p : Port) (s : State) : State :=
  s.setCounters (s.counters.setPort p { s.counters.port p with transmitted := bump (s.counters.port p).transmitted })

def State.setTrafficCounters (s : State) (t : TrafficCounters) : State :=
  s.setCounters { s.counters with traffic := t }

def countAdmitted (s : State) : State :=
  s.setTrafficCounters { s.counters.traffic with admitted := bump s.counters.traffic.admitted }

def countRefused (s : State) : State :=
  s.setTrafficCounters { s.counters.traffic with refused := bump s.counters.traffic.refused }

def countDiscarded (s : State) : State :=
  s.setTrafficCounters { s.counters.traffic with discarded := bump s.counters.traffic.discarded }

def countChangeForwarded (s : State) : State :=
  s.setTrafficCounters { s.counters.traffic with changesForwarded := bump s.counters.traffic.changesForwarded }

def countChangeSuppressed (s : State) : State :=
  s.setTrafficCounters { s.counters.traffic with changesSuppressed := bump s.counters.traffic.changesSuppressed }

def countChangeDropped (s : State) : State :=
  s.setTrafficCounters { s.counters.traffic with changesDropped := bump s.counters.traffic.changesDropped }

def countChangeUnmapped (s : State) : State :=
  s.setTrafficCounters { s.counters.traffic with changesUnmapped := bump s.counters.traffic.changesUnmapped }

def countMgmtDiscarded (s : State) : State :=
  s.setTrafficCounters { s.counters.traffic with mgmtDiscarded := bump s.counters.traffic.mgmtDiscarded }

def countRetry (k : Segment) (s : State) : State :=
  s.setCounters (s.counters.setSeg k { s.counters.seg k with retries := bump (s.counters.seg k).retries })

def countFinalTimeout (k : Segment) (s : State) : State :=
  s.setCounters (s.counters.setSeg k { s.counters.seg k with finalTimeouts := bump (s.counters.seg k).finalTimeouts })

def countStaleReply (k : Segment) (s : State) : State :=
  s.setCounters (s.counters.setSeg k { s.counters.seg k with staleReplies := bump (s.counters.seg k).staleReplies })

/-- Every counter of one group set to 0 (R159, R186). -/
def Counters.clearGroup (c : Counters) : CounterGroup → Counters
  | .port => { c with portU := .zero, portS0 := .zero, portS1 := .zero }
  | .traffic => { c with traffic := .zero }
  | .segment => { c with seg0 := .zero, seg1 := .zero }

/-! ### Upstream queues (R135, R136, R138) -/

def State.setUp (s : State) (u : Upstream) : State := { s with up := u }

/-- The Traffic Queue takes an offer: fewer than 24 telegrams and an empty Reply Wait List (R135). -/
def State.trafficHasRoom (s : State) : Bool :=
  decide (s.up.traffic.length < Config.trafficCapacity) && s.up.waitList.isEmpty

def enterTraffic (t : Telegram) (s : State) : State := s.setUp { s.up with traffic := s.up.traffic ++ [t] }

def joinWaitList (i : SlotIx) (s : State) : State := s.setUp { s.up with waitList := s.up.waitList ++ [i] }

/-- A slot becomes FREE: every field cleared but its two transmission numbers (R93). -/
def clearSlot (i : SlotIx) (s : State) : State := s.setSlot i (Slot.cleared (s.slot i).cur (s.slot i).next)

/-- The REPLY built for a slot (R91). -/
def slotReply (x : Slot) : Telegram :=
  let b := x.built.getD { status := .ok, values := [] }
  { kind := kindReply, dst := x.ctrlAddr, src := x.logStation, tag := x.ctrlTag, opStatus := replyStatusCode b.status,
    index := x.logIndex, count := if b.status = .ok then x.count else 0, values := b.values }

/-- A slot's reply enters the Traffic Queue and the slot becomes FREE (R92, R93). -/
def sendUp (i : SlotIx) (s : State) : State := clearSlot i (enterTraffic (slotReply (s.slot i)) s)

/-- The offer of a REPLY_READY slot's reply (R92). -/
def offerReply (i : SlotIx) (s : State) : State :=
  if s.trafficHasRoom then sendUp i s else joinWaitList i s

/-- A slot becomes REPLY_READY with its built reply; it leaves SENT, so its deadline timer stops (R73, R82, R87). -/
def becomeReady (i : SlotIx) (b : BuiltReply) (s : State) : State :=
  s.setSlot i { s.slot i with state := .replyReady, deadline := .stopped, built := some b }

/-- A slot becomes REPLY_READY and its reply is offered in the same taking (R92). -/
def answerSlot (b : BuiltReply) (s : State) (i : SlotIx) : State := offerReply i (becomeReady i b s)

/-- Slots answered one at a time, each offer seeing the queues as the ones before left them (R92). -/
def answerAll (status : ReplyStatus) (slots : List SlotIx) (s : State) : State :=
  slots.foldl (answerSlot { status := status, values := [] }) s

/-- A reply enters the tail of the Reply Outbox (R138). -/
def placeReply (r : MgmtReply) (s : State) : State := s.setUp { s.up with outbox := s.up.outbox ++ [r] }

/-! ### Notices (R139) -/

/-- The pending-lost count rises and stays at 255. -/
def bumpLost (b : Byte) : Byte := if b = 255 then b else b + 1

/-- A raised notice is numbered and queued, or lost and counted when the queue holds 16 (R139). -/
def raiseNotice (e : NoticeEvent) (s : State) : State :=
  if s.up.notices.length < Config.noticeCapacity then
    s.setUp { s.up with
      notices := s.up.notices ++
        [{ dst := s.agent.ctrlAddr, src := s.ownAddress, number := s.up.nextNotice, lost := s.up.pendingLost,
           event := e }]
      nextNotice := s.up.nextNotice + 1
      pendingLost := 0 }
  else s.setUp { s.up with pendingLost := bumpLost s.up.pendingLost }

/-! ### The arbiter (R140, R141) -/

/-- The control sources may go: the consecutive-control count is below 4 or the Traffic Queue is empty (R141). -/
def State.controlMayGo (s : State) : Bool :=
  decide (s.up.control < Config.controlLimit) || s.up.traffic.isEmpty

/-- The consecutive-control count rises by one and stays at 4 (R141). -/
def bumpControl (n : Nat) : Nat := if n < Config.controlLimit then n + 1 else n

/-- At a Traffic Queue start the head of the Reply Wait List enters the queue and its slot becomes FREE (R136). -/
def moveWaitList (s : State) : State :=
  match s.up.waitList with
  | i :: rest => sendUp i (s.setUp { s.up with waitList := rest })
  | [] => s

/-- The rules 1 to 4 of R141, in order. -/
def arbiterChoice (s : State) : State :=
  match s.controlMayGo, s.up.outbox, s.up.notices, s.up.traffic with
  | true, r :: rest, _, _ =>
    s.setUp { s.up with outbox := rest, control := bumpControl s.up.control, sending := some (.mgmt r) }
  | true, [], n :: rest, _ =>
    s.setUp { s.up with notices := rest, control := bumpControl s.up.control, sending := some (.notice n) }
  | _, _, _, t :: rest =>
    moveWaitList (s.setUp { s.up with traffic := rest, control := 0, sending := some (.traffic t) })
  | _, _, _, [] => s

/-- An arrival at an idle transmitter: the last act of a taking, made only while the record is NONE (R140). -/
def arbiterIfIdle (s : State) : State :=
  match s.up.sending with
  | none => arbiterChoice s
  | some _ => s

/-! ### RESET_N low (R181) -/

/-- While RESET_N is held low no telegram, transmission end or expiry is taken (R180, R181). -/
def whenRunning (f : State → State) (s : State) : Host.Outcome State Fault Refusal :=
  .next (if s.resetHeld then s else f s)

end Sys2Proof.Machine
end

