-- ==== Sys2Proof/Machine/Transactions.lean ====
section
/-! DEFINITION. What the Segment Dispatchers, the Transaction Table, the Station Table and the Commit Controller do
inside a taking (chapters 5, 6 and 10): dispatch, evidence about a station, completion, and the ends of a drain. -/

namespace Sys2Proof.Machine

/-! ### The Segment Dispatcher (R76 to R79, R111) -/

/-- The REQUEST of a slot's transmission (R11). A READ slot holds no write values. -/
def forwardedRequest (own : Byte) (i : SlotIx) (x : Slot) : Telegram :=
  { kind := kindRequest, dst := addrByte x.station, src := own, tag := slotTag x.cur i, opStatus := opCode x.op,
    index := x.physIndex, count := x.count, values := x.writeValues }

/-- The REQUEST of a probe (R11, R111). -/
def probeRequest (own : Byte) (a : StationAddr) : Telegram :=
  { kind := kindRequest, dst := addrByte a, src := own, tag := probeTag a, opStatus := opCode .read, index := 0,
    count := 1, values := [] }

/-- The lowest-addressed SILENT station of a segment whose probe due flag is set (R78). -/
def State.lowestDue (s : State) (k : Segment) : Option StationAddr :=
  (List.finRange 31).find? (fun a => decide ((s.station k a).health = .silent) && (s.station k a).due)

/-- The transmission numbers advance (R79). -/
def advanceNumbers (x : Slot) : Slot := { x with cur := x.next, next := x.next + 1 }

/-- A slot leaves the head of the send queue and becomes SENDING (R79). -/
def startSlot (k : Segment) (i : SlotIx) (rest : List SlotIx) (s : State) : State :=
  let x := { advanceNumbers (s.slot i) with state := .sending }
  (s.setSlot i x).setSeg k
    { s.seg k with queue := rest, record := .slot i (forwardedRequest s.ownAddress i x) }

/-- A probe starts: the station's due flag is cleared and the probe record becomes SENDING (R111). -/
def startProbe (k : Segment) (a : StationAddr) (s : State) : State :=
  let s := s.setStation k a { s.station k a with due := false }
  s.setSeg k { s.seg k with probe := .sending a, record := .probe (probeRequest s.ownAddress a) }

/-- The transmission of the slot at the head of the send queue, or nothing (R78, points 2 and 3). -/
def startQueueHead (k : Segment) (s : State) : State :=
  match (s.seg k).queue with
  | i :: rest => startSlot k i rest s
  | [] => s

/-- The choice of R78, in its order. -/
def dispatcherChoice (k : Segment) (s : State) : State :=
  match (s.seg k).probe, s.lowestDue k with
  | .idle, some a => startProbe k a s
  | _, _ => startQueueHead k s

/-- The dispatcher chooses only with its transmitter FREE and the record NONE; while S1 is absent segment 1 makes no
choice (R7, R78). -/
def dispatchIfIdle (k : Segment) (s : State) : State :=
  match (s.seg k).record with
  | .none => if s.inService k then dispatcherChoice k s else s
  | _ => s

/-- A slot becomes QUEUED at the tail of its segment's send queue, an arrival the dispatcher acts on (R70, R76, R78). -/
def queueSlot (i : SlotIx) (s : State) : State :=
  let x := s.slot i
  let s := s.setSlot i { x with state := .queued, deadline := .stopped }
  dispatchIfIdle x.seg (s.setSeg x.seg { s.seg x.seg with queue := (s.seg x.seg).queue ++ [i] })

/-! ### The Station Table: evidence and release (R94, R96, R104 to R108) -/

/-- A success or a sign of life (R104); from SILENT with the effects of R107. -/
def takeAlive (k : Segment) (a : StationAddr) (s : State) : State :=
  let r := s.station k a
  if r.health = .silent then
    raiseNotice (.stationOnline k a)
      (s.setStation k a { r with health := .online, failures := 0, dueTimer := .stopped, due := false })
  else s.setStation k a { r with health := .online, failures := 0 }

/-- The station's active slot is cleared (R75). -/
def clearActive (k : Segment) (a : StationAddr) (s : State) : State :=
  s.setStation k a { s.station k a with activeSlot := none }

/-- The head of the held list becomes QUEUED and the station's active slot (R94, R95). -/
def releaseHeld (k : Segment) (a : StationAddr) (s : State) : State :=
  match (s.station k a).held with
  | i :: rest => queueSlot i (s.setStation k a { s.station k a with activeSlot := some i, held := rest })
  | [] => s

/-- Silencing (R108): the record turns SILENT with its new failure count, its held list leaves it and its probe-due
timer starts; STATION_SILENT is raised; then the held slots are answered in order from the head (R96). -/
def silenceStation (k : Segment) (a : StationAddr) (failures : Nat) (s : State) : State :=
  let r := s.station k a
  answerAll .stationSilent r.held
    (raiseNotice (.stationSilent k a)
      (s.setStation k a { r with
        health := .silent, failures := failures, held := [], due := false,
        dueTimer := startTimer (unitsMs s.agent.probeInterval) }))

/-- A failure (R106): SUSPECT below the silent threshold, else silenced. -/
def takeFailure (k : Segment) (a : StationAddr) (s : State) : State :=
  let r := s.station k a
  if s.agent.silentThreshold ≤ r.failures + 1 then silenceStation k a (r.failures + 1) s
  else s.setStation k a { r with health := .suspect, failures := r.failures + 1 }

/-! ### Completion of an active slot (R94, R95) -/

/-- The active slot has been answered: success, active slot cleared, held head released (R94). -/
def completeSuccess (k : Segment) (a : StationAddr) (s : State) : State :=
  releaseHeld k a (clearActive k a (takeAlive k a s))

/-- Steps 2 to 5 of R95: nothing is released of a station that has become SILENT, whose held list is empty. -/
def completeFailure (k : Segment) (a : StationAddr) (s : State) : State :=
  releaseHeld k a (takeFailure k a (clearActive k a s))

/-! ### The ends of a drain (R170 to R176) -/

/-- A slot the old-generation count counts (R168). -/
def Slot.countsAsOld (generation : Word) (x : Slot) : Bool :=
  decide (x.generation = generation)
    && decide (x.state = .held ∨ x.state = .queued ∨ x.state = .sending ∨ x.state = .sent)

/-- The old-generation count (R168). -/
def State.oldGenCount (s : State) : Nat := s.slots.toList.countP (Slot.countsAsOld s.store.generation)

/-- One parked slot at a swap, placed against its station's record as it stands (R97, R174). -/
def placeParked (s : State) (i : SlotIx) : State :=
  let x := s.slot i
  let r := s.station x.seg x.station
  if r.health = .silent then answerSlot { status := .stationSilent, values := [] } s i
  else
    match r.activeSlot with
    | none => queueSlot i (s.setStation x.seg x.station { r with activeSlot := some i })
    | some _ =>
      (s.setSlot i { x with state := .held }).setStation x.seg x.station { r with held := r.held ++ [i] }

/-- Drain completion, steps 1 to 6 of R173. -/
def completeDrain (s : State) : State :=
  let parked := s.parked
  let s := { s with
    commit := { s.commit with drainTimer := .stopped }
    store := s.store.swap
    cache := []
    parked := [] }
  let s := parked.foldl placeParked s
  let s := raiseNotice (.commitDone s.store.generation) s
  { s with commit := CommitControl.initial }

/-- Drain completion is the last act of the taking that brings the count to 0 (R173). -/
def drainIfDone (s : State) : State :=
  if s.commit.state = .draining ∧ s.oldGenCount = 0 then completeDrain s else s

/-- An abort from step 2 on, and a drain expiry (R175, R176). -/
def failDrain (reason : FailReason) (s : State) : State :=
  let parked := s.parked
  let s := { s with commit := { s.commit with drainTimer := .stopped }, parked := [] }
  let s := answerAll .reconfig parked s
  let s := raiseNotice (.commitFailed reason s.store.generation parked.length) s
  { s with commit := CommitControl.initial }

end Sys2Proof.Machine
end

