-- ==== Sys2Proof/Machine/Changes.lean ====
section
/-! DEFINITION. The Change Filter and the Report Cache (chapter 7): the command CHANGE. -/

namespace Sys2Proof.Machine

/-! ### The Report Cache (R126 to R131) -/

def CacheEntry.hasKey (c : CacheEntry) (station : Byte) (index : Word) : Bool :=
  decide (c.station = station ∧ c.index = index)

def cacheFind (station : Byte) (index : Word) (cache : List CacheEntry) : Option CacheEntry :=
  cache.find? (·.hasKey station index)

def cacheRemove (station : Byte) (index : Word) (cache : List CacheEntry) : List CacheEntry :=
  cache.filter (fun c => !c.hasKey station index)

/-- The load of a refresh countdown: a refresh of 0 loads nothing (R131). -/
def refreshTimer (refresh : Word) : Timer :=
  if refresh = 0 then .stopped else startTimer (unitsMs refresh.toNat)

/-- The least recent entry goes when the cache holds 64 (R129). -/
def evictIfFull (cache : List CacheEntry) : List CacheEntry :=
  if cache.length < Config.cacheCapacity then cache else cache.drop 1

/-- A forward that entered the Traffic Queue (R129): the entry is updated, or inserted with an eviction when the cache
is full, and stands at the most recent end. -/
def cacheForward (station : Byte) (index value refresh : Word) (cache : List CacheEntry) : List CacheEntry :=
  let entry : CacheEntry :=
    { station := station, index := index, lastValue := value, countdown := refreshTimer refresh, due := false }
  match cacheFind station index cache with
  | some _ => cacheRemove station index cache ++ [entry]
  | none => evictIfFull cache ++ [entry]

/-- A suppression moves the entry to the most recent end and changes nothing in it (R130). -/
def cacheTouch (c : CacheEntry) (cache : List CacheEntry) : List CacheEntry :=
  cacheRemove c.station c.index cache ++ [c]

/-- The cache decides to suppress: an entry, its due flag clear, the difference at or below the deadband (R127). -/
def cacheSuppresses (bank : Bank) (edit : Option EditIx) (value limit : Word) (c : CacheEntry) : Bool :=
  !c.due && decide (valueDifference bank edit value c.lastValue ≤ limit.toNat)

/-! ### The acts of R120 -/

/-- The forwarded CHANGE (R124). -/
def forwardedChange (s : State) (e : MapEntry) (y value : Word) : Telegram :=
  { kind := kindChange, dst := s.agent.ctrlAddr, src := e.station, tag := 0, opStatus := 0, index := e.toLogical y,
    count := 1, values := [value] }

/-- Act 6: the offer upstream (R125), with what a forward does to the cache (R129). -/
def offerChange (t : Telegram) (cache : List CacheEntry) (s : State) : State :=
  if s.trafficHasRoom then countChangeForwarded { enterTraffic t s with cache := cache } else countChangeDropped s

/-- Act 5: the Report Cache decision for a DEADBAND object (R127). -/
def decideDeadband (e : MapEntry) (limit refresh : Word) (y value : Word) (s : State) : State :=
  let forward :=
    offerChange (forwardedChange s e y value) (cacheForward e.station (e.toLogical y) value refresh s.cache) s
  match cacheFind e.station (e.toLogical y) s.cache with
  | none => forward
  | some c =>
    if cacheSuppresses s.store.activeBank e.upEdit value limit c then
      countChangeSuppressed { s with cache := cacheTouch c s.cache }
    else forward

/-- Act 4: the change policy (R123). -/
def applyPolicy (e : MapEntry) (y value : Word) (s : State) : State :=
  match e.policy with
  | .drop => countChangeSuppressed s
  | .forward => offerChange (forwardedChange s e y value) s.cache s
  | .deadband limit refresh => decideDeadband e limit refresh y value s

/-- Act 3: the up-edit of the one value (R122). -/
def editChange (e : MapEntry) (y value : Word) (s : State) : State :=
  match editValues s.store.activeBank e.upEdit [value] with
  | some [w] => applyPolicy e y w s
  | _ => countChangeUnmapped s

/-- Act 2: the reverse lookup, always in the active bank (R121). -/
def mapChange (k : Segment) (src : Byte) (y value : Word) (s : State) : State :=
  match s.store.activeBank.reverse k src y with
  | some e => editChange e y value s
  | none => countChangeUnmapped s

/-- Act 1: the sign of life; a source that names no record is none (R105). -/
def signOfLife (k : Segment) (src : Byte) (s : State) : State :=
  match addrOf src with
  | some a => takeAlive k a s
  | none => s

/-- The taking of one CHANGE (R120). -/
def takeChange (k : Segment) (src : Byte) (y value : Word) (s : State) : State :=
  mapChange k src y value (signOfLife k src s)

/-- A segment port hands over a CHANGE (R6); while S1 is absent the block is discarded (R7). -/
def deliverChange (k : Segment) (src : Byte) (y value : Word) (s : State) : State :=
  if s.inService k then arbiterIfIdle (takeChange k src y value (countReceived k.port s))
  else countMalformed k.port s

/-- CHANGE (R120). Destination and tag are not read (R6, R105). -/
def execChange (seg : Segment) (_dst src _tag : Byte) (index value : Word) (s : State) :
    Host.Outcome State Fault Refusal :=
  whenRunning (deliverChange seg src index value) s

end Sys2Proof.Machine
end

