-- ==== Sys2Proof/Machine/Expiries.lean ====
section
/-! DEFINITION. The expiries of the five kinds of timer (R180). A stopped timer produces no expiry: such a command
changes nothing (log entry 3). -/

namespace Sys2Proof.Machine

/-! ### Slot deadline (R82 to R84) -/

/-- A retry (R83): retries left falls, the slot returns to the tail of its send queue, and the retries counter rises. -/
def retrySlot (i : SlotIx) (s : State) : State :=
  let x := s.slot i
  countRetry x.seg (queueSlot i (s.setSlot i { x with retriesLeft := x.retriesLeft - 1 }))

/-- A final failure (R84), completed as R95 gives; a drain may complete as the last act (R173). -/
def failSlot (i : SlotIx) (s : State) : State :=
  let x := s.slot i
  drainIfDone
    (completeFailure x.seg x.station
      (answerSlot { status := .timeout, values := [] } (countFinalTimeout x.seg s) i))

/-- The Transaction Table takes the expiry of a SENT slot's deadline (R82). -/
def expireSlot (i : SlotIx) (s : State) : State :=
  let x := s.slot i
  if x.state = .sent ∧ x.deadline.isRunning = true then
    if 0 < x.retriesLeft then retrySlot i s else arbiterIfIdle (failSlot i s)
  else s

/-- SLOT_DEADLINE_EXPIRY (R82). -/
def execSlotDeadlineExpiry (slot : SlotIx) (s : State) : Host.Outcome State Fault Refusal :=
  whenRunning (expireSlot slot) s

/-! ### Probe-due timer (R109) -/

/-- The timer stops, the flag is set, and the dispatcher is told. -/
def expireProbeDue (k : Segment) (a : StationAddr) (s : State) : State :=
  if (s.station k a).dueTimer.isRunning then
    dispatchIfIdle k (s.setStation k a { s.station k a with dueTimer := .stopped, due := true })
  else s

/-- PROBE_DUE_EXPIRY (R109). -/
def execProbeDueExpiry (seg : Segment) (addr : StationAddr) (s : State) : Host.Outcome State Fault Refusal :=
  whenRunning (expireProbeDue seg addr) s

/-! ### Probe deadline (R113) -/

/-- A station still SILENT has its probe-due timer started afresh (R113). -/
def restartProbeDue (k : Segment) (a : StationAddr) (s : State) : State :=
  if (s.station k a).health = .silent then
    s.setStation k a { s.station k a with dueTimer := startTimer (unitsMs s.agent.probeInterval) }
  else s

/-- The probe record becomes IDLE and the dispatcher may choose again (R113). -/
def expireProbeDeadline (k : Segment) (s : State) : State :=
  match (s.seg k).probe with
  | .awaiting a t =>
    if t.isRunning then
      dispatchIfIdle k (restartProbeDue k a (s.setSeg k { s.seg k with probe := .idle }))
    else s
  | .sending _ => s
  | .idle => s

/-- PROBE_DEADLINE_EXPIRY (R113). -/
def execProbeDeadlineExpiry (seg : Segment) (s : State) : Host.Outcome State Fault Refusal :=
  whenRunning (expireProbeDeadline seg) s

/-! ### Refresh countdown (R131) -/

/-- The countdown of the entry with the key stops and its due flag is set; its value and place are kept (R131). -/
def expireEntry (station : Byte) (index : Word) (c : CacheEntry) : CacheEntry :=
  if c.hasKey station index && c.countdown.isRunning then { c with countdown := .stopped, due := true } else c

def expireRefresh (station : Byte) (index : Word) (s : State) : State :=
  { s with cache := s.cache.map (expireEntry station index) }

/-- REFRESH_COUNTDOWN_EXPIRY (R131). -/
def execRefreshCountdownExpiry (station : Byte) (index : Word) (s : State) : Host.Outcome State Fault Refusal :=
  whenRunning (expireRefresh station index) s

/-! ### Drain timer (R176) -/

/-- The drain has run out of time: it ends without a swap (R176). -/
def expireDrain (s : State) : State :=
  if s.commit.state = .draining ∧ s.commit.drainTimer.isRunning = true then
    arbiterIfIdle (failDrain .drainTimeout s)
  else s

/-- DRAIN_EXPIRY (R176). -/
def execDrainExpiry (s : State) : Host.Outcome State Fault Refusal := whenRunning expireDrain s

end Sys2Proof.Machine
end

