-- ==== Sys2Proof/Machine/Agent.lean ====
section
/-! DEFINITION. The Management Agent's dialogue (R149 to R156): how a MGMT telegram is taken, and how its reply is built,
placed and stored. The commands themselves stand in Configuration.lean, CommitCommands.lean and Management.lean; each is
a function from the header, the argument bytes and the state at step 2 of R155 to the state after its reply is placed. -/

namespace Sys2Proof.Machine

/-- The header of a MGMT telegram: source, sequence and command code (R13). -/
structure MgmtHead where
  src : Byte
  seq : Byte
  code : Byte
  deriving DecidableEq, Repr

/-- A reply to a MGMT telegram (R150). -/
def buildReply (own : Byte) (h : MgmtHead) (status : MgmtStatus) (data : List Byte) : MgmtReply :=
  { dst := h.src, src := own, seq := h.seq, code := h.code, status := status, data := data }

/-- A reply that is placed and not stored: acts 3 and 6, and a refused SYNC (R149, R152). -/
def answerOnly (h : MgmtHead) (status : MgmtStatus) (data : List Byte) (s : State) : State :=
  placeReply (buildReply s.ownAddress h status data) s

def State.setAgent (s : State) (g : Agent) : State := { s with agent := g }

/-- A reply that is placed and stored, with its sequence accepted: acts 2 and 5 (R149, R155). -/
def answerStored (h : MgmtHead) (status : MgmtStatus) (data : List Byte) (s : State) : State :=
  (answerOnly h status data s).setAgent
    { s.agent with stored := some (buildReply s.ownAddress h status data), lastSeq := h.seq }

/-- The repeat of a duplicate: a copy of the stored reply, byte for byte (R154). While SYNCED the stored reply is
present (R148, log entry 19). -/
def repeatStored (s : State) : State :=
  match s.agent.stored with
  | some r => placeReply r s
  | none => s

/-- The Reply Outbox is full (R151). -/
def State.outboxFull (s : State) : Bool := decide (Config.outboxCapacity ≤ s.up.outbox.length)

/-- The sequence the agent expects next (R155, R156). -/
def State.expectedSeq (s : State) : Byte := s.agent.lastSeq + 1

/-- The acts of R149 for a MGMT that is not a SYNC; `run` is the command from step 2 of R155 on. -/
def takeMgmt (h : MgmtHead) (run : State → State) (s : State) : State :=
  if s.outboxFull then countMgmtDiscarded s
  else if s.agent.sync = .unsynced then answerOnly h .notSynced [] s
  else if h.seq = s.agent.lastSeq then repeatStored s
  else if h.seq = s.expectedSeq then
    if s.agent.restartPending then answerStored h .restartPending [] s else run s
  else answerOnly h .sequenceError [s.expectedSeq] s

/-- A command refused while DRAINING (R155, step 3). -/
def unlessDraining (h : MgmtHead) (run : State → State) (s : State) : State :=
  match s.commit.state with
  | .draining => answerStored h .commitPending [] s
  | .idle => run s

/-- Port U's form check and handing over of a MGMT telegram (R5), and the arbiter's choice at the end (R140). -/
def deliverMgmt (args : List Byte) (take : State → State) (s : State) : State :=
  if argsOk args then arbiterIfIdle (take (countReceived .u s)) else countMalformed .u s

end Sys2Proof.Machine
end

