-- ==== Sys2Proof/Machine/CommitCommands.lean ====
section
/-! DEFINITION. COMMIT (R161, R169) and ABORT_COMMIT (R162, R175). -/

namespace Sys2Proof.Machine

/-! ### COMMIT, command code 13 -/

/-- Steps 2 to 4 of an accepted COMMIT: DRAINING, the drain timer started, and completion at once when no exchange of
the current generation is open (R169). -/
def beginDrain (s : State) : State :=
  drainIfDone { s with
    commit := { state := .draining, incoming := some s.store.nextGeneration,
                drainTimer := startTimer s.agent.drainLimit } }

/-- The shadow is examined; the reply is placed before anything else happens (R161, R169). -/
def runCommit (h : MgmtHead) (args : List Byte) (s : State) : State :=
  unlessDraining h (fun s =>
    match args with
    | [] =>
      match s.store.shadowBank.examine s.s1Present with
      | some (reason, ix) => answerStored h .invalidBank [validityReasonCode reason, byteOf ix.val] s
      | none => beginDrain (answerStored h .accepted (wordBytes s.store.nextGeneration) s)
    | _ :: _ => answerStored h .badArgument [] s) s

def execCommit (src seq : Byte) (args : List Byte) (s : State) : Host.Outcome State Fault Refusal :=
  whenRunning (deliverMgmt args (takeMgmt ⟨src, seq, 13⟩ (runCommit ⟨src, seq, 13⟩ args))) s

/-! ### ABORT_COMMIT, command code 14 -/

/-- The reply DONE is placed, then the drain fails with ABORTED (R175). -/
def runAbortCommit (h : MgmtHead) (args : List Byte) (s : State) : State :=
  match s.commit.state with
  | .idle => answerStored h .nothingPending [] s
  | .draining =>
    match args with
    | [] => failDrain .aborted (answerStored h .done [] s)
    | _ :: _ => answerStored h .badArgument [] s

def execAbortCommit (src seq : Byte) (args : List Byte) (s : State) : Host.Outcome State Fault Refusal :=
  whenRunning (deliverMgmt args (takeMgmt ⟨src, seq, 14⟩ (runAbortCommit ⟨src, seq, 14⟩ args))) s

end Sys2Proof.Machine
end

