-- ==== Sys2Proof/Machine/Configuration.lean ====
section
/-! DEFINITION. The configuration commands (sections 2.3 to 2.5): WRITE_MAP, CLEAR_MAP, WRITE_EDIT, CLEAR_EDIT,
WRITE_PAGE, READ_MAP, READ_EDIT, READ_PAGE, COPY_BANK. -/

namespace Sys2Proof.Machine

/-- A change of the shadow bank (R19). -/
def updateShadow (f : Bank → Bank) (s : State) : State :=
  { s with store := s.store.setShadow (f s.store.shadowBank) }

/-! ### WRITE_MAP (R23), command code 4 -/

def runWriteMap (h : MgmtHead) (args : List Byte) (s : State) : State :=
  unlessDraining h (fun s =>
    match parseMap args with
    | some (ix, e) => answerStored h .done [] (updateShadow (·.setEntry ix (some e)) s)
    | none => answerStored h .badArgument [] s) s

def execWriteMap (src seq : Byte) (args : List Byte) (s : State) : Host.Outcome State Fault Refusal :=
  whenRunning (deliverMgmt args (takeMgmt ⟨src, seq, 4⟩ (runWriteMap ⟨src, seq, 4⟩ args))) s

/-! ### CLEAR_MAP (R24), command code 5 -/

def runClearMap (h : MgmtHead) (args : List Byte) (s : State) : State :=
  unlessDraining h (fun s =>
    match parseIndex 128 args with
    | some ix => answerStored h .done [] (updateShadow (·.setEntry ix none) s)
    | none => answerStored h .badArgument [] s) s

def execClearMap (src seq : Byte) (args : List Byte) (s : State) : Host.Outcome State Fault Refusal :=
  whenRunning (deliverMgmt args (takeMgmt ⟨src, seq, 5⟩ (runClearMap ⟨src, seq, 5⟩ args))) s

/-! ### WRITE_EDIT (R26), command code 6 -/

def runWriteEdit (h : MgmtHead) (args : List Byte) (s : State) : State :=
  unlessDraining h (fun s =>
    match parseEdit args with
    | some (ix, r) => answerStored h .done [] (updateShadow (·.setRecord ix (some r)) s)
    | none => answerStored h .badArgument [] s) s

def execWriteEdit (src seq : Byte) (args : List Byte) (s : State) : Host.Outcome State Fault Refusal :=
  whenRunning (deliverMgmt args (takeMgmt ⟨src, seq, 6⟩ (runWriteEdit ⟨src, seq, 6⟩ args))) s

/-! ### CLEAR_EDIT (R27), command code 7 -/

def runClearEdit (h : MgmtHead) (args : List Byte) (s : State) : State :=
  unlessDraining h (fun s =>
    match parseIndex 64 args with
    | some ix => answerStored h .done [] (updateShadow (·.setRecord ix none) s)
    | none => answerStored h .badArgument [] s) s

def execClearEdit (src seq : Byte) (args : List Byte) (s : State) : Host.Outcome State Fault Refusal :=
  whenRunning (deliverMgmt args (takeMgmt ⟨src, seq, 7⟩ (runClearEdit ⟨src, seq, 7⟩ args))) s

/-! ### WRITE_PAGE (R28), command code 8 -/

def runWritePage (h : MgmtHead) (args : List Byte) (s : State) : State :=
  unlessDraining h (fun s =>
    match parsePage args with
    | some (ix, target, ws) =>
      answerStored h .done [] (updateShadow (fun b => b.setPage ix ((b.page ix).write target ws)) s)
    | none => answerStored h .badArgument [] s) s

def execWritePage (src seq : Byte) (args : List Byte) (s : State) : Host.Outcome State Fault Refusal :=
  whenRunning (deliverMgmt args (takeMgmt ⟨src, seq, 8⟩ (runWritePage ⟨src, seq, 8⟩ args))) s

/-! ### READ_MAP (R29), command code 9 -/

def runReadMap (h : MgmtHead) (args : List Byte) (s : State) : State :=
  match parseReadMap args with
  | some (role, ix) => answerStored h .done (mapData ix ((s.store.ofRole role).entry ix)) s
  | none => answerStored h .badArgument [] s

def execReadMap (src seq : Byte) (args : List Byte) (s : State) : Host.Outcome State Fault Refusal :=
  whenRunning (deliverMgmt args (takeMgmt ⟨src, seq, 9⟩ (runReadMap ⟨src, seq, 9⟩ args))) s

/-! ### READ_EDIT (R29), command code 10 -/

def runReadEdit (h : MgmtHead) (args : List Byte) (s : State) : State :=
  match parseReadEdit args with
  | some (role, ix) => answerStored h .done (editData ix (s.store.ofRole role).edits[ix]) s
  | none => answerStored h .badArgument [] s

def execReadEdit (src seq : Byte) (args : List Byte) (s : State) : Host.Outcome State Fault Refusal :=
  whenRunning (deliverMgmt args (takeMgmt ⟨src, seq, 10⟩ (runReadEdit ⟨src, seq, 10⟩ args))) s

/-! ### READ_PAGE (R29), command code 11 -/

def runReadPage (h : MgmtHead) (args : List Byte) (s : State) : State :=
  match parseReadPage args with
  | some (role, ix, target, first, w) =>
    answerStored h .done (pageData ix first w (((s.store.ofRole role).page ix).read target w.toNat)) s
  | none => answerStored h .badArgument [] s

def execReadPage (src seq : Byte) (args : List Byte) (s : State) : Host.Outcome State Fault Refusal :=
  whenRunning (deliverMgmt args (takeMgmt ⟨src, seq, 11⟩ (runReadPage ⟨src, seq, 11⟩ args))) s

/-! ### COPY_BANK (R30), command code 12 -/

def runCopyBank (h : MgmtHead) (args : List Byte) (s : State) : State :=
  unlessDraining h (fun s =>
    match args with
    | [] => answerStored h .done [] (updateShadow (fun _ => s.store.activeBank) s)
    | _ :: _ => answerStored h .badArgument [] s) s

def execCopyBank (src seq : Byte) (args : List Byte) (s : State) : Host.Outcome State Fault Refusal :=
  whenRunning (deliverMgmt args (takeMgmt ⟨src, seq, 12⟩ (runCopyBank ⟨src, seq, 12⟩ args))) s

end Sys2Proof.Machine
end

