-- ==== Sys2Proof/Machine/Management.lean ====
section
/-! DEFINITION. SYNC, the reading commands, SET_TIMING, RESET_STATION, RESTART and unknown codes (chapter 9, R114, R116). -/

namespace Sys2Proof.Machine

/-! ### SYNC (R152), command code 1 -/

/-- The five data bytes of SYNC (R14). -/
def syncData (s : State) : List Byte :=
  [Config.partCode, Config.revision] ++ wordBytes s.store.generation ++ [commitStateCode s.commit.state]

/-- Acts 1 and 2 of R149: a SYNC is taken whatever its sequence, the sync state and the restart-pending flag. -/
def takeSync (h : MgmtHead) (args : List Byte) (s : State) : State :=
  if s.outboxFull then countMgmtDiscarded s
  else
    match args with
    | [] => answerStored h .done (syncData s) (s.setAgent { s.agent with sync := .synced, ctrlAddr := h.src })
    | _ :: _ => answerOnly h .badArgument [] s

def execSync (src seq : Byte) (args : List Byte) (s : State) : Host.Outcome State Fault Refusal :=
  whenRunning (deliverMgmt args (takeSync ⟨src, seq, 1⟩ args)) s

/-! ### READ_INFO (R157), command code 2 -/

/-- The 16 data bytes of READ_INFO (R14, R157). -/
def infoData (s : State) : List Byte :=
  [Config.partCode, Config.revision, s.ownAddress, boolCode s.s1Present] ++ wordBytes s.store.generation
    ++ [commitStateCode s.commit.state, bankCode s.store.active, byteOf s.slotsInUse, byteOf s.agent.replyTimeout,
      byteOf s.agent.retries, byteOf s.agent.silentThreshold]
    ++ wordBytes (BitVec.ofNat 16 s.agent.probeInterval) ++ wordBytes (BitVec.ofNat 16 s.agent.drainLimit)

def runReadInfo (h : MgmtHead) (args : List Byte) (s : State) : State :=
  match args with
  | [] => answerStored h .done (infoData s) s
  | _ :: _ => answerStored h .badArgument [] s

def execReadInfo (src seq : Byte) (args : List Byte) (s : State) : Host.Outcome State Fault Refusal :=
  whenRunning (deliverMgmt args (takeMgmt ⟨src, seq, 2⟩ (runReadInfo ⟨src, seq, 2⟩ args))) s

/-! ### SET_TIMING (R160), command code 3 -/

def setTimingParam (p : TimingParam) (v : Nat) (g : Agent) : Agent :=
  match p with
  | .replyTimeout => { g with replyTimeout := v }
  | .retries => { g with retries := v }
  | .silentThreshold => { g with silentThreshold := v }
  | .probeInterval => { g with probeInterval := v }
  | .drainLimit => { g with drainLimit := v }

def runSetTiming (h : MgmtHead) (args : List Byte) (s : State) : State :=
  match parseTiming args with
  | some (p, v) => answerStored h .done [] (s.setAgent (setTimingParam p v s.agent))
  | none => answerStored h .badArgument [] s

def execSetTiming (src seq : Byte) (args : List Byte) (s : State) : Host.Outcome State Fault Refusal :=
  whenRunning (deliverMgmt args (takeMgmt ⟨src, seq, 3⟩ (runSetTiming ⟨src, seq, 3⟩ args))) s

/-! ### READ_STATION (R114), command code 15 -/

def runReadStation (h : MgmtHead) (args : List Byte) (s : State) : State :=
  match parseStation args with
  | some (k, a) => answerStored h .done (stationData k a (s.station k a)) s
  | none => answerStored h .badArgument [] s

def execReadStation (src seq : Byte) (args : List Byte) (s : State) : Host.Outcome State Fault Refusal :=
  whenRunning (deliverMgmt args (takeMgmt ⟨src, seq, 15⟩ (runReadStation ⟨src, seq, 15⟩ args))) s

/-! ### RESET_STATION (R116), command code 16 -/

/-- The record returns to UNKNOWN; its active slot and held list are not changed (R116). -/
def resetStation (k : Segment) (a : StationAddr) (s : State) : State :=
  s.setStation k a { s.station k a with health := .unknown, failures := 0, dueTimer := .stopped, due := false }

def runResetStation (h : MgmtHead) (args : List Byte) (s : State) : State :=
  match parseStation args with
  | some (k, a) => answerStored h .done [] (resetStation k a s)
  | none => answerStored h .badArgument [] s

def execResetStation (src seq : Byte) (args : List Byte) (s : State) : Host.Outcome State Fault Refusal :=
  whenRunning (deliverMgmt args (takeMgmt ⟨src, seq, 16⟩ (runResetStation ⟨src, seq, 16⟩ args))) s

/-! ### READ_SLOT (R158), command code 17 -/

def runReadSlot (h : MgmtHead) (args : List Byte) (s : State) : State :=
  match parseIndex 32 args with
  | some i => answerStored h .done (slotData i (s.slot i)) s
  | none => answerStored h .badArgument [] s

def execReadSlot (src seq : Byte) (args : List Byte) (s : State) : Host.Outcome State Fault Refusal :=
  whenRunning (deliverMgmt args (takeMgmt ⟨src, seq, 17⟩ (runReadSlot ⟨src, seq, 17⟩ args))) s

/-! ### READ_COUNTERS (R159, R186), command code 18 -/

/-- The counters are cleared in the same taking, after their values have been placed (R186). -/
def clearCounters (group : CounterGroup) (clear : Bool) (s : State) : State :=
  if clear then s.setCounters (s.counters.clearGroup group) else s

def runReadCounters (h : MgmtHead) (args : List Byte) (s : State) : State :=
  match parseCounters args with
  | some (group, clear) => clearCounters group clear (answerStored h .done (counterData s.counters group) s)
  | none => answerStored h .badArgument [] s

def execReadCounters (src seq : Byte) (args : List Byte) (s : State) : Host.Outcome State Fault Refusal :=
  whenRunning (deliverMgmt args (takeMgmt ⟨src, seq, 18⟩ (runReadCounters ⟨src, seq, 18⟩ args))) s

/-! ### RESTART (R163), command code 19 -/

def runRestart (h : MgmtHead) (args : List Byte) (s : State) : State :=
  match args with
  | [] => answerStored h .done [] (s.setAgent { s.agent with restartPending := true })
  | _ :: _ => answerStored h .badArgument [] s

def execRestart (src seq : Byte) (args : List Byte) (s : State) : Host.Outcome State Fault Refusal :=
  whenRunning (deliverMgmt args (takeMgmt ⟨src, seq, 19⟩ (runRestart ⟨src, seq, 19⟩ args))) s

/-! ### Any command code (R155) -/

/-- The command a code names, from step 2 of R155 on; an unknown code is answered BAD_COMMAND. -/
def runByCode (h : MgmtHead) (args : List Byte) (s : State) : State :=
  match h.code.toNat with
  | 2 => runReadInfo h args s
  | 3 => runSetTiming h args s
  | 4 => runWriteMap h args s
  | 5 => runClearMap h args s
  | 6 => runWriteEdit h args s
  | 7 => runClearEdit h args s
  | 8 => runWritePage h args s
  | 9 => runReadMap h args s
  | 10 => runReadEdit h args s
  | 11 => runReadPage h args s
  | 12 => runCopyBank h args s
  | 13 => runCommit h args s
  | 14 => runAbortCommit h args s
  | 15 => runReadStation h args s
  | 16 => runResetStation h args s
  | 17 => runReadSlot h args s
  | 18 => runReadCounters h args s
  | 19 => runRestart h args s
  | _ => answerStored h .badCommand [] s

/-- A MGMT telegram taken by the agent, whatever its code (R149). -/
def takeMgmtByCode (h : MgmtHead) (args : List Byte) (s : State) : State :=
  if h.code = 1 then takeSync h args s else takeMgmt h (runByCode h args) s

/-- UNKNOWN_COMMAND (R155). A term with a known code is that code's telegram (log entry 10). -/
def execUnknownCommand (code src seq : Byte) (args : List Byte) (s : State) : Host.Outcome State Fault Refusal :=
  whenRunning (deliverMgmt args (takeMgmtByCode ⟨src, seq, code⟩ args)) s

end Sys2Proof.Machine
end

