-- ==== Sys2Proof/Machine/Replies.lean ====
section
/-! DEFINITION. The Reply Matcher (sections 5.4 and 6.5): the command REPLY. -/

namespace Sys2Proof.Machine

/-- The four conditions of R87. -/
def slotMatches (k : Segment) (src tag : Byte) (x : Slot) : Bool :=
  decide (x.state = .sent ∧ x.seg = k ∧ addrByte x.station = src ∧ x.cur.val = tagNumber tag)

/-- The values of an OK to a READ through the slot's up-edit (R90). -/
def upEdited (bank : Bank) (x : Slot) (values : List Word) : BuiltReply :=
  match editValues bank x.upEdit values with
  | some ws => { status := .ok, values := ws }
  | none => { status := .editReject, values := [] }

/-- A matching REPLY judged by its status, the slot's op, and its own count and values (R89). -/
def judgeReply (bank : Bank) (x : Slot) (status count : Byte) (values : List Word) : BuiltReply :=
  if status = 0 then
    match x.op with
    | .read =>
      if count = x.count ∧ values.length = count.toNat then upEdited bank x values
      else { status := .stationFault, values := [] }
    | .write =>
      if count = x.count ∧ values = [] then { status := .ok, values := [] }
      else { status := .stationFault, values := [] }
  else if status.toNat ≤ 31 then { status := .station status, values := [] }
  else { status := .stationFault, values := [] }

/-- A match: the slot becomes REPLY_READY and its reply is offered, the station takes the success, and a drain may
complete as the last act (R87, R92, R94, R173). -/
def completeMatch (k : Segment) (i : SlotIx) (b : BuiltReply) (s : State) : State :=
  drainIfDone (completeSuccess k (s.slot i).station (answerSlot b s i))

/-- A REPLY that answers the outstanding probe (R112): the record returns to IDLE, a station still SILENT takes a
success, and the dispatcher may choose again. -/
def completeProbe (k : Segment) (a : StationAddr) (s : State) : State :=
  let s := s.setSeg k { s.seg k with probe := .idle }
  dispatchIfIdle k (if (s.station k a).health = .silent then takeAlive k a s else s)

/-- The probed station, when a REPLY with number 7 answers the outstanding probe (R86). -/
def probeAnswered (p : ProbeRecord) (src tag : Byte) : Option StationAddr :=
  match p with
  | .awaiting a _ => if (tagIndex tag).val = a.val + 1 ∧ src = addrByte a then some a else none
  | .sending _ => none
  | .idle => none

/-- The taking of one REPLY by the Reply Matcher (R86 to R88, R112). -/
def takeReply (k : Segment) (src tag status count : Byte) (values : List Word) (s : State) : State :=
  if tagNumber tag < 7 then
    if slotMatches k src tag (s.slot (tagIndex tag)) then
      completeMatch k (tagIndex tag)
        (judgeReply s.store.activeBank (s.slot (tagIndex tag)) status count values) s
    else countStaleReply k s
  else
    match probeAnswered (s.seg k).probe src tag with
    | some a => completeProbe k a s
    | none => countStaleReply k s

/-- A segment port hands over a REPLY (R6); while S1 is absent, or when the form fails, the block is discarded (R6, R7). -/
def deliverReply (k : Segment) (src tag status count : Byte) (values : List Word) (s : State) : State :=
  if s.inService k && replyFormOk status count values then
    arbiterIfIdle (takeReply k src tag status count values (countReceived k.port s))
  else countMalformed k.port s

/-- REPLY (R86). The destination and the object index take no part (R86, R89). -/
def execReply (seg : Segment) (_dst src tag status : Byte) (_index : Word) (count : Byte) (values : List Word)
    (s : State) : Host.Outcome State Fault Refusal :=
  whenRunning (deliverReply seg src tag status count values) s

end Sys2Proof.Machine
end

