-- ==== Sys2Proof/Machine/Requests.lean ====
section
/-! DEFINITION. The Request Mapper (chapter 4): the command REQUEST. -/

namespace Sys2Proof.Machine

/-! ### Form (R56) -/

/-- The fields of a REQUEST whose form passes. -/
structure RequestForm where
  op : Op
  index : Word
  count : Byte
  values : List Word
  deriving DecidableEq, Repr

/-- The form check over the bytes from byte 4 up to the check: op, index, count, and values exactly as the op and count
call for (R56). -/
def parseRequest : List Byte → Option RequestForm
  | o :: i1 :: i0 :: c :: vs => do
    let op ← opOf o
    let values ← wordsOf vs
    if 1 ≤ c.toNat ∧ c.toNat ≤ 8 then
      match op with
      | .read => if values = [] then some ⟨.read, wordOf i1 i0, c, []⟩ else none
      | .write => if values.length = c.toNat then some ⟨.write, wordOf i1 i0, c, values⟩ else none
    else none
  | _ => none

/-- The index a refusal echoes: the REQUEST's for a block of 10 bytes or more, else 0 (R64). -/
def refusalIndex : List Byte → Word
  | _ :: i1 :: i0 :: _ :: _ => wordOf i1 i0
  | _ => 0

/-! ### The checks (R55 to R63) -/

/-- The bank the checks read (R58). -/
def State.judgingBank (s : State) : Bank :=
  match s.commit.state with
  | .idle => s.store.activeBank
  | .draining => s.store.shadowBank

/-- The access check (R60). -/
def accessAllows (a : Access) (op : Op) : Bool :=
  match a, op with
  | .readOnly, .read => true
  | .readOnly, .write => false
  | .writeOnly, .read => false
  | .writeOnly, .write => true
  | .readWrite, .read => true
  | .readWrite, .write => true

/-- The down-edit check: a READ passes without an application (R62). -/
def downEdited (bank : Bank) (e : MapEntry) (f : RequestForm) : Option (List Word) :=
  match f.op with
  | .read => some []
  | .write => editValues bank e.downEdit f.values

/-- The generation an admitted slot records (R67): the current one, or the incoming one the Commit Controller holds. -/
def State.admissionGeneration (s : State) : Word :=
  match s.commit.state with
  | .idle => s.store.generation
  | .draining => s.commit.incoming.getD s.store.nextGeneration

/-- The record an allocated slot takes, before its placing (R66, R67). -/
def admittedSlot (s : State) (old : Slot) (dst src tag : Byte) (f : RequestForm) (e : MapEntry)
    (values : List Word) : Slot :=
  { state := .queued, ctrlAddr := src, ctrlTag := tag, logStation := dst, logIndex := f.index, count := f.count,
    op := f.op, seg := e.seg, station := e.phys, physIndex := e.toPhysical f.index, writeValues := values,
    upEdit := e.upEdit, generation := s.admissionGeneration, retriesLeft := s.agent.retries, cur := old.cur,
    next := old.next, deadline := .stopped, built := none }

/-- What the checks find: the status of the first that fails, or the slot allocated and its record. -/
inductive Verdict where
  | refuse (status : ReplyStatus)
  | allot (i : SlotIx) (x : Slot)
  deriving DecidableEq, Repr

/-- Checks 4 to 7 over the entry the map check found (R60 to R63). -/
def judgeEntry (s : State) (dst src tag : Byte) (f : RequestForm) (e : MapEntry) : Verdict :=
  if accessAllows e.access f.op then
    if (s.station e.seg e.phys).health = .silent then .refuse .stationSilent
    else
      match downEdited s.judgingBank e f with
      | none => .refuse .editReject
      | some values =>
        match s.freeSlot? with
        | none => .refuse .noSlot
        | some i => .allot i (admittedSlot s (s.slot i) dst src tag f e values)
  else .refuse .accessDenied

/-- The checks of R55, in order. -/
def judgeRequest (s : State) (dst src tag : Byte) (rest : List Byte) : Verdict :=
  match parseRequest rest with
  | none => .refuse .malformed
  | some f =>
    if dst = s.ownAddress then .refuse .badKind
    else
      match s.judgingBank.forward dst f.index f.count.toNat with
      | none => .refuse .notMapped
      | some e => judgeEntry s dst src tag f e

/-! ### Refusal and placing (R64, R65, R68, R69) -/

/-- The refusal REPLY (R64). -/
def refusalReply (dst src tag : Byte) (rest : List Byte) (status : ReplyStatus) : Telegram :=
  { kind := kindReply, dst := src, src := dst, tag := tag, opStatus := replyStatusCode status,
    index := refusalIndex rest, count := 0, values := [] }

/-- A telegram that holds no slot: it enters the Traffic Queue, or a counter rises and it is discarded (R65). -/
def offerRefusal (t : Telegram) (s : State) : State :=
  if s.trafficHasRoom then enterTraffic t s else countDiscarded s

/-- The admitted slot placed QUEUED, HELD or PARKED (R68, R69). -/
def placeAdmitted (i : SlotIx) (x : Slot) (s : State) : State :=
  match s.commit.state with
  | .draining =>
    let s := s.setSlot i { x with state := .parked }
    { s with parked := s.parked ++ [i] }
  | .idle =>
    let r := s.station x.seg x.station
    match r.activeSlot with
    | none => queueSlot i ((s.setSlot i x).setStation x.seg x.station { r with activeSlot := some i })
    | some _ =>
      (s.setSlot i { x with state := .held }).setStation x.seg x.station { r with held := r.held ++ [i] }

/-- The taking of one REQUEST by the Request Mapper (R55). -/
def takeRequest (dst src tag : Byte) (rest : List Byte) (s : State) : State :=
  match judgeRequest s dst src tag rest with
  | .refuse status => offerRefusal (refusalReply dst src tag rest status) (countRefused s)
  | .allot i x => placeAdmitted i x (countAdmitted s)

/-- Port U hands over a REQUEST (R4); a length no framer accepts is its port's discard (R2). -/
def deliverRequest (dst src tag : Byte) (rest : List Byte) (s : State) : State :=
  if requestLengthOk rest then arbiterIfIdle (takeRequest dst src tag rest (countReceived .u s))
  else countMalformed .u s

/-- REQUEST (R55). -/
def execRequest (dst src tag : Byte) (rest : List Byte) (s : State) : Host.Outcome State Fault Refusal :=
  whenRunning (deliverRequest dst src tag rest) s

end Sys2Proof.Machine
end

