-- ==== Sys2Proof/Machine/Ports.lean ====
section
/-! DEFINITION. A block of bytes that ends on a port (R2 to R7, R18): FRAMING_DISCARD and S1_ABSENT_DISCARD. A block that
passes every test is no discard: it is handed to its taker as the row of its kind says (log entry 8). -/

namespace Sys2Proof.Machine

/-- A block handed over or discarded with one counter (R18). -/
def deliverBlock (p : Port) (block : List Byte) (s : State) : State :=
  match receive s.ownAddress s.s1Present p block with
  | .malformed => countMalformed p s
  | .checkError => countCheckError p s
  | .request dst src tag rest => deliverRequest dst src tag rest s
  | .mgmt src seq code args => deliverMgmt args (takeMgmtByCode ⟨src, seq, code⟩ args) s
  | .reply k _ src tag status _ count values => deliverReply k src tag status count values s
  | .change k _ src _ y value => deliverChange k src y value s

/-- FRAMING_DISCARD (R2). -/
def execFramingDiscard (port : Port) (block : List Byte) (s : State) : Host.Outcome State Fault Refusal :=
  whenRunning (deliverBlock port block) s

/-- S1_ABSENT_DISCARD (R7): a block on S1. -/
def execS1AbsentDiscard (block : List Byte) (s : State) : Host.Outcome State Fault Refusal :=
  whenRunning (deliverBlock .s1 block) s

end Sys2Proof.Machine
end

