-- ==== Sys2Proof/Machine/StartUp.lean ====
section
/-! DEFINITION. Pin reset and RESTART taking effect (chapter 11): PIN_RESET_ASSERT, PIN_RESET_RELEASE, and the act by
which a RESTART resets the traffic state. -/

namespace Sys2Proof.Machine

/-! ### RESET_N low (R10, R180, R181) -/

/-- No timer runs and the transmitter is stopped and FREE (R180, R181). -/
def haltSlot (x : Slot) : Slot := { x with deadline := .stopped }

def haltProbe : ProbeRecord → ProbeRecord
  | .idle => .idle
  | .sending a => .sending a
  | .awaiting a _ => .awaiting a .stopped

def haltSegment (g : SegState) : SegState :=
  { g with
    record := .none
    probe := haltProbe g.probe
    stations := g.stations.map (fun r => { r with dueTimer := .stopped }) }

def haltEntry (c : CacheEntry) : CacheEntry := { c with countdown := .stopped }

/-- RESET_N goes low: every transmitter stops mid-telegram and is FREE, with its record NONE (R10, R77, R146), and every
timer stops (R180). The other values are taken at the release (R182, log entry 6). -/
def holdReset (s : State) : State :=
  { s with
    resetHeld := true
    slots := s.slots.map haltSlot
    seg0 := haltSegment s.seg0
    seg1 := haltSegment s.seg1
    cache := s.cache.map haltEntry
    commit := { s.commit with drainTimer := .stopped }
    up := { s.up with sending := none } }

/-- PIN_RESET_ASSERT (R181). -/
def execPinResetAssert (s : State) : Host.Outcome State Fault Refusal := .next (holdReset s)

/-! ### Release (R181, R182) -/

/-- Every block takes its pin-reset values with the straps just sampled, STARTED is raised with cause PIN, and the
arbiter chooses it at once (R182). -/
def releaseReset (addr : BitVec 4) (s1En : Bool) (s : State) : State :=
  let s := State.pinReset addr s1En s.pending
  arbiterIfIdle (raiseNotice (.started .pin s.store.generation s.ownAddress s.s1Present) s)

/-- PIN_RESET_RELEASE (R182). -/
def execPinResetRelease (addr : BitVec 4) (s1En : Bool) (s : State) : Host.Outcome State Fault Refusal :=
  .next (releaseReset addr s1En s)

/-! ### RESTART taking effect (R183, R184) -/

/-- A record of SLOT i or PROBE becomes VOID, with the telegram still on the wire (R101). -/
def voidRecord : TxRecord → TxRecord
  | .none => .none
  | .slot _ t => .void t
  | .probe t => .void t
  | .void t => .void t

/-- A segment at a RESTART (R101, R119). -/
def restartSegment (g : SegState) : SegState := { SegState.initial with record := voidRecord g.record }

/-- Every field of a slot is cleared but its transmission numbers (R101). -/
def restartSlot (x : Slot) : Slot := Slot.cleared x.cur x.next

/-- The agent's record at a RESTART (R165). -/
def restartAgent (g : Agent) : Agent :=
  { g with sync := .unsynced, restartPending := false, lastSeq := 0, stored := none }

/-- The Upstream Transmitter at a RESTART, before STARTED (R147). The taking is the end of a transmission, whose record
becomes NONE in act 3 of R142. -/
def restartUp (u : Upstream) : Upstream := { Upstream.initial with sending := u.sending }

/-- RESTART takes effect, and STARTED is raised with cause COMMAND (R183). Banks, generation, straps, counters, timing
parameters and controller address are kept (R184). -/
def restartEffect (s : State) : State :=
  raiseNotice (.started .command s.store.generation s.ownAddress s.s1Present)
    { s with
      slots := s.slots.map restartSlot
      parked := []
      seg0 := restartSegment s.seg0
      seg1 := restartSegment s.seg1
      cache := []
      commit := CommitControl.initial
      up := restartUp s.up
      agent := restartAgent s.agent }

end Sys2Proof.Machine
end

