-- ==== Sys2Proof/Machine/Transmissions.lean ====
section
/-! DEFINITION. The ends of transmissions: SEGMENT_TRANSMISSION_END (R81) and PORT_U_TRANSMISSION_END (R142). The end of
no transmission does not occur and changes nothing (log entry 3). -/

namespace Sys2Proof.Machine

/-- A SENDING slot becomes SENT with its deadline started from the reply timeout (R81). -/
def slotSent (i : SlotIx) (s : State) : State :=
  s.setSlot i { s.slot i with state := .sent, deadline := startTimer s.agent.replyTimeout }

/-- The probe record becomes AWAITING with its deadline started from the reply timeout (R111). -/
def probeSent (k : Segment) (s : State) : State :=
  match (s.seg k).probe with
  | .sending a => s.setSeg k { s.seg k with probe := .awaiting a (startTimer s.agent.replyTimeout) }
  | .awaiting _ _ => s
  | .idle => s

/-- What a dispatcher does with the telegram that has ended, by its transmission record (R81). -/
def recordEnded (k : Segment) (s : State) : State :=
  match (s.seg k).record with
  | .slot i _ => slotSent i s
  | .probe _ => probeSent k s
  | .void _ => s
  | .none => s

/-- The record becomes NONE (R81). -/
def clearRecord (k : Segment) (s : State) : State := s.setSeg k { s.seg k with record := .none }

/-- The end of a transmission on a segment (R9, R81): counted, acted on, and the dispatcher chooses again. -/
def endSegment (k : Segment) (s : State) : State :=
  match (s.seg k).record with
  | .none => s
  | _ => dispatchIfIdle k (clearRecord k (recordEnded k (countTransmitted k.port s)))

/-- SEGMENT_TRANSMISSION_END (R81). -/
def execSegmentTransmissionEnd (seg : Segment) (s : State) : Host.Outcome State Fault Refusal :=
  whenRunning (endSegment seg) s

/-- The telegram whose end makes a restart take effect: a MGMT_REPLY with command code 19 and status DONE (R142). -/
def endsRestart : UpTelegram → Bool
  | .mgmt r => decide (r.code = 19 ∧ r.status = .done)
  | .notice _ => false
  | .traffic _ => false

/-- The end of a transmission on port U, acts 1 to 4 of R142. -/
def endUpstream (s : State) : State :=
  match s.up.sending with
  | none => s
  | some t =>
    let s := countTransmitted .u s
    let s := if endsRestart t then restartEffect s else s
    arbiterChoice (s.setUp { s.up with sending := none })

/-- PORT_U_TRANSMISSION_END (R142). -/
def execPortUTransmissionEnd (s : State) : Host.Outcome State Fault Refusal := whenRunning endUpstream s

end Sys2Proof.Machine
end

