-- ==== Sys2Proof/Machine/Dispatch.lean ====
section
/-! DEFINITION. One arm per command. -/

namespace Sys2Proof.Machine

def exec (i : Instr) (s : State) : Host.Outcome State Fault Refusal :=
  match i with
  -- pins
  | .pinResetAssert => Sys2Proof.Machine.execPinResetAssert s
  | .pinResetRelease addr s1En => Sys2Proof.Machine.execPinResetRelease addr s1En s
  -- blocks a port discards
  | .framingDiscard port block => Sys2Proof.Machine.execFramingDiscard port block s
  | .s1AbsentDiscard block => Sys2Proof.Machine.execS1AbsentDiscard block s
  -- traffic telegrams
  | .request dst src tag rest => Sys2Proof.Machine.execRequest dst src tag rest s
  | .reply seg dst src tag status index count values => Sys2Proof.Machine.execReply seg dst src tag status index count values s
  | .change seg dst src tag index value => Sys2Proof.Machine.execChange seg dst src tag index value s
  -- transmission ends
  | .segmentTransmissionEnd seg => Sys2Proof.Machine.execSegmentTransmissionEnd seg s
  | .portUTransmissionEnd => Sys2Proof.Machine.execPortUTransmissionEnd s
  -- expiries
  | .slotDeadlineExpiry slot => Sys2Proof.Machine.execSlotDeadlineExpiry slot s
  | .probeDueExpiry seg addr => Sys2Proof.Machine.execProbeDueExpiry seg addr s
  | .probeDeadlineExpiry seg => Sys2Proof.Machine.execProbeDeadlineExpiry seg s
  | .refreshCountdownExpiry station index => Sys2Proof.Machine.execRefreshCountdownExpiry station index s
  | .drainExpiry => Sys2Proof.Machine.execDrainExpiry s
  -- management telegrams
  | .sync src seq args => Sys2Proof.Machine.execSync src seq args s
  | .readInfo src seq args => Sys2Proof.Machine.execReadInfo src seq args s
  | .setTiming src seq args => Sys2Proof.Machine.execSetTiming src seq args s
  | .writeMap src seq args => Sys2Proof.Machine.execWriteMap src seq args s
  | .clearMap src seq args => Sys2Proof.Machine.execClearMap src seq args s
  | .writeEdit src seq args => Sys2Proof.Machine.execWriteEdit src seq args s
  | .clearEdit src seq args => Sys2Proof.Machine.execClearEdit src seq args s
  | .writePage src seq args => Sys2Proof.Machine.execWritePage src seq args s
  | .readMap src seq args => Sys2Proof.Machine.execReadMap src seq args s
  | .readEdit src seq args => Sys2Proof.Machine.execReadEdit src seq args s
  | .readPage src seq args => Sys2Proof.Machine.execReadPage src seq args s
  | .copyBank src seq args => Sys2Proof.Machine.execCopyBank src seq args s
  | .commit src seq args => Sys2Proof.Machine.execCommit src seq args s
  | .abortCommit src seq args => Sys2Proof.Machine.execAbortCommit src seq args s
  | .readStation src seq args => Sys2Proof.Machine.execReadStation src seq args s
  | .resetStation src seq args => Sys2Proof.Machine.execResetStation src seq args s
  | .readSlot src seq args => Sys2Proof.Machine.execReadSlot src seq args s
  | .readCounters src seq args => Sys2Proof.Machine.execReadCounters src seq args s
  | .restart src seq args => Sys2Proof.Machine.execRestart src seq args s
  | .unknownCommand code src seq args => Sys2Proof.Machine.execUnknownCommand code src seq args s

end Sys2Proof.Machine
end

