-- ==== Sys2Proof/Safety.lean ====
section
/-! DEFINITION. What the rules say holds of the part after every taking, as predicates on a state; and, for the
statements about single takings, the named states a rule's words describe (a reply at the tail of the Reply Outbox, a slot
at the tail of its send queue). Nothing here is used by a meaning. -/

namespace Sys2Proof.Safety

open Sys2Proof.Machine

/-! ### The Upstream Transmitter (R137, R140) -/

/-- R137, and the range of the consecutive-control count (R140). -/
structure QueueBounds (s : State) : Prop where
  traffic : s.up.traffic.length ≤ 24
  outbox : s.up.outbox.length ≤ 4
  notices : s.up.notices.length ≤ 16
  waiting : s.up.waitList ≠ [] → s.up.traffic.length = 24
  control : s.up.control ≤ 4

/-- R140: port U's record is NONE only when the three queues and the Reply Wait List are empty. While RESET_N is low the
queues keep what they held (log entry 6). -/
def UpstreamRests (s : State) : Prop :=
  s.resetHeld = false → s.up.sending = none →
    s.up.traffic = [] ∧ s.up.outbox = [] ∧ s.up.notices = [] ∧ s.up.waitList = []

/-! ### The Segment Dispatchers (R76 to R78, R110) -/

/-- R78: a dispatcher in service whose record is NONE has nothing to send: its send queue is empty, and no probe is due
that an IDLE probe record could start. -/
def DispatcherRests (s : State) (k : Segment) : Prop :=
  s.resetHeld = false → s.inService k = true → (s.seg k).record = .none →
    (s.seg k).queue = [] ∧ ((s.seg k).probe = .idle → s.lowestDue k = none)

/-- Both dispatchers. -/
def DispatchersRest (s : State) : Prop := DispatcherRests s .s0 ∧ DispatcherRests s .s1

/-- R77, R110: the record is PROBE exactly while the probe record is SENDING, and an AWAITING probe's deadline runs. -/
def ProbeSound (s : State) (k : Segment) : Prop :=
  s.resetHeld = false →
    ((∃ t, (s.seg k).record = .probe t) ↔ ∃ a, (s.seg k).probe = .sending a)
      ∧ ∀ a t, (s.seg k).probe = .awaiting a t → t.isRunning = true

/-! ### The banks (R22, R25, R26, R33) -/

/-- The field ranges of a valid entry (R22, R23). -/
structure EntryInRange (e : MapEntry) : Prop where
  station : e.station.toNat ≤ 239
  order : e.first.toNat ≤ e.last.toNat
  physical : e.base.toNat + (e.last.toNat - e.first.toNat) ≤ 65535
  refresh : ∀ limit refresh, e.policy = .deadband limit refresh → refresh.toNat ≤ 600

/-- The field ranges of a defined record (R25, R26). -/
structure RecordInRange (r : EditRecord) : Prop where
  count : r.steps.length ≤ 4
  scale : ∀ st ∈ r.steps, st.op = .scale → st.b.toNat ≤ 15 ∨ 256 ≤ st.b.toNat ∧ st.b.toNat ≤ 271
  translate : ∀ st ∈ r.steps, st.op = .translate → st.a.toNat ≤ 7
  limit : ∀ st ∈ r.steps, st.op = .limit → st.a.toInt ≤ st.b.toInt

/-- Every stored item of a bank passes the checks of its write. -/
structure BankInRange (b : Bank) : Prop where
  entries : ∀ ix e, b.entry ix = some e → EntryInRange e
  records : ∀ (ix : EditIx) r, b.edits[ix] = some r → RecordInRange r

def BanksInRange (s : State) : Prop := BankInRange s.store.bankA ∧ BankInRange s.store.bankB

/-- R33: the active bank satisfies conditions (a) to (d), and so does the incoming bank of a drain (R169). -/
structure ActiveBankValid (s : State) : Prop where
  active : s.store.activeBank.valid s.s1Present = true
  incoming : s.commit.state = .draining → s.store.shadowBank.valid s.s1Present = true

/-! ### The Report Cache (R126) -/

def CacheEntry.sameKey (c d : CacheEntry) : Prop := c.station = d.station ∧ c.index = d.index

/-- R126: at most 64 entries, no two with the same key, and every key inside a valid active-bank entry with DEADBAND. -/
structure CacheSound (s : State) : Prop where
  bound : s.cache.length ≤ 64
  keys : s.cache.Pairwise (fun c d => ¬ CacheEntry.sameKey c d)
  mapped : ∀ c ∈ s.cache, ∃ ix e limit refresh, s.store.activeBank.entry ix = some e
    ∧ e.policy = .deadband limit refresh ∧ e.station = c.station ∧ e.containsLogical c.index.toNat = true

/-! ### The Management Agent (R148, R160) -/

/-- The ranges of the timing parameters, and the stored reply of a SYNCED agent (R148). -/
structure AgentSound (s : State) : Prop where
  replyTimeout : 1 ≤ s.agent.replyTimeout ∧ s.agent.replyTimeout ≤ 250
  retries : s.agent.retries ≤ 3
  silentThreshold : 1 ≤ s.agent.silentThreshold ∧ s.agent.silentThreshold ≤ 15
  probeInterval : 1 ≤ s.agent.probeInterval ∧ s.agent.probeInterval ≤ 600
  drainLimit : 10 ≤ s.agent.drainLimit ∧ s.agent.drainLimit ≤ 5000
  stored : s.agent.sync = .synced → ∃ r, s.agent.stored = some r ∧ r.seq = s.agent.lastSeq ∧ r.src = s.ownAddress

/-! ### Slots and their collections (R73 to R77, R171) -/

/-- The states of a station's active slot (R75). -/
def isActive (st : SlotState) : Prop := st = .queued ∨ st = .sending ∨ st = .sent

/-- R74, R75 and R77: each ordered collection holds exactly the slots of its state, each once; a segment's record names
its SENDING slot; a station's record names its active slot; a held list waits only behind an active slot; and a SILENT
station has neither (R108). While RESET_N is low the transmitters have already let go of their slots (log entry 6). -/
structure SlotPlaces (s : State) : Prop where
  held : ∀ k a i, i ∈ (s.station k a).held ↔
    (s.slot i).state = .held ∧ (s.slot i).seg = k ∧ (s.slot i).station = a
  heldOnce : ∀ k a, (s.station k a).held.Nodup
  queued : ∀ k i, i ∈ (s.seg k).queue ↔ (s.slot i).state = .queued ∧ (s.slot i).seg = k
  queuedOnce : ∀ k, (s.seg k).queue.Nodup
  parked : ∀ i, i ∈ s.parked ↔ (s.slot i).state = .parked
  parkedOnce : s.parked.Nodup
  waiting : ∀ i, i ∈ s.up.waitList ↔ (s.slot i).state = .replyReady
  waitingOnce : s.up.waitList.Nodup
  sending : ∀ k i, (∃ t, (s.seg k).record = .slot i t) ↔ (s.slot i).state = .sending ∧ (s.slot i).seg = k
  active : ∀ k a i, (s.station k a).activeSlot = some i ↔
    isActive (s.slot i).state ∧ (s.slot i).seg = k ∧ (s.slot i).station = a
  heldBehind : ∀ k a, (s.station k a).held ≠ [] → (s.station k a).activeSlot ≠ none
  silent : ∀ k a, (s.station k a).health = .silent → (s.station k a).activeSlot = none

/-- R73: the ranges of a slot that is not FREE, the values a WRITE holds, and when its deadline runs and its reply is
built. -/
structure SlotSound (x : Slot) : Prop where
  deadline : x.deadline.isRunning = true ↔ x.state = .sent
  built : x.built.isSome = true ↔ x.state = .replyReady
  count : x.state ≠ .free → 1 ≤ x.count.toNat ∧ x.count.toNat ≤ 8
  logStation : x.state ≠ .free → x.logStation.toNat ≤ 239
  retriesLeft : x.retriesLeft ≤ 3
  readValues : x.op = .read → x.writeValues = []
  writeValues : x.state ≠ .free → x.op = .write → x.writeValues.length = x.count.toNat

/-- R102, R103, R109: the failure count each health allows; the probe-due timer runs and the due flag is set only of a
SILENT station. -/
structure StationSound (r : Station) : Prop where
  unknown : r.health = .unknown → r.failures = 0
  online : r.health = .online → r.failures = 0
  suspect : r.health = .suspect → 1 ≤ r.failures ∧ r.failures ≤ 14
  silent : r.health = .silent → 1 ≤ r.failures ∧ r.failures ≤ 15
  timer : r.dueTimer.isRunning = true → r.health = .silent
  due : r.due = true → r.health = .silent

/-! ### The Commit Controller (R168, R170, R171) -/

/-- R168, R170, R171, R173: IDLE holds no incoming generation, no running drain timer and no parked slot; DRAINING holds
the current generation plus one, a running drain timer, and at least one open exchange; and every slot on its way to a
station carries the current generation, every parked slot the next. -/
structure DrainSound (s : State) : Prop where
  idle : s.commit.state = .idle → s.commit.incoming = none ∧ s.commit.drainTimer = .stopped ∧ s.parked = []
  draining : s.commit.state = .draining →
    s.commit.incoming = some (s.store.generation + 1) ∧ s.commit.drainTimer.isRunning = true ∧ 0 < s.oldGenCount
  current : ∀ i, (s.slot i).state = .held ∨ isActive (s.slot i).state → (s.slot i).generation = s.store.generation
  parked : ∀ i, (s.slot i).state = .parked → (s.slot i).generation = s.store.generation + 1

/-! ### Segment 1 absent (R7, R70, R102) -/

/-- R70, R102: while S1 is absent its segment keeps its reset values and no slot in use names it. -/
def SegmentOneQuiet (s : State) : Prop :=
  s.s1Present = false → s.seg1 = SegState.initial ∧ ∀ i, (s.slot i).state ≠ .free → (s.slot i).seg = .s0

/-! ### States that a rule's words describe -/

/-- A reply at the tail of the Reply Outbox; an idle transmitter starts it at once (R138, R140, R141). -/
def replyPlaced (r : MgmtReply) (u : Upstream) : Upstream :=
  match u.sending with
  | none => { u with sending := some (.mgmt r), control := bumpControl u.control }
  | some _ => { u with outbox := u.outbox ++ [r] }

/-- A telegram at the tail of the Traffic Queue; an idle transmitter starts it at once (R135, R140, R141). -/
def trafficEntered (t : Telegram) (u : Upstream) : Upstream :=
  match u.sending with
  | none => { u with sending := some (.traffic t), control := 0 }
  | some _ => { u with traffic := u.traffic ++ [t] }

/-- A raised notice (R139); an idle transmitter starts it at once. -/
def noticeRaised (e : NoticeEvent) (s : State) : State :=
  arbiterIfIdle (raiseNotice e s)

/-- A MGMT telegram taken, executed and answered (R150, R155): port U counts it received, the reply goes upstream and is
stored, and its sequence is accepted. Nothing else changes. -/
def answered (h : MgmtHead) (status : MgmtStatus) (data : List Byte) (s : State) : State :=
  { countReceived .u s with
    up := replyPlaced (buildReply s.ownAddress h status data) s.up
    agent := { s.agent with stored := some (buildReply s.ownAddress h status data), lastSeq := h.seq } }

/-- A MGMT telegram taken and answered without being accepted (R149, acts 3 and 6): the agent record does not change. -/
def turnedAway (h : MgmtHead) (status : MgmtStatus) (data : List Byte) (s : State) : State :=
  { countReceived .u s with up := replyPlaced (buildReply s.ownAddress h status data) s.up }

/-- A MGMT telegram with the next sequence reaches its command (R149, act 5; R155, step 1 not applying). -/
structure MgmtReady (s : State) (seq : Byte) : Prop where
  running : s.resetHeld = false
  rests : UpstreamRests s
  room : s.up.outbox.length < 4
  synced : s.agent.sync = .synced
  next : seq = s.agent.lastSeq + 1
  noRestart : s.agent.restartPending = false

/-- A slot already QUEUED joins the tail of its segment's send queue; a FREE transmitter starts it at once (R70, R76,
R78, R79). -/
def queueJoined (k : Segment) (i : SlotIx) (s : State) : State :=
  if (s.seg k).record = .none ∧ s.inService k = true then startSlot k i [] s
  else s.setSeg k { s.seg k with queue := (s.seg k).queue ++ [i] }

/-- A refusal counted, and its REPLY upstream or discarded with a second counter (R55, R65). -/
def refused (t : Telegram) (s : State) : State :=
  if s.trafficHasRoom then { countRefused (countReceived .u s) with up := trafficEntered t s.up }
  else countDiscarded (countRefused (countReceived .u s))

/-! ### What the controller is still to receive (R135, R136, R138, R139) -/

/-- The REPLY and CHANGE telegrams on their way up, in the order the controller receives them: the one on port U's wire,
the Traffic Queue, and the replies of the slots in the Reply Wait List. -/
def trafficOwed (s : State) : List Telegram :=
  (match s.up.sending with
    | some (.traffic t) => [t]
    | _ => []) ++ s.up.traffic ++ s.up.waitList.map (fun i => slotReply (s.slot i))

/-- The notices on their way up. -/
def noticesOwed (s : State) : List Notice :=
  (match s.up.sending with
    | some (.notice n) => [n]
    | _ => []) ++ s.up.notices

/-- The management replies on their way up. -/
def repliesOwed (s : State) : List MgmtReply :=
  (match s.up.sending with
    | some (.mgmt r) => [r]
    | _ => []) ++ s.up.outbox

/-- The notices on their way up after one more is raised: with the next number and the pending-lost count, or lost when
the Notice Queue holds 16 (R139). -/
def noticesWith (e : NoticeEvent) (s : State) : List Notice :=
  if s.up.notices.length < 16 then
    noticesOwed s ++ [⟨s.agent.ctrlAddr, s.ownAddress, s.up.nextNotice, s.up.pendingLost, e⟩]
  else noticesOwed s

/-- The REPLY an exchange ends with (R91). -/
def slotAnswer (x : Slot) (status : ReplyStatus) (values : List Word) : Telegram :=
  { kind := 2, dst := x.ctrlAddr, src := x.logStation, tag := x.ctrlTag, opStatus := replyStatusCode status,
    index := x.logIndex, count := if status = .ok then x.count else 0, values := values }

/-- A slot whose exchange has been answered: FREE once its reply is in the Traffic Queue, else REPLY_READY with it (R92,
R93). -/
def slotDone (x y : Slot) (status : ReplyStatus) (values : List Word) : Prop :=
  y = Slot.cleared x.cur x.next ∨
    y = { x with state := .replyReady, deadline := .stopped, built := some ⟨status, values⟩ }

/-! ### What an answer does to a drain (R168, R170, R173, R174) -/

/-- Answering these slots ends no drain: none is on, or another exchange of the current generation stays open. -/
def NoDrainEnds (s : State) (answered : SlotIx → Prop) : Prop :=
  s.commit.state = .idle ∨ ∃ j, ¬ answered j ∧ (s.slot j).generation = s.store.generation ∧
    ((s.slot j).state = .held ∨ isActive (s.slot j).state)

/-- Answering these slots ends the drain: no other exchange is open. -/
def DrainEnds (s : State) (answered : SlotIx → Prop) : Prop :=
  s.commit.state = .draining ∧ ∀ j, ¬ answered j → (s.slot j).state ≠ .held ∧ ¬ isActive (s.slot j).state

/-- One exchange before and after: only where its slot stands, its transmissions and its built reply may differ. -/
def SameExchange (x y : Slot) : Prop :=
  { y with state := x.state, cur := x.cur, next := x.next, deadline := x.deadline, built := x.built } = x

/-- What drain completion leaves (R173, R174), for a taking that first gave these answers and left the station records as
`stands` says: the banks swapped, the cache and the parked list empty, the commit state IDLE; and each parked slot its
station's active slot or HELD behind it, in parked-list order, or answered where `stands` has the station SILENT. -/
structure DrainEnded (s : State) (answered : SlotIx → Prop) (answers : List Telegram)
    (stands : Segment → StationAddr → Station) (t : State) : Prop where
  store : t.store = s.store.swap
  cache : t.cache = []
  parked : t.parked = []
  commit : t.commit = ⟨.idle, none, .stopped⟩
  traffic : trafficOwed t = trafficOwed s ++ answers ++
    (s.parked.filter (fun j => decide ((stands (s.slot j).seg (s.slot j).station).health = .silent))).map
      (fun j => slotAnswer (s.slot j) .stationSilent [])
  replies : repliesOwed t = repliesOwed s
  stations : ∀ k a, { t.station k a with due := (stands k a).due } =
    if (stands k a).health = .silent then { stands k a with activeSlot := none, held := [] }
    else { stands k a with
      activeSlot := (s.parked.filter (fun j => decide ((s.slot j).seg = k ∧ (s.slot j).station = a))).head?
      held := (s.parked.filter (fun j => decide ((s.slot j).seg = k ∧ (s.slot j).station = a))).tail }
  placed : ∀ j ∈ s.parked, SameExchange (s.slot j) (t.slot j) ∨ (t.slot j).state = .free
  others : ∀ j, ¬ answered j → j ∉ s.parked → t.slot j = s.slot j
  agent : t.agent = s.agent

/-! ### Telegrams as bytes (sections 1.4 and 1.5) -/

/-- The MGMT telegram of a command code, as its row. -/
def mgmtCommand (code src seq : Byte) (args : List Byte) : Instr :=
  match code.toNat with
  | 1 => .sync src seq args
  | 2 => .readInfo src seq args
  | 3 => .setTiming src seq args
  | 4 => .writeMap src seq args
  | 5 => .clearMap src seq args
  | 6 => .writeEdit src seq args
  | 7 => .clearEdit src seq args
  | 8 => .writePage src seq args
  | 9 => .readMap src seq args
  | 10 => .readEdit src seq args
  | 11 => .readPage src seq args
  | 12 => .copyBank src seq args
  | 13 => .commit src seq args
  | 14 => .abortCommit src seq args
  | 15 => .readStation src seq args
  | 16 => .resetStation src seq args
  | 17 => .readSlot src seq args
  | 18 => .readCounters src seq args
  | 19 => .restart src seq args
  | _ => .unknownCommand code src seq args

/-- A telegram a port can receive, with the port and its body (R13, section 1.4). -/
inductive TelegramOf (own : Byte) : Instr → Port → List Byte → Prop where
  | request (dst src tag rest) : TelegramOf own (.request dst src tag rest) .u ([1, dst, src, tag] ++ rest)
  | mgmt (code src seq args) :
    TelegramOf own (mgmtCommand code src seq args) .u ([4, own, src, seq, code, byteOf args.length] ++ args)
  | reply (k dst src tag status index count values) :
    TelegramOf own (.reply k dst src tag status index count values) k.port
      ([2, dst, src, tag, status] ++ wordBytes index ++ [count] ++ wordsBytes values)
  | change (k dst src tag index value) :
    TelegramOf own (.change k dst src tag index value) k.port
      ([3, dst, src, tag, 0] ++ wordBytes index ++ [1] ++ wordBytes value)

/-! ### Arguments the checks accept (R23, R26, R28) -/

/-- The argument bytes of a WRITE_MAP that stores `e` at `ix`: the deadband and refresh are free without DEADBAND. -/
structure MapArgs (args : List Byte) (ix : MapIx) (e : MapEntry) : Prop where
  inRange : EntryInRange e
  bytes : ∃ limit refresh : Word,
    (∀ l r, e.policy = .deadband l r → limit = l ∧ refresh = r) ∧
    args = [byteOf ix.val, e.station] ++ wordBytes e.first ++ wordBytes e.last ++ [segmentCode e.seg, addrByte e.phys]
      ++ wordBytes e.base ++ [accessCode e.access, refCode e.downEdit, refCode e.upEdit, policyCode e.policy]
      ++ wordBytes limit ++ wordBytes refresh

/-- The argument bytes of a WRITE_EDIT that stores `r` at `ix`. -/
structure EditArgs (args : List Byte) (ix : EditIx) (r : EditRecord) : Prop where
  inRange : RecordInRange r
  bytes : args = [byteOf ix.val, typeCode r.inType, typeCode r.outType, overflowCode r.overflow, missCode r.miss,
    byteOf r.steps.length] ++ r.steps.flatMap stepBytes

/-- The argument bytes of a WRITE_PAGE that writes the words `ws` from input `first` on. -/
structure PageArgs (args : List Byte) (ix : PageIx) (first : Nat) (ws : List Word) : Prop where
  count : 1 ≤ ws.length ∧ ws.length ≤ 8
  room : first + ws.length ≤ 64
  bytes : args = [byteOf ix.val, byteOf first, byteOf ws.length] ++ wordsBytes ws

/-- The argument bytes of a WRITE_PAGE that writes the default word. -/
def PageDefaultArgs (args : List Byte) (ix : PageIx) (w : Word) : Prop :=
  args = [byteOf ix.val, 255, 1] ++ wordBytes w

/-- The bytes from byte 4 up to the check of a well-formed REQUEST (R56). -/
structure RequestBytes (rest : List Byte) (op : Op) (index : Word) (count : Byte) (values : List Word) : Prop where
  range : 1 ≤ count.toNat ∧ count.toNat ≤ 8
  carried : values.length = match op with
    | .read => 0
    | .write => count.toNat
  bytes : rest = [opCode op] ++ wordBytes index ++ [count] ++ wordsBytes values

/-! ### What the checks of admission read (R55 to R63) -/

/-- A REQUEST that passes the checks of form, address, map and access, with the entry found. -/
structure Mapped (s : State) (dst : Byte) (rest : List Byte) (op : Op) (index : Word) (count : Byte)
    (values : List Word) (e : MapEntry) : Prop where
  running : s.resetHeld = false
  form : RequestBytes rest op index count values
  address : dst ≠ s.ownAddress
  map : s.judgingBank.forward dst index count.toNat = some e
  access : e.access = .readWrite ∨ (e.access = .readOnly ∧ op = .read) ∨ (e.access = .writeOnly ∧ op = .write)

/-- A REQUEST that passes every check: its station is not SILENT, its values stand, and `i` is the lowest FREE slot. -/
structure Admitted (s : State) (dst : Byte) (rest : List Byte) (op : Op) (index : Word) (count : Byte)
    (values : List Word) (e : MapEntry) (written : List Word) (i : SlotIx) : Prop where
  mapped : Mapped s dst rest op index count values e
  station : (s.station e.seg e.phys).health ≠ .silent
  edit : match op with
    | .read => written = []
    | .write => editValues s.judgingBank e.downEdit values = some written
  slot : (s.slot i).state = .free
  lowest : ∀ j : SlotIx, j < i → (s.slot j).state ≠ .free

/-- What the entry's conditions (a) to (d) ask (R31). -/
def Breaks (b : Bank) (s1Present : Bool) (ix : MapIx) (e : MapEntry) : ValidityReason → Prop
  | .overlapLogical => ∃ jx f, jx < ix ∧ b.entry jx = some f ∧ f.station = e.station ∧
      e.first.toNat ≤ f.last.toNat ∧ f.first.toNat ≤ e.last.toNat
  | .overlapPhysical => ∃ jx f, jx < ix ∧ b.entry jx = some f ∧ f.seg = e.seg ∧ f.phys = e.phys ∧
      e.base.toNat ≤ f.base.toNat + (f.last.toNat - f.first.toNat) ∧
      f.base.toNat ≤ e.base.toNat + (e.last.toNat - e.first.toNat)
  | .undefinedEdit => ∃ r, (e.downEdit = some r ∨ e.upEdit = some r) ∧ b.edits[r] = none
  | .segmentAbsent => e.seg = .s1 ∧ s1Present = false

end Sys2Proof.Safety
end

