-- ==== Sys2Proof/Certificates/Slice0/Obligations.lean ====
section
/-! DEFINITION. The statements for the provers, from the numbered rules of the spec. A statement about a telegram or an
expiry assumes RESET_N is not held low, and, where its wording needs it, that port U's transmitter or a segment's
dispatcher rests only with nothing to send (`UpstreamRests`, `DispatcherRests`), which the invariant statements cover. -/

section Statements

open Sys2Proof Sys2Proof.Machine Sys2Proof.Safety

/-! ### The queue of commands -/

/-- A step takes the command at the front of the queue with the queue's rest in place; on an empty queue the block idles
(the model's choice, log entry 1). -/
def Obligations.StepTakesTheFrontCommand : Prop :=
  (∀ (c : Instr) (rest : List Instr) (s : State), s.pending = c :: rest → step s = exec c { s with pending := rest }) ∧
  (∀ s : State, s.pending = [] → step s = .next s)

/-- No command faults or is refused, and none changes the queue of waiting commands. -/
def Obligations.EveryCommandAnswersNext : Prop :=
  ∀ (c : Instr) (s : State), ∃ t, exec c s = .next t ∧ t.pending = s.pending

/-! ### Pins (R10, R180 to R182) -/

/-- PIN_RESET_RELEASE: every block at its pin-reset value, the straps sampled, and STARTED, number 0, started at once
(R182). The state right after reset is that of ADDR 0 with S1 present (the model's choice, log entry 4). -/
def Obligations.PinResetReleaseGivesTheResetValues : Prop :=
  (∀ (addr : BitVec 4) (s1En : Bool) (s : State), exec (.pinResetRelease addr s1En) s = .next
    { resetHeld := false, ownAddress := 240 + addr.setWidth 8, s1Present := s1En,
      store :=
        { bankA := { map := Vector.replicate 128 none, edits := Vector.replicate 64 none,
                     pages := Vector.replicate 8 { words := Vector.replicate 64 0, dflt := 0 } },
          bankB := { map := Vector.replicate 128 none, edits := Vector.replicate 64 none,
                     pages := Vector.replicate 8 { words := Vector.replicate 64 0, dflt := 0 } },
          active := .a, generation := 0 },
      slots := Vector.replicate 32 (Slot.cleared 0 0), parked := [],
      seg0 := { queue := [], record := .none, probe := .idle,
                stations := Vector.replicate 31 ⟨.unknown, 0, none, [], .stopped, false⟩ },
      seg1 := { queue := [], record := .none, probe := .idle,
                stations := Vector.replicate 31 ⟨.unknown, 0, none, [], .stopped, false⟩ },
      cache := [], commit := { state := .idle, incoming := none, drainTimer := .stopped },
      up := { traffic := [], waitList := [], outbox := [], notices := [], nextNotice := 1, pendingLost := 0,
              control := 1,
              sending := some (.notice ⟨0, 240 + addr.setWidth 8, 0, 0,
                .started .pin 0 (240 + addr.setWidth 8) s1En⟩) },
      agent := { sync := .unsynced, lastSeq := 0, stored := none, ctrlAddr := 0, restartPending := false,
                 replyTimeout := 20, retries := 2, silentThreshold := 3, probeInterval := 10, drainLimit := 500 },
      counters := ⟨⟨0, 0, 0, 0⟩, ⟨0, 0, 0, 0⟩, ⟨0, 0, 0, 0⟩, ⟨0, 0, 0, 0, 0, 0, 0, 0⟩, ⟨0, 0, 0⟩, ⟨0, 0, 0⟩⟩,
      pending := s.pending }) ∧
  ∀ s : State, s.pending = [] → exec (.pinResetRelease 0 true) s = .next State.reset

/-- PIN_RESET_ASSERT stops every transmitter and every timer, an outstanding probe's deadline among them, and changes
nothing else (R10, R180, R181; that all else moves only at the release is the model's reading, log entry 6). -/
def Obligations.PinResetAssertStopsTransmittersAndTimers : Prop :=
  ∀ s : State, ∃ t, exec .pinResetAssert s = .next t ∧
    t.resetHeld = true ∧ t.up = { s.up with sending := none } ∧
    (∀ k, (t.seg k).record = .none ∧ (t.seg k).queue = (s.seg k).queue) ∧
    (∀ k, (t.seg k).probe = match (s.seg k).probe with
      | .idle => .idle
      | .sending a => .sending a
      | .awaiting a _ => .awaiting a .stopped) ∧
    (∀ k a, t.station k a = { s.station k a with dueTimer := .stopped }) ∧
    (∀ i, t.slot i = { s.slot i with deadline := .stopped }) ∧
    t.cache = s.cache.map (fun c => { c with countdown := .stopped }) ∧
    t.commit = { s.commit with drainTimer := .stopped } ∧
    t.ownAddress = s.ownAddress ∧ t.s1Present = s.s1Present ∧ t.store = s.store ∧ t.parked = s.parked ∧
    t.agent = s.agent ∧ t.counters = s.counters ∧ t.pending = s.pending

/-- While RESET_N is held low nothing is taken but the pins themselves; a stopped timer produces no expiry; and no
transmission ends that is not on a wire (R9, R180, R181; that such a command then changes nothing is the model's reading,
log entry 3). -/
def Obligations.EventsThatDoNotOccurChangeNothing : Prop :=
  (∀ (c : Instr) (s : State), s.resetHeld = true → c ≠ .pinResetAssert → (∀ addr s1En, c ≠ .pinResetRelease addr s1En) →
    exec c s = .next s) ∧
  (∀ s : State,
    (∀ i, (s.slot i).state ≠ .sent ∨ (s.slot i).deadline = .stopped → exec (.slotDeadlineExpiry i) s = .next s) ∧
    (∀ k a, (s.station k a).dueTimer = .stopped → exec (.probeDueExpiry k a) s = .next s) ∧
    (∀ k, (∀ a d, (s.seg k).probe ≠ .awaiting a (.running d)) → exec (.probeDeadlineExpiry k) s = .next s) ∧
    (∀ st ix, (∀ c ∈ s.cache, c.station = st → c.index = ix → c.countdown = .stopped) →
      exec (.refreshCountdownExpiry st ix) s = .next s) ∧
    (s.commit.state = .idle ∨ s.commit.drainTimer = .stopped → exec .drainExpiry s = .next s) ∧
    (∀ k, (s.seg k).record = .none → exec (.segmentTransmissionEnd k) s = .next s) ∧
    (s.up.sending = none → exec .portUTransmissionEnd s = .next s))

/-! ### Blocks at a port (R1 to R7, R18) -/

/-- FRAMING_DISCARD on a port in service: the three tests in order, each failure counted once and nothing else changed
(R2, R18); and the check of the manual's nine-byte example is 29B1h, sent as 29h then B1h (R1). -/
def Obligations.FramingTestsCountTheFirstFailure : Prop :=
  (∀ (p : Port) (s : State), s.resetHeld = false → (p = .s1 → s.s1Present = true) →
    (∀ block : List Byte, block.length < 8 ∨ 64 < block.length →
      exec (.framingDiscard p block) s = .next (countMalformed p s)) ∧
    (∀ (body : List Byte) (c1 c0 : Byte), 6 ≤ body.length → body.length ≤ 62 → [c1, c0] ≠ wordBytes (check body) →
      exec (.framingDiscard p (body ++ [c1, c0])) s = .next (countCheckError p s)) ∧
    (∀ (kind : Byte) (body : List Byte), 5 ≤ body.length → body.length ≤ 61 →
      (p = .u → kind ≠ 1 ∧ kind ≠ 4) → (p ≠ .u → kind ≠ 2 ∧ kind ≠ 3) →
      exec (.framingDiscard p (withCheck (kind :: body))) s = .next (countMalformed p s))) ∧
  (check [0x31, 0x32, 0x33, 0x34, 0x35, 0x36, 0x37, 0x38, 0x39] = 0x29B1 ∧
  withCheck [0x31, 0x32, 0x33, 0x34, 0x35, 0x36, 0x37, 0x38, 0x39] =
    [0x31, 0x32, 0x33, 0x34, 0x35, 0x36, 0x37, 0x38, 0x39, 0x29, 0xB1])

/-- A framed MGMT, REPLY or CHANGE that breaks its port's form is counted malformed and changes nothing else (R5, R6); so
is every REPLY and CHANGE of 8 or 9 bytes, which has no room for its fields (R6). -/
def Obligations.FormFailuresCountMalformed : Prop :=
  (∀ (dst src seq code n : Byte) (args : List Byte) (s : State), s.resetHeld = false → args.length ≤ 56 →
    (32 < n.toNat ∨ args.length ≠ n.toNat ∨ dst ≠ s.ownAddress) →
    exec (.framingDiscard .u (withCheck ([4, dst, src, seq, code, n] ++ args))) s = .next (countMalformed .u s)) ∧
  (∀ (k : Segment) (dst src tag status : Byte) (index : Word) (count : Byte) (vs : List Byte) (s : State),
    s.resetHeld = false → s.inService k = true → vs.length ≤ 54 →
    ((status = 0 ∧ (count = 0 ∨ 8 < count.toNat ∨ (vs ≠ [] ∧ vs.length ≠ 2 * count.toNat))) ∨
      (status ≠ 0 ∧ (count ≠ 0 ∨ vs ≠ []))) →
    exec (.framingDiscard k.port
      (withCheck ([2, dst, src, tag, status] ++ wordBytes index ++ [count] ++ vs))) s
      = .next (countMalformed k.port s)) ∧
  (∀ (k : Segment) (dst src tag status : Byte) (index : Word) (count : Byte) (vs : List Byte) (s : State),
    s.resetHeld = false → s.inService k = true → vs.length ≤ 54 →
    (status ≠ 0 ∨ count ≠ 1 ∨ vs.length ≠ 2) →
    exec (.framingDiscard k.port
      (withCheck ([3, dst, src, tag, status] ++ wordBytes index ++ [count] ++ vs))) s
      = .next (countMalformed k.port s)) ∧
  (∀ (k : Segment) (kind : Byte) (rest : List Byte) (s : State), s.resetHeld = false → s.inService k = true →
    (kind = 2 ∨ kind = 3) → (rest.length = 5 ∨ rest.length = 6) →
    exec (.framingDiscard k.port (withCheck (kind :: rest))) s = .next (countMalformed k.port s))

/-- S1_ABSENT_DISCARD: while S1 is absent every block on it counts malformed and does nothing else, and the dispatcher
of segment 1 hands its transmitter nothing (R7). -/
def Obligations.AbsentSegmentDiscardsEveryBlock : Prop :=
  ∀ s : State, s.resetHeld = false → s.s1Present = false →
    (∀ block : List Byte, exec (.s1AbsentDiscard block) s = .next (countMalformed .s1 s) ∧
      exec (.framingDiscard .s1 block) s = .next (countMalformed .s1 s)) ∧
    dispatchIfIdle .s1 s = s

/-- The bytes of a telegram with its check, received whole, are the telegram's own command: every field of every row is
read back from its place (R1 to R6, R13, R14). That FRAMING_DISCARD, and S1_ABSENT_DISCARD with S1 present, hands over a
block that passes its tests is the model's reading of the two rows (log entry 8). -/
def Obligations.FramedTelegramIsItsCommand : Prop :=
  ∀ (s : State) (c : Instr) (p : Port) (body : List Byte),
    TelegramOf s.ownAddress c p body → c.wellFormed = true → (p = .s1 → s.s1Present = true) →
    exec (.framingDiscard p (withCheck body)) s = exec c s ∧
      (p = .s1 → exec (.s1AbsentDiscard (withCheck body)) s = exec c s)

/-! ### REQUEST (chapter 4) -/

/-- The checks of R55 in order: a REQUEST that passes the earlier checks and fails one is refused with that check's
status, and its refusal goes up or is discarded (R55 to R65). Nothing else changes. -/
def Obligations.RefusedRequestGetsTheFirstFailedStatus : Prop :=
  ∀ (dst src tag : Byte) (rest : List Byte) (op : Op) (index : Word) (count : Byte) (values : List Word) (e : MapEntry)
    (s : State), s.resetHeld = false → UpstreamRests s →
    let ends (ix : Word) (status : Byte) := exec (.request dst src tag rest) s =
      .next (refused { kind := 2, dst := src, src := dst, tag := tag, opStatus := status, index := ix, count := 0,
                       values := [] } s)
    (2 ≤ rest.length → rest.length ≤ 3 → ends 0 0x42) ∧
    (4 ≤ rest.length → rest.length ≤ 58 → (¬ ∃ o ix n vs, RequestBytes rest o ix n vs) →
      ends (wordOf (rest.getD 1 0) (rest.getD 2 0)) 0x42) ∧
    (RequestBytes rest op index count values → dst = s.ownAddress → ends index 0x49) ∧
    (RequestBytes rest op index count values → dst ≠ s.ownAddress →
      s.judgingBank.forward dst index count.toNat = none → ends index 0x40) ∧
    (RequestBytes rest op index count values → dst ≠ s.ownAddress →
      s.judgingBank.forward dst index count.toNat = some e →
      ((e.access = .readOnly ∧ op = .write) ∨ (e.access = .writeOnly ∧ op = .read)) → ends index 0x41) ∧
    (Mapped s dst rest op index count values e → (s.station e.seg e.phys).health = .silent → ends index 0x44) ∧
    (Mapped s dst rest op index count values e → (s.station e.seg e.phys).health ≠ .silent → op = .write →
      editValues s.judgingBank e.downEdit values = none → ends index 0x43) ∧
    (Mapped s dst rest op index count values e → (s.station e.seg e.phys).health ≠ .silent →
      (op = .write → editValues s.judgingBank e.downEdit values ≠ none) →
      (∀ j : SlotIx, (s.slot j).state ≠ .free) → ends index 0x46)

/-- A REQUEST admitted while IDLE takes the lowest FREE slot and is placed QUEUED behind its segment's queue when its
station has no active slot, else HELD behind the station's held list; while DRAINING it is PARKED behind the parked list
with the incoming generation, and no station record and no send queue changes (R58, R63, R66 to R70). Nothing else changes. -/
def Obligations.AdmittedRequestIsPlaced : Prop :=
  (∀ (dst src tag : Byte) (rest : List Byte) (op : Op) (index : Word) (count : Byte) (values : List Word) (e : MapEntry)
    (written : List Word) (i : SlotIx) (s : State),
    Admitted s dst rest op index count values e written i → s.commit.state = .idle → UpstreamRests s →
    DispatcherRests s e.seg →
    let x (st : SlotState) : Slot :=
      { state := st, ctrlAddr := src, ctrlTag := tag, logStation := dst, logIndex := index, count := count, op := op,
        seg := e.seg, station := e.phys, physIndex := e.base + (index - e.first), writeValues := written,
        upEdit := e.upEdit, generation := s.store.generation, retriesLeft := s.agent.retries, cur := (s.slot i).cur,
        next := (s.slot i).next, deadline := .stopped, built := none }
    let r := s.station e.seg e.phys
    let counted := countAdmitted (countReceived .u s)
    (r.activeSlot = none → exec (.request dst src tag rest) s = .next
      (queueJoined e.seg i ((counted.setSlot i (x .queued)).setStation e.seg e.phys { r with activeSlot := some i }))) ∧
    (∀ j, r.activeSlot = some j → exec (.request dst src tag rest) s = .next
      ((counted.setSlot i (x .held)).setStation e.seg e.phys { r with held := r.held ++ [i] }))) ∧
  (∀ (dst src tag : Byte) (rest : List Byte) (op : Op) (index : Word) (count : Byte) (values : List Word) (e : MapEntry)
    (written : List Word) (i : SlotIx) (s : State),
    Admitted s dst rest op index count values e written i → s.commit.state = .draining → UpstreamRests s →
    s.commit.incoming = some (s.store.generation + 1) →
    s.judgingBank = s.store.shadowBank ∧
    exec (.request dst src tag rest) s = .next
      { (countAdmitted (countReceived .u s)).setSlot i
          { state := .parked, ctrlAddr := src, ctrlTag := tag, logStation := dst, logIndex := index, count := count,
            op := op, seg := e.seg, station := e.phys, physIndex := e.base + (index - e.first), writeValues := written,
            upEdit := e.upEdit, generation := s.store.generation + 1, retriesLeft := s.agent.retries,
            cur := (s.slot i).cur, next := (s.slot i).next, deadline := .stopped, built := none } with
        parked := s.parked ++ [i] })

/-! ### Lookups and validity (R31 to R35) -/

/-- In a valid bank a forward or reverse lookup finds the one valid entry that covers the address, or nothing; no second
entry covers it (R33 to R35). -/
def Obligations.LookupsFindTheOnlyEntry : Prop :=
  ∀ (b : Bank) (s1Present : Bool), b.valid s1Present = true →
    (∀ (station : Byte) (x : Word) (c : Nat) (e : MapEntry), 1 ≤ c →
      (b.forward station x c = some e ↔ ∃ ix, b.entry ix = some e ∧ e.station = station ∧ e.first.toNat ≤ x.toNat ∧
        x.toNat ≤ e.last.toNat ∧ x.toNat + c - 1 ≤ e.last.toNat)) ∧
    (∀ (k : Segment) (a : StationAddr) (y : Word) (e : MapEntry),
      (b.reverse k (addrByte a) y = some e ↔ ∃ ix, b.entry ix = some e ∧ e.seg = k ∧ e.phys = a ∧
        e.base.toNat ≤ y.toNat ∧ y.toNat ≤ e.base.toNat + (e.last.toNat - e.first.toNat))) ∧
    (∀ (ix jx : MapIx) (e f : MapEntry) (x : Nat), b.entry ix = some e → b.entry jx = some f →
      (e.station = f.station ∧ e.containsLogical x = true ∧ f.containsLogical x = true ∨
        e.seg = f.seg ∧ e.phys = f.phys ∧ e.containsPhysical x = true ∧ f.containsPhysical x = true) → ix = jx)

/-- The examination of a bank: valid when no valid entry breaks (a) to (d); else the first condition broken by the
lowest-indexed faulty entry, with that index (R31, R32). -/
def Obligations.ExaminationReportsTheFirstFault : Prop :=
  (validityReasonCode .overlapLogical = 1 ∧ validityReasonCode .overlapPhysical = 2 ∧
    validityReasonCode .undefinedEdit = 3 ∧ validityReasonCode .segmentAbsent = 4) ∧
  ∀ (b : Bank) (s1Present : Bool),
    (b.examine s1Present = none ↔ ∀ ix e r, b.entry ix = some e → ¬ Breaks b s1Present ix e r) ∧
    ∀ (reason : ValidityReason) (ix : MapIx), b.examine s1Present = some (reason, ix) ↔
      (∃ e, b.entry ix = some e ∧ Breaks b s1Present ix e reason ∧
        ∀ r, (validityReasonCode r).toNat < (validityReasonCode reason).toNat → ¬ Breaks b s1Present ix e r) ∧
      ∀ jx f r, jx < ix → b.entry jx = some f → ¬ Breaks b s1Present jx f r

/-! ### The Edit Engine (chapter 3) -/

/-- How the input word enters the working value, for each input type (R40 to R42). -/
def Obligations.EditInputReadsTheWord : Prop :=
  ∀ word : Word,
    takeInput .unsigned word = ⟨word.toNat, ⟨false, false, false, false⟩⟩ ∧
    takeInput .signed word =
      ⟨if word.toNat ≤ 0x7FFF then word.toNat else (word.toNat : Int) - 65536, ⟨false, false, false, false⟩⟩ ∧
    (∀ d3 d2 d1 d0 : Nat, d3 ≤ 15 → d2 ≤ 15 → d1 ≤ 15 → d0 ≤ 15 →
      word.toNat = 4096 * d3 + 256 * d2 + 16 * d1 + d0 →
      takeInput .decimal word =
        if d3 ≤ 9 ∧ d2 ≤ 9 ∧ d1 ≤ 9 ∧ d0 ≤ 9 then
          ⟨(1000 * d3 + 100 * d2 + 10 * d1 + d0 : Nat), ⟨false, false, false, false⟩⟩
        else ⟨0, ⟨false, false, true, false⟩⟩)

/-- Steps are visited in list order: one whose guard fails changes nothing, one whose guard passes sets Z and N from its
result (R40, R43). The result of ADD, LIMIT, the bit operations and TRANSLATE, with what each does to V and M (R44, R46 to
R48). -/
def Obligations.StepsObeyTheirGuardsAndRules : Prop :=
  ((∀ (bank : Bank) (x : Working), runSteps bank [] x = x) ∧
  (∀ (bank : Bank) (st : EditStep) (rest : List EditStep) (x : Working),
    runSteps bank (st :: rest) x = runSteps bank rest (visitStep bank x st)) ∧
  (∀ (bank : Bank) (st : EditStep) (x : Working),
    let holds := match st.guard with
      | .always => true
      | .ifZ => x.flags.z
      | .ifNZ => !x.flags.z
      | .ifN => x.flags.n
      | .ifNN => !x.flags.n
      | .ifV => x.flags.v
      | .ifM => x.flags.m
    (holds = false → visitStep bank x st = x) ∧
    (holds = true →
      visitStep bank x st = { stepResult bank st x with
        flags := { (stepResult bank st x).flags with
          z := decide ((stepResult bank st x).w = 0), n := decide ((stepResult bank st x).w < 0) } }))) ∧
  (∀ (bank : Bank) (g : Guard) (a b : Word) (x : Working),
    stepResult bank ⟨.add, g, a, b⟩ x = { x with w := x.w + a.toInt } ∧
    (a.toInt ≤ b.toInt → stepResult bank ⟨.limit, g, a, b⟩ x =
      { x with w := if x.w < a.toInt then a.toInt else if b.toInt < x.w then b.toInt else x.w }) ∧
    (∀ (op : StepOp) (mask : Word → Word),
      (op = .setBits ∧ mask = (· ||| a) ∨ op = .clearBits ∧ mask = (· &&& ~~~a) ∨ op = .flipBits ∧ mask = (· ^^^ a)) →
      stepResult bank ⟨op, g, a, b⟩ x =
        { w := ((mask (BitVec.ofNat 16 (x.w % 65536).toNat)).toNat : Int),
          flags := { x.flags with v := x.flags.v || decide (x.w < 0 ∨ 65535 < x.w) } }) ∧
    (∀ p : PageIx, a.toNat = p.val →
      (∀ n : Fin 64, x.w = (n.val : Int) → stepResult bank ⟨.translate, g, a, b⟩ x =
        { x with w := ((bank.pages[p].words[n]).toNat : Int) }) ∧
      (x.w < 0 ∨ 63 < x.w → stepResult bank ⟨.translate, g, a, b⟩ x =
        { w := ((bank.pages[p].dflt).toNat : Int), flags := { x.flags with m := true } })))

/-- SCALE multiplies exactly and rounds once: toward negative infinity for b of 0 to 15, to nearest with halves away
from zero for b of 256 to 271; it sets neither V nor M (R45). -/
def Obligations.ScaleRoundsAsItsSelectorSays : Prop :=
  ∀ (bank : Bank) (g : Guard) (a b : Word) (x : Working) (s : Nat), s ≤ 15 →
    let y := stepResult bank ⟨.scale, g, a, b⟩ x
    let product := x.w * a.toInt
    y.flags = x.flags ∧
    (b.toNat = s → y.w * 2 ^ s ≤ product ∧ product < (y.w + 1) * 2 ^ s) ∧
    (b.toNat = 256 + s →
      2 * |product - y.w * 2 ^ s| ≤ 2 ^ s ∧
      (2 * |product - y.w * 2 ^ s| = 2 ^ s → |product| < |y.w| * 2 ^ s))

/-- The output type bounds and encodes the working value, and the verdict follows (R49, R50). -/
def Obligations.OutputIsBoundedEncodedAndJudged : Prop :=
  ∀ (bank : Bank) (r : EditRecord) (word : Word),
    let x := runSteps bank r.steps (takeInput r.inType word)
    let low : Int := match r.outType with
      | .unsigned => 0
      | .signed => -32768
      | .decimal => 0
    let high : Int := match r.outType with
      | .unsigned => 65535
      | .signed => 32767
      | .decimal => 9999
    let w : Int := if x.w < low then low else if high < x.w then high else x.w
    let v : Bool := x.flags.v || decide (x.w < low ∨ high < x.w)
    ((v = true ∧ r.overflow = .reject ∨ x.flags.m = true ∧ r.miss = .reject) → applyRecord bank r word = none) ∧
    (¬ (v = true ∧ r.overflow = .reject ∨ x.flags.m = true ∧ r.miss = .reject) →
      ∃ out, applyRecord bank r word = some out ∧
        match r.outType with
        | .unsigned => (out.toNat : Int) = w
        | .signed => out.toInt = w
        | .decimal => out.toNat =
            4096 * (w.toNat / 1000) + 256 * (w.toNat / 100 % 10) + 16 * (w.toNat / 10 % 10) + w.toNat % 10)

/-- The values of a telegram: unchanged without an edit; else each by its own application, in order, or rejected whole at
one reject (R51, R52). -/
def Obligations.TelegramValuesAreEditedOneByOne : Prop :=
  ∀ (bank : Bank) (values : List Word),
    editValues bank none values = some values ∧
    ∀ (e : EditIx) (r : EditRecord), bank.edits[e] = some r →
      (editValues bank (some e) values = none ↔ ∃ v ∈ values, applyRecord bank r v = none) ∧
      (∀ out, editValues bank (some e) values = some out ↔ values.map (applyRecord bank r) = out.map some)

/-! ### Segment dispatch (R77 to R81, R111) -/

/-- The choice of a FREE dispatcher: the lowest-addressed due SILENT station when no probe is outstanding, else the head
of the send queue with its numbers advanced, else nothing (R78, R79, R111, with the telegrams of R11 and R12). -/
def Obligations.DispatcherChoosesProbeThenQueueHead : Prop :=
  ∀ (k : Segment) (s : State),
    (∀ a : StationAddr, (s.seg k).probe = .idle →
      (s.station k a).health = .silent → (s.station k a).due = true →
      (∀ b : StationAddr, b < a → ¬ ((s.station k b).health = .silent ∧ (s.station k b).due = true)) →
      dispatcherChoice k s = s.setSeg k { s.seg k with
        probe := .sending a
        record := .probe ⟨1, byteOf (a.val + 1), s.ownAddress, byteOf (224 + (a.val + 1)), 1, 0, 1, []⟩
        stations := (s.seg k).stations.set a { s.station k a with due := false } }) ∧
    (((s.seg k).probe = .idle → ∀ a : StationAddr, ¬ ((s.station k a).health = .silent ∧ (s.station k a).due = true)) →
      (∀ i rest, (s.seg k).queue = i :: rest →
        let x : Slot := { s.slot i with state := .sending, cur := (s.slot i).next, next := (s.slot i).next + 1 }
        dispatcherChoice k s = (s.setSlot i x).setSeg k { s.seg k with
          queue := rest
          record := .slot i ⟨1, byteOf (x.station.val + 1), s.ownAddress, byteOf (32 * x.cur.val + i.val), opCode x.op,
            x.physIndex, x.count, x.writeValues⟩ }) ∧
      ((s.seg k).queue = [] → dispatcherChoice k s = s))

/-- SEGMENT_TRANSMISSION_END: counted, the SENDING slot becomes SENT and its deadline starts, or the probe becomes
AWAITING, or nothing is acted on; then the dispatcher chooses (R9, R81, R111). -/
def Obligations.SegmentTransmissionEndActsOnItsRecord : Prop :=
  ∀ (k : Segment) (s : State), s.resetHeld = false →
    let chosen (t : State) : State := if t.inService k = true then dispatcherChoice k t else t
    let counted := countTransmitted k.port s
    (∀ i tel, (s.seg k).record = .slot i tel →
      exec (.segmentTransmissionEnd k) s = .next (chosen ((counted.setSlot i
        { s.slot i with state := .sent, deadline := .running s.agent.replyTimeout }).setSeg k
          { s.seg k with record := .none }))) ∧
    (∀ a tel, (s.seg k).record = .probe tel → (s.seg k).probe = .sending a →
      exec (.segmentTransmissionEnd k) s = .next (chosen (counted.setSeg k
        { s.seg k with record := .none, probe := .awaiting a (.running s.agent.replyTimeout) }))) ∧
    (∀ tel, (s.seg k).record = .void tel →
      exec (.segmentTransmissionEnd k) s = .next (chosen (counted.setSeg k { s.seg k with record := .none })))

/-! ### Deadlines (R82 to R84, R95, R96, R106, R108) -/

/-- SLOT_DEADLINE_EXPIRY with retries left: the slot goes back to the tail of its send queue with one retry less, the
retries counter rises, and nothing else changes (R83). -/
def Obligations.ExpiryWithRetriesLeftRetransmits : Prop :=
  ∀ (i : SlotIx) (s : State), s.resetHeld = false → (s.slot i).state = .sent →
    (s.slot i).deadline.isRunning = true → 0 < (s.slot i).retriesLeft → DispatcherRests s (s.slot i).seg →
    exec (.slotDeadlineExpiry i) s = .next (queueJoined (s.slot i).seg i ((countRetry (s.slot i).seg s).setSlot i
      { s.slot i with state := .queued, retriesLeft := (s.slot i).retriesLeft - 1, deadline := .stopped }))

/-- SLOT_DEADLINE_EXPIRY without retries, below the silent threshold: TIMEOUT goes up behind everything owed, the station
becomes SUSPECT, and the head of its held list becomes its active slot (R84, R92, R95, R106), in IDLE and in a drain that
it does not end; for one that it ends see LastReplyOfADrainSwapsTheBanks. -/
def Obligations.FinalFailureMakesTheStationSuspect : Prop :=
  ∀ (i : SlotIx) (s : State), s.resetHeld = false → SlotPlaces s → UpstreamRests s → NoDrainEnds s (· = i) →
    (s.slot i).state = .sent → (s.slot i).deadline.isRunning = true → (s.slot i).retriesLeft = 0 →
    let x := s.slot i
    let r := s.station x.seg x.station
    r.failures + 1 < s.agent.silentThreshold →
    ∃ t, exec (.slotDeadlineExpiry i) s = .next t ∧
      t.counters = (countFinalTimeout x.seg s).counters ∧
      trafficOwed t = trafficOwed s ++ [slotAnswer x .timeout []] ∧ slotDone x (t.slot i) .timeout [] ∧
      { t.station x.seg x.station with due := r.due } = { r with
        health := .suspect, failures := r.failures + 1, activeSlot := r.held.head?, held := r.held.tail } ∧
      (∀ j, r.held.head? = some j → (t.slot j).state = .queued ∨ (t.slot j).state = .sending) ∧
      (∀ j, j ≠ i → r.held.head? ≠ some j → (s.slot j).state ≠ .queued → t.slot j = s.slot j) ∧
      repliesOwed t = repliesOwed s ∧ noticesOwed t = noticesOwed s ∧ t.store = s.store ∧ t.cache = s.cache ∧
      t.commit = s.commit ∧ t.parked = s.parked ∧ t.agent = s.agent

/-- SLOT_DEADLINE_EXPIRY without retries, at the silent threshold: the station turns SILENT with its probe-due timer
running, STATION_SILENT is raised, and its held slots are answered STATION_SILENT behind the TIMEOUT (R84, R95, R96,
R106, R108), in IDLE and in a drain that it does not end; for one that it ends see LastReplyOfADrainSwapsTheBanks. -/
def Obligations.FinalFailureAtTheThresholdSilencesTheStation : Prop :=
  ∀ (i : SlotIx) (s : State), s.resetHeld = false → SlotPlaces s → UpstreamRests s →
    (s.slot i).state = .sent → (s.slot i).deadline.isRunning = true → (s.slot i).retriesLeft = 0 →
    let x := s.slot i
    let r := s.station x.seg x.station
    s.agent.silentThreshold ≤ r.failures + 1 → NoDrainEnds s (fun j => j = i ∨ j ∈ r.held) →
    ∃ t, exec (.slotDeadlineExpiry i) s = .next t ∧
      t.counters = (countFinalTimeout x.seg s).counters ∧
      t.station x.seg x.station =
        ⟨.silent, r.failures + 1, none, [], .running (100 * s.agent.probeInterval), false⟩ ∧
      trafficOwed t = trafficOwed s ++ slotAnswer x .timeout [] ::
        r.held.map (fun j => slotAnswer (s.slot j) .stationSilent []) ∧
      slotDone x (t.slot i) .timeout [] ∧ (∀ j ∈ r.held, slotDone (s.slot j) (t.slot j) .stationSilent []) ∧
      (∀ j, j ≠ i → j ∉ r.held → t.slot j = s.slot j) ∧
      noticesOwed t = noticesWith (.stationSilent x.seg x.station) s ∧ repliesOwed t = repliesOwed s ∧
      t.store = s.store ∧ t.cache = s.cache ∧ t.commit = s.commit ∧ t.parked = s.parked ∧ t.agent = s.agent

/-! ### Replies (R86 to R94, R112) -/

/-- A REPLY that matches no slot and answers no probe changes nothing but two counters (R86, R88). -/
def Obligations.StaleReplyChangesOnlyCounters : Prop :=
  ∀ (k : Segment) (dst src tag status : Byte) (index : Word) (count : Byte) (values : List Word) (s : State),
    s.resetHeld = false → UpstreamRests s → s.inService k = true → replyFormOk status count values = true →
    (tag.toNat / 32 < 7 → ∀ i : SlotIx, i.val = tag.toNat % 32 →
      ¬ ((s.slot i).state = .sent ∧ (s.slot i).seg = k ∧ byteOf ((s.slot i).station.val + 1) = src ∧
        (s.slot i).cur.val = tag.toNat / 32)) →
    (tag.toNat / 32 = 7 → ∀ a d, (s.seg k).probe = .awaiting a d → tag.toNat % 32 = a.val + 1 →
      src ≠ byteOf (a.val + 1)) →
    exec (.reply k dst src tag status index count values) s = .next (countStaleReply k (countReceived k.port s))

/-- The reply a matching REPLY builds, by its status, the slot's op, and its own count and values (R89, R90). -/
def Obligations.MatchingReplyIsJudged : Prop :=
  ∀ (bank : Bank) (x : Slot) (status count : Byte) (values : List Word),
    let judged := judgeReply bank x status count values
    (1 ≤ status.toNat → status.toNat ≤ 31 → judged = ⟨.station status, []⟩ ∧ replyStatusCode judged.status = status) ∧
    (32 ≤ status.toNat → judged = ⟨.stationFault, []⟩) ∧
    (status = 0 → x.op = .write →
      (count = x.count ∧ values = [] → judged = ⟨.ok, []⟩) ∧
      (¬ (count = x.count ∧ values = []) → judged = ⟨.stationFault, []⟩)) ∧
    (status = 0 → x.op = .read →
      (count = x.count → values.length = count.toNat →
        (∀ out, editValues bank x.upEdit values = some out → judged = ⟨.ok, out⟩) ∧
        (editValues bank x.upEdit values = none → judged = ⟨.editReject, []⟩)) ∧
      (count ≠ x.count ∨ values.length ≠ count.toNat → judged = ⟨.stationFault, []⟩))

/-- A REPLY that matches a SENT slot: its answer goes up behind everything owed, the station is ONLINE with no failures,
and the head of its held list becomes its active slot (R87, R91 to R94, R104), in IDLE and in a drain that it does not
end. The station of an active slot is never SILENT, so no notice is raised (R108). -/
def Obligations.MatchingReplyCompletesTheExchange : Prop :=
  ∀ (k : Segment) (dst src tag status : Byte) (index : Word) (count : Byte) (values : List Word) (i : SlotIx)
    (s : State), s.resetHeld = false → SlotPlaces s → UpstreamRests s → NoDrainEnds s (· = i) →
    s.inService k = true → replyFormOk status count values = true →
    (s.slot i).state = .sent → (s.slot i).seg = k → src = byteOf ((s.slot i).station.val + 1) →
    tag = byteOf (32 * (s.slot i).cur.val + i.val) →
    let x := s.slot i
    let r := s.station k x.station
    let b := judgeReply s.store.activeBank x status count values
    ∃ t, exec (.reply k dst src tag status index count values) s = .next t ∧
      t.counters = (countReceived k.port s).counters ∧
      trafficOwed t = trafficOwed s ++ [slotAnswer x b.status b.values] ∧ slotDone x (t.slot i) b.status b.values ∧
      { t.station k x.station with due := r.due } = { r with
        health := .online, failures := 0, activeSlot := r.held.head?, held := r.held.tail } ∧
      (∀ j, r.held.head? = some j → (t.slot j).state = .queued ∨ (t.slot j).state = .sending) ∧
      (∀ j, j ≠ i → r.held.head? ≠ some j → (s.slot j).state ≠ .queued → t.slot j = s.slot j) ∧
      repliesOwed t = repliesOwed s ∧ noticesOwed t = noticesOwed s ∧ t.store = s.store ∧ t.cache = s.cache ∧
      t.commit = s.commit ∧ t.parked = s.parked ∧ t.agent = s.agent

/-- A REPLY with number 7 from the awaited station ends the probe; a SILENT station returns ONLINE with STATION_ONLINE
raised, any other record stays as it was; then the dispatcher may choose (R107, R112). -/
def Obligations.ProbeReplyBringsTheStationBack : Prop :=
  ∀ (k : Segment) (dst src tag status : Byte) (index : Word) (count : Byte) (values : List Word) (a : StationAddr)
    (d : Timer) (s : State), s.resetHeld = false → UpstreamRests s → s.inService k = true →
    replyFormOk status count values = true → (s.seg k).probe = .awaiting a d →
    src = byteOf (a.val + 1) → tag = byteOf (224 + (a.val + 1)) →
    let r := s.station k a
    let ended := (countReceived k.port s).setSeg k { s.seg k with probe := .idle }
    (r.health ≠ .silent →
      exec (.reply k dst src tag status index count values) s = .next (dispatchIfIdle k ended)) ∧
    (r.health = .silent →
      exec (.reply k dst src tag status index count values) s = .next (dispatchIfIdle k (noticeRaised
        (.stationOnline k a) (ended.setStation k a
          { r with health := .online, failures := 0, dueTimer := .stopped, due := false }))))

/-! ### Probing (R109, R113) -/

/-- PROBE_DUE_EXPIRY: the timer stops, the due flag is set, and a FREE dispatcher chooses at once (R109).
PROBE_DEADLINE_EXPIRY: the probe record is IDLE again, a station still SILENT has its probe-due timer started afresh, and a
FREE dispatcher chooses; health and failure count stay (R113). REFRESH_COUNTDOWN_EXPIRY: the countdown stops and the due
flag is set; value and place stay, and nothing is sent (R131). -/
def Obligations.ProbeAndRefreshExpiriesSetTheirFlags : Prop :=
  ((∀ (k : Segment) (a : StationAddr) (s : State), s.resetHeld = false → (s.station k a).dueTimer.isRunning = true →
    let flagged := s.setStation k a { s.station k a with dueTimer := .stopped, due := true }
    ((s.seg k).record = .none → s.inService k = true →
      exec (.probeDueExpiry k a) s = .next (dispatcherChoice k flagged)) ∧
    ((s.seg k).record ≠ .none → exec (.probeDueExpiry k a) s = .next flagged)) ∧
  (∀ (k : Segment) (a : StationAddr) (d : Nat) (s : State), s.resetHeld = false →
    (s.seg k).probe = .awaiting a (.running d) →
    let idle := s.setSeg k { s.seg k with probe := .idle }
    ((s.station k a).health = .silent → exec (.probeDeadlineExpiry k) s = .next (dispatchIfIdle k
      (idle.setStation k a { s.station k a with dueTimer := .running (100 * s.agent.probeInterval) }))) ∧
    ((s.station k a).health ≠ .silent → exec (.probeDeadlineExpiry k) s = .next (dispatchIfIdle k idle)))) ∧
  (∀ (station : Byte) (index : Word) (s : State), s.resetHeld = false →
    exec (.refreshCountdownExpiry station index) s = .next { s with
      cache := s.cache.map (fun c =>
        if c.station = station ∧ c.index = index ∧ c.countdown ≠ .stopped then
          { c with countdown := .stopped, due := true }
        else c) })

/-! ### Change reports (chapter 7) -/

/-- A CHANGE handed over is a sign of life for the record of its source, whatever becomes of it; it touches no other
record, no slot, no send queue and no probe record (R104, R105, R107, R120). -/
def Obligations.ChangeIsASignOfLife : Prop :=
  ∀ (k : Segment) (dst src tag : Byte) (y value : Word) (s : State), s.resetHeld = false → UpstreamRests s →
    s.inService k = true →
    ∃ t, exec (.change k dst src tag y value) s = .next t ∧ t.slots = s.slots ∧
      (∀ j a, (t.seg j).queue = (s.seg j).queue ∧ (t.seg j).record = (s.seg j).record ∧
        (t.seg j).probe = (s.seg j).probe ∧
        (¬ (j = k ∧ src = byteOf (a.val + 1)) → t.station j a = s.station j a)) ∧
      (∀ a : StationAddr, src = byteOf (a.val + 1) → (s.station k a).health ≠ .silent →
        t.station k a = { s.station k a with health := .online, failures := 0 } ∧ noticesOwed t = noticesOwed s) ∧
      (∀ a : StationAddr, src = byteOf (a.val + 1) → (s.station k a).health = .silent →
        t.station k a =
          { s.station k a with health := .online, failures := 0, dueTimer := .stopped, due := false } ∧
        noticesOwed t = noticesWith (.stationOnline k a) s) ∧
      repliesOwed t = repliesOwed s ∧ t.store = s.store ∧ t.commit = s.commit ∧ t.parked = s.parked ∧
      t.agent = s.agent

/-- A CHANGE outside the Report Cache: unmapped without an entry or at an edit reject, suppressed under DROP, forwarded or
dropped under FORWARD; each counted once, and the cache unchanged (R120 to R125). -/
def Obligations.ChangeOutcomesOutsideTheCache : Prop :=
  ∀ (k : Segment) (dst src tag : Byte) (y value : Word) (s : State), s.resetHeld = false → UpstreamRests s →
    s.inService k = true →
    let ends (counted : State) (sent : List Telegram) : Prop :=
      ∃ t, exec (.change k dst src tag y value) s = .next t ∧ t.counters = counted.counters ∧
        trafficOwed t = trafficOwed s ++ sent ∧ t.cache = s.cache
    let received := countReceived k.port s
    (s.store.activeBank.reverse k src y = none → ends (countChangeUnmapped received) []) ∧
    ∀ e, s.store.activeBank.reverse k src y = some e →
      (editValues s.store.activeBank e.upEdit [value] = none → ends (countChangeUnmapped received) []) ∧
      ∀ w, editValues s.store.activeBank e.upEdit [value] = some [w] →
        (e.policy = .drop → ends (countChangeSuppressed received) []) ∧
        (e.policy = .forward → s.up.traffic.length < 24 → s.up.waitList = [] →
          ends (countChangeForwarded received)
            [⟨3, s.agent.ctrlAddr, e.station, 0, 0, e.first + (y - e.base), 1, [w]⟩]) ∧
        (e.policy = .forward → 24 ≤ s.up.traffic.length ∨ s.up.waitList ≠ [] →
          ends (countChangeDropped received) [])

/-- A CHANGE under DEADBAND: suppressed while its entry is not due and the difference is at or below the deadband, else
offered; only a forward that entered the Traffic Queue writes the cache, evicting the least recent of 64 (R127, R129 to
R131). The difference reads both words as signed under a SIGNED output type, else as unsigned (R128). -/
def Obligations.DeadbandForwardsOrSuppresses : Prop :=
  (∀ (k : Segment) (dst src tag : Byte) (y value w limit refresh : Word) (e : MapEntry) (s : State),
    s.resetHeld = false → UpstreamRests s → CacheSound s → s.inService k = true →
    s.store.activeBank.reverse k src y = some e → e.policy = .deadband limit refresh →
    editValues s.store.activeBank e.upEdit [value] = some [w] →
    let ix := e.first + (y - e.base)
    let others := s.cache.filter (fun c => !decide (c.station = e.station ∧ c.index = ix))
    let fresh : CacheEntry := ⟨e.station, ix, w, if refresh = 0 then .stopped else .running (100 * refresh.toNat), false⟩
    let received := countReceived k.port s
    let ends (counted : State) (sent : List Telegram) (cache : List CacheEntry) : Prop :=
      ∃ t, exec (.change k dst src tag y value) s = .next t ∧ t.counters = counted.counters ∧
        trafficOwed t = trafficOwed s ++ sent ∧ t.cache = cache
    (∀ c ∈ s.cache, c.station = e.station → c.index = ix → c.due = false →
      valueDifference s.store.activeBank e.upEdit w c.lastValue ≤ limit.toNat →
      ends (countChangeSuppressed received) [] (others ++ [c])) ∧
    ((∀ c ∈ s.cache, c.station = e.station → c.index = ix →
        c.due = true ∨ limit.toNat < valueDifference s.store.activeBank e.upEdit w c.lastValue) →
      (s.up.traffic.length < 24 → s.up.waitList = [] →
        ends (countChangeForwarded received) [⟨3, s.agent.ctrlAddr, e.station, 0, 0, ix, 1, [w]⟩]
          (if others.length = 64 then others.drop 1 ++ [fresh] else others ++ [fresh])) ∧
      (24 ≤ s.up.traffic.length ∨ s.up.waitList ≠ [] → ends (countChangeDropped received) [] s.cache))) ∧
  (∀ (bank : Bank) (new last : Word),
    (valueDifference bank none new last : Int) = |(new.toNat : Int) - last.toNat| ∧
    ∀ (e : EditIx) (r : EditRecord), bank.edits[e] = some r →
      (r.outType = .signed → (valueDifference bank (some e) new last : Int) = |new.toInt - last.toInt|) ∧
      (r.outType ≠ .signed → (valueDifference bank (some e) new last : Int) = |(new.toNat : Int) - last.toNat|))

/-! ### Port U (chapter 8) -/

/-- The arbiter's choice: Outbox, then notices, while fewer than four control telegrams have gone in a row or no traffic
waits; else the head of the Traffic Queue, whose start lets the head of the Reply Wait List in (R136, R141).
PORT_U_TRANSMISSION_END of any telegram but a RESTART's DONE: counted, the record NONE, and this choice (R142). -/
def Obligations.ArbiterServesControlFourTimesThenTraffic : Prop :=
  (∀ s : State, s.up.control ≤ 4 →
    let mayGo := s.up.control < 4 ∨ s.up.traffic = []
    let risen := if s.up.control = 4 then 4 else s.up.control + 1
    (∀ r rest, mayGo → s.up.outbox = r :: rest → arbiterChoice s =
      { s with up := { s.up with outbox := rest, control := risen, sending := some (.mgmt r) } }) ∧
    (∀ n rest, mayGo → s.up.outbox = [] → s.up.notices = n :: rest → arbiterChoice s =
      { s with up := { s.up with notices := rest, control := risen, sending := some (.notice n) } }) ∧
    (∀ t rest, (¬ mayGo ∨ s.up.outbox = [] ∧ s.up.notices = []) → s.up.traffic = t :: rest →
      (s.up.waitList = [] → arbiterChoice s =
        { s with up := { s.up with traffic := rest, control := 0, sending := some (.traffic t) } }) ∧
      (∀ i waiting, s.up.waitList = i :: waiting → arbiterChoice s =
        { s.setSlot i (Slot.cleared (s.slot i).cur (s.slot i).next) with
          up := { s.up with
            traffic := rest ++ [slotReply (s.slot i)]
            waitList := waiting
            control := 0
            sending := some (.traffic t) } })) ∧
    (s.up.outbox = [] → s.up.notices = [] → s.up.traffic = [] → arbiterChoice s = s)) ∧
  (∀ (u : UpTelegram) (s : State), s.resetHeld = false → s.up.sending = some u →
    (∀ r, u = .mgmt r → ¬ (r.code = 19 ∧ r.status = .done)) →
    exec .portUTransmissionEnd s = .next
      (arbiterChoice { countTransmitted .u s with up := { s.up with sending := none } }))

/-- PORT_U_TRANSMISSION_END of a RESTART's DONE: the traffic state is cleared, what R184 names is kept, and STARTED,
number 0, is the telegram started (R101, R119, R132, R142, R147, R165, R179, R183, R184). -/
def Obligations.RestartTakesEffectWhenItsReplyHasLeft : Prop :=
  ∀ (r : MgmtReply) (s : State), s.resetHeld = false → s.up.sending = some (.mgmt r) → r.code = 19 →
    r.status = .done →
    let cleared (g : SegState) : SegState :=
      { queue := []
        record := match g.record with
          | .none => .none
          | .slot _ t => .void t
          | .probe t => .void t
          | .void t => .void t
        probe := .idle
        stations := Vector.replicate 31 ⟨.unknown, 0, none, [], .stopped, false⟩ }
    exec .portUTransmissionEnd s = .next { countTransmitted .u s with
      slots := s.slots.map (fun x => Slot.cleared x.cur x.next)
      parked := []
      seg0 := cleared s.seg0
      seg1 := cleared s.seg1
      cache := []
      commit := { state := .idle, incoming := none, drainTimer := .stopped }
      up := { traffic := [], waitList := [], outbox := [], notices := [], nextNotice := 1, pendingLost := 0,
              control := 1,
              sending := some (.notice ⟨s.agent.ctrlAddr, s.ownAddress, 0, 0,
                .started .command s.store.generation s.ownAddress s.s1Present⟩) }
      agent := { s.agent with sync := .unsynced, restartPending := false, lastSeq := 0, stored := none } }

/-- A raised notice takes the next number and the pending-lost count, or is lost and counted when the Notice Queue holds
16 (R139). -/
def Obligations.NoticesAreNumberedOrCountedLost : Prop :=
  ∀ (e : NoticeEvent) (s : State),
    (s.up.notices.length < 16 → raiseNotice e s = { s with up := { s.up with
      notices := s.up.notices ++ [⟨s.agent.ctrlAddr, s.ownAddress, s.up.nextNotice, s.up.pendingLost, e⟩]
      nextNotice := s.up.nextNotice + 1
      pendingLost := 0 } }) ∧
    (16 ≤ s.up.notices.length → raiseNotice e s = { s with up := { s.up with
      pendingLost := if s.up.pendingLost = 255 then 255 else s.up.pendingLost + 1 } })

/-- No REPLY or CHANGE on its way up is lost, changed or overtaken: every command but a pin reset and the end of a
RESTART's reply leaves what is owed in order, adding only behind it; only the end of a traffic telegram's own
transmission removes it (R92, R93, R135, R136). -/
def Obligations.TrafficReachesTheControllerInOrder : Prop :=
  ∀ (c : Instr) (s : State), SlotPlaces s → UpstreamRests s → s.resetHeld = false →
    c ≠ .pinResetAssert → (∀ addr s1En, c ≠ .pinResetRelease addr s1En) →
    ∃ t, exec c s = .next t ∧
      (c ≠ .portUTransmissionEnd → ∃ sent, trafficOwed t = trafficOwed s ++ sent) ∧
      (c = .portUTransmissionEnd →
        (∀ r, s.up.sending = some (.mgmt r) → ¬ (r.code = 19 ∧ r.status = .done)) →
        (∀ u, s.up.sending = some (.traffic u) → trafficOwed s = u :: trafficOwed t) ∧
        ((∀ u, s.up.sending ≠ some (.traffic u)) → trafficOwed t = trafficOwed s))

/-! ### The dialogue of the Management Agent (R149 to R156) -/

/-- SYNC, whatever its sequence, the sync state and the restart-pending flag: executed with no arguments, else
BAD_ARGUMENT without effect (R152). -/
def Obligations.SyncOpensTheDialogue : Prop :=
  ∀ (src seq : Byte) (args : List Byte) (s : State), s.resetHeld = false → UpstreamRests s →
    s.up.outbox.length < 4 → args.length ≤ 32 →
    (args = [] → exec (.sync src seq args) s = .next (answered ⟨src, seq, 1⟩ .done
      ([240, 3] ++ wordBytes s.store.generation ++ [if s.commit.state = .draining then 1 else 0])
      (s.setAgent { s.agent with sync := .synced, ctrlAddr := src }))) ∧
    (args ≠ [] → exec (.sync src seq args) s = .next (turnedAway ⟨src, seq, 1⟩ .badArgument [] s))

/-- The acts of R149 that execute nothing, for every command code: discarded with a full Outbox (act 1), NOT_SYNCED
(act 3), the stored reply again (act 4), SEQUENCE_ERROR with the expected sequence (act 6) (R151, R153, R154, R156). -/
def Obligations.TurnedAwayTelegramsExecuteNothing : Prop :=
  ∀ (code src seq : Byte) (args : List Byte) (s : State), s.resetHeld = false → UpstreamRests s → args.length ≤ 32 →
    (4 ≤ s.up.outbox.length →
      exec (mgmtCommand code src seq args) s = .next (countMgmtDiscarded (countReceived .u s))) ∧
    (s.up.outbox.length < 4 → code ≠ 1 →
      (s.agent.sync = .unsynced → exec (mgmtCommand code src seq args) s =
        .next (turnedAway ⟨src, seq, code⟩ .notSynced [] s)) ∧
      (s.agent.sync = .synced →
        (seq = s.agent.lastSeq → ∀ r, s.agent.stored = some r → exec (mgmtCommand code src seq args) s =
          .next { countReceived .u s with up := replyPlaced r s.up }) ∧
        (seq ≠ s.agent.lastSeq → seq ≠ s.agent.lastSeq + 1 → exec (mgmtCommand code src seq args) s =
          .next (turnedAway ⟨src, seq, code⟩ .sequenceError [s.agent.lastSeq + 1] s))))

/-- The refusals of R155 that come before a command's own checks: RESTART_PENDING, BAD_COMMAND for a code outside 1 to
19, COMMIT_PENDING and NOTHING_PENDING; each consumes its sequence and is stored (R155, R161, R162, R164). -/
def Obligations.EarlyRefusalsConsumeTheSequence : Prop :=
  ∀ (src seq : Byte) (args : List Byte) (s : State), args.length ≤ 32 →
    (∀ code : Byte, code ≠ 1 → MgmtReady { s with agent := { s.agent with restartPending := false } } seq →
      s.agent.restartPending = true → exec (mgmtCommand code src seq args) s =
        .next (answered ⟨src, seq, code⟩ .restartPending [] s)) ∧
    (MgmtReady s seq →
      (∀ code : Byte, code = 0 ∨ 19 < code.toNat → exec (.unknownCommand code src seq args) s =
        .next (answered ⟨src, seq, code⟩ .badCommand [] s)) ∧
      (s.commit.state = .draining → ∀ code ∈ ([4, 5, 6, 7, 8, 12, 13] : List Byte),
        exec (mgmtCommand code src seq args) s = .next (answered ⟨src, seq, code⟩ .commitPending [] s)) ∧
      (s.commit.state = .idle → exec (.abortCommit src seq args) s =
        .next (answered ⟨src, seq, 14⟩ .nothingPending [] s)))

/-- A command is executed at most once for its sequence: after any command that reached step 1 of R155, a telegram with
the same sequence, whatever its command, is answered with the stored reply and changes nothing else (R154). -/
def Obligations.ResentCommandIsNotExecutedAgain : Prop :=
  ∀ (code src seq : Byte) (args : List Byte) (s : State), MgmtReady s seq → args.length ≤ 32 → code ≠ 1 →
    ∃ t r, exec (mgmtCommand code src seq args) s = .next t ∧ t.agent.stored = some r ∧ t.agent.lastSeq = seq ∧
      r.seq = seq ∧ r.code = code ∧
      ∀ (code' src' : Byte) (args' : List Byte), t.up.outbox.length < 4 → args'.length ≤ 32 → code' ≠ 1 →
        exec (mgmtCommand code' src' seq args') t = .next { countReceived .u t with up := replyPlaced r t.up }

/-- A command whose arguments fail its checks is refused BAD_ARGUMENT, consumes its sequence and changes nothing else: a
wrong length, or a number outside its range (R24, R27, R29, R30, R114, R116, R155, R157 to R163). -/
def Obligations.BadArgumentsAreRefused : Prop :=
  ∀ (src seq : Byte) (args : List Byte) (s : State), MgmtReady s seq → args.length ≤ 32 →
    let ends (code : Byte) := exec (mgmtCommand code src seq args) s = .next (answered ⟨src, seq, code⟩ .badArgument [] s)
    (args ≠ [] → ends 2 ∧ ends 19 ∧ (s.commit.state = .idle → ends 12 ∧ ends 13) ∧ (s.commit.state = .draining → ends 14)) ∧
    (s.commit.state = .idle → (∀ n : Byte, n.toNat ≤ 127 → args ≠ [n]) → ends 5) ∧
    (s.commit.state = .idle → (∀ n : Byte, n.toNat ≤ 63 → args ≠ [n]) → ends 7) ∧
    ((∀ n : Byte, n.toNat ≤ 31 → args ≠ [n]) → ends 17) ∧
    ((∀ k a : Byte, k.toNat ≤ 1 → 1 ≤ a.toNat → a.toNat ≤ 31 → args ≠ [k, a]) → ends 15 ∧ ends 16) ∧
    ((∀ g c : Byte, 1 ≤ g.toNat → g.toNat ≤ 3 → c.toNat ≤ 1 → args ≠ [g, c]) → ends 18) ∧
    ((∀ sel ix : Byte, sel.toNat ≤ 1 → ix.toNat ≤ 127 → args ≠ [sel, ix]) → ends 9) ∧
    ((∀ sel ix : Byte, sel.toNat ≤ 1 → ix.toNat ≤ 63 → args ≠ [sel, ix]) → ends 10) ∧
    ((∀ sel pg first w : Byte, sel.toNat ≤ 1 → pg.toNat ≤ 7 →
      (first = 255 ∧ w = 1 ∨ 1 ≤ w.toNat ∧ w.toNat ≤ 8 ∧ first.toNat + w.toNat ≤ 64) → args ≠ [sel, pg, first, w]) →
      ends 11) ∧
    ((∀ (p : Byte) (v : Word), (p = 1 ∧ 1 ≤ v.toNat ∧ v.toNat ≤ 250 ∨ p = 2 ∧ v.toNat ≤ 3 ∨
        p = 3 ∧ 1 ≤ v.toNat ∧ v.toNat ≤ 15 ∨ p = 4 ∧ 1 ≤ v.toNat ∧ v.toNat ≤ 600 ∨
        p = 5 ∧ 10 ≤ v.toNat ∧ v.toNat ≤ 5000) → args ≠ [p] ++ wordBytes v) → ends 3)

/-! ### Writing the shadow bank (R19, R23 to R28, R30) -/

/-- WRITE_MAP stores exactly the entry its arguments spell, and CLEAR_MAP makes one entry invalid; arguments that spell no
entry are refused BAD_ARGUMENT (R23, R24). -/
def Obligations.MapWritesStoreTheirEntry : Prop :=
  ∀ (src seq : Byte) (args : List Byte) (s : State), MgmtReady s seq → s.commit.state = .idle → args.length ≤ 32 →
    let shadow := s.store.shadowBank
    (∀ ix e, MapArgs args ix e → exec (.writeMap src seq args) s = .next (answered ⟨src, seq, 4⟩ .done []
      { s with store := s.store.setShadow { shadow with map := shadow.map.set ix (some e) } })) ∧
    ((¬ ∃ ix e, MapArgs args ix e) → exec (.writeMap src seq args) s =
      .next (answered ⟨src, seq, 4⟩ .badArgument [] s)) ∧
    (∀ ix : MapIx, args = [byteOf ix.val] → exec (.clearMap src seq args) s = .next (answered ⟨src, seq, 5⟩ .done []
      { s with store := s.store.setShadow { shadow with map := shadow.map.set ix none } }))

/-- WRITE_EDIT stores exactly the record its arguments spell, and CLEAR_EDIT makes one record undefined; arguments that
spell no record are refused BAD_ARGUMENT (R26, R27). -/
def Obligations.EditWritesStoreTheirRecord : Prop :=
  ∀ (src seq : Byte) (args : List Byte) (s : State), MgmtReady s seq → s.commit.state = .idle → args.length ≤ 32 →
    let shadow := s.store.shadowBank
    (∀ ix r, EditArgs args ix r → exec (.writeEdit src seq args) s = .next (answered ⟨src, seq, 6⟩ .done []
      { s with store := s.store.setShadow { shadow with edits := shadow.edits.set ix (some r) } })) ∧
    ((¬ ∃ ix r, EditArgs args ix r) → exec (.writeEdit src seq args) s =
      .next (answered ⟨src, seq, 6⟩ .badArgument [] s)) ∧
    (∀ ix : EditIx, args = [byteOf ix.val] → exec (.clearEdit src seq args) s = .next (answered ⟨src, seq, 7⟩ .done []
      { s with store := s.store.setShadow { shadow with edits := shadow.edits.set ix none } }))

/-- WRITE_PAGE stores its words from its first input on, or the default word, and keeps the rest of the page; other
arguments are refused BAD_ARGUMENT (R28). -/
def Obligations.PageWritesStoreTheirWords : Prop :=
  ∀ (src seq : Byte) (args : List Byte) (s : State), MgmtReady s seq → s.commit.state = .idle → args.length ≤ 32 →
    let shadow := s.store.shadowBank
    let stored (ix : PageIx) (p : Page) := exec (.writePage src seq args) s = .next (answered ⟨src, seq, 8⟩ .done []
      { s with store := s.store.setShadow { shadow with pages := shadow.pages.set ix p } })
    (∀ ix first ws, PageArgs args ix first ws → ∃ p : Page, stored ix p ∧ p.dflt = (shadow.pages[ix]).dflt ∧
      ∀ n : Fin 64, p.words[n] =
        if first ≤ n.val ∧ n.val < first + ws.length then ws.getD (n.val - first) 0 else (shadow.pages[ix]).words[n]) ∧
    (∀ ix w, PageDefaultArgs args ix w → stored ix { shadow.pages[ix] with dflt := w }) ∧
    ((¬ ∃ ix first ws, PageArgs args ix first ws) → (¬ ∃ ix w, PageDefaultArgs args ix w) →
      exec (.writePage src seq args) s = .next (answered ⟨src, seq, 8⟩ .badArgument [] s))

/-- COPY_BANK makes the shadow the active bank's copy and changes nothing else (R30); and what a configuration write
changes of the Bank Store is the shadow alone (R19). -/
def Obligations.CopyBankCopiesTheActiveBank : Prop :=
  (∀ (src seq : Byte) (s : State), MgmtReady s seq → s.commit.state = .idle →
    exec (.copyBank src seq []) s = .next (answered ⟨src, seq, 12⟩ .done []
      { s with store := s.store.setShadow s.store.activeBank })) ∧
  (∀ (st : BankStore) (b : Bank), (st.setShadow b).shadowBank = b ∧ (st.setShadow b).activeBank = st.activeBank ∧
    (st.setShadow b).active = st.active ∧ (st.setShadow b).generation = st.generation)

/-! ### Reading (R14, R29, R114, R157 to R159, R186) -/

/-- READ_MAP, READ_EDIT and READ_PAGE answer with the item of the bank their selector names, in any commit state, and
change nothing (R14, R29). -/
def Obligations.BankReadsAnswerTheItem : Prop :=
  ∀ (src seq sel : Byte) (bank : Bank) (s : State), MgmtReady s seq →
    (sel = 0 ∧ bank = s.store.activeBank ∨ sel = 1 ∧ bank = s.store.shadowBank) →
    (∀ (ix : MapIx) (data : List Byte),
      ((∃ e, bank.map[ix] = some e ∧ data = [1, e.station] ++ wordBytes e.first ++ wordBytes e.last
          ++ [segmentCode e.seg, addrByte e.phys] ++ wordBytes e.base
          ++ [accessCode e.access, refCode e.downEdit, refCode e.upEdit, policyCode e.policy]
          ++ wordBytes (policyLimit e.policy) ++ wordBytes (policyRefresh e.policy)) ∨
        (bank.map[ix] = none ∧ data = List.replicate 18 0)) →
      exec (.readMap src seq [sel, byteOf ix.val]) s =
        .next (answered ⟨src, seq, 9⟩ .done (byteOf ix.val :: data) s)) ∧
    (∀ (ix : EditIx) (data : List Byte),
      ((∃ r, bank.edits[ix] = some r ∧ data = [1, typeCode r.inType, typeCode r.outType, overflowCode r.overflow,
          missCode r.miss, byteOf r.steps.length] ++ r.steps.flatMap stepBytes) ∨
        (bank.edits[ix] = none ∧ data = List.replicate 6 0)) →
      exec (.readEdit src seq [sel, byteOf ix.val]) s =
        .next (answered ⟨src, seq, 10⟩ .done (byteOf ix.val :: data) s)) ∧
    (∀ (ix : PageIx) (first n : Nat), 1 ≤ n → n ≤ 8 → first + n ≤ 64 →
      exec (.readPage src seq [sel, byteOf ix.val, byteOf first, byteOf n]) s = .next (answered ⟨src, seq, 11⟩ .done
        ([byteOf ix.val, byteOf first, byteOf n] ++
          wordsBytes ((List.range n).map (fun j => (bank.pages[ix]).words.toList.getD (first + j) 0))) s)) ∧
    (∀ ix : PageIx, exec (.readPage src seq [sel, byteOf ix.val, 255, 1]) s = .next (answered ⟨src, seq, 11⟩ .done
      ([byteOf ix.val, 255, 1] ++ wordBytes (bank.pages[ix]).dflt) s))

/-- READ_INFO, READ_STATION and READ_SLOT answer with the fields as they stand, in any commit state, and change nothing
(R14, R114, R157, R158). -/
def Obligations.SnapshotsAnswerTheFieldsAsTheyStand : Prop :=
  ∀ (src seq : Byte) (s : State), MgmtReady s seq →
    exec (.readInfo src seq []) s = .next (answered ⟨src, seq, 2⟩ .done
      ([240, 3, s.ownAddress, if s.s1Present = true then 1 else 0] ++ wordBytes s.store.generation ++
        [if s.commit.state = .draining then 1 else 0, if s.store.active = .b then 1 else 0,
          byteOf ((List.finRange 32).countP (fun i => decide ((s.slot i).state ≠ .free))),
          byteOf s.agent.replyTimeout, byteOf s.agent.retries, byteOf s.agent.silentThreshold] ++
        wordBytes (BitVec.ofNat 16 s.agent.probeInterval) ++ wordBytes (BitVec.ofNat 16 s.agent.drainLimit)) s) ∧
    (∀ (k : Segment) (a : StationAddr),
      let r := s.station k a
      exec (.readStation src seq [segmentCode k, byteOf (a.val + 1)]) s = .next (answered ⟨src, seq, 15⟩ .done
        [segmentCode k, byteOf (a.val + 1), healthCode r.health, byteOf r.failures,
          (r.activeSlot.map (fun i => byteOf i.val)).getD 255, byteOf r.held.length,
          if r.dueTimer = .stopped then 0 else 1, if r.due = true then 1 else 0] s)) ∧
    (∀ i : SlotIx,
      let x := s.slot i
      exec (.readSlot src seq [byteOf i.val]) s = .next (answered ⟨src, seq, 17⟩ .done
        ([byteOf i.val, slotStateCode x.state] ++
          (if x.state = .free then List.replicate 15 0
            else [x.ctrlAddr, x.ctrlTag, x.logStation] ++ wordBytes x.logIndex ++
              [x.count, opCode x.op, segmentCode x.seg, byteOf (x.station.val + 1)] ++ wordBytes x.physIndex ++
              [refCode x.upEdit] ++ wordBytes x.generation ++ [byteOf x.retriesLeft]) ++
          [byteOf x.cur.val, byteOf x.next.val,
            if x.state = .replyReady then (x.built.map (fun b => replyStatusCode b.status)).getD 255 else 255]) s))

/-- READ_COUNTERS answers with the group's counters, the telegram itself already counted, and with the clear flag sets
that group to 0 and no other (R159, R186). Each of the 26 counts adds one to its own counter, which stays at 4294967295,
and touches no other counter and nothing else (R185). -/
def Obligations.CountersAreReadThenCleared : Prop :=
  (∀ (src seq clear : Byte) (s : State), MgmtReady s seq → (clear = 0 ∨ clear = 1) →
    let c := (countReceived .u s).counters
    let four (p : PortCounters) := [p.received, p.checkErrors, p.malformed, p.transmitted]
    let three (g : SegmentCounters) := [g.retries, g.finalTimeouts, g.staleReplies]
    let ends (group : Byte) (read : List Count) (after : Counters) :=
      exec (.readCounters src seq [group, clear]) s = .next
        { answered ⟨src, seq, 18⟩ .done (read.flatMap countBytes) s with counters := if clear = 1 then after else c }
    ends 1 (four c.portU ++ four c.portS0 ++ four c.portS1)
      { c with portU := ⟨0, 0, 0, 0⟩, portS0 := ⟨0, 0, 0, 0⟩, portS1 := ⟨0, 0, 0, 0⟩ } ∧
    ends 2 [c.traffic.admitted, c.traffic.refused, c.traffic.discarded, c.traffic.changesForwarded,
        c.traffic.changesSuppressed, c.traffic.changesDropped, c.traffic.changesUnmapped, c.traffic.mgmtDiscarded]
      { c with traffic := ⟨0, 0, 0, 0, 0, 0, 0, 0⟩ } ∧
    ends 3 (three c.seg0 ++ three c.seg1) { c with seg0 := ⟨0, 0, 0⟩, seg1 := ⟨0, 0, 0⟩ }) ∧
  ((∀ c : Count, (bump c).toNat = if c.toNat = 4294967295 then 4294967295 else c.toNat + 1) ∧
  ∀ s : State,
    let port (p : Port) (f : PortCounters → PortCounters) : State := { s with counters := match p with
      | .u => { s.counters with portU := f s.counters.portU }
      | .s0 => { s.counters with portS0 := f s.counters.portS0 }
      | .s1 => { s.counters with portS1 := f s.counters.portS1 } }
    let traffic (f : TrafficCounters → TrafficCounters) : State :=
      { s with counters := { s.counters with traffic := f s.counters.traffic } }
    let segment (k : Segment) (f : SegmentCounters → SegmentCounters) : State := { s with counters := match k with
      | .s0 => { s.counters with seg0 := f s.counters.seg0 }
      | .s1 => { s.counters with seg1 := f s.counters.seg1 } }
    (∀ p, countReceived p s = port p (fun c => { c with received := bump c.received }) ∧
      countCheckError p s = port p (fun c => { c with checkErrors := bump c.checkErrors }) ∧
      countMalformed p s = port p (fun c => { c with malformed := bump c.malformed }) ∧
      countTransmitted p s = port p (fun c => { c with transmitted := bump c.transmitted })) ∧
    countAdmitted s = traffic (fun c => { c with admitted := bump c.admitted }) ∧
    countRefused s = traffic (fun c => { c with refused := bump c.refused }) ∧
    countDiscarded s = traffic (fun c => { c with discarded := bump c.discarded }) ∧
    countChangeForwarded s = traffic (fun c => { c with changesForwarded := bump c.changesForwarded }) ∧
    countChangeSuppressed s = traffic (fun c => { c with changesSuppressed := bump c.changesSuppressed }) ∧
    countChangeDropped s = traffic (fun c => { c with changesDropped := bump c.changesDropped }) ∧
    countChangeUnmapped s = traffic (fun c => { c with changesUnmapped := bump c.changesUnmapped }) ∧
    countMgmtDiscarded s = traffic (fun c => { c with mgmtDiscarded := bump c.mgmtDiscarded }) ∧
    (∀ k, countRetry k s = segment k (fun c => { c with retries := bump c.retries }) ∧
      countFinalTimeout k s = segment k (fun c => { c with finalTimeouts := bump c.finalTimeouts }) ∧
      countStaleReply k s = segment k (fun c => { c with staleReplies := bump c.staleReplies })))

/-! ### Setting, RESET_STATION and RESTART (R116, R160, R163) -/

/-- SET_TIMING sets the one parameter its id names, to any value of its range (R160). RESET_STATION returns one record to
UNKNOWN and keeps its active slot and held list (R116). RESTART only sets the restart-pending flag (R163). -/
def Obligations.SettingCommandsActOnOneRecord : Prop :=
  (∀ (src seq : Byte) (v : Word) (s : State), MgmtReady s seq →
    let ends (id : Byte) (agent : Agent) := exec (.setTiming src seq ([id] ++ wordBytes v)) s =
      .next (answered ⟨src, seq, 3⟩ .done [] (s.setAgent agent))
    (1 ≤ v.toNat → v.toNat ≤ 250 → ends 1 { s.agent with replyTimeout := v.toNat }) ∧
    (v.toNat ≤ 3 → ends 2 { s.agent with retries := v.toNat }) ∧
    (1 ≤ v.toNat → v.toNat ≤ 15 → ends 3 { s.agent with silentThreshold := v.toNat }) ∧
    (1 ≤ v.toNat → v.toNat ≤ 600 → ends 4 { s.agent with probeInterval := v.toNat }) ∧
    (10 ≤ v.toNat → v.toNat ≤ 5000 → ends 5 { s.agent with drainLimit := v.toNat })) ∧
  (∀ (src seq : Byte) (s : State), MgmtReady s seq →
    (∀ (k : Segment) (a : StationAddr), exec (.resetStation src seq [segmentCode k, byteOf (a.val + 1)]) s =
      .next (answered ⟨src, seq, 16⟩ .done [] (s.setStation k a
        { s.station k a with health := .unknown, failures := 0, dueTimer := .stopped, due := false }))) ∧
    exec (.restart src seq []) s =
      .next (answered ⟨src, seq, 19⟩ .done [] (s.setAgent { s.agent with restartPending := true })))

/-! ### Commit (chapter 10, R37, R161, R162) -/

/-- COMMIT while IDLE: INVALID_BANK with the first fault and no other effect; ACCEPTED and DRAINING while an exchange is
open; else ACCEPTED, the swap and COMMIT_DONE in the same taking (R161, R169, R173). The swap makes the other bank active,
raises the generation by one modulo 65536, and changes no contents (R20, R37). -/
def Obligations.CommitIsRefusedDrainsOrCompletes : Prop :=
  (∀ (src seq : Byte) (s : State), MgmtReady s seq → s.commit = ⟨.idle, none, .stopped⟩ → s.parked = [] →
    let next := s.store.generation + 1
    let open' := ∃ i, (s.slot i).generation = s.store.generation ∧
      ((s.slot i).state = .held ∨ (s.slot i).state = .queued ∨ (s.slot i).state = .sending ∨ (s.slot i).state = .sent)
    let accepted := answered ⟨src, seq, 13⟩ .accepted (wordBytes next) s
    (∀ reason ix, s.store.shadowBank.examine s.s1Present = some (reason, ix) →
      exec (.commit src seq []) s =
        .next (answered ⟨src, seq, 13⟩ .invalidBank [validityReasonCode reason, byteOf ix.val] s)) ∧
    (s.store.shadowBank.examine s.s1Present = none → open' → exec (.commit src seq []) s =
      .next { accepted with commit := ⟨.draining, some next, .running s.agent.drainLimit⟩ }) ∧
    (s.store.shadowBank.examine s.s1Present = none → ¬ open' → exec (.commit src seq []) s =
      .next (raiseNotice (.commitDone next) { accepted with store := s.store.swap, cache := [] }))) ∧
  (∀ st : BankStore, st.swap.activeBank = st.shadowBank ∧ st.swap.shadowBank = st.activeBank ∧
    st.swap.bankA = st.bankA ∧ st.swap.bankB = st.bankB ∧ st.swap.active ≠ st.active ∧
    st.swap.generation.toNat = (st.generation.toNat + 1) % 65536)

/-- ABORT_COMMIT and DRAIN_EXPIRY while DRAINING: every parked slot answered RECONFIG in order, COMMIT_FAILED with the
reason and their number; no swap, and the exchanges in progress are untouched. The abort is answered DONE (R162, R175,
R176). -/
def Obligations.FailedDrainAnswersParkedRequestsReconfig : Prop :=
  (∀ (src seq : Byte) (s : State), MgmtReady s seq → SlotPlaces s → s.commit.state = .draining →
    ∃ t, exec (.abortCommit src seq []) s = .next t ∧ t.commit = ⟨.idle, none, .stopped⟩ ∧ t.parked = [] ∧
      repliesOwed t = repliesOwed s ++ [⟨src, s.ownAddress, seq, 14, .done, []⟩] ∧
      trafficOwed t = trafficOwed s ++ s.parked.map (fun i => slotAnswer (s.slot i) .reconfig []) ∧
      noticesOwed t = noticesWith (.commitFailed .aborted s.store.generation s.parked.length) s ∧
      (∀ i ∈ s.parked, slotDone (s.slot i) (t.slot i) .reconfig []) ∧
      (∀ i, i ∉ s.parked → t.slot i = s.slot i) ∧
      t.agent = { s.agent with stored := some ⟨src, s.ownAddress, seq, 14, .done, []⟩, lastSeq := seq } ∧
      t.counters = (countReceived .u s).counters ∧ t.store = s.store ∧ t.cache = s.cache ∧ t.seg0 = s.seg0 ∧
      t.seg1 = s.seg1) ∧
  (∀ s : State, s.resetHeld = false → UpstreamRests s → SlotPlaces s → s.commit.state = .draining →
    s.commit.drainTimer.isRunning = true →
    ∃ t, exec .drainExpiry s = .next t ∧ t.commit = ⟨.idle, none, .stopped⟩ ∧ t.parked = [] ∧
      repliesOwed t = repliesOwed s ∧
      trafficOwed t = trafficOwed s ++ s.parked.map (fun i => slotAnswer (s.slot i) .reconfig []) ∧
      noticesOwed t = noticesWith (.commitFailed .drainTimeout s.store.generation s.parked.length) s ∧
      (∀ i ∈ s.parked, slotDone (s.slot i) (t.slot i) .reconfig []) ∧
      (∀ i, i ∉ s.parked → t.slot i = s.slot i) ∧
      t.agent = s.agent ∧ t.counters = s.counters ∧ t.store = s.store ∧ t.cache = s.cache ∧ t.seg0 = s.seg0 ∧
      t.seg1 = s.seg1)

/-- The answer to the last open exchange of a drain, by any taking that R173 names: a matching REPLY, edited under the old
bank; a final failure below the silent threshold; or a silencing, after its held slots. Then the banks swap, the cache
empties, and each parked slot becomes its station's active slot or waits behind it, or is answered STATION_SILENT;
COMMIT_DONE ends it (R94 to R97, R170, R173, R174). -/
def Obligations.LastReplyOfADrainSwapsTheBanks : Prop :=
  (∀ (k : Segment) (dst src tag status : Byte) (index : Word) (count : Byte) (values : List Word) (i : SlotIx)
    (s : State), s.resetHeld = false → SlotPlaces s → UpstreamRests s → DrainEnds s (· = i) →
    s.inService k = true → replyFormOk status count values = true →
    (s.slot i).state = .sent → (s.slot i).seg = k → src = byteOf ((s.slot i).station.val + 1) →
    tag = byteOf (32 * (s.slot i).cur.val + i.val) →
    let x := s.slot i
    let b := judgeReply s.store.activeBank x status count values
    ∃ t, exec (.reply k dst src tag status index count values) s = .next t ∧
      DrainEnded s (· = i) [slotAnswer x b.status b.values] (fun j a =>
        if x.seg = j ∧ x.station = a then { s.station j a with health := .online, failures := 0 }
        else s.station j a) t ∧
      slotDone x (t.slot i) b.status b.values ∧
      noticesOwed t = noticesWith (.commitDone (s.store.generation + 1)) s ∧
      t.counters = (countReceived k.port s).counters) ∧
  (∀ (i : SlotIx) (s : State), s.resetHeld = false → SlotPlaces s → UpstreamRests s →
    (s.slot i).state = .sent → (s.slot i).deadline.isRunning = true → (s.slot i).retriesLeft = 0 →
    let x := s.slot i
    let r := s.station x.seg x.station
    (r.failures + 1 < s.agent.silentThreshold → DrainEnds s (· = i) →
      ∃ t, exec (.slotDeadlineExpiry i) s = .next t ∧
        DrainEnded s (· = i) [slotAnswer x .timeout []] (fun j a =>
          if x.seg = j ∧ x.station = a then { r with health := .suspect, failures := r.failures + 1 }
          else s.station j a) t ∧
        slotDone x (t.slot i) .timeout [] ∧
        noticesOwed t = noticesWith (.commitDone (s.store.generation + 1)) s ∧
        t.counters = (countFinalTimeout x.seg s).counters) ∧
    (s.agent.silentThreshold ≤ r.failures + 1 → DrainEnds s (fun j => j = i ∨ j ∈ r.held) →
      ∃ t, exec (.slotDeadlineExpiry i) s = .next t ∧
        DrainEnded s (fun j => j = i ∨ j ∈ r.held)
          (slotAnswer x .timeout [] :: r.held.map (fun j => slotAnswer (s.slot j) .stationSilent []))
          (fun j a => if x.seg = j ∧ x.station = a then
            ⟨.silent, r.failures + 1, none, [], .running (100 * s.agent.probeInterval), false⟩ else s.station j a) t ∧
        slotDone x (t.slot i) .timeout [] ∧ (∀ j ∈ r.held, slotDone (s.slot j) (t.slot j) .stationSilent []) ∧
        noticesOwed t =
          noticesWith (.commitDone (s.store.generation + 1)) (raiseNotice (.stationSilent x.seg x.station) s) ∧
        t.counters = (countFinalTimeout x.seg s).counters))

/-! ### What every step keeps -/

/-- The queues of port U stay within their bounds, and the Reply Wait List holds slots only while the Traffic Queue is
full (R137). -/
def Obligations.StepKeepsQueueBounds : Prop :=
  ∀ s t : State, QueueBounds s → step s = .next t → QueueBounds t

/-- Port U's transmitter rests only with nothing to send (R140); so does a dispatcher in service, whose record is PROBE
exactly while its probe record is SENDING (R77, R78, R110). -/
def Obligations.StepKeepsTransmittersBusyWhileWorkWaits : Prop :=
  (∀ s t : State, QueueBounds s → UpstreamRests s → step s = .next t → UpstreamRests t) ∧
  (∀ s t : State, step s = .next t →
    (DispatchersRest s → DispatchersRest t) ∧ (∀ k, ProbeSound s k → ProbeSound t k))

/-- Every slot stands in exactly the collection of its state, once; each station has at most one active slot, and held
slots only behind it (R74 to R77). -/
def Obligations.StepKeepsSlotsInTheirPlaces : Prop :=
  ∀ s t : State, (s.resetHeld = false → SlotPlaces s) → step s = .next t → (t.resetHeld = false → SlotPlaces t)

/-- Every slot keeps the ranges of its fields, a running deadline exactly while SENT, and a built reply exactly while
REPLY_READY (R73). Every station's failure count suits its health, and only a SILENT station has a probe due or waited for
(R102, R103, R109). -/
def Obligations.StepKeepsSlotsAndStationsSound : Prop :=
  (∀ s t : State, (s.resetHeld = false → SlotPlaces s) → AgentSound s → BanksInRange s →
    (s.resetHeld = false → ∀ i, SlotSound (s.slot i)) → step s = .next t →
    (t.resetHeld = false → ∀ i, SlotSound (t.slot i))) ∧
  (∀ s t : State, (s.resetHeld = false → SlotPlaces s) → AgentSound s → (∀ k a, StationSound (s.station k a)) →
    step s = .next t → ∀ k a, StationSound (t.station k a))

/-- A drain holds the incoming generation and a running timer while an exchange is open, parked slots exist only in one,
and every slot on its way to a station carries the current generation (R168, R170, R171, R173). -/
def Obligations.StepKeepsDrainsSound : Prop :=
  ∀ s t : State, (s.resetHeld = false → SlotPlaces s ∧ DrainSound s) → step s = .next t →
    (t.resetHeld = false → DrainSound t)

/-- Every stored item stays in the ranges its write checked, and the active bank stays valid, as does the incoming bank
of a drain (R22, R25, R33). -/
def Obligations.StepKeepsTheActiveBankValid : Prop :=
  ∀ s t : State, step s = .next t → (BanksInRange s → BanksInRange t) ∧ (ActiveBankValid s → ActiveBankValid t)

/-- The Report Cache holds at most 64 entries, no two with one key, each inside a valid DEADBAND entry of the active bank
(R126). -/
def Obligations.StepKeepsTheCacheSound : Prop :=
  ∀ s t : State, BanksInRange s → CacheSound s → step s = .next t → CacheSound t

/-- The timing parameters stay in their ranges, and a SYNCED agent holds the reply of its last accepted sequence (R148,
R160). While S1 is absent, segment 1 keeps its reset values and no slot names it (R7, R70, R102). -/
def Obligations.StepKeepsTheAgentAndAnAbsentSegment : Prop :=
  (∀ s t : State, AgentSound s → step s = .next t → AgentSound t) ∧
  (∀ s t : State, (s.resetHeld = false → SlotPlaces s) → ActiveBankValid s → SegmentOneQuiet s → step s = .next t →
    SegmentOneQuiet t)

/-- Right after the release of RESET_N every one of these holds, whatever the straps; and so it does of `State.reset`, the
state after a release with the straps the model chose (log entries 4 and 5). -/
def Obligations.ResetHasEveryInvariant : Prop :=
  let allHold (t : State) : Prop :=
    QueueBounds t ∧ UpstreamRests t ∧ DispatchersRest t ∧ (∀ k, ProbeSound t k) ∧ SlotPlaces t ∧
      (∀ i, SlotSound (t.slot i)) ∧ (∀ k a, StationSound (t.station k a)) ∧ DrainSound t ∧ BanksInRange t ∧
      ActiveBankValid t ∧ CacheSound t ∧ AgentSound t ∧ SegmentOneQuiet t
  (∀ (addr : BitVec 4) (s1En : Bool) (s : State), ∃ t, exec (.pinResetRelease addr s1En) s = .next t ∧ allHold t) ∧
    allHold State.reset

end Statements
end

