-- ==== Sys2Proof/Laws/State.lean ====
section
/-! SUPPORT. One lemma per field per update of the state, and reading back what a setter wrote. -/

namespace Sys2Proof.Machine

/-! ### Updates of one field -/

@[simp] theorem State.setSlot_resetHeld (s : State) (i : SlotIx) (x : Slot) : (s.setSlot i x).resetHeld = s.resetHeld := rfl
@[simp] theorem State.setSlot_ownAddress (s : State) (i : SlotIx) (x : Slot) : (s.setSlot i x).ownAddress = s.ownAddress := rfl
@[simp] theorem State.setSlot_s1Present (s : State) (i : SlotIx) (x : Slot) : (s.setSlot i x).s1Present = s.s1Present := rfl
@[simp] theorem State.setSlot_store (s : State) (i : SlotIx) (x : Slot) : (s.setSlot i x).store = s.store := rfl
@[simp] theorem State.setSlot_parked (s : State) (i : SlotIx) (x : Slot) : (s.setSlot i x).parked = s.parked := rfl
@[simp] theorem State.setSlot_seg0 (s : State) (i : SlotIx) (x : Slot) : (s.setSlot i x).seg0 = s.seg0 := rfl
@[simp] theorem State.setSlot_seg1 (s : State) (i : SlotIx) (x : Slot) : (s.setSlot i x).seg1 = s.seg1 := rfl
@[simp] theorem State.setSlot_cache (s : State) (i : SlotIx) (x : Slot) : (s.setSlot i x).cache = s.cache := rfl
@[simp] theorem State.setSlot_commit (s : State) (i : SlotIx) (x : Slot) : (s.setSlot i x).commit = s.commit := rfl
@[simp] theorem State.setSlot_up (s : State) (i : SlotIx) (x : Slot) : (s.setSlot i x).up = s.up := rfl
@[simp] theorem State.setSlot_agent (s : State) (i : SlotIx) (x : Slot) : (s.setSlot i x).agent = s.agent := rfl
@[simp] theorem State.setSlot_counters (s : State) (i : SlotIx) (x : Slot) : (s.setSlot i x).counters = s.counters := rfl
@[simp] theorem State.setSlot_pending (s : State) (i : SlotIx) (x : Slot) : (s.setSlot i x).pending = s.pending := rfl
@[simp] theorem State.setSlot_slots (s : State) (i : SlotIx) (x : Slot) : (s.setSlot i x).slots = s.slots.set i x := rfl

@[simp] theorem State.setUp_resetHeld (s : State) (u : Upstream) : (s.setUp u).resetHeld = s.resetHeld := rfl
@[simp] theorem State.setUp_ownAddress (s : State) (u : Upstream) : (s.setUp u).ownAddress = s.ownAddress := rfl
@[simp] theorem State.setUp_s1Present (s : State) (u : Upstream) : (s.setUp u).s1Present = s.s1Present := rfl
@[simp] theorem State.setUp_store (s : State) (u : Upstream) : (s.setUp u).store = s.store := rfl
@[simp] theorem State.setUp_slots (s : State) (u : Upstream) : (s.setUp u).slots = s.slots := rfl
@[simp] theorem State.setUp_parked (s : State) (u : Upstream) : (s.setUp u).parked = s.parked := rfl
@[simp] theorem State.setUp_seg0 (s : State) (u : Upstream) : (s.setUp u).seg0 = s.seg0 := rfl
@[simp] theorem State.setUp_seg1 (s : State) (u : Upstream) : (s.setUp u).seg1 = s.seg1 := rfl
@[simp] theorem State.setUp_cache (s : State) (u : Upstream) : (s.setUp u).cache = s.cache := rfl
@[simp] theorem State.setUp_commit (s : State) (u : Upstream) : (s.setUp u).commit = s.commit := rfl
@[simp] theorem State.setUp_agent (s : State) (u : Upstream) : (s.setUp u).agent = s.agent := rfl
@[simp] theorem State.setUp_counters (s : State) (u : Upstream) : (s.setUp u).counters = s.counters := rfl
@[simp] theorem State.setUp_pending (s : State) (u : Upstream) : (s.setUp u).pending = s.pending := rfl
@[simp] theorem State.setUp_up (s : State) (u : Upstream) : (s.setUp u).up = u := rfl

@[simp] theorem State.setAgent_resetHeld (s : State) (g : Agent) : (s.setAgent g).resetHeld = s.resetHeld := rfl
@[simp] theorem State.setAgent_ownAddress (s : State) (g : Agent) : (s.setAgent g).ownAddress = s.ownAddress := rfl
@[simp] theorem State.setAgent_s1Present (s : State) (g : Agent) : (s.setAgent g).s1Present = s.s1Present := rfl
@[simp] theorem State.setAgent_store (s : State) (g : Agent) : (s.setAgent g).store = s.store := rfl
@[simp] theorem State.setAgent_slots (s : State) (g : Agent) : (s.setAgent g).slots = s.slots := rfl
@[simp] theorem State.setAgent_parked (s : State) (g : Agent) : (s.setAgent g).parked = s.parked := rfl
@[simp] theorem State.setAgent_seg0 (s : State) (g : Agent) : (s.setAgent g).seg0 = s.seg0 := rfl
@[simp] theorem State.setAgent_seg1 (s : State) (g : Agent) : (s.setAgent g).seg1 = s.seg1 := rfl
@[simp] theorem State.setAgent_cache (s : State) (g : Agent) : (s.setAgent g).cache = s.cache := rfl
@[simp] theorem State.setAgent_commit (s : State) (g : Agent) : (s.setAgent g).commit = s.commit := rfl
@[simp] theorem State.setAgent_up (s : State) (g : Agent) : (s.setAgent g).up = s.up := rfl
@[simp] theorem State.setAgent_counters (s : State) (g : Agent) : (s.setAgent g).counters = s.counters := rfl
@[simp] theorem State.setAgent_pending (s : State) (g : Agent) : (s.setAgent g).pending = s.pending := rfl
@[simp] theorem State.setAgent_agent (s : State) (g : Agent) : (s.setAgent g).agent = g := rfl

@[simp] theorem State.setCounters_resetHeld (s : State) (c : Counters) : (s.setCounters c).resetHeld = s.resetHeld := rfl
@[simp] theorem State.setCounters_ownAddress (s : State) (c : Counters) : (s.setCounters c).ownAddress = s.ownAddress := rfl
@[simp] theorem State.setCounters_s1Present (s : State) (c : Counters) : (s.setCounters c).s1Present = s.s1Present := rfl
@[simp] theorem State.setCounters_store (s : State) (c : Counters) : (s.setCounters c).store = s.store := rfl
@[simp] theorem State.setCounters_slots (s : State) (c : Counters) : (s.setCounters c).slots = s.slots := rfl
@[simp] theorem State.setCounters_parked (s : State) (c : Counters) : (s.setCounters c).parked = s.parked := rfl
@[simp] theorem State.setCounters_seg0 (s : State) (c : Counters) : (s.setCounters c).seg0 = s.seg0 := rfl
@[simp] theorem State.setCounters_seg1 (s : State) (c : Counters) : (s.setCounters c).seg1 = s.seg1 := rfl
@[simp] theorem State.setCounters_cache (s : State) (c : Counters) : (s.setCounters c).cache = s.cache := rfl
@[simp] theorem State.setCounters_commit (s : State) (c : Counters) : (s.setCounters c).commit = s.commit := rfl
@[simp] theorem State.setCounters_up (s : State) (c : Counters) : (s.setCounters c).up = s.up := rfl
@[simp] theorem State.setCounters_agent (s : State) (c : Counters) : (s.setCounters c).agent = s.agent := rfl
@[simp] theorem State.setCounters_pending (s : State) (c : Counters) : (s.setCounters c).pending = s.pending := rfl
@[simp] theorem State.setCounters_counters (s : State) (c : Counters) : (s.setCounters c).counters = c := rfl

@[simp] theorem State.setSeg_resetHeld (s : State) (k : Segment) (x : SegState) : (s.setSeg k x).resetHeld = s.resetHeld := by cases k <;> rfl
@[simp] theorem State.setSeg_ownAddress (s : State) (k : Segment) (x : SegState) : (s.setSeg k x).ownAddress = s.ownAddress := by cases k <;> rfl
@[simp] theorem State.setSeg_s1Present (s : State) (k : Segment) (x : SegState) : (s.setSeg k x).s1Present = s.s1Present := by cases k <;> rfl
@[simp] theorem State.setSeg_store (s : State) (k : Segment) (x : SegState) : (s.setSeg k x).store = s.store := by cases k <;> rfl
@[simp] theorem State.setSeg_slots (s : State) (k : Segment) (x : SegState) : (s.setSeg k x).slots = s.slots := by cases k <;> rfl
@[simp] theorem State.setSeg_parked (s : State) (k : Segment) (x : SegState) : (s.setSeg k x).parked = s.parked := by cases k <;> rfl
@[simp] theorem State.setSeg_cache (s : State) (k : Segment) (x : SegState) : (s.setSeg k x).cache = s.cache := by cases k <;> rfl
@[simp] theorem State.setSeg_commit (s : State) (k : Segment) (x : SegState) : (s.setSeg k x).commit = s.commit := by cases k <;> rfl
@[simp] theorem State.setSeg_up (s : State) (k : Segment) (x : SegState) : (s.setSeg k x).up = s.up := by cases k <;> rfl
@[simp] theorem State.setSeg_agent (s : State) (k : Segment) (x : SegState) : (s.setSeg k x).agent = s.agent := by cases k <;> rfl
@[simp] theorem State.setSeg_counters (s : State) (k : Segment) (x : SegState) : (s.setSeg k x).counters = s.counters := by cases k <;> rfl
@[simp] theorem State.setSeg_pending (s : State) (k : Segment) (x : SegState) : (s.setSeg k x).pending = s.pending := by cases k <;> rfl
@[simp] theorem State.setStation_resetHeld (s : State) (k : Segment) (a : StationAddr) (r : Station) : (s.setStation k a r).resetHeld = s.resetHeld := by cases k <;> rfl
@[simp] theorem State.setStation_ownAddress (s : State) (k : Segment) (a : StationAddr) (r : Station) : (s.setStation k a r).ownAddress = s.ownAddress := by cases k <;> rfl
@[simp] theorem State.setStation_s1Present (s : State) (k : Segment) (a : StationAddr) (r : Station) : (s.setStation k a r).s1Present = s.s1Present := by cases k <;> rfl
@[simp] theorem State.setStation_store (s : State) (k : Segment) (a : StationAddr) (r : Station) : (s.setStation k a r).store = s.store := by cases k <;> rfl
@[simp] theorem State.setStation_slots (s : State) (k : Segment) (a : StationAddr) (r : Station) : (s.setStation k a r).slots = s.slots := by cases k <;> rfl
@[simp] theorem State.setStation_parked (s : State) (k : Segment) (a : StationAddr) (r : Station) : (s.setStation k a r).parked = s.parked := by cases k <;> rfl
@[simp] theorem State.setStation_cache (s : State) (k : Segment) (a : StationAddr) (r : Station) : (s.setStation k a r).cache = s.cache := by cases k <;> rfl
@[simp] theorem State.setStation_commit (s : State) (k : Segment) (a : StationAddr) (r : Station) : (s.setStation k a r).commit = s.commit := by cases k <;> rfl
@[simp] theorem State.setStation_up (s : State) (k : Segment) (a : StationAddr) (r : Station) : (s.setStation k a r).up = s.up := by cases k <;> rfl
@[simp] theorem State.setStation_agent (s : State) (k : Segment) (a : StationAddr) (r : Station) : (s.setStation k a r).agent = s.agent := by cases k <;> rfl
@[simp] theorem State.setStation_counters (s : State) (k : Segment) (a : StationAddr) (r : Station) : (s.setStation k a r).counters = s.counters := by cases k <;> rfl
@[simp] theorem State.setStation_pending (s : State) (k : Segment) (a : StationAddr) (r : Station) : (s.setStation k a r).pending = s.pending := by cases k <;> rfl

/-! ### Reading back -/

@[simp] theorem State.seg_setSeg (s : State) (k j : Segment) (x : SegState) :
    (s.setSeg k x).seg j = if k = j then x else s.seg j := by cases k <;> cases j <;> rfl

@[simp] theorem State.setSeg_slot (s : State) (k : Segment) (x : SegState) (i : SlotIx) :
    (s.setSeg k x).slot i = s.slot i := by cases k <;> rfl

@[simp] theorem State.slot_setSlot (s : State) (i j : SlotIx) (x : Slot) :
    (s.setSlot i x).slot j = if i = j then x else s.slot j := by
  simp only [State.slot, State.setSlot, Fin.getElem_fin, Vector.getElem_set, Fin.val_inj]

@[simp] theorem State.setSlot_seg (s : State) (i : SlotIx) (x : Slot) (k : Segment) :
    (s.setSlot i x).seg k = s.seg k := by cases k <;> rfl

@[simp] theorem State.setSlot_station (s : State) (i : SlotIx) (x : Slot) (k : Segment) (a : StationAddr) :
    (s.setSlot i x).station k a = s.station k a := by cases k <;> rfl

@[simp] theorem State.station_setStation (s : State) (k j : Segment) (a b : StationAddr) (r : Station) :
    (s.setStation k a r).station j b = if k = j ∧ a = b then r else s.station j b := by
  by_cases h : k = j
  · subst h
    simp only [State.station, State.setStation, State.seg_setSeg, if_true, true_and, Fin.getElem_fin,
      Vector.getElem_set, Fin.val_inj]
  · simp [State.station, State.setStation, h]

@[simp] theorem State.setStation_slot (s : State) (k : Segment) (a : StationAddr) (r : Station) (i : SlotIx) :
    (s.setStation k a r).slot i = s.slot i := by cases k <;> rfl

@[simp] theorem State.setStation_queue (s : State) (k j : Segment) (a : StationAddr) (r : Station) :
    ((s.setStation k a r).seg j).queue = (s.seg j).queue := by cases k <;> cases j <;> rfl

@[simp] theorem State.setStation_record (s : State) (k j : Segment) (a : StationAddr) (r : Station) :
    ((s.setStation k a r).seg j).record = (s.seg j).record := by cases k <;> cases j <;> rfl

@[simp] theorem State.setStation_probe (s : State) (k j : Segment) (a : StationAddr) (r : Station) :
    ((s.setStation k a r).seg j).probe = (s.seg j).probe := by cases k <;> cases j <;> rfl

@[simp] theorem State.setUp_seg (s : State) (u : Upstream) (k : Segment) : (s.setUp u).seg k = s.seg k := by
  cases k <;> rfl

@[simp] theorem State.setUp_slot (s : State) (u : Upstream) (i : SlotIx) : (s.setUp u).slot i = s.slot i := rfl

@[simp] theorem State.setUp_station (s : State) (u : Upstream) (k : Segment) (a : StationAddr) :
    (s.setUp u).station k a = s.station k a := by cases k <;> rfl

@[simp] theorem State.setAgent_seg (s : State) (g : Agent) (k : Segment) : (s.setAgent g).seg k = s.seg k := by
  cases k <;> rfl

@[simp] theorem State.setAgent_slot (s : State) (g : Agent) (i : SlotIx) : (s.setAgent g).slot i = s.slot i := rfl

@[simp] theorem State.setAgent_station (s : State) (g : Agent) (k : Segment) (a : StationAddr) :
    (s.setAgent g).station k a = s.station k a := by cases k <;> rfl

@[simp] theorem State.setCounters_seg (s : State) (c : Counters) (k : Segment) : (s.setCounters c).seg k = s.seg k := by
  cases k <;> rfl

@[simp] theorem State.setCounters_slot (s : State) (c : Counters) (i : SlotIx) : (s.setCounters c).slot i = s.slot i :=
  rfl

@[simp] theorem State.setCounters_station (s : State) (c : Counters) (k : Segment) (a : StationAddr) :
    (s.setCounters c).station k a = s.station k a := by cases k <;> rfl

/-- A station of a segment whose queue, record or probe alone changes. -/
@[simp] theorem State.setSeg_station (s : State) (k j : Segment) (x : SegState) (a : StationAddr) :
    (s.setSeg k x).station j a = if k = j then x.stations[(a : Nat)] else s.station j a := by
  by_cases h : k = j <;> simp [State.station, h]

@[simp] theorem State.setStation_setStation (s : State) (k : Segment) (a : StationAddr) (y z : Station) :
    (s.setStation k a y).setStation k a z = s.setStation k a z := by
  cases k <;> simp [State.setStation, State.setSeg, State.seg]

@[simp] theorem State.setUp_self (s : State) : s.setUp s.up = s := rfl

@[simp] theorem State.setAgent_self (s : State) : s.setAgent s.agent = s := rfl

@[simp] theorem State.setCounters_self (s : State) : s.setCounters s.counters = s := rfl

@[simp] theorem State.setSeg_self (s : State) (k : Segment) : s.setSeg k (s.seg k) = s := by cases k <;> rfl

@[simp] theorem State.setSlot_self (s : State) (i : SlotIx) : s.setSlot i (s.slot i) = s := by
  simp [State.setSlot, State.slot]

@[simp] theorem State.setSlot_setSlot (s : State) (i : SlotIx) (x y : Slot) :
    (s.setSlot i x).setSlot i y = s.setSlot i y := by
  simp [State.setSlot]

@[simp] theorem State.setSeg_setSeg (s : State) (k : Segment) (x y : SegState) :
    (s.setSeg k x).setSeg k y = s.setSeg k y := by cases k <;> rfl

/-- A station of a segment that is unchanged. -/
theorem State.station_congr {s t : State} {k : Segment} {a : StationAddr} (h : t.seg k = s.seg k) :
    t.station k a = s.station k a := by simp only [State.station, h]

/-- Slots changed all alike. -/
theorem State.slot_of_map {s t : State} {f : Slot → Slot} (h : t.slots = s.slots.map f) (i : SlotIx) :
    t.slot i = f (s.slot i) := by simp [State.slot, h]

/-- Slots all the same. -/
theorem State.slot_of_replicate {t : State} {x : Slot} (h : t.slots = Vector.replicate 32 x) (i : SlotIx) :
    t.slot i = x := by simp [State.slot, h]

@[simp] theorem State.seg_stations (s : State) (k : Segment) (a : StationAddr) :
    (s.seg k).stations[(a : Nat)] = s.station k a := rfl

@[simp] theorem State.slots_get (s : State) (i : SlotIx) : s.slots[(i : Nat)] = s.slot i := rfl

end Sys2Proof.Machine
end

