-- ==== Sys2Proof/Laws/Ops.lean ====
section
/-! SUPPORT. The shared operations in terms of the setters, and what each leaves alone. -/

namespace Sys2Proof.Machine

/-! ### Counters: one field of the state -/

@[simp] theorem countReceived_eq (p : Port) (s : State) : countReceived p s =
    s.setCounters (s.counters.setPort p { s.counters.port p with received := bump (s.counters.port p).received }) := rfl

@[simp] theorem countCheckError_eq (p : Port) (s : State) : countCheckError p s = s.setCounters
    (s.counters.setPort p { s.counters.port p with checkErrors := bump (s.counters.port p).checkErrors }) := rfl

@[simp] theorem countMalformed_eq (p : Port) (s : State) : countMalformed p s = s.setCounters
    (s.counters.setPort p { s.counters.port p with malformed := bump (s.counters.port p).malformed }) := rfl

@[simp] theorem countTransmitted_eq (p : Port) (s : State) : countTransmitted p s = s.setCounters
    (s.counters.setPort p { s.counters.port p with transmitted := bump (s.counters.port p).transmitted }) := rfl

@[simp] theorem setTrafficCounters_eq (s : State) (t : TrafficCounters) :
    s.setTrafficCounters t = s.setCounters { s.counters with traffic := t } := rfl

@[simp] theorem countAdmitted_eq (s : State) : countAdmitted s =
    s.setTrafficCounters { s.counters.traffic with admitted := bump s.counters.traffic.admitted } := rfl

@[simp] theorem countRefused_eq (s : State) : countRefused s =
    s.setTrafficCounters { s.counters.traffic with refused := bump s.counters.traffic.refused } := rfl

@[simp] theorem countDiscarded_eq (s : State) : countDiscarded s =
    s.setTrafficCounters { s.counters.traffic with discarded := bump s.counters.traffic.discarded } := rfl

@[simp] theorem countChangeForwarded_eq (s : State) : countChangeForwarded s =
    s.setTrafficCounters { s.counters.traffic with changesForwarded := bump s.counters.traffic.changesForwarded } := rfl

@[simp] theorem countChangeSuppressed_eq (s : State) : countChangeSuppressed s =
    s.setTrafficCounters { s.counters.traffic with changesSuppressed := bump s.counters.traffic.changesSuppressed } := rfl

@[simp] theorem countChangeDropped_eq (s : State) : countChangeDropped s =
    s.setTrafficCounters { s.counters.traffic with changesDropped := bump s.counters.traffic.changesDropped } := rfl

@[simp] theorem countChangeUnmapped_eq (s : State) : countChangeUnmapped s =
    s.setTrafficCounters { s.counters.traffic with changesUnmapped := bump s.counters.traffic.changesUnmapped } := rfl

@[simp] theorem countMgmtDiscarded_eq (s : State) : countMgmtDiscarded s =
    s.setTrafficCounters { s.counters.traffic with mgmtDiscarded := bump s.counters.traffic.mgmtDiscarded } := rfl

@[simp] theorem countRetry_eq (k : Segment) (s : State) : countRetry k s =
    s.setCounters (s.counters.setSeg k { s.counters.seg k with retries := bump (s.counters.seg k).retries }) := rfl

@[simp] theorem countFinalTimeout_eq (k : Segment) (s : State) : countFinalTimeout k s = s.setCounters
    (s.counters.setSeg k { s.counters.seg k with finalTimeouts := bump (s.counters.seg k).finalTimeouts }) := rfl

@[simp] theorem countStaleReply_eq (k : Segment) (s : State) : countStaleReply k s = s.setCounters
    (s.counters.setSeg k { s.counters.seg k with staleReplies := bump (s.counters.seg k).staleReplies }) := rfl

/-! ### Notices: only the Notice Queue and its two numbers -/

theorem raiseNotice_eq (e : NoticeEvent) (s : State) : ∃ u : Upstream, raiseNotice e s = s.setUp u
    ∧ u.traffic = s.up.traffic ∧ u.waitList = s.up.waitList ∧ u.outbox = s.up.outbox ∧ u.control = s.up.control
    ∧ u.sending = s.up.sending := by
  unfold raiseNotice
  split <;> exact ⟨_, rfl, rfl, rfl, rfl, rfl, rfl⟩

@[simp] theorem raiseNotice_resetHeld (e : NoticeEvent) (s : State) : (raiseNotice e s).resetHeld = s.resetHeld := by
  unfold raiseNotice; split <;> rfl
@[simp] theorem raiseNotice_ownAddress (e : NoticeEvent) (s : State) : (raiseNotice e s).ownAddress = s.ownAddress := by
  unfold raiseNotice; split <;> rfl
@[simp] theorem raiseNotice_s1Present (e : NoticeEvent) (s : State) : (raiseNotice e s).s1Present = s.s1Present := by
  unfold raiseNotice; split <;> rfl
@[simp] theorem raiseNotice_store (e : NoticeEvent) (s : State) : (raiseNotice e s).store = s.store := by
  unfold raiseNotice; split <;> rfl
@[simp] theorem raiseNotice_slots (e : NoticeEvent) (s : State) : (raiseNotice e s).slots = s.slots := by
  unfold raiseNotice; split <;> rfl
@[simp] theorem raiseNotice_parked (e : NoticeEvent) (s : State) : (raiseNotice e s).parked = s.parked := by
  unfold raiseNotice; split <;> rfl
@[simp] theorem raiseNotice_seg0 (e : NoticeEvent) (s : State) : (raiseNotice e s).seg0 = s.seg0 := by
  unfold raiseNotice; split <;> rfl
@[simp] theorem raiseNotice_seg1 (e : NoticeEvent) (s : State) : (raiseNotice e s).seg1 = s.seg1 := by
  unfold raiseNotice; split <;> rfl
@[simp] theorem raiseNotice_cache (e : NoticeEvent) (s : State) : (raiseNotice e s).cache = s.cache := by
  unfold raiseNotice; split <;> rfl
@[simp] theorem raiseNotice_commit (e : NoticeEvent) (s : State) : (raiseNotice e s).commit = s.commit := by
  unfold raiseNotice; split <;> rfl
@[simp] theorem raiseNotice_agent (e : NoticeEvent) (s : State) : (raiseNotice e s).agent = s.agent := by
  unfold raiseNotice; split <;> rfl
@[simp] theorem raiseNotice_counters (e : NoticeEvent) (s : State) : (raiseNotice e s).counters = s.counters := by
  unfold raiseNotice; split <;> rfl
@[simp] theorem raiseNotice_pending (e : NoticeEvent) (s : State) : (raiseNotice e s).pending = s.pending := by
  unfold raiseNotice; split <;> rfl
@[simp] theorem raiseNotice_up_traffic (e : NoticeEvent) (s : State) : (raiseNotice e s).up.traffic = s.up.traffic := by
  unfold raiseNotice; split <;> rfl
@[simp] theorem raiseNotice_up_waitList (e : NoticeEvent) (s : State) : (raiseNotice e s).up.waitList = s.up.waitList := by
  unfold raiseNotice; split <;> rfl
@[simp] theorem raiseNotice_up_outbox (e : NoticeEvent) (s : State) : (raiseNotice e s).up.outbox = s.up.outbox := by
  unfold raiseNotice; split <;> rfl
@[simp] theorem raiseNotice_up_control (e : NoticeEvent) (s : State) : (raiseNotice e s).up.control = s.up.control := by
  unfold raiseNotice; split <;> rfl
@[simp] theorem raiseNotice_up_sending (e : NoticeEvent) (s : State) : (raiseNotice e s).up.sending = s.up.sending := by
  unfold raiseNotice; split <;> rfl

@[simp] theorem raiseNotice_slot (e : NoticeEvent) (s : State) (i : SlotIx) : (raiseNotice e s).slot i = s.slot i := by
  unfold raiseNotice; split <;> rfl

@[simp] theorem raiseNotice_seg (e : NoticeEvent) (s : State) (k : Segment) : (raiseNotice e s).seg k = s.seg k := by
  unfold raiseNotice; split <;> cases k <;> rfl

@[simp] theorem raiseNotice_station (e : NoticeEvent) (s : State) (k : Segment) (a : StationAddr) :
    (raiseNotice e s).station k a = s.station k a := by unfold raiseNotice; split <;> cases k <;> rfl

/-- The Notice Queue never grows past 16 (R139). -/
theorem raiseNotice_notices_le (e : NoticeEvent) (s : State) (h : s.up.notices.length ≤ 16) :
    (raiseNotice e s).up.notices.length ≤ 16 := by
  unfold raiseNotice Config.noticeCapacity
  split
  · simp; omega
  · simpa using h

end Sys2Proof.Machine
end

