-- ==== Sys2Proof/Laws/Frames.lean ====
section
/-! SUPPORT. What the shared operations leave alone: the segment side does not touch the upstream side, and the other
way round. -/

namespace Sys2Proof.Machine

variable {s : State}

/-! ### The segment side -/

@[simp] theorem startSlot_resetHeld (k : Segment) (i : SlotIx) (rest : List SlotIx) : (startSlot k i rest s).resetHeld = s.resetHeld := by
  simp [startSlot]
@[simp] theorem startSlot_ownAddress (k : Segment) (i : SlotIx) (rest : List SlotIx) : (startSlot k i rest s).ownAddress = s.ownAddress := by
  simp [startSlot]
@[simp] theorem startSlot_s1Present (k : Segment) (i : SlotIx) (rest : List SlotIx) : (startSlot k i rest s).s1Present = s.s1Present := by
  simp [startSlot]
@[simp] theorem startSlot_store (k : Segment) (i : SlotIx) (rest : List SlotIx) : (startSlot k i rest s).store = s.store := by
  simp [startSlot]
@[simp] theorem startSlot_parked (k : Segment) (i : SlotIx) (rest : List SlotIx) : (startSlot k i rest s).parked = s.parked := by
  simp [startSlot]
@[simp] theorem startSlot_cache (k : Segment) (i : SlotIx) (rest : List SlotIx) : (startSlot k i rest s).cache = s.cache := by
  simp [startSlot]
@[simp] theorem startSlot_commit (k : Segment) (i : SlotIx) (rest : List SlotIx) : (startSlot k i rest s).commit = s.commit := by
  simp [startSlot]
@[simp] theorem startSlot_up (k : Segment) (i : SlotIx) (rest : List SlotIx) : (startSlot k i rest s).up = s.up := by
  simp [startSlot]
@[simp] theorem startSlot_agent (k : Segment) (i : SlotIx) (rest : List SlotIx) : (startSlot k i rest s).agent = s.agent := by
  simp [startSlot]
@[simp] theorem startSlot_counters (k : Segment) (i : SlotIx) (rest : List SlotIx) : (startSlot k i rest s).counters = s.counters := by
  simp [startSlot]
@[simp] theorem startSlot_pending (k : Segment) (i : SlotIx) (rest : List SlotIx) : (startSlot k i rest s).pending = s.pending := by
  simp [startSlot]

@[simp] theorem startProbe_resetHeld (k : Segment) (a : StationAddr) : (startProbe k a s).resetHeld = s.resetHeld := by
  simp [startProbe]
@[simp] theorem startProbe_ownAddress (k : Segment) (a : StationAddr) : (startProbe k a s).ownAddress = s.ownAddress := by
  simp [startProbe]
@[simp] theorem startProbe_s1Present (k : Segment) (a : StationAddr) : (startProbe k a s).s1Present = s.s1Present := by
  simp [startProbe]
@[simp] theorem startProbe_store (k : Segment) (a : StationAddr) : (startProbe k a s).store = s.store := by
  simp [startProbe]
@[simp] theorem startProbe_parked (k : Segment) (a : StationAddr) : (startProbe k a s).parked = s.parked := by
  simp [startProbe]
@[simp] theorem startProbe_cache (k : Segment) (a : StationAddr) : (startProbe k a s).cache = s.cache := by
  simp [startProbe]
@[simp] theorem startProbe_commit (k : Segment) (a : StationAddr) : (startProbe k a s).commit = s.commit := by
  simp [startProbe]
@[simp] theorem startProbe_up (k : Segment) (a : StationAddr) : (startProbe k a s).up = s.up := by
  simp [startProbe]
@[simp] theorem startProbe_agent (k : Segment) (a : StationAddr) : (startProbe k a s).agent = s.agent := by
  simp [startProbe]
@[simp] theorem startProbe_counters (k : Segment) (a : StationAddr) : (startProbe k a s).counters = s.counters := by
  simp [startProbe]
@[simp] theorem startProbe_pending (k : Segment) (a : StationAddr) : (startProbe k a s).pending = s.pending := by
  simp [startProbe]

@[simp] theorem dispatcherChoice_resetHeld (k : Segment) : (dispatcherChoice k s).resetHeld = s.resetHeld := by
  unfold dispatcherChoice startQueueHead; split
  · simp
  · split <;> simp
@[simp] theorem dispatcherChoice_ownAddress (k : Segment) : (dispatcherChoice k s).ownAddress = s.ownAddress := by
  unfold dispatcherChoice startQueueHead; split
  · simp
  · split <;> simp
@[simp] theorem dispatcherChoice_s1Present (k : Segment) : (dispatcherChoice k s).s1Present = s.s1Present := by
  unfold dispatcherChoice startQueueHead; split
  · simp
  · split <;> simp
@[simp] theorem dispatcherChoice_store (k : Segment) : (dispatcherChoice k s).store = s.store := by
  unfold dispatcherChoice startQueueHead; split
  · simp
  · split <;> simp
@[simp] theorem dispatcherChoice_parked (k : Segment) : (dispatcherChoice k s).parked = s.parked := by
  unfold dispatcherChoice startQueueHead; split
  · simp
  · split <;> simp
@[simp] theorem dispatcherChoice_cache (k : Segment) : (dispatcherChoice k s).cache = s.cache := by
  unfold dispatcherChoice startQueueHead; split
  · simp
  · split <;> simp
@[simp] theorem dispatcherChoice_commit (k : Segment) : (dispatcherChoice k s).commit = s.commit := by
  unfold dispatcherChoice startQueueHead; split
  · simp
  · split <;> simp
@[simp] theorem dispatcherChoice_up (k : Segment) : (dispatcherChoice k s).up = s.up := by
  unfold dispatcherChoice startQueueHead; split
  · simp
  · split <;> simp
@[simp] theorem dispatcherChoice_agent (k : Segment) : (dispatcherChoice k s).agent = s.agent := by
  unfold dispatcherChoice startQueueHead; split
  · simp
  · split <;> simp
@[simp] theorem dispatcherChoice_counters (k : Segment) : (dispatcherChoice k s).counters = s.counters := by
  unfold dispatcherChoice startQueueHead; split
  · simp
  · split <;> simp
@[simp] theorem dispatcherChoice_pending (k : Segment) : (dispatcherChoice k s).pending = s.pending := by
  unfold dispatcherChoice startQueueHead; split
  · simp
  · split <;> simp

@[simp] theorem dispatchIfIdle_resetHeld (k : Segment) : (dispatchIfIdle k s).resetHeld = s.resetHeld := by
  unfold dispatchIfIdle; split
  · split <;> simp
  · rfl
@[simp] theorem dispatchIfIdle_ownAddress (k : Segment) : (dispatchIfIdle k s).ownAddress = s.ownAddress := by
  unfold dispatchIfIdle; split
  · split <;> simp
  · rfl
@[simp] theorem dispatchIfIdle_s1Present (k : Segment) : (dispatchIfIdle k s).s1Present = s.s1Present := by
  unfold dispatchIfIdle; split
  · split <;> simp
  · rfl
@[simp] theorem dispatchIfIdle_store (k : Segment) : (dispatchIfIdle k s).store = s.store := by
  unfold dispatchIfIdle; split
  · split <;> simp
  · rfl
@[simp] theorem dispatchIfIdle_parked (k : Segment) : (dispatchIfIdle k s).parked = s.parked := by
  unfold dispatchIfIdle; split
  · split <;> simp
  · rfl
@[simp] theorem dispatchIfIdle_cache (k : Segment) : (dispatchIfIdle k s).cache = s.cache := by
  unfold dispatchIfIdle; split
  · split <;> simp
  · rfl
@[simp] theorem dispatchIfIdle_commit (k : Segment) : (dispatchIfIdle k s).commit = s.commit := by
  unfold dispatchIfIdle; split
  · split <;> simp
  · rfl
@[simp] theorem dispatchIfIdle_up (k : Segment) : (dispatchIfIdle k s).up = s.up := by
  unfold dispatchIfIdle; split
  · split <;> simp
  · rfl
@[simp] theorem dispatchIfIdle_agent (k : Segment) : (dispatchIfIdle k s).agent = s.agent := by
  unfold dispatchIfIdle; split
  · split <;> simp
  · rfl
@[simp] theorem dispatchIfIdle_counters (k : Segment) : (dispatchIfIdle k s).counters = s.counters := by
  unfold dispatchIfIdle; split
  · split <;> simp
  · rfl
@[simp] theorem dispatchIfIdle_pending (k : Segment) : (dispatchIfIdle k s).pending = s.pending := by
  unfold dispatchIfIdle; split
  · split <;> simp
  · rfl

@[simp] theorem queueSlot_resetHeld (i : SlotIx) : (queueSlot i s).resetHeld = s.resetHeld := by
  simp [queueSlot]
@[simp] theorem queueSlot_ownAddress (i : SlotIx) : (queueSlot i s).ownAddress = s.ownAddress := by
  simp [queueSlot]
@[simp] theorem queueSlot_s1Present (i : SlotIx) : (queueSlot i s).s1Present = s.s1Present := by
  simp [queueSlot]
@[simp] theorem queueSlot_store (i : SlotIx) : (queueSlot i s).store = s.store := by
  simp [queueSlot]
@[simp] theorem queueSlot_parked (i : SlotIx) : (queueSlot i s).parked = s.parked := by
  simp [queueSlot]
@[simp] theorem queueSlot_cache (i : SlotIx) : (queueSlot i s).cache = s.cache := by
  simp [queueSlot]
@[simp] theorem queueSlot_commit (i : SlotIx) : (queueSlot i s).commit = s.commit := by
  simp [queueSlot]
@[simp] theorem queueSlot_up (i : SlotIx) : (queueSlot i s).up = s.up := by
  simp [queueSlot]
@[simp] theorem queueSlot_agent (i : SlotIx) : (queueSlot i s).agent = s.agent := by
  simp [queueSlot]
@[simp] theorem queueSlot_counters (i : SlotIx) : (queueSlot i s).counters = s.counters := by
  simp [queueSlot]
@[simp] theorem queueSlot_pending (i : SlotIx) : (queueSlot i s).pending = s.pending := by
  simp [queueSlot]

@[simp] theorem clearActive_resetHeld (k : Segment) (a : StationAddr) : (clearActive k a s).resetHeld = s.resetHeld := by
  simp [clearActive]
@[simp] theorem clearActive_ownAddress (k : Segment) (a : StationAddr) : (clearActive k a s).ownAddress = s.ownAddress := by
  simp [clearActive]
@[simp] theorem clearActive_s1Present (k : Segment) (a : StationAddr) : (clearActive k a s).s1Present = s.s1Present := by
  simp [clearActive]
@[simp] theorem clearActive_store (k : Segment) (a : StationAddr) : (clearActive k a s).store = s.store := by
  simp [clearActive]
@[simp] theorem clearActive_parked (k : Segment) (a : StationAddr) : (clearActive k a s).parked = s.parked := by
  simp [clearActive]
@[simp] theorem clearActive_cache (k : Segment) (a : StationAddr) : (clearActive k a s).cache = s.cache := by
  simp [clearActive]
@[simp] theorem clearActive_commit (k : Segment) (a : StationAddr) : (clearActive k a s).commit = s.commit := by
  simp [clearActive]
@[simp] theorem clearActive_up (k : Segment) (a : StationAddr) : (clearActive k a s).up = s.up := by
  simp [clearActive]
@[simp] theorem clearActive_agent (k : Segment) (a : StationAddr) : (clearActive k a s).agent = s.agent := by
  simp [clearActive]
@[simp] theorem clearActive_counters (k : Segment) (a : StationAddr) : (clearActive k a s).counters = s.counters := by
  simp [clearActive]
@[simp] theorem clearActive_pending (k : Segment) (a : StationAddr) : (clearActive k a s).pending = s.pending := by
  simp [clearActive]

@[simp] theorem releaseHeld_resetHeld (k : Segment) (a : StationAddr) : (releaseHeld k a s).resetHeld = s.resetHeld := by
  unfold releaseHeld; split <;> simp
@[simp] theorem releaseHeld_ownAddress (k : Segment) (a : StationAddr) : (releaseHeld k a s).ownAddress = s.ownAddress := by
  unfold releaseHeld; split <;> simp
@[simp] theorem releaseHeld_s1Present (k : Segment) (a : StationAddr) : (releaseHeld k a s).s1Present = s.s1Present := by
  unfold releaseHeld; split <;> simp
@[simp] theorem releaseHeld_store (k : Segment) (a : StationAddr) : (releaseHeld k a s).store = s.store := by
  unfold releaseHeld; split <;> simp
@[simp] theorem releaseHeld_parked (k : Segment) (a : StationAddr) : (releaseHeld k a s).parked = s.parked := by
  unfold releaseHeld; split <;> simp
@[simp] theorem releaseHeld_cache (k : Segment) (a : StationAddr) : (releaseHeld k a s).cache = s.cache := by
  unfold releaseHeld; split <;> simp
@[simp] theorem releaseHeld_commit (k : Segment) (a : StationAddr) : (releaseHeld k a s).commit = s.commit := by
  unfold releaseHeld; split <;> simp
@[simp] theorem releaseHeld_up (k : Segment) (a : StationAddr) : (releaseHeld k a s).up = s.up := by
  unfold releaseHeld; split <;> simp
@[simp] theorem releaseHeld_agent (k : Segment) (a : StationAddr) : (releaseHeld k a s).agent = s.agent := by
  unfold releaseHeld; split <;> simp
@[simp] theorem releaseHeld_counters (k : Segment) (a : StationAddr) : (releaseHeld k a s).counters = s.counters := by
  unfold releaseHeld; split <;> simp
@[simp] theorem releaseHeld_pending (k : Segment) (a : StationAddr) : (releaseHeld k a s).pending = s.pending := by
  unfold releaseHeld; split <;> simp

/-! ### The upstream side -/

@[simp] theorem clearSlot_resetHeld (i : SlotIx) : (clearSlot i s).resetHeld = s.resetHeld := by
  simp [clearSlot]
@[simp] theorem clearSlot_ownAddress (i : SlotIx) : (clearSlot i s).ownAddress = s.ownAddress := by
  simp [clearSlot]
@[simp] theorem clearSlot_s1Present (i : SlotIx) : (clearSlot i s).s1Present = s.s1Present := by
  simp [clearSlot]
@[simp] theorem clearSlot_store (i : SlotIx) : (clearSlot i s).store = s.store := by
  simp [clearSlot]
@[simp] theorem clearSlot_parked (i : SlotIx) : (clearSlot i s).parked = s.parked := by
  simp [clearSlot]
@[simp] theorem clearSlot_seg0 (i : SlotIx) : (clearSlot i s).seg0 = s.seg0 := by
  simp [clearSlot]
@[simp] theorem clearSlot_seg1 (i : SlotIx) : (clearSlot i s).seg1 = s.seg1 := by
  simp [clearSlot]
@[simp] theorem clearSlot_cache (i : SlotIx) : (clearSlot i s).cache = s.cache := by
  simp [clearSlot]
@[simp] theorem clearSlot_commit (i : SlotIx) : (clearSlot i s).commit = s.commit := by
  simp [clearSlot]
@[simp] theorem clearSlot_agent (i : SlotIx) : (clearSlot i s).agent = s.agent := by
  simp [clearSlot]
@[simp] theorem clearSlot_counters (i : SlotIx) : (clearSlot i s).counters = s.counters := by
  simp [clearSlot]
@[simp] theorem clearSlot_pending (i : SlotIx) : (clearSlot i s).pending = s.pending := by
  simp [clearSlot]
@[simp] theorem clearSlot_up (i : SlotIx) : (clearSlot i s).up = s.up := by
  simp [clearSlot]

@[simp] theorem becomeReady_resetHeld (i : SlotIx) (b : BuiltReply) : (becomeReady i b s).resetHeld = s.resetHeld := by
  simp [becomeReady]
@[simp] theorem becomeReady_ownAddress (i : SlotIx) (b : BuiltReply) : (becomeReady i b s).ownAddress = s.ownAddress := by
  simp [becomeReady]
@[simp] theorem becomeReady_s1Present (i : SlotIx) (b : BuiltReply) : (becomeReady i b s).s1Present = s.s1Present := by
  simp [becomeReady]
@[simp] theorem becomeReady_store (i : SlotIx) (b : BuiltReply) : (becomeReady i b s).store = s.store := by
  simp [becomeReady]
@[simp] theorem becomeReady_parked (i : SlotIx) (b : BuiltReply) : (becomeReady i b s).parked = s.parked := by
  simp [becomeReady]
@[simp] theorem becomeReady_seg0 (i : SlotIx) (b : BuiltReply) : (becomeReady i b s).seg0 = s.seg0 := by
  simp [becomeReady]
@[simp] theorem becomeReady_seg1 (i : SlotIx) (b : BuiltReply) : (becomeReady i b s).seg1 = s.seg1 := by
  simp [becomeReady]
@[simp] theorem becomeReady_cache (i : SlotIx) (b : BuiltReply) : (becomeReady i b s).cache = s.cache := by
  simp [becomeReady]
@[simp] theorem becomeReady_commit (i : SlotIx) (b : BuiltReply) : (becomeReady i b s).commit = s.commit := by
  simp [becomeReady]
@[simp] theorem becomeReady_agent (i : SlotIx) (b : BuiltReply) : (becomeReady i b s).agent = s.agent := by
  simp [becomeReady]
@[simp] theorem becomeReady_counters (i : SlotIx) (b : BuiltReply) : (becomeReady i b s).counters = s.counters := by
  simp [becomeReady]
@[simp] theorem becomeReady_pending (i : SlotIx) (b : BuiltReply) : (becomeReady i b s).pending = s.pending := by
  simp [becomeReady]
@[simp] theorem becomeReady_up (i : SlotIx) (b : BuiltReply) : (becomeReady i b s).up = s.up := by
  simp [becomeReady]

@[simp] theorem enterTraffic_resetHeld (t : Telegram) : (enterTraffic t s).resetHeld = s.resetHeld := by
  simp [enterTraffic]
@[simp] theorem enterTraffic_ownAddress (t : Telegram) : (enterTraffic t s).ownAddress = s.ownAddress := by
  simp [enterTraffic]
@[simp] theorem enterTraffic_s1Present (t : Telegram) : (enterTraffic t s).s1Present = s.s1Present := by
  simp [enterTraffic]
@[simp] theorem enterTraffic_store (t : Telegram) : (enterTraffic t s).store = s.store := by
  simp [enterTraffic]
@[simp] theorem enterTraffic_parked (t : Telegram) : (enterTraffic t s).parked = s.parked := by
  simp [enterTraffic]
@[simp] theorem enterTraffic_seg0 (t : Telegram) : (enterTraffic t s).seg0 = s.seg0 := by
  simp [enterTraffic]
@[simp] theorem enterTraffic_seg1 (t : Telegram) : (enterTraffic t s).seg1 = s.seg1 := by
  simp [enterTraffic]
@[simp] theorem enterTraffic_cache (t : Telegram) : (enterTraffic t s).cache = s.cache := by
  simp [enterTraffic]
@[simp] theorem enterTraffic_commit (t : Telegram) : (enterTraffic t s).commit = s.commit := by
  simp [enterTraffic]
@[simp] theorem enterTraffic_agent (t : Telegram) : (enterTraffic t s).agent = s.agent := by
  simp [enterTraffic]
@[simp] theorem enterTraffic_counters (t : Telegram) : (enterTraffic t s).counters = s.counters := by
  simp [enterTraffic]
@[simp] theorem enterTraffic_pending (t : Telegram) : (enterTraffic t s).pending = s.pending := by
  simp [enterTraffic]
@[simp] theorem enterTraffic_slots (t : Telegram) : (enterTraffic t s).slots = s.slots := by
  simp [enterTraffic]

@[simp] theorem joinWaitList_resetHeld (i : SlotIx) : (joinWaitList i s).resetHeld = s.resetHeld := by
  simp [joinWaitList]
@[simp] theorem joinWaitList_ownAddress (i : SlotIx) : (joinWaitList i s).ownAddress = s.ownAddress := by
  simp [joinWaitList]
@[simp] theorem joinWaitList_s1Present (i : SlotIx) : (joinWaitList i s).s1Present = s.s1Present := by
  simp [joinWaitList]
@[simp] theorem joinWaitList_store (i : SlotIx) : (joinWaitList i s).store = s.store := by
  simp [joinWaitList]
@[simp] theorem joinWaitList_parked (i : SlotIx) : (joinWaitList i s).parked = s.parked := by
  simp [joinWaitList]
@[simp] theorem joinWaitList_seg0 (i : SlotIx) : (joinWaitList i s).seg0 = s.seg0 := by
  simp [joinWaitList]
@[simp] theorem joinWaitList_seg1 (i : SlotIx) : (joinWaitList i s).seg1 = s.seg1 := by
  simp [joinWaitList]
@[simp] theorem joinWaitList_cache (i : SlotIx) : (joinWaitList i s).cache = s.cache := by
  simp [joinWaitList]
@[simp] theorem joinWaitList_commit (i : SlotIx) : (joinWaitList i s).commit = s.commit := by
  simp [joinWaitList]
@[simp] theorem joinWaitList_agent (i : SlotIx) : (joinWaitList i s).agent = s.agent := by
  simp [joinWaitList]
@[simp] theorem joinWaitList_counters (i : SlotIx) : (joinWaitList i s).counters = s.counters := by
  simp [joinWaitList]
@[simp] theorem joinWaitList_pending (i : SlotIx) : (joinWaitList i s).pending = s.pending := by
  simp [joinWaitList]
@[simp] theorem joinWaitList_slots (i : SlotIx) : (joinWaitList i s).slots = s.slots := by
  simp [joinWaitList]

@[simp] theorem placeReply_resetHeld (r : MgmtReply) : (placeReply r s).resetHeld = s.resetHeld := by
  simp [placeReply]
@[simp] theorem placeReply_ownAddress (r : MgmtReply) : (placeReply r s).ownAddress = s.ownAddress := by
  simp [placeReply]
@[simp] theorem placeReply_s1Present (r : MgmtReply) : (placeReply r s).s1Present = s.s1Present := by
  simp [placeReply]
@[simp] theorem placeReply_store (r : MgmtReply) : (placeReply r s).store = s.store := by
  simp [placeReply]
@[simp] theorem placeReply_parked (r : MgmtReply) : (placeReply r s).parked = s.parked := by
  simp [placeReply]
@[simp] theorem placeReply_seg0 (r : MgmtReply) : (placeReply r s).seg0 = s.seg0 := by
  simp [placeReply]
@[simp] theorem placeReply_seg1 (r : MgmtReply) : (placeReply r s).seg1 = s.seg1 := by
  simp [placeReply]
@[simp] theorem placeReply_cache (r : MgmtReply) : (placeReply r s).cache = s.cache := by
  simp [placeReply]
@[simp] theorem placeReply_commit (r : MgmtReply) : (placeReply r s).commit = s.commit := by
  simp [placeReply]
@[simp] theorem placeReply_agent (r : MgmtReply) : (placeReply r s).agent = s.agent := by
  simp [placeReply]
@[simp] theorem placeReply_counters (r : MgmtReply) : (placeReply r s).counters = s.counters := by
  simp [placeReply]
@[simp] theorem placeReply_pending (r : MgmtReply) : (placeReply r s).pending = s.pending := by
  simp [placeReply]
@[simp] theorem placeReply_slots (r : MgmtReply) : (placeReply r s).slots = s.slots := by
  simp [placeReply]

@[simp] theorem sendUp_resetHeld (i : SlotIx) : (sendUp i s).resetHeld = s.resetHeld := by
  simp [sendUp]
@[simp] theorem sendUp_ownAddress (i : SlotIx) : (sendUp i s).ownAddress = s.ownAddress := by
  simp [sendUp]
@[simp] theorem sendUp_s1Present (i : SlotIx) : (sendUp i s).s1Present = s.s1Present := by
  simp [sendUp]
@[simp] theorem sendUp_store (i : SlotIx) : (sendUp i s).store = s.store := by
  simp [sendUp]
@[simp] theorem sendUp_parked (i : SlotIx) : (sendUp i s).parked = s.parked := by
  simp [sendUp]
@[simp] theorem sendUp_seg0 (i : SlotIx) : (sendUp i s).seg0 = s.seg0 := by
  simp [sendUp]
@[simp] theorem sendUp_seg1 (i : SlotIx) : (sendUp i s).seg1 = s.seg1 := by
  simp [sendUp]
@[simp] theorem sendUp_cache (i : SlotIx) : (sendUp i s).cache = s.cache := by
  simp [sendUp]
@[simp] theorem sendUp_commit (i : SlotIx) : (sendUp i s).commit = s.commit := by
  simp [sendUp]
@[simp] theorem sendUp_agent (i : SlotIx) : (sendUp i s).agent = s.agent := by
  simp [sendUp]
@[simp] theorem sendUp_counters (i : SlotIx) : (sendUp i s).counters = s.counters := by
  simp [sendUp]
@[simp] theorem sendUp_pending (i : SlotIx) : (sendUp i s).pending = s.pending := by
  simp [sendUp]

@[simp] theorem offerReply_resetHeld (i : SlotIx) : (offerReply i s).resetHeld = s.resetHeld := by
  unfold offerReply; split <;> simp
@[simp] theorem offerReply_ownAddress (i : SlotIx) : (offerReply i s).ownAddress = s.ownAddress := by
  unfold offerReply; split <;> simp
@[simp] theorem offerReply_s1Present (i : SlotIx) : (offerReply i s).s1Present = s.s1Present := by
  unfold offerReply; split <;> simp
@[simp] theorem offerReply_store (i : SlotIx) : (offerReply i s).store = s.store := by
  unfold offerReply; split <;> simp
@[simp] theorem offerReply_parked (i : SlotIx) : (offerReply i s).parked = s.parked := by
  unfold offerReply; split <;> simp
@[simp] theorem offerReply_seg0 (i : SlotIx) : (offerReply i s).seg0 = s.seg0 := by
  unfold offerReply; split <;> simp
@[simp] theorem offerReply_seg1 (i : SlotIx) : (offerReply i s).seg1 = s.seg1 := by
  unfold offerReply; split <;> simp
@[simp] theorem offerReply_cache (i : SlotIx) : (offerReply i s).cache = s.cache := by
  unfold offerReply; split <;> simp
@[simp] theorem offerReply_commit (i : SlotIx) : (offerReply i s).commit = s.commit := by
  unfold offerReply; split <;> simp
@[simp] theorem offerReply_agent (i : SlotIx) : (offerReply i s).agent = s.agent := by
  unfold offerReply; split <;> simp
@[simp] theorem offerReply_counters (i : SlotIx) : (offerReply i s).counters = s.counters := by
  unfold offerReply; split <;> simp
@[simp] theorem offerReply_pending (i : SlotIx) : (offerReply i s).pending = s.pending := by
  unfold offerReply; split <;> simp

@[simp] theorem answerSlot_resetHeld (b : BuiltReply) (i : SlotIx) : (answerSlot b s i).resetHeld = s.resetHeld := by
  simp [answerSlot]
@[simp] theorem answerSlot_ownAddress (b : BuiltReply) (i : SlotIx) : (answerSlot b s i).ownAddress = s.ownAddress := by
  simp [answerSlot]
@[simp] theorem answerSlot_s1Present (b : BuiltReply) (i : SlotIx) : (answerSlot b s i).s1Present = s.s1Present := by
  simp [answerSlot]
@[simp] theorem answerSlot_store (b : BuiltReply) (i : SlotIx) : (answerSlot b s i).store = s.store := by
  simp [answerSlot]
@[simp] theorem answerSlot_parked (b : BuiltReply) (i : SlotIx) : (answerSlot b s i).parked = s.parked := by
  simp [answerSlot]
@[simp] theorem answerSlot_seg0 (b : BuiltReply) (i : SlotIx) : (answerSlot b s i).seg0 = s.seg0 := by
  simp [answerSlot]
@[simp] theorem answerSlot_seg1 (b : BuiltReply) (i : SlotIx) : (answerSlot b s i).seg1 = s.seg1 := by
  simp [answerSlot]
@[simp] theorem answerSlot_cache (b : BuiltReply) (i : SlotIx) : (answerSlot b s i).cache = s.cache := by
  simp [answerSlot]
@[simp] theorem answerSlot_commit (b : BuiltReply) (i : SlotIx) : (answerSlot b s i).commit = s.commit := by
  simp [answerSlot]
@[simp] theorem answerSlot_agent (b : BuiltReply) (i : SlotIx) : (answerSlot b s i).agent = s.agent := by
  simp [answerSlot]
@[simp] theorem answerSlot_counters (b : BuiltReply) (i : SlotIx) : (answerSlot b s i).counters = s.counters := by
  simp [answerSlot]
@[simp] theorem answerSlot_pending (b : BuiltReply) (i : SlotIx) : (answerSlot b s i).pending = s.pending := by
  simp [answerSlot]

@[simp] theorem answerAll_resetHeld (st : ReplyStatus) (l : List SlotIx) : (answerAll st l s).resetHeld = s.resetHeld := by
  unfold answerAll
  induction l generalizing s with
  | nil => rfl
  | cons i l ih => rw [List.foldl_cons, ih, answerSlot_resetHeld]
@[simp] theorem answerAll_ownAddress (st : ReplyStatus) (l : List SlotIx) : (answerAll st l s).ownAddress = s.ownAddress := by
  unfold answerAll
  induction l generalizing s with
  | nil => rfl
  | cons i l ih => rw [List.foldl_cons, ih, answerSlot_ownAddress]
@[simp] theorem answerAll_s1Present (st : ReplyStatus) (l : List SlotIx) : (answerAll st l s).s1Present = s.s1Present := by
  unfold answerAll
  induction l generalizing s with
  | nil => rfl
  | cons i l ih => rw [List.foldl_cons, ih, answerSlot_s1Present]
@[simp] theorem answerAll_store (st : ReplyStatus) (l : List SlotIx) : (answerAll st l s).store = s.store := by
  unfold answerAll
  induction l generalizing s with
  | nil => rfl
  | cons i l ih => rw [List.foldl_cons, ih, answerSlot_store]
@[simp] theorem answerAll_parked (st : ReplyStatus) (l : List SlotIx) : (answerAll st l s).parked = s.parked := by
  unfold answerAll
  induction l generalizing s with
  | nil => rfl
  | cons i l ih => rw [List.foldl_cons, ih, answerSlot_parked]
@[simp] theorem answerAll_seg0 (st : ReplyStatus) (l : List SlotIx) : (answerAll st l s).seg0 = s.seg0 := by
  unfold answerAll
  induction l generalizing s with
  | nil => rfl
  | cons i l ih => rw [List.foldl_cons, ih, answerSlot_seg0]
@[simp] theorem answerAll_seg1 (st : ReplyStatus) (l : List SlotIx) : (answerAll st l s).seg1 = s.seg1 := by
  unfold answerAll
  induction l generalizing s with
  | nil => rfl
  | cons i l ih => rw [List.foldl_cons, ih, answerSlot_seg1]
@[simp] theorem answerAll_cache (st : ReplyStatus) (l : List SlotIx) : (answerAll st l s).cache = s.cache := by
  unfold answerAll
  induction l generalizing s with
  | nil => rfl
  | cons i l ih => rw [List.foldl_cons, ih, answerSlot_cache]
@[simp] theorem answerAll_commit (st : ReplyStatus) (l : List SlotIx) : (answerAll st l s).commit = s.commit := by
  unfold answerAll
  induction l generalizing s with
  | nil => rfl
  | cons i l ih => rw [List.foldl_cons, ih, answerSlot_commit]
@[simp] theorem answerAll_agent (st : ReplyStatus) (l : List SlotIx) : (answerAll st l s).agent = s.agent := by
  unfold answerAll
  induction l generalizing s with
  | nil => rfl
  | cons i l ih => rw [List.foldl_cons, ih, answerSlot_agent]
@[simp] theorem answerAll_counters (st : ReplyStatus) (l : List SlotIx) : (answerAll st l s).counters = s.counters := by
  unfold answerAll
  induction l generalizing s with
  | nil => rfl
  | cons i l ih => rw [List.foldl_cons, ih, answerSlot_counters]
@[simp] theorem answerAll_pending (st : ReplyStatus) (l : List SlotIx) : (answerAll st l s).pending = s.pending := by
  unfold answerAll
  induction l generalizing s with
  | nil => rfl
  | cons i l ih => rw [List.foldl_cons, ih, answerSlot_pending]

@[simp] theorem moveWaitList_resetHeld  : (moveWaitList s).resetHeld = s.resetHeld := by
  unfold moveWaitList; split <;> simp
@[simp] theorem moveWaitList_ownAddress  : (moveWaitList s).ownAddress = s.ownAddress := by
  unfold moveWaitList; split <;> simp
@[simp] theorem moveWaitList_s1Present  : (moveWaitList s).s1Present = s.s1Present := by
  unfold moveWaitList; split <;> simp
@[simp] theorem moveWaitList_store  : (moveWaitList s).store = s.store := by
  unfold moveWaitList; split <;> simp
@[simp] theorem moveWaitList_parked  : (moveWaitList s).parked = s.parked := by
  unfold moveWaitList; split <;> simp
@[simp] theorem moveWaitList_seg0  : (moveWaitList s).seg0 = s.seg0 := by
  unfold moveWaitList; split <;> simp
@[simp] theorem moveWaitList_seg1  : (moveWaitList s).seg1 = s.seg1 := by
  unfold moveWaitList; split <;> simp
@[simp] theorem moveWaitList_cache  : (moveWaitList s).cache = s.cache := by
  unfold moveWaitList; split <;> simp
@[simp] theorem moveWaitList_commit  : (moveWaitList s).commit = s.commit := by
  unfold moveWaitList; split <;> simp
@[simp] theorem moveWaitList_agent  : (moveWaitList s).agent = s.agent := by
  unfold moveWaitList; split <;> simp
@[simp] theorem moveWaitList_counters  : (moveWaitList s).counters = s.counters := by
  unfold moveWaitList; split <;> simp
@[simp] theorem moveWaitList_pending  : (moveWaitList s).pending = s.pending := by
  unfold moveWaitList; split <;> simp

@[simp] theorem arbiterChoice_resetHeld  : (arbiterChoice s).resetHeld = s.resetHeld := by
  unfold arbiterChoice; split <;> simp
@[simp] theorem arbiterChoice_ownAddress  : (arbiterChoice s).ownAddress = s.ownAddress := by
  unfold arbiterChoice; split <;> simp
@[simp] theorem arbiterChoice_s1Present  : (arbiterChoice s).s1Present = s.s1Present := by
  unfold arbiterChoice; split <;> simp
@[simp] theorem arbiterChoice_store  : (arbiterChoice s).store = s.store := by
  unfold arbiterChoice; split <;> simp
@[simp] theorem arbiterChoice_parked  : (arbiterChoice s).parked = s.parked := by
  unfold arbiterChoice; split <;> simp
@[simp] theorem arbiterChoice_seg0  : (arbiterChoice s).seg0 = s.seg0 := by
  unfold arbiterChoice; split <;> simp
@[simp] theorem arbiterChoice_seg1  : (arbiterChoice s).seg1 = s.seg1 := by
  unfold arbiterChoice; split <;> simp
@[simp] theorem arbiterChoice_cache  : (arbiterChoice s).cache = s.cache := by
  unfold arbiterChoice; split <;> simp
@[simp] theorem arbiterChoice_commit  : (arbiterChoice s).commit = s.commit := by
  unfold arbiterChoice; split <;> simp
@[simp] theorem arbiterChoice_agent  : (arbiterChoice s).agent = s.agent := by
  unfold arbiterChoice; split <;> simp
@[simp] theorem arbiterChoice_counters  : (arbiterChoice s).counters = s.counters := by
  unfold arbiterChoice; split <;> simp
@[simp] theorem arbiterChoice_pending  : (arbiterChoice s).pending = s.pending := by
  unfold arbiterChoice; split <;> simp

@[simp] theorem arbiterIfIdle_resetHeld  : (arbiterIfIdle s).resetHeld = s.resetHeld := by
  unfold arbiterIfIdle; split <;> simp
@[simp] theorem arbiterIfIdle_ownAddress  : (arbiterIfIdle s).ownAddress = s.ownAddress := by
  unfold arbiterIfIdle; split <;> simp
@[simp] theorem arbiterIfIdle_s1Present  : (arbiterIfIdle s).s1Present = s.s1Present := by
  unfold arbiterIfIdle; split <;> simp
@[simp] theorem arbiterIfIdle_store  : (arbiterIfIdle s).store = s.store := by
  unfold arbiterIfIdle; split <;> simp
@[simp] theorem arbiterIfIdle_parked  : (arbiterIfIdle s).parked = s.parked := by
  unfold arbiterIfIdle; split <;> simp
@[simp] theorem arbiterIfIdle_seg0  : (arbiterIfIdle s).seg0 = s.seg0 := by
  unfold arbiterIfIdle; split <;> simp
@[simp] theorem arbiterIfIdle_seg1  : (arbiterIfIdle s).seg1 = s.seg1 := by
  unfold arbiterIfIdle; split <;> simp
@[simp] theorem arbiterIfIdle_cache  : (arbiterIfIdle s).cache = s.cache := by
  unfold arbiterIfIdle; split <;> simp
@[simp] theorem arbiterIfIdle_commit  : (arbiterIfIdle s).commit = s.commit := by
  unfold arbiterIfIdle; split <;> simp
@[simp] theorem arbiterIfIdle_agent  : (arbiterIfIdle s).agent = s.agent := by
  unfold arbiterIfIdle; split <;> simp
@[simp] theorem arbiterIfIdle_counters  : (arbiterIfIdle s).counters = s.counters := by
  unfold arbiterIfIdle; split <;> simp
@[simp] theorem arbiterIfIdle_pending  : (arbiterIfIdle s).pending = s.pending := by
  unfold arbiterIfIdle; split <;> simp

/-! ### Segments and stations -/

@[simp] theorem clearSlot_seg (i : SlotIx) (j : Segment) : (clearSlot i s).seg j = s.seg j := by
  cases j <;> simp [State.seg]
@[simp] theorem clearSlot_station (i : SlotIx) (j : Segment) (c : StationAddr) : (clearSlot i s).station j c = s.station j c := by
  exact State.station_congr (by simp)
@[simp] theorem becomeReady_seg (i : SlotIx) (b : BuiltReply) (j : Segment) : (becomeReady i b s).seg j = s.seg j := by
  cases j <;> simp [State.seg]
@[simp] theorem becomeReady_station (i : SlotIx) (b : BuiltReply) (j : Segment) (c : StationAddr) : (becomeReady i b s).station j c = s.station j c := by
  exact State.station_congr (by simp)
@[simp] theorem enterTraffic_seg (t : Telegram) (j : Segment) : (enterTraffic t s).seg j = s.seg j := by
  cases j <;> simp [State.seg]
@[simp] theorem enterTraffic_station (t : Telegram) (j : Segment) (c : StationAddr) : (enterTraffic t s).station j c = s.station j c := by
  exact State.station_congr (by simp)
@[simp] theorem joinWaitList_seg (i : SlotIx) (j : Segment) : (joinWaitList i s).seg j = s.seg j := by
  cases j <;> simp [State.seg]
@[simp] theorem joinWaitList_station (i : SlotIx) (j : Segment) (c : StationAddr) : (joinWaitList i s).station j c = s.station j c := by
  exact State.station_congr (by simp)
@[simp] theorem placeReply_seg (r : MgmtReply) (j : Segment) : (placeReply r s).seg j = s.seg j := by
  cases j <;> simp [State.seg]
@[simp] theorem placeReply_station (r : MgmtReply) (j : Segment) (c : StationAddr) : (placeReply r s).station j c = s.station j c := by
  exact State.station_congr (by simp)
@[simp] theorem sendUp_seg (i : SlotIx) (j : Segment) : (sendUp i s).seg j = s.seg j := by
  cases j <;> simp [State.seg]
@[simp] theorem sendUp_station (i : SlotIx) (j : Segment) (c : StationAddr) : (sendUp i s).station j c = s.station j c := by
  exact State.station_congr (by simp)
@[simp] theorem offerReply_seg (i : SlotIx) (j : Segment) : (offerReply i s).seg j = s.seg j := by
  cases j <;> simp [State.seg]
@[simp] theorem offerReply_station (i : SlotIx) (j : Segment) (c : StationAddr) : (offerReply i s).station j c = s.station j c := by
  exact State.station_congr (by simp)
@[simp] theorem answerSlot_seg (b : BuiltReply) (i : SlotIx) (j : Segment) : (answerSlot b s i).seg j = s.seg j := by
  cases j <;> simp [State.seg]
@[simp] theorem answerSlot_station (b : BuiltReply) (i : SlotIx) (j : Segment) (c : StationAddr) : (answerSlot b s i).station j c = s.station j c := by
  exact State.station_congr (by simp)
@[simp] theorem answerAll_seg (st : ReplyStatus) (l : List SlotIx) (j : Segment) : (answerAll st l s).seg j = s.seg j := by
  cases j <;> simp [State.seg]
@[simp] theorem answerAll_station (st : ReplyStatus) (l : List SlotIx) (j : Segment) (c : StationAddr) : (answerAll st l s).station j c = s.station j c := by
  exact State.station_congr (by simp)
@[simp] theorem moveWaitList_seg  (j : Segment) : (moveWaitList s).seg j = s.seg j := by
  cases j <;> simp [State.seg]
@[simp] theorem moveWaitList_station  (j : Segment) (c : StationAddr) : (moveWaitList s).station j c = s.station j c := by
  exact State.station_congr (by simp)
@[simp] theorem arbiterChoice_seg  (j : Segment) : (arbiterChoice s).seg j = s.seg j := by
  cases j <;> simp [State.seg]
@[simp] theorem arbiterChoice_station  (j : Segment) (c : StationAddr) : (arbiterChoice s).station j c = s.station j c := by
  exact State.station_congr (by simp)
@[simp] theorem arbiterIfIdle_seg  (j : Segment) : (arbiterIfIdle s).seg j = s.seg j := by
  cases j <;> simp [State.seg]
@[simp] theorem arbiterIfIdle_station  (j : Segment) (c : StationAddr) : (arbiterIfIdle s).station j c = s.station j c := by
  exact State.station_congr (by simp)

end Sys2Proof.Machine
end

