-- ==== Sys2Proof/Laws/AgentTakings.lean ====
section
/-! SUPPORT. The agent's taking of any MGMT telegram, said once: the states it can lead to (R149, R155). -/

namespace Sys2Proof.Machine

/-- The banks a configuration write can make of the shadow (R23 to R30). -/
inductive ShadowWrite (s : State) : Bank → Prop where
  | entry {args ix e} (h : parseMap args = some (ix, e)) : ShadowWrite s (s.store.shadowBank.setEntry ix (some e))
  | noEntry (ix) : ShadowWrite s (s.store.shadowBank.setEntry ix none)
  | record {args ix r} (h : parseEdit args = some (ix, r)) : ShadowWrite s (s.store.shadowBank.setRecord ix (some r))
  | noRecord (ix) : ShadowWrite s (s.store.shadowBank.setRecord ix none)
  | page (ix p) : ShadowWrite s (s.store.shadowBank.setPage ix p)
  | copy : ShadowWrite s s.store.activeBank

/-- What a property must survive to survive a command from step 2 of R155 on. -/
structure RunKept (P : State → Prop) (hd : MgmtHead) (s : State) : Prop where
  answer : ∀ st d, P (answerStored hd st d s)
  timing : ∀ p v, timingInRange p v = true → P (answerStored hd .done [] (s.setAgent (setTimingParam p v s.agent)))
  restart : P (answerStored hd .done [] (s.setAgent { s.agent with restartPending := true }))
  shadow : s.commit.state = .idle → ∀ b, ShadowWrite s b →
    P (answerStored hd .done [] (updateShadow (fun _ => b) s))
  station : ∀ k a, P (answerStored hd .done [] (resetStation k a s))
  counters : ∀ d g, P ((answerStored hd .done d s).setCounters (s.counters.clearGroup g))
  commit : s.commit.state = .idle → s.store.shadowBank.examine s.s1Present = none →
    P (beginDrain (answerStored hd .accepted (wordBytes s.store.nextGeneration) s))
  abort : s.commit.state = .draining → P (failDrain .aborted (answerStored hd .done [] s))

theorem runByCode_keeps {P : State → Prop} {hd : MgmtHead} {s : State} (h : RunKept P hd s) (args : List Byte) :
    P (runByCode hd args s) := by
  have hs := h.shadow
  unfold runByCode
  split
  · unfold runReadInfo; split <;> exact h.answer _ _
  · unfold runSetTiming; split
    · next p v e =>
      refine h.timing _ _ ?_
      unfold parseTiming at e
      split at e
      · simp only [Option.bind_eq_bind, Option.bind_eq_some_iff] at e
        obtain ⟨q, _, e⟩ := e
        split at e
        · next hr => cases e; exact hr
        · cases e
      · cases e
    · exact h.answer _ _
  · unfold runWriteMap unlessDraining; split
    · exact h.answer _ _
    · next hi =>
      split
      · next e => exact hs hi _ (.entry e)
      · exact h.answer _ _
  · unfold runClearMap unlessDraining; split
    · exact h.answer _ _
    · next hi =>
      split
      · exact hs hi _ (.noEntry _)
      · exact h.answer _ _
  · unfold runWriteEdit unlessDraining; split
    · exact h.answer _ _
    · next hi =>
      split
      · next e => exact hs hi _ (.record e)
      · exact h.answer _ _
  · unfold runClearEdit unlessDraining; split
    · exact h.answer _ _
    · next hi =>
      split
      · exact hs hi _ (.noRecord _)
      · exact h.answer _ _
  · unfold runWritePage unlessDraining; split
    · exact h.answer _ _
    · next hi =>
      split
      · exact hs hi _ (.page _ _)
      · exact h.answer _ _
  · unfold runReadMap; split <;> exact h.answer _ _
  · unfold runReadEdit; split <;> exact h.answer _ _
  · unfold runReadPage; split <;> exact h.answer _ _
  · unfold runCopyBank unlessDraining; split
    · exact h.answer _ _
    · next hi =>
      split
      · exact hs hi _ .copy
      · exact h.answer _ _
  · unfold runCommit unlessDraining; split
    · exact h.answer _ _
    · next hi =>
      split
      · dsimp only
        split
        · exact h.answer _ _
        · next e => exact h.commit hi e
      · exact h.answer _ _
  · unfold runAbortCommit; split
    · exact h.answer _ _
    · next hi =>
      split
      · exact h.abort hi
      · exact h.answer _ _
  · unfold runReadStation; split <;> exact h.answer _ _
  · unfold runResetStation; split
    · exact h.station _ _
    · exact h.answer _ _
  · unfold runReadSlot; split <;> exact h.answer _ _
  · unfold runReadCounters; split
    · unfold clearCounters; split
      · exact h.counters _ _
      · exact h.answer _ _
    · exact h.answer _ _
  · unfold runRestart; split
    · exact h.restart
    · exact h.answer _ _
  · exact h.answer _ _

/-- What a property must survive to survive the taking of any MGMT telegram. -/
structure MgmtKept (P : State → Prop) (hd : MgmtHead) (s : State) : Prop where
  discard : P (countMgmtDiscarded s)
  self : P s
  sync : s.up.outbox.length < 4 →
    P (answerStored hd .done (syncData s) (s.setAgent { s.agent with sync := .synced, ctrlAddr := hd.src }))
  only : s.up.outbox.length < 4 → ∀ st d, P (answerOnly hd st d s)
  again : s.up.outbox.length < 4 → ∀ r, P (placeReply r s)
  run : s.up.outbox.length < 4 → RunKept P hd s

theorem takeMgmtByCode_keeps {P : State → Prop} {hd : MgmtHead} {s : State} (h : MgmtKept P hd s) (args : List Byte) :
    P (takeMgmtByCode hd args s) := by
  have room : ¬ s.outboxFull = true → s.up.outbox.length < 4 := fun hf => by
    unfold State.outboxFull Config.outboxCapacity at hf
    rw [decide_eq_true_eq] at hf
    omega
  unfold takeMgmtByCode
  split
  · unfold takeSync
    split
    · exact h.discard
    · next hf =>
      split
      · exact h.sync (room hf)
      · exact h.only (room hf) _ _
  · unfold takeMgmt
    split
    · exact h.discard
    · next hf =>
      split
      · exact h.only (room hf) _ _
      split
      · unfold repeatStored; split
        · exact h.again (room hf) _
        · exact h.self
      split
      · split
        · exact (h.run (room hf)).answer _ _
        · exact runByCode_keeps (h.run (room hf)) _
      · exact h.only (room hf) _ _

end Sys2Proof.Machine
end

