-- ==== Sys2Proof/Laws/Codec.lean ====
section
/-! SUPPORT. The byte encodings and their readers are inverse to each other (section 1.8, R14). -/

namespace Sys2Proof.Machine

/-! ### Words and lists of words -/

theorem wordBytes_length (w : Word) : (wordBytes w).length = 2 := rfl

theorem wordOf_bytes (w : Word) : wordOf (w.extractLsb' 8 8) (w.extractLsb' 0 8) = w := by
  unfold wordOf
  rw [BitVec.extractLsb'_append_extractLsb'_eq_extractLsb' (by decide)]
  simp

theorem bytes_wordOf (h l : Byte) : wordBytes (wordOf h l) = [h, l] := by
  unfold wordBytes wordOf
  have h1 : BitVec.extractLsb' 8 8 (h ++ l) = h := by
    apply BitVec.eq_of_getLsbD_eq
    intro i hi
    simp only [BitVec.getLsbD_extractLsb', BitVec.getLsbD_append]
    simp [hi]
  have h2 : BitVec.extractLsb' 0 8 (h ++ l) = l := by
    apply BitVec.eq_of_getLsbD_eq
    intro i hi
    simp only [BitVec.getLsbD_extractLsb', BitVec.getLsbD_append]
    simp [hi]
  rw [h1, h2]

theorem wordsBytes_cons (w : Word) (ws : List Word) : wordsBytes (w :: ws) = wordBytes w ++ wordsBytes ws := rfl

theorem wordsBytes_length (ws : List Word) : (wordsBytes ws).length = 2 * ws.length := by
  induction ws with
  | nil => rfl
  | cons w ws ih => rw [wordsBytes_cons, List.length_append, ih, wordBytes_length, List.length_cons]; omega

theorem wordsOf_wordsBytes (ws : List Word) : wordsOf (wordsBytes ws) = some ws := by
  induction ws with
  | nil => rfl
  | cons w ws ih =>
    show wordsOf (w.extractLsb' 8 8 :: w.extractLsb' 0 8 :: wordsBytes ws) = _
    unfold wordsOf
    rw [ih, wordOf_bytes]
    rfl

theorem wordsBytes_wordsOf : ∀ (bs : List Byte) {ws : List Word}, wordsOf bs = some ws → bs = wordsBytes ws
  | [], _, h => by cases h; rfl
  | [_], _, h => by cases h
  | hi :: lo :: rest, _, h => by
    unfold wordsOf at h
    rw [Option.map_eq_some_iff] at h
    obtain ⟨vs, hv, rfl⟩ := h
    rw [wordsBytes_cons, bytes_wordOf, ← wordsBytes_wordsOf rest hv]
    rfl

/-- An even number of bytes spells words. -/
theorem wordsOf_even : ∀ (bs : List Byte), bs.length % 2 = 0 → ∃ ws, wordsOf bs = some ws
  | [], _ => ⟨[], rfl⟩
  | [_], h => by simp at h
  | hi :: lo :: rest, h => by
    obtain ⟨ws, hw⟩ := wordsOf_even rest (by simp only [List.length_cons] at h; omega)
    exact ⟨wordOf hi lo :: ws, by unfold wordsOf; rw [hw]; rfl⟩

/-! ### Bytes as numbers -/

theorem byteOf_toNat {n : Nat} (h : n < 256) : (byteOf n).toNat = n := by
  unfold byteOf
  rw [BitVec.toNat_ofNat]
  exact Nat.mod_eq_of_lt h

theorem byteOf_self (b : Byte) : byteOf b.toNat = b := by
  unfold byteOf
  simp

theorem finOf_byteOf {n : Nat} (hn : n ≤ 256) (i : Fin n) : finOf n (byteOf i.val) = some i := by
  have h := byteOf_toNat (n := i.val) (by omega)
  unfold finOf
  rw [dif_pos (by rw [h]; exact i.2)]
  simp [h]

theorem finOf_some {n : Nat} {b : Byte} {i : Fin n} (h : finOf n b = some i) : b = byteOf i.val := by
  unfold finOf at h
  split at h
  · cases h; rw [byteOf_self]
  · cases h

theorem finOf_none {n : Nat} {b : Byte} (h : finOf n b = none) : n ≤ b.toNat := by
  unfold finOf at h
  split at h
  · cases h
  · omega

theorem addrByte_toNat (a : StationAddr) : (addrByte a).toNat = a.val + 1 := byteOf_toNat (by omega)

theorem addrOf_addrByte (a : StationAddr) : addrOf (addrByte a) = some a := by
  have h := addrByte_toNat a
  unfold addrOf
  rw [dif_pos (by omega)]
  congr 1
  exact Fin.ext (by simp only [h]; omega)

theorem addrOf_some {b : Byte} {a : StationAddr} (h : addrOf b = some a) : b = addrByte a := by
  unfold addrOf at h
  split at h
  · next hb =>
    cases h
    unfold addrByte
    simp only
    rw [show b.toNat - 1 + 1 = b.toNat by omega, byteOf_self]
  · cases h

theorem addrByte_injective {a b : StationAddr} (h : addrByte a = addrByte b) : a = b := by
  have := addrOf_addrByte a
  rw [h, addrOf_addrByte] at this
  cases this
  rfl

/-! ### Encoded values -/

theorem segmentOf_code (k : Segment) : segmentOf (segmentCode k) = some k := by cases k <;> rfl
theorem segmentOf_some {b : Byte} {k : Segment} : segmentOf b = some k → b = segmentCode k := by
  revert b; cases k <;> decide
theorem opOf_code (o : Op) : opOf (opCode o) = some o := by cases o <;> rfl
theorem opOf_some {b : Byte} {o : Op} : opOf b = some o → b = opCode o := by revert b; cases o <;> decide
theorem accessOf_code (a : Access) : accessOf (accessCode a) = some a := by cases a <;> rfl
theorem accessOf_some {b : Byte} {a : Access} : accessOf b = some a → b = accessCode a := by revert b; cases a <;> decide
theorem typeOf_code (t : ValueType) : typeOf (typeCode t) = some t := by cases t <;> rfl
theorem typeOf_some {b : Byte} {t : ValueType} : typeOf b = some t → b = typeCode t := by revert b; cases t <;> decide
theorem overflowOf_code (p : OverflowPolicy) : overflowOf (overflowCode p) = some p := by cases p <;> rfl
theorem overflowOf_some {b : Byte} {p : OverflowPolicy} : overflowOf b = some p → b = overflowCode p := by
  revert b; cases p <;> decide
theorem missOf_code (p : MissPolicy) : missOf (missCode p) = some p := by cases p <;> rfl
theorem missOf_some {b : Byte} {p : MissPolicy} : missOf b = some p → b = missCode p := by revert b; cases p <;> decide
theorem stepOpOf_code (o : StepOp) : stepOpOf (stepOpCode o) = some o := by cases o <;> rfl
theorem stepOpOf_some {b : Byte} {o : StepOp} : stepOpOf b = some o → b = stepOpCode o := by revert b; cases o <;> decide
theorem guardOf_code (g : Guard) : guardOf (guardCode g) = some g := by cases g <;> rfl
theorem guardOf_some {b : Byte} {g : Guard} : guardOf b = some g → b = guardCode g := by revert b; cases g <;> decide

theorem refOf_code (e : Option EditIx) : refOf (refCode e) = some e := by
  cases e with
  | none => rfl
  | some e =>
    have h := byteOf_toNat (n := e.val) (by omega)
    have hne : byteOf e.val ≠ 255 := fun h' => by
      rw [h'] at h
      have h2 : (255 : Byte).toNat = 255 := rfl
      omega
    show (if byteOf e.val = 255 then some none else (finOf 64 (byteOf e.val)).map some) = _
    rw [if_neg hne, finOf_byteOf (by decide)]
    rfl

theorem refOf_some {b : Byte} {e : Option EditIx} (h : refOf b = some e) : b = refCode e := by
  unfold refOf at h
  split at h
  · next hb => cases h; exact hb
  · rw [Option.map_eq_some_iff] at h
    obtain ⟨i, hi, rfl⟩ := h
    exact finOf_some hi

end Sys2Proof.Machine
end

