-- ==== Sys2Proof/Laws/Exec.lean ====
section
/-! SUPPORT. Every command as one taking: what a property must survive to survive any command, and any step. -/

namespace Sys2Proof.Machine

variable {P : State → Prop} {s t : State}

/-- The takings a command can lead to from `s`. -/
structure KeptBy (P : State → Prop) (s : State) : Prop where
  hold : P (holdReset s)
  release : ∀ addr s1En, P (releaseReset addr s1En s)
  malformed : ∀ p, P (countMalformed p s)
  checkError : ∀ p, P (countCheckError p s)
  request : s.resetHeld = false → ∀ dst src tag rest,
    P (arbiterIfIdle (takeRequest dst src tag rest (countReceived .u s)))
  mgmt : s.resetHeld = false → ∀ h args, P (arbiterIfIdle (takeMgmtByCode h args (countReceived .u s)))
  reply : s.resetHeld = false → ∀ k src tag status count values, s.inService k = true →
    P (arbiterIfIdle (takeReply k src tag status count values (countReceived k.port s)))
  change : s.resetHeld = false → ∀ k src y value, s.inService k = true →
    P (arbiterIfIdle (takeChange k src y value (countReceived k.port s)))
  endSegment : s.resetHeld = false → ∀ k, P (endSegment k s)
  endUpstream : s.resetHeld = false → P (endUpstream s)
  expireSlot : s.resetHeld = false → ∀ i, P (expireSlot i s)
  expireProbeDue : s.resetHeld = false → ∀ k a, P (expireProbeDue k a s)
  expireProbeDeadline : s.resetHeld = false → ∀ k, P (expireProbeDeadline k s)
  expireRefresh : s.resetHeld = false → ∀ station index, P (expireRefresh station index s)
  expireDrain : s.resetHeld = false → P (expireDrain s)

theorem whenRunning_next (f : State → State) (s : State) :
    whenRunning f s = .next (if s.resetHeld = true then s else f s) := rfl

/-- A MGMT row is the agent's taking of its code. -/
theorem takeMgmtByCode_sync (src seq : Byte) (args : List Byte) :
    takeMgmtByCode ⟨src, seq, 1⟩ args = takeSync ⟨src, seq, 1⟩ args := rfl

/-- The takings, each with the commands that can lead to it. -/
inductive Taken (s : State) : Instr → State → Prop where
  | held (c : Instr) (h : s.resetHeld = true) : Taken s c s
  | hold : Taken s .pinResetAssert (holdReset s)
  | release (addr : BitVec 4) (s1En : Bool) : Taken s (.pinResetRelease addr s1En) (releaseReset addr s1En s)
  | malformed (c : Instr) (p : Port) : Taken s c (countMalformed p s)
  | checkError (c : Instr) (p : Port) : Taken s c (countCheckError p s)
  | request (c : Instr) (hr : s.resetHeld = false) (dst src tag : Byte) (rest : List Byte) :
    Taken s c (arbiterIfIdle (takeRequest dst src tag rest (countReceived .u s)))
  | mgmt (c : Instr) (hr : s.resetHeld = false) (h : MgmtHead) (args : List Byte) :
    Taken s c (arbiterIfIdle (takeMgmtByCode h args (countReceived .u s)))
  | reply (c : Instr) (hr : s.resetHeld = false) (k : Segment) (src tag status count : Byte) (values : List Word)
      (hk : s.inService k = true) :
    Taken s c (arbiterIfIdle (takeReply k src tag status count values (countReceived k.port s)))
  | change (c : Instr) (hr : s.resetHeld = false) (k : Segment) (src : Byte) (y value : Word)
      (hk : s.inService k = true) : Taken s c (arbiterIfIdle (takeChange k src y value (countReceived k.port s)))
  | endSegment (hr : s.resetHeld = false) (k : Segment) : Taken s (.segmentTransmissionEnd k) (endSegment k s)
  | endUpstream (hr : s.resetHeld = false) : Taken s .portUTransmissionEnd (endUpstream s)
  | expireSlot (hr : s.resetHeld = false) (i : SlotIx) : Taken s (.slotDeadlineExpiry i) (expireSlot i s)
  | expireProbeDue (hr : s.resetHeld = false) (k : Segment) (a : StationAddr) :
    Taken s (.probeDueExpiry k a) (expireProbeDue k a s)
  | expireProbeDeadline (hr : s.resetHeld = false) (k : Segment) :
    Taken s (.probeDeadlineExpiry k) (expireProbeDeadline k s)
  | expireRefresh (hr : s.resetHeld = false) (station : Byte) (index : Word) :
    Taken s (.refreshCountdownExpiry station index) (expireRefresh station index s)
  | expireDrain (hr : s.resetHeld = false) : Taken s .drainExpiry (expireDrain s)

/-- Every command is one taking. -/
theorem exec_taken (c : Instr) (s : State) : ∃ t, exec c s = .next t ∧ Taken s c t := by
  have run : ∀ f : State → State, (s.resetHeld = false → Taken s c (f s)) →
      ∃ t, whenRunning f s = .next t ∧ Taken s c t := by
    intro f hf
    refine ⟨_, whenRunning_next f s, ?_⟩
    split
    · next h => exact .held c h
    · next h => exact hf (by simpa using h)
  have req : s.resetHeld = false → ∀ dst src tag rest, Taken s c (deliverRequest dst src tag rest s) := by
    intro hr dst src tag rest; unfold deliverRequest; split
    · exact .request c hr _ _ _ _
    · exact .malformed c _
  have mg : s.resetHeld = false → ∀ h args, Taken s c (deliverMgmt args (takeMgmtByCode h args) s) := by
    intro hr h args; unfold deliverMgmt; split
    · exact .mgmt c hr _ _
    · exact .malformed c _
  have rep : s.resetHeld = false → ∀ k src tag st n vs, Taken s c (deliverReply k src tag st n vs s) := by
    intro hr k src tag st n vs; unfold deliverReply; split
    · next h => exact .reply c hr _ _ _ _ _ _ (by simp only [Bool.and_eq_true] at h; exact h.1)
    · exact .malformed c _
  have chg : s.resetHeld = false → ∀ k src y v, Taken s c (deliverChange k src y v s) := by
    intro hr k src y v; unfold deliverChange; split
    · next h => exact .change c hr _ _ _ _ h
    · exact .malformed c _
  have blk : s.resetHeld = false → ∀ p b, Taken s c (deliverBlock p b s) := by
    intro hr p b; unfold deliverBlock; split
    · exact .malformed c _
    · exact .checkError c _
    · exact req hr _ _ _ _
    · exact mg hr _ _
    · exact rep hr _ _ _ _ _ _
    · exact chg hr _ _ _ _
  cases c with
  | pinResetAssert => exact ⟨_, rfl, .hold⟩
  | pinResetRelease addr s1En => exact ⟨_, rfl, .release _ _⟩
  | framingDiscard p b => exact run _ fun h => blk h p b
  | s1AbsentDiscard b => exact run _ fun h => blk h .s1 b
  | request dst src tag rest => exact run _ fun h => req h _ _ _ _
  | reply k dst src tag st ix n vs => exact run _ fun h => rep h _ _ _ _ _ _
  | change k dst src tag y v => exact run _ fun h => chg h _ _ _ _
  | segmentTransmissionEnd k => exact run _ fun h => .endSegment h k
  | portUTransmissionEnd => exact run _ fun h => .endUpstream h
  | slotDeadlineExpiry i => exact run _ fun h => .expireSlot h i
  | probeDueExpiry k a => exact run _ fun h => .expireProbeDue h k a
  | probeDeadlineExpiry k => exact run _ fun h => .expireProbeDeadline h k
  | refreshCountdownExpiry st ix => exact run _ fun h => .expireRefresh h st ix
  | drainExpiry => exact run _ fun h => .expireDrain h
  | sync src seq args => exact run _ fun h => mg h ⟨src, seq, 1⟩ args
  | readInfo src seq args => exact run _ fun h => mg h ⟨src, seq, 2⟩ args
  | setTiming src seq args => exact run _ fun h => mg h ⟨src, seq, 3⟩ args
  | writeMap src seq args => exact run _ fun h => mg h ⟨src, seq, 4⟩ args
  | clearMap src seq args => exact run _ fun h => mg h ⟨src, seq, 5⟩ args
  | writeEdit src seq args => exact run _ fun h => mg h ⟨src, seq, 6⟩ args
  | clearEdit src seq args => exact run _ fun h => mg h ⟨src, seq, 7⟩ args
  | writePage src seq args => exact run _ fun h => mg h ⟨src, seq, 8⟩ args
  | readMap src seq args => exact run _ fun h => mg h ⟨src, seq, 9⟩ args
  | readEdit src seq args => exact run _ fun h => mg h ⟨src, seq, 10⟩ args
  | readPage src seq args => exact run _ fun h => mg h ⟨src, seq, 11⟩ args
  | copyBank src seq args => exact run _ fun h => mg h ⟨src, seq, 12⟩ args
  | commit src seq args => exact run _ fun h => mg h ⟨src, seq, 13⟩ args
  | abortCommit src seq args => exact run _ fun h => mg h ⟨src, seq, 14⟩ args
  | readStation src seq args => exact run _ fun h => mg h ⟨src, seq, 15⟩ args
  | resetStation src seq args => exact run _ fun h => mg h ⟨src, seq, 16⟩ args
  | readSlot src seq args => exact run _ fun h => mg h ⟨src, seq, 17⟩ args
  | readCounters src seq args => exact run _ fun h => mg h ⟨src, seq, 18⟩ args
  | restart src seq args => exact run _ fun h => mg h ⟨src, seq, 19⟩ args
  | unknownCommand code src seq args => exact run _ fun h => mg h ⟨src, seq, code⟩ args

theorem exec_keeps (hk : KeptBy P s) (hs : P s) (c : Instr) : ∃ t, exec c s = .next t ∧ P t := by
  obtain ⟨t, he, ht⟩ := exec_taken c s
  refine ⟨t, he, ?_⟩
  cases ht with
  | held _ _ => exact hs
  | hold => exact hk.hold
  | release addr s1En => exact hk.release _ _
  | malformed _ p => exact hk.malformed p
  | checkError _ p => exact hk.checkError p
  | request _ hr dst src tag rest => exact hk.request hr _ _ _ _
  | mgmt _ hr h args => exact hk.mgmt hr _ _
  | reply _ hr k src tag st n vs h => exact hk.reply hr _ _ _ _ _ _ h
  | change _ hr k src y v h => exact hk.change hr _ _ _ _ h
  | endSegment hr k => exact hk.endSegment hr k
  | endUpstream hr => exact hk.endUpstream hr
  | expireSlot hr i => exact hk.expireSlot hr i
  | expireProbeDue hr k a => exact hk.expireProbeDue hr k a
  | expireProbeDeadline hr k => exact hk.expireProbeDeadline hr k
  | expireRefresh hr st ix => exact hk.expireRefresh hr st ix
  | expireDrain hr => exact hk.expireDrain hr

/-- A step idles, or takes the front command with the queue's rest. -/
theorem step_cases (h : step s = .next t) :
    t = s ∨ ∃ c rest, s.pending = c :: rest ∧ exec c { s with pending := rest } = .next t := by
  unfold step at h
  split at h
  · cases h; exact .inl rfl
  · next c rest e => exact .inr ⟨c, rest, e, h⟩

/-- A property that no command breaks and that does not read the queue survives a step. -/
theorem step_keeps (hq : ∀ rest, P { s with pending := rest }) (hk : ∀ rest, KeptBy P { s with pending := rest })
    (hs : P s) (h : step s = .next t) : P t := by
  obtain rfl | ⟨c, rest, _, he⟩ := step_cases h
  · exact hs
  · obtain ⟨u, hu, hp⟩ := exec_keeps (hk rest) (hq rest) c
    rw [hu] at he
    cases he
    exact hp

end Sys2Proof.Machine
end

