-- ==== Sys2Proof/Laws/Fixed.lean ====
section
/-! SUPPORT. No taking changes RESET_N's level, the straps sampled or the queue of commands; only the pins do. -/

namespace Sys2Proof.Machine

variable {s t u : State}

/-- The fields no taking writes. -/
structure Fixed (s t : State) : Prop where
  resetHeld : t.resetHeld = s.resetHeld
  ownAddress : t.ownAddress = s.ownAddress
  s1Present : t.s1Present = s.s1Present
  pending : t.pending = s.pending

theorem Fixed.refl (s : State) : Fixed s s := ⟨rfl, rfl, rfl, rfl⟩

theorem Fixed.trans (h : Fixed s t) (g : Fixed t u) : Fixed s u :=
  ⟨g.resetHeld.trans h.resetHeld, g.ownAddress.trans h.ownAddress, g.s1Present.trans h.s1Present,
    g.pending.trans h.pending⟩

theorem Fixed.inService (h : Fixed s t) (k : Segment) : t.inService k = s.inService k := by
  cases k
  · rfl
  · exact h.s1Present

theorem fixed_takeAlive (k : Segment) (a : StationAddr) : Fixed s (takeAlive k a s) := by
  unfold takeAlive; dsimp only; split <;> constructor <;> simp

theorem fixed_takeFailure (k : Segment) (a : StationAddr) : Fixed s (takeFailure k a s) := by
  unfold takeFailure silenceStation; dsimp only; split <;> constructor <;> simp

theorem fixed_placeParked (i : SlotIx) : Fixed s (placeParked s i) := by
  unfold placeParked; dsimp only; split
  · constructor <;> simp
  · split <;> constructor <;> simp

theorem fixed_foldPlace (l : List SlotIx) : Fixed s (l.foldl placeParked s) := by
  induction l generalizing s with
  | nil => exact Fixed.refl s
  | cons i l ih => exact (fixed_placeParked i).trans ih

theorem fixed_completeDrain : Fixed s (completeDrain s) := by
  unfold completeDrain
  dsimp only
  have h := fixed_foldPlace (s := { s with
    commit := { s.commit with drainTimer := .stopped }
    store := s.store.swap
    cache := []
    parked := [] }) s.parked
  constructor <;> simp [h.resetHeld, h.ownAddress, h.s1Present, h.pending]

theorem fixed_drainIfDone : Fixed s (drainIfDone s) := by
  unfold drainIfDone; split
  · exact fixed_completeDrain
  · exact Fixed.refl s

theorem fixed_failDrain (r : FailReason) : Fixed s (failDrain r s) := by
  unfold failDrain; constructor <;> simp

theorem fixed_arbiterIfIdle : Fixed s (arbiterIfIdle s) := by constructor <;> simp

theorem fixed_takeRequest (dst src tag : Byte) (rest : List Byte) : Fixed s (takeRequest dst src tag rest s) := by
  unfold takeRequest; split
  · unfold offerRefusal; split <;> constructor <;> simp
  · unfold placeAdmitted; split
    · constructor <;> simp
    · dsimp only; split <;> constructor <;> simp

theorem fixed_takeReply (k : Segment) (src tag status count : Byte) (vs : List Word) :
    Fixed s (takeReply k src tag status count vs s) := by
  unfold takeReply; split
  · split
    · unfold completeMatch completeSuccess
      refine Fixed.trans ?_ fixed_drainIfDone
      have h := fixed_takeAlive (s := answerSlot (judgeReply s.store.activeBank (s.slot (tagIndex tag)) status count vs) s
        (tagIndex tag)) k (s.slot (tagIndex tag)).station
      constructor <;> simp [h.resetHeld, h.ownAddress, h.s1Present, h.pending]
    · constructor <;> simp
  · split
    · next a _ =>
      unfold completeProbe
      dsimp only
      have h := fixed_takeAlive (s := s.setSeg k { s.seg k with probe := .idle }) k a
      split <;> constructor <;> simp [h.resetHeld, h.ownAddress, h.s1Present, h.pending]
    · constructor <;> simp

theorem fixed_offerChange (x : Telegram) (c : List CacheEntry) : Fixed s (offerChange x c s) := by
  unfold offerChange; split <;> constructor <;> simp

theorem fixed_takeChange (k : Segment) (src : Byte) (y v : Word) : Fixed s (takeChange k src y v s) := by
  have h1 : Fixed s (signOfLife k src s) := by
    unfold signOfLife; split
    · exact fixed_takeAlive _ _
    · exact Fixed.refl s
  refine h1.trans ?_
  unfold takeChange
  generalize signOfLife k src s = u
  unfold mapChange; split
  · unfold editChange; split
    · unfold applyPolicy; split
      · constructor <;> simp
      · exact fixed_offerChange _ _
      · unfold decideDeadband; dsimp only; split
        · exact fixed_offerChange _ _
        · split
          · constructor <;> simp
          · exact fixed_offerChange _ _
    · constructor <;> simp
  · constructor <;> simp

theorem fixed_recordEnded (k : Segment) : Fixed s (recordEnded k s) := by
  unfold recordEnded; split
  · constructor <;> simp [slotSent]
  · unfold probeSent; split <;> constructor <;> simp
  · exact Fixed.refl s
  · exact Fixed.refl s

theorem fixed_endSegment (k : Segment) : Fixed s (endSegment k s) := by
  unfold endSegment; split
  · exact Fixed.refl s
  · refine Fixed.trans (t := countTransmitted k.port s) (by constructor <;> simp) ?_
    generalize countTransmitted k.port s = u
    refine (fixed_recordEnded (s := u) k).trans ?_
    constructor <;> simp [clearRecord]

theorem fixed_restartEffect : Fixed s (restartEffect s) := by
  unfold restartEffect; constructor <;> simp

theorem fixed_endUpstream : Fixed s (endUpstream s) := by
  unfold endUpstream; split
  · exact Fixed.refl s
  · dsimp only; split
    · refine Fixed.trans (t := countTransmitted .u s) (by constructor <;> simp) ?_
      generalize countTransmitted .u s = u
      refine (fixed_restartEffect (s := u)).trans ?_
      constructor <;> simp
    · constructor <;> simp

theorem fixed_expireSlot (i : SlotIx) : Fixed s (expireSlot i s) := by
  unfold expireSlot; dsimp only; split
  · split
    · constructor <;> simp [retrySlot]
    · refine Fixed.trans ?_ fixed_arbiterIfIdle
      unfold failSlot completeFailure
      dsimp only
      refine Fixed.trans ?_ fixed_drainIfDone
      refine Fixed.trans (t := clearActive (s.slot i).seg (s.slot i).station
        (answerSlot { status := .timeout, values := [] } (countFinalTimeout (s.slot i).seg s) i))
        (by constructor <;> simp) ?_
      generalize clearActive (s.slot i).seg (s.slot i).station
        (answerSlot { status := .timeout, values := [] } (countFinalTimeout (s.slot i).seg s) i) = u
      refine (fixed_takeFailure (s := u) (s.slot i).seg (s.slot i).station).trans ?_
      constructor <;> simp
  · exact Fixed.refl s

theorem fixed_expireProbeDue (k : Segment) (a : StationAddr) : Fixed s (expireProbeDue k a s) := by
  unfold expireProbeDue; split <;> constructor <;> simp

theorem fixed_expireProbeDeadline (k : Segment) : Fixed s (expireProbeDeadline k s) := by
  unfold expireProbeDeadline; split
  · split
    · unfold restartProbeDue; split <;> constructor <;> simp
    · exact Fixed.refl s
  · exact Fixed.refl s
  · exact Fixed.refl s

theorem fixed_expireDrain : Fixed s (expireDrain s) := by
  unfold expireDrain; split
  · exact (fixed_failDrain _).trans fixed_arbiterIfIdle
  · exact Fixed.refl s

theorem fixed_takeMgmtByCode (hd : MgmtHead) (args : List Byte) : Fixed s (takeMgmtByCode hd args s) := by
  refine takeMgmtByCode_keeps (P := Fixed s) ⟨by constructor <;> simp, Fixed.refl s, fun _ => ⟨rfl, rfl, rfl, rfl⟩,
    fun _ _ _ => ⟨rfl, rfl, rfl, rfl⟩, fun _ _ => ⟨rfl, rfl, rfl, rfl⟩, fun _ => ?_⟩ args
  constructor
  · exact fun _ _ => ⟨rfl, rfl, rfl, rfl⟩
  · exact fun _ _ _ => ⟨rfl, rfl, rfl, rfl⟩
  · exact ⟨rfl, rfl, rfl, rfl⟩
  · exact fun _ _ _ => ⟨rfl, rfl, rfl, rfl⟩
  · exact fun k a => by constructor <;> simp [answerStored, answerOnly, resetStation]
  · exact fun _ _ => ⟨rfl, rfl, rfl, rfl⟩
  · exact fun _ _ => Fixed.trans (t := { answerStored hd .accepted (wordBytes s.store.nextGeneration) s with
      commit := _ }) ⟨rfl, rfl, rfl, rfl⟩ fixed_drainIfDone
  · exact fun _ => Fixed.trans (t := answerStored hd .done [] s) ⟨rfl, rfl, rfl, rfl⟩ (fixed_failDrain _)

end Sys2Proof.Machine
end

