-- ==== Sys2Proof/Laws/Queues.lean ====
section
/-! SUPPORT. The bounds of port U's queues (R137) and the idle transmitter (R140), operation by operation. -/

namespace Sys2Proof.Safety

open Sys2Proof.Machine

variable {s t : State}

theorem QueueBounds.congr (h : QueueBounds s) (e : t.up = s.up) : QueueBounds t := by
  constructor <;> rw [e]
  exacts [h.traffic, h.outbox, h.notices, h.waiting, h.control]

theorem trafficHasRoom_iff : s.trafficHasRoom = true ↔ s.up.traffic.length < 24 ∧ s.up.waitList = [] := by
  unfold State.trafficHasRoom Config.trafficCapacity
  rw [Bool.and_eq_true, List.isEmpty_iff, decide_eq_true_eq]

theorem QueueBounds.enterTraffic (h : QueueBounds s) (hr : s.trafficHasRoom = true) (u : Telegram) :
    QueueBounds (enterTraffic u s) := by
  rw [trafficHasRoom_iff] at hr
  constructor <;> simp only [Machine.enterTraffic, State.setUp_up, List.length_append, List.length_singleton]
  · omega
  · exact h.outbox
  · exact h.notices
  · simp [hr.2]
  · exact h.control

theorem QueueBounds.joinWaitList (h : QueueBounds s) (hr : s.trafficHasRoom ≠ true) (i : SlotIx) :
    QueueBounds (joinWaitList i s) := by
  rw [Ne, trafficHasRoom_iff] at hr
  have := h.traffic
  have hw := h.waiting
  constructor <;> simp only [Machine.joinWaitList, State.setUp_up]
  · exact h.traffic
  · exact h.outbox
  · exact h.notices
  · intro _
    by_cases e : s.up.waitList = []
    · have h24 : ¬ s.up.traffic.length < 24 := fun hl => hr ⟨hl, e⟩
      omega
    · exact hw e
  · exact h.control

theorem QueueBounds.answerSlot (h : QueueBounds s) (b : BuiltReply) (i : SlotIx) : QueueBounds (answerSlot b s i) := by
  have h1 : QueueBounds (becomeReady i b s) := h.congr (by simp)
  unfold Machine.answerSlot offerReply
  split
  · next hr => exact (h1.enterTraffic hr (slotReply ((becomeReady i b s).slot i))).congr (by simp [sendUp])
  · next hr => exact h1.joinWaitList hr _

theorem QueueBounds.answerAll (h : QueueBounds s) (st : ReplyStatus) (l : List SlotIx) : QueueBounds (answerAll st l s) := by
  unfold Machine.answerAll
  induction l generalizing s with
  | nil => exact h
  | cons i l ih => exact ih (h.answerSlot _ _)

theorem QueueBounds.raiseNotice (h : QueueBounds s) (e : NoticeEvent) : QueueBounds (raiseNotice e s) := by
  constructor
  · simpa using h.traffic
  · simpa using h.outbox
  · exact raiseNotice_notices_le e s h.notices
  · simpa using h.waiting
  · simpa using h.control

theorem QueueBounds.placeReply (h : QueueBounds s) (hr : s.up.outbox.length < 4) (r : MgmtReply) :
    QueueBounds (placeReply r s) := by
  constructor <;> simp [Machine.placeReply]
  · exact h.traffic
  · omega
  · exact h.notices
  · exact h.waiting
  · exact h.control

theorem bumpControl_le {n : Nat} (h : n ≤ 4) : bumpControl n ≤ 4 := by
  unfold bumpControl Config.controlLimit; split <;> omega

/-- One choice of the arbiter keeps the bounds: the wait-list head takes the place a started telegram leaves (R137). -/
theorem QueueBounds.arbiterChoice (h : QueueBounds s) : QueueBounds (arbiterChoice s) := by
  have h1 := h.traffic
  have h2 := h.outbox
  have h3 := h.notices
  have h4 := h.waiting
  have h5 := h.control
  unfold Machine.arbiterChoice
  split
  · next e =>
    constructor <;> simp only [State.setUp_up]
    exacts [h1, by rw [e] at h2; simp only [List.length_cons] at h2; omega, h3, h4, bumpControl_le h5]
  · next e =>
    constructor <;> simp only [State.setUp_up]
    exacts [h1, h2, by rw [e] at h3; simp only [List.length_cons] at h3; omega, h4, bumpControl_le h5]
  · next u rest e _ _ =>
    unfold moveWaitList
    rw [e] at h1 h4
    simp only [List.length_cons] at h1 h4
    split
    · next i ws ew =>
      simp only [State.setUp_up] at ew
      have h6 := h4 (by simp [ew])
      constructor <;> simp [sendUp, Machine.enterTraffic]
      · omega
      · exact h2
      · exact h3
      · intro _; omega
    · next ew =>
      simp only [State.setUp_up] at ew
      constructor <;> simp only [State.setUp_up]
      exacts [by omega, h2, h3, by simp [ew], by omega]
  · exact h

theorem QueueBounds.arbiterIfIdle (h : QueueBounds s) : QueueBounds (arbiterIfIdle s) := by
  unfold Machine.arbiterIfIdle
  split
  · exact h.arbiterChoice
  · exact h

theorem QueueBounds.queueSlot (h : QueueBounds s) (i : SlotIx) : QueueBounds (queueSlot i s) := h.congr (by simp)

theorem QueueBounds.takeAlive (h : QueueBounds s) (k : Segment) (a : StationAddr) : QueueBounds (takeAlive k a s) := by
  unfold Machine.takeAlive
  dsimp only
  split
  · exact QueueBounds.raiseNotice (h.congr (by simp)) _
  · exact h.congr (by simp)

theorem QueueBounds.takeFailure (h : QueueBounds s) (k : Segment) (a : StationAddr) : QueueBounds (takeFailure k a s) := by
  unfold Machine.takeFailure
  dsimp only
  split
  · unfold silenceStation
    exact QueueBounds.answerAll (QueueBounds.raiseNotice (h.congr (by simp)) _) _ _
  · exact h.congr (by simp)

theorem QueueBounds.placeParked (h : QueueBounds s) (i : SlotIx) : QueueBounds (placeParked s i) := by
  unfold Machine.placeParked
  dsimp only
  split
  · exact h.answerSlot _ _
  · split
    · exact h.congr (by simp)
    · exact h.congr (by simp)

theorem QueueBounds.foldPlace (h : QueueBounds s) (l : List SlotIx) : QueueBounds (l.foldl Machine.placeParked s) := by
  induction l generalizing s with
  | nil => exact h
  | cons i l ih => exact ih (h.placeParked i)

theorem QueueBounds.completeDrain (h : QueueBounds s) : QueueBounds (completeDrain s) := by
  have h1 : QueueBounds { s with
    commit := { s.commit with drainTimer := .stopped }
    store := s.store.swap
    cache := []
    parked := [] } := h.congr rfl
  unfold Machine.completeDrain
  dsimp only
  exact ((h1.foldPlace s.parked).raiseNotice _).congr rfl

theorem QueueBounds.drainIfDone (h : QueueBounds s) : QueueBounds (drainIfDone s) := by
  unfold Machine.drainIfDone; split
  · exact h.completeDrain
  · exact h

theorem QueueBounds.failDrain (h : QueueBounds s) (r : FailReason) : QueueBounds (failDrain r s) := by
  have h1 : QueueBounds { s with commit := { s.commit with drainTimer := .stopped }, parked := [] } := h.congr rfl
  unfold Machine.failDrain
  dsimp only
  exact ((h1.answerAll _ s.parked).raiseNotice _).congr rfl

theorem QueueBounds.completeSuccess (h : QueueBounds s) (k : Segment) (a : StationAddr) :
    QueueBounds (completeSuccess k a s) := (h.takeAlive k a).congr (by simp [Machine.completeSuccess])

theorem QueueBounds.completeFailure (h : QueueBounds s) (k : Segment) (a : StationAddr) :
    QueueBounds (completeFailure k a s) := by
  have h1 : QueueBounds (clearActive k a s) := h.congr (by simp)
  exact (h1.takeFailure k a).congr (by simp [Machine.completeFailure])

theorem QueueBounds.takeRequest (h : QueueBounds s) (dst src tag : Byte) (rest : List Byte) :
    QueueBounds (takeRequest dst src tag rest s) := by
  unfold Machine.takeRequest
  split
  · have h1 : QueueBounds (countRefused s) := h.congr (by simp)
    unfold offerRefusal
    split
    · next hr => exact h1.enterTraffic hr _
    · exact h1.congr (by simp)
  · have h1 : QueueBounds (countAdmitted s) := h.congr (by simp)
    unfold placeAdmitted
    split
    · exact h1.congr (by simp)
    · dsimp only
      split
      · exact h1.congr (by simp)
      · exact h1.congr (by simp)

theorem QueueBounds.takeReply (h : QueueBounds s) (k : Segment) (src tag status count : Byte) (vs : List Word) :
    QueueBounds (takeReply k src tag status count vs s) := by
  unfold Machine.takeReply
  split
  · split
    · exact QueueBounds.drainIfDone (QueueBounds.completeSuccess (h.answerSlot _ _) _ _)
    · exact h.congr (by simp)
  · split
    · unfold completeProbe
      dsimp only
      have h1 : QueueBounds (s.setSeg k { s.seg k with probe := .idle }) := h.congr (by simp)
      refine QueueBounds.congr (s := if _ then _ else _) ?_ (dispatchIfIdle_up _)
      split
      · exact h1.takeAlive _ _
      · exact h1
    · exact h.congr (by simp)

theorem QueueBounds.offerChange (h : QueueBounds s) (u : Telegram) (c : List CacheEntry) :
    QueueBounds (offerChange u c s) := by
  unfold Machine.offerChange
  split
  · next hr => exact (h.enterTraffic hr u).congr (by simp)
  · exact h.congr (by simp)

theorem QueueBounds.takeChange (h : QueueBounds s) (k : Segment) (src : Byte) (y v : Word) :
    QueueBounds (takeChange k src y v s) := by
  have h1 : QueueBounds (signOfLife k src s) := by
    unfold signOfLife; split
    · exact h.takeAlive _ _
    · exact h
  unfold Machine.takeChange mapChange
  split
  · unfold editChange
    split
    · unfold applyPolicy
      split
      · exact h1.congr (by simp)
      · exact h1.offerChange _ _
      · unfold decideDeadband
        dsimp only
        split
        · exact h1.offerChange _ _
        · split
          · exact h1.congr (by simp)
          · exact h1.offerChange _ _
    · exact h1.congr (by simp)
  · exact h1.congr (by simp)

theorem QueueBounds.initial (h : s.up = Upstream.initial) : QueueBounds s := by
  constructor <;> rw [h] <;> simp [Upstream.initial]

theorem QueueBounds.restartEffect : QueueBounds (restartEffect s) := by
  unfold Machine.restartEffect
  refine QueueBounds.raiseNotice ?_ _
  constructor <;> simp [restartUp, Upstream.initial]

theorem QueueBounds.endUpstream (h : QueueBounds s) : QueueBounds (endUpstream s) := by
  have key : ∀ u : State, QueueBounds u → QueueBounds (u.setUp { u.up with sending := none }) := fun u hu =>
    ⟨hu.traffic, hu.outbox, hu.notices, hu.waiting, hu.control⟩
  unfold Machine.endUpstream
  split
  · exact h
  · dsimp only
    refine QueueBounds.arbiterChoice (key _ ?_)
    split
    · exact QueueBounds.restartEffect
    · exact h.congr (by simp)

theorem QueueBounds.releaseReset (addr : BitVec 4) (s1 : Bool) : QueueBounds (releaseReset addr s1 s) := by
  unfold Machine.releaseReset
  exact QueueBounds.arbiterIfIdle (QueueBounds.raiseNotice (QueueBounds.initial rfl) _)

/-! ### Management -/

theorem QueueBounds.answerStored (h : QueueBounds s) (hr : s.up.outbox.length < 4) (hd : MgmtHead) (st : MgmtStatus)
    (d : List Byte) : QueueBounds (answerStored hd st d s) := (h.placeReply hr _).congr rfl

theorem QueueBounds.takeMgmtByCode (h : QueueBounds s) (hd : MgmtHead) (args : List Byte) :
    QueueBounds (takeMgmtByCode hd args s) := by
  have ha : s.up.outbox.length < 4 → ∀ t : State, t.up = s.up → ∀ st d, QueueBounds (Machine.answerStored hd st d t) :=
    fun hr t e st d => QueueBounds.answerStored (h.congr e) (by rw [e]; exact hr) hd st d
  refine takeMgmtByCode_keeps (P := QueueBounds) ⟨h.congr (by simp), h, fun hr => ?_, fun hr _ _ => h.placeReply hr _,
    fun hr _ => h.placeReply hr _, fun hr => ?_⟩ args
  · exact ha hr _ (by rfl) _ _
  constructor
  · exact fun st d => ha hr _ (by rfl) _ _
  · exact fun p v _ => ha hr _ (by rfl) _ _
  · exact ha hr _ (by rfl) _ _
  · exact fun _ b _ => ha hr _ (by rfl) _ _
  · exact fun k a => ha hr _ (by simp [resetStation]) _ _
  · exact fun d g => (ha hr s rfl .done d).congr rfl
  · exact fun _ _ => QueueBounds.drainIfDone ((ha hr s rfl _ _).congr rfl)
  · exact fun _ => QueueBounds.failDrain (ha hr s rfl _ _) _

end Sys2Proof.Safety
end

