-- ==== Sys2Proof/Laws/Rests.lean ====
section
/-! SUPPORT. When port U's transmitter rests (R140): the arbiter leaves it FREE only over empty queues, taking by
taking. -/

namespace Sys2Proof.Safety

open Sys2Proof.Machine

variable {s t : State}

/-- The arbiter leaves the record NONE only when the three queues are empty, and then changes nothing (R141). -/
theorem arbiterChoice_none (h : (arbiterChoice s).up.sending = none) :
    s.up.traffic = [] ∧ s.up.outbox = [] ∧ s.up.notices = [] ∧ arbiterChoice s = s := by
  cases ht : s.up.traffic with
  | cons u rest =>
    exfalso
    unfold arbiterChoice at h
    rw [ht] at h
    cases hm : s.controlMayGo <;> cases ho : s.up.outbox <;> cases hn : s.up.notices <;>
      rw [hm, ho, hn] at h <;> simp only [State.setUp_up, reduceCtorEq] at h <;>
      · unfold moveWaitList at h
        split at h
        · simp [sendUp, enterTraffic] at h
        · cases h
  | nil =>
    have hm : s.controlMayGo = true := by unfold State.controlMayGo; simp [ht]
    unfold arbiterChoice at h ⊢
    rw [hm, ht] at h ⊢
    cases ho : s.up.outbox <;> cases hn : s.up.notices <;> rw [ho, hn] at h <;>
      simp only [State.setUp_up, reduceCtorEq] at h
    exact ⟨rfl, rfl, rfl, rfl⟩

/-- The last act of a taking leaves the transmitter resting as R140 says. -/
theorem UpstreamRests.arbiterIfIdle (h : QueueBounds s) : UpstreamRests (arbiterIfIdle s) := by
  intro _ hn
  unfold Machine.arbiterIfIdle at hn ⊢
  split at hn
  · next hs =>
    obtain ⟨h1, h2, h3, e⟩ := arbiterChoice_none hn
    rw [e]
    refine ⟨h1, h2, h3, ?_⟩
    by_contra hw
    have := h.waiting hw
    rw [h1] at this
    cases this
  · next hs => rw [hs] at hn; cases hn

theorem UpstreamRests.congr (h : UpstreamRests s) (hr : t.resetHeld = s.resetHeld) (hu : t.up = s.up) :
    UpstreamRests t := by
  unfold UpstreamRests
  rw [hr, hu]
  exact h

theorem UpstreamRests.of_held (h : t.resetHeld = true) : UpstreamRests t := fun hr => by rw [h] at hr; cases hr

theorem UpstreamRests.endUpstream (hq : QueueBounds s) (h : UpstreamRests s) : UpstreamRests (endUpstream s) := by
  unfold Machine.endUpstream
  split
  · exact h
  · dsimp only
    have key : ∀ u : State, QueueBounds u → UpstreamRests (arbiterChoice (u.setUp { u.up with sending := none })) := by
      intro u hu
      have h1 : QueueBounds (u.setUp { u.up with sending := none }) :=
        ⟨hu.traffic, hu.outbox, hu.notices, hu.waiting, hu.control⟩
      have := UpstreamRests.arbiterIfIdle h1
      exact this
    refine key _ ?_
    split
    · exact QueueBounds.restartEffect
    · exact hq.congr (by simp)

theorem UpstreamRests.expireSlot (hq : QueueBounds s) (h : UpstreamRests s) (i : SlotIx) :
    UpstreamRests (expireSlot i s) := by
  unfold Machine.expireSlot
  dsimp only
  split
  · split
    · exact h.congr (by simp [retrySlot]) (by simp [retrySlot])
    · unfold failSlot
      dsimp only
      exact UpstreamRests.arbiterIfIdle (QueueBounds.drainIfDone (QueueBounds.completeFailure
        (QueueBounds.answerSlot (hq.congr (by simp)) _ _) _ _))
  · exact h

theorem UpstreamRests.expireDrain (hq : QueueBounds s) (h : UpstreamRests s) : UpstreamRests (expireDrain s) := by
  unfold Machine.expireDrain
  split
  · exact UpstreamRests.arbiterIfIdle (hq.failDrain _)
  · exact h

theorem recordEnded_up (k : Segment) : (recordEnded k s).up = s.up := by
  unfold recordEnded
  split
  · simp [slotSent]
  · unfold probeSent; split <;> simp
  · rfl
  · rfl

theorem endSegment_up (k : Segment) : (endSegment k s).up = s.up := by
  unfold endSegment
  split
  · rfl
  · generalize hu : countTransmitted k.port s = u
    have : u.up = s.up := by rw [← hu]; simp
    simp [clearRecord, recordEnded_up, this]

end Sys2Proof.Safety
end

