-- ==== Sys2Proof/Laws/Settled.lean ====
section
/-! SUPPORT. What a taking that is no management command does to the banks, the Report Cache and the commit state:
nothing, the end of a failed drain, or the swap (R173, R175, R176); the agent's record stays. -/

namespace Sys2Proof.Safety

open Sys2Proof.Machine

variable {s t u : State}

/-- The three ways a taking leaves the Bank Store, the commit state and the Report Cache. -/
inductive Settles (s t : State) : Prop where
  | kept (store : t.store = s.store) (commit : t.commit = s.commit) (cache : t.cache = s.cache)
  | failed (draining : s.commit.state = .draining) (store : t.store = s.store)
      (commit : t.commit = CommitControl.initial) (cache : t.cache = s.cache)
  | swapped (draining : s.commit.state = .draining) (store : t.store = s.store.swap)
      (commit : t.commit = CommitControl.initial) (cache : t.cache = [])

/-- A taking that is no management command, no change report and no restart. -/
structure Settled (s t : State) : Prop where
  fixed : Fixed s t
  agent : t.agent = s.agent
  outcome : Settles s t

theorem Settled.refl (s : State) : Settled s s := ⟨Fixed.refl s, rfl, .kept rfl rfl rfl⟩

/-- An operation that touches none of them. -/
structure Bystander (s t : State) : Prop where
  fixed : Fixed s t
  agent : t.agent = s.agent
  store : t.store = s.store
  commit : t.commit = s.commit
  cache : t.cache = s.cache

theorem Bystander.refl (s : State) : Bystander s s := ⟨Fixed.refl s, rfl, rfl, rfl, rfl⟩

theorem Bystander.trans (h : Bystander s t) (g : Bystander t u) : Bystander s u :=
  ⟨h.fixed.trans g.fixed, g.agent.trans h.agent, g.store.trans h.store, g.commit.trans h.commit, g.cache.trans h.cache⟩

theorem Bystander.settled (h : Bystander s t) : Settled s t := ⟨h.fixed, h.agent, .kept h.store h.commit h.cache⟩

theorem Bystander.then (h : Bystander s t) (g : Settled t u) : Settled s u := by
  refine ⟨h.fixed.trans g.fixed, g.agent.trans h.agent, ?_⟩
  rcases g.outcome with ⟨a, b, c⟩ | ⟨a, b, c, d⟩ | ⟨a, b, c, d⟩
  · exact .kept (a.trans h.store) (b.trans h.commit) (c.trans h.cache)
  · exact .failed (by rw [← h.commit]; exact a) (b.trans h.store) c (d.trans h.cache)
  · exact .swapped (by rw [← h.commit]; exact a) (by rw [b, h.store]) c d

theorem Settled.then (h : Settled s t) (g : Bystander t u) : Settled s u := by
  refine ⟨h.fixed.trans g.fixed, g.agent.trans h.agent, ?_⟩
  rcases h.outcome with ⟨a, b, c⟩ | ⟨a, b, c, d⟩ | ⟨a, b, c, d⟩
  · exact .kept (g.store.trans a) (g.commit.trans b) (g.cache.trans c)
  · exact .failed a (g.store.trans b) (g.commit.trans c) (g.cache.trans d)
  · exact .swapped a (g.store.trans b) (g.commit.trans c) (g.cache.trans d)

/-! ### Operations -/

theorem bystander_arbiterIfIdle : Bystander s (arbiterIfIdle s) :=
  ⟨fixed_arbiterIfIdle, by simp, by simp, by simp, by simp⟩

theorem bystander_setCounters (c : Counters) : Bystander s (s.setCounters c) := ⟨by constructor <;> simp, rfl, rfl, rfl, rfl⟩

theorem bystander_dispatchIfIdle (k : Segment) : Bystander s (dispatchIfIdle k s) :=
  ⟨by constructor <;> simp, by simp, by simp, by simp, by simp⟩

theorem bystander_answerSlot (b : BuiltReply) (i : SlotIx) : Bystander s (answerSlot b s i) :=
  ⟨by constructor <;> simp, by simp, by simp, by simp, by simp⟩

theorem bystander_takeAlive (k : Segment) (a : StationAddr) : Bystander s (takeAlive k a s) := by
  refine ⟨fixed_takeAlive k a, ?_, ?_, ?_, ?_⟩ <;> (unfold takeAlive; dsimp only; split <;> simp)

theorem bystander_completeSuccess (k : Segment) (a : StationAddr) : Bystander s (completeSuccess k a s) := by
  refine (bystander_takeAlive k a).trans ?_
  unfold completeSuccess
  exact ⟨by constructor <;> simp, by simp, by simp, by simp, by simp⟩

theorem bystander_completeFailure (k : Segment) (a : StationAddr) : Bystander s (completeFailure k a s) := by
  unfold completeFailure takeFailure silenceStation
  dsimp only
  split
  · exact ⟨by constructor <;> simp, by simp, by simp, by simp, by simp⟩
  · exact ⟨by constructor <;> simp, by simp, by simp, by simp, by simp⟩

theorem bystander_placeParked (i : SlotIx) : Bystander s (placeParked s i) := by
  refine ⟨fixed_placeParked i, ?_, ?_, ?_, ?_⟩ <;>
    (unfold placeParked; dsimp only; split; · simp
     · split <;> simp)

theorem bystander_foldPlace (l : List SlotIx) : Bystander s (l.foldl placeParked s) := by
  induction l generalizing s with
  | nil => exact Bystander.refl s
  | cons i l ih => exact (bystander_placeParked i).trans ih

theorem bystander_endSegment (k : Segment) : Bystander s (endSegment k s) := by
  refine ⟨fixed_endSegment k, ?_, ?_, ?_, ?_⟩ <;>
  · unfold endSegment
    split
    · rfl
    · simp only [dispatchIfIdle_agent, dispatchIfIdle_store, dispatchIfIdle_commit, dispatchIfIdle_cache, clearRecord,
        State.setSeg_agent, State.setSeg_store, State.setSeg_commit, State.setSeg_cache]
      unfold recordEnded
      split
      · simp [slotSent]
      · unfold probeSent; split <;> simp
      · simp
      · simp

theorem bystander_takeRequest (dst src tag : Byte) (rest : List Byte) : Bystander s (takeRequest dst src tag rest s) := by
  refine ⟨fixed_takeRequest dst src tag rest, ?_, ?_, ?_, ?_⟩ <;>
  · unfold takeRequest
    split
    · unfold offerRefusal; split <;> simp
    · unfold placeAdmitted; split
      · simp
      · dsimp only; split <;> simp

theorem settled_completeDrain (h : s.commit.state = .draining) : Settled s (completeDrain s) := by
  refine ⟨fixed_completeDrain, ?_, .swapped h ?_ rfl ?_⟩ <;>
  · unfold completeDrain
    dsimp only
    have b := bystander_foldPlace (s := { s with
      commit := { s.commit with drainTimer := .stopped }
      store := s.store.swap
      cache := []
      parked := [] }) s.parked
    simp only [raiseNotice_agent, raiseNotice_store, raiseNotice_cache, b.agent, b.store, b.cache]

theorem settled_drainIfDone : Settled s (drainIfDone s) := by
  unfold drainIfDone
  split
  · next h => exact settled_completeDrain h.1
  · exact Settled.refl s

theorem settled_failDrain (r : FailReason) (h : s.commit.state = .draining) : Settled s (failDrain r s) :=
  ⟨fixed_failDrain r, by simp [failDrain], .failed h (by simp [failDrain]) rfl (by simp [failDrain])⟩

/-! ### Takings -/

theorem settled_takeReply (k : Segment) (src tag status count : Byte) (vs : List Word) :
    Settled s (takeReply k src tag status count vs s) := by
  unfold takeReply
  split
  · split
    · unfold completeMatch
      exact ((bystander_answerSlot _ _).trans (bystander_completeSuccess _ _)).then settled_drainIfDone
    · simp only [countStaleReply_eq]; exact (bystander_setCounters _).settled
  · split
    · next a _ =>
      unfold completeProbe
      dsimp only
      have h1 : Bystander s (s.setSeg k { s.seg k with probe := .idle }) :=
        ⟨by constructor <;> simp, by simp, by simp, by simp, by simp⟩
      refine ((h1.trans ?_).trans (bystander_dispatchIfIdle k)).settled
      split
      · exact bystander_takeAlive _ _
      · exact Bystander.refl _
    · simp only [countStaleReply_eq]; exact (bystander_setCounters _).settled

theorem settled_expireSlot (i : SlotIx) : Settled s (expireSlot i s) := by
  unfold expireSlot
  dsimp only
  split
  · split
    · refine Bystander.settled ⟨?_, ?_, ?_, ?_, ?_⟩
      · constructor <;> simp [retrySlot]
      all_goals simp [retrySlot]
    · refine Settled.then ?_ bystander_arbiterIfIdle
      unfold failSlot
      dsimp only
      refine Bystander.then (t := countFinalTimeout (s.slot i).seg s) ?_ ?_
      · simp only [countFinalTimeout_eq]; exact bystander_setCounters _
      · exact ((bystander_answerSlot _ _).trans (bystander_completeFailure _ _)).then settled_drainIfDone
  · exact Settled.refl s

theorem settled_expireProbeDue (k : Segment) (a : StationAddr) : Settled s (expireProbeDue k a s) := by
  refine Bystander.settled ⟨fixed_expireProbeDue k a, ?_, ?_, ?_, ?_⟩ <;> (unfold expireProbeDue; split <;> simp)

theorem settled_expireProbeDeadline (k : Segment) : Settled s (expireProbeDeadline k s) := by
  refine Bystander.settled ⟨fixed_expireProbeDeadline k, ?_, ?_, ?_, ?_⟩ <;>
  · unfold expireProbeDeadline
    split
    · split
      · unfold restartProbeDue; split <;> simp
      · rfl
    · rfl
    · rfl

theorem settled_expireDrain : Settled s (expireDrain s) := by
  unfold expireDrain
  split
  · next h => exact (settled_failDrain _ h.1).then bystander_arbiterIfIdle
  · exact Settled.refl s

end Sys2Proof.Safety
end

