-- ==== Sys2Proof/Laws/BankRules.lean ====
section
/-! SUPPORT. What the takings do to the agent's record, the banks and the Report Cache (R22 to R33, R126, R148, R160). -/

namespace Sys2Proof.Safety

open Sys2Proof.Machine

theorem AgentSound.congr {s t : State} (h : AgentSound s) (ha : t.agent = s.agent) (ho : t.ownAddress = s.ownAddress)
    : AgentSound t := by
  obtain ⟨a, b, c, d, e, f⟩ := h
  constructor <;> rw [ha]
  exacts [a, b, c, d, e, by rw [ho]; exact f]

theorem AgentSound.settled {s t : State} (h : AgentSound s) (g : Settled s t) : AgentSound t := h.congr g.agent
    g.fixed.ownAddress

theorem AgentSound.answerStored {s : State} (h : AgentSound s) (hd st d) : AgentSound (answerStored hd st d s) := by
  obtain ⟨a, b, c, e, f, g⟩ := h
  exact ⟨a, b, c, e, f, fun _ => ⟨_, rfl, rfl, rfl⟩⟩

theorem AgentSound.mgmt {s : State} (h : AgentSound s) (hd args) : AgentSound (takeMgmtByCode hd args s) := by
  refine takeMgmtByCode_keeps (P := AgentSound) ⟨?_, h, ?_, ?_, ?_, ?_⟩ args
  · exact h.congr (by simp) (by simp)
  · intro _
    obtain ⟨a, b, c, e, f, g⟩ := h
    exact ⟨a, b, c, e, f, fun _ => ⟨_, rfl, rfl, rfl⟩⟩
  · exact fun _ _ _ => h.congr rfl rfl
  · exact fun _ _ => h.congr rfl rfl
  · intro _
    constructor
    · exact fun _ _ => h.answerStored _ _ _
    · intro p v hv
      obtain ⟨a, b, c, e, f, g⟩ := h
      cases p <;> simp only [timingInRange, decide_eq_true_eq] at hv
      · exact ⟨hv, b, c, e, f, fun _ => ⟨_, rfl, rfl, rfl⟩⟩
      · exact ⟨a, hv, c, e, f, fun _ => ⟨_, rfl, rfl, rfl⟩⟩
      · exact ⟨a, b, hv, e, f, fun _ => ⟨_, rfl, rfl, rfl⟩⟩
      · exact ⟨a, b, c, hv, f, fun _ => ⟨_, rfl, rfl, rfl⟩⟩
      · exact ⟨a, b, c, e, hv, fun _ => ⟨_, rfl, rfl, rfl⟩⟩
    · obtain ⟨a, b, c, e, f, g⟩ := h
      exact ⟨a, b, c, e, f, fun _ => ⟨_, rfl, rfl, rfl⟩⟩
    · intro _ b _
      exact AgentSound.answerStored (s := updateShadow (fun _ => b) s) (h.congr rfl rfl) _ _ _
    · intro k a
      exact AgentSound.answerStored (s := resetStation k a s) (h.congr (by simp [resetStation]) (by simp
        [resetStation])) _ _ _
    · intro d g
      exact (h.answerStored _ _ _).congr rfl rfl
    · intro _ _
      refine AgentSound.settled ?_ settled_drainIfDone
      exact (h.answerStored _ _ _).congr rfl rfl
    · intro hd'
      exact AgentSound.settled (h.answerStored _ _ _) (settled_failDrain _ hd')

theorem settled_change_agent (k src y v) {s : State} : (takeChange k src y v s).agent = s.agent ∧ (takeChange k src y
    v s).ownAddress = s.ownAddress := by
  refine ⟨?_, (fixed_takeChange k src y v).ownAddress⟩
  unfold takeChange
  have h1 : (signOfLife k src s).agent = s.agent := by
    unfold signOfLife; split
    · exact (bystander_takeAlive _ _).agent
    · rfl
  rw [← h1]
  generalize signOfLife k src s = u
  unfold mapChange
  split
  · unfold editChange; split
    · unfold applyPolicy; split
      · simp
      · unfold offerChange; split <;> simp
      · unfold decideDeadband; dsimp only; split
        · unfold offerChange; split <;> simp
        · split
          · simp
          · unfold offerChange; split <;> simp
    · simp
  · simp

theorem AgentSound.initial {s : State} (h : s.agent = Agent.initial) : AgentSound s := by
  constructor <;> rw [h] <;> first | decide | (intro h'; cases h')

theorem BanksInRange.congr {s t : State} (h : BanksInRange s) (hs : t.store.bankA = s.store.bankA ∧ t.store.bankB =
    s.store.bankB) : BanksInRange t := by
  unfold BanksInRange; rw [hs.1, hs.2]; exact h

theorem BanksInRange.settled {s t : State} (h : BanksInRange s) (g : Settled s t) : BanksInRange t := by
  rcases g.outcome with ⟨a, b, c⟩ | ⟨a, b, c, d⟩ | ⟨a, b, c, d⟩
  · exact h.congr (by rw [a]; exact ⟨rfl, rfl⟩)
  · exact h.congr (by rw [b]; exact ⟨rfl, rfl⟩)
  · exact h.congr (by rw [b]; exact ⟨rfl, rfl⟩)

theorem shadow_inRange {s : State} (h : BanksInRange s) : BankInRange s.store.shadowBank := by
  unfold BankStore.shadowBank; split
  · exact h.2
  · exact h.1

theorem active_inRange {s : State} (h : BanksInRange s) : BankInRange s.store.activeBank := by
  unfold BankStore.activeBank; split
  · exact h.1
  · exact h.2

/-- A WRITE_MAP stores an entry in range (R23). -/
theorem parseMap_inRange {args ix e} (h : parseMap args = some (ix, e)) : EntryInRange e := by
  unfold parseMap at h
  split at h
  · simp only [Option.bind_eq_bind, Option.bind_eq_some_iff] at h
    obtain ⟨i, hi, seg, hseg, phys, hphys, acc, hacc, down, hdown, up, hup, pol, hpol, h⟩ := h
    split at h
    · next hok =>
      cases h
      unfold mapRangesOk at hok; rw [decide_eq_true_eq] at hok
      refine ⟨hok.1, hok.2.1, hok.2.2, ?_⟩
      intro l r hh
      simp only at hh; subst hh
      unfold policyOf at hpol
      grind
    · cases h
  · cases h

theorem parseSteps_ok : ∀ (n : Nat) (bs : List Byte) {steps}, parseSteps n bs = some steps → steps.length = n ∧ ∀ st
    ∈ steps, stepOk st.op st.a st.b = true
  | 0, [], _, h => by cases h; simp
  | 0, _ :: _, _, h => by cases h
  | n + 1, [], _, h => by cases h
  | n + 1, [_], _, h => by cases h
  | n + 1, [_, _], _, h => by cases h
  | n + 1, [_, _, _], _, h => by cases h
  | n + 1, [_, _, _, _], _, h => by cases h
  | n + 1, [_, _, _, _, _], _, h => by cases h
  | n + 1, o :: g :: a1 :: a0 :: b1 :: b0 :: rest, _, h => by
    unfold parseSteps at h
    simp only [Option.bind_eq_bind, Option.bind_eq_some_iff] at h
    obtain ⟨op, _, gd, _, ss, hss, h⟩ := h
    split at h
    · next hok =>
      cases h
      obtain ⟨h1, h2⟩ := parseSteps_ok n rest hss
      refine ⟨by simp [h1], ?_⟩
      intro st hst
      rcases List.mem_cons.mp hst with rfl | hst
      · exact hok
      · exact h2 st hst
    · cases h

/-- The operand check of a WRITE_EDIT's step is R26's. -/
theorem stepOk_iff {op : StepOp} {a b : Word} : stepOk op a b = true ↔
    (op = .scale → b.toNat ≤ 15 ∨ 256 ≤ b.toNat ∧ b.toNat ≤ 271) ∧ (op = .translate → a.toNat ≤ 7) ∧
      (op = .limit → a.toInt ≤ b.toInt) := by
  cases op <;> simp [stepOk]

theorem recordInRange_iff {r : EditRecord} :
    RecordInRange r ↔ r.steps.length ≤ 4 ∧ ∀ st ∈ r.steps, stepOk st.op st.a st.b = true := by
  simp only [stepOk_iff]
  exact ⟨fun h => ⟨h.count, fun st hs => ⟨h.scale st hs, h.translate st hs, h.limit st hs⟩⟩,
    fun h => ⟨h.1, fun st hs => (h.2 st hs).1, fun st hs => (h.2 st hs).2.1, fun st hs => (h.2 st hs).2.2⟩⟩

/-- A WRITE_EDIT stores a record in range (R26). -/
theorem parseEdit_inRange {args ix r} (h : parseEdit args = some (ix, r)) : RecordInRange r := by
  unfold parseEdit at h
  split at h
  · simp only [Option.bind_eq_bind, Option.bind_eq_some_iff] at h
    obtain ⟨i, hi, a, ha, b, hb, c, hc, d, hd, h⟩ := h
    split at h
    · next hk =>
      simp only [Option.bind_eq_some_iff] at h
      obtain ⟨ss, hss, h⟩ := h
      cases h
      obtain ⟨h1, h2⟩ := parseSteps_ok _ _ hss
      exact recordInRange_iff.mpr ⟨by simp [h1]; exact hk, h2⟩
    · cases h
  · cases h

theorem write_inRange {s : State} (h : BanksInRange s) {b : Bank} (w : ShadowWrite s b) : BankInRange b := by
  have hs := shadow_inRange h
  cases w with
  | entry hp =>
    refine ⟨?_, hs.records⟩
    intro ix e he
    unfold Bank.setEntry Bank.entry at he
    simp only [Fin.getElem_fin, Vector.getElem_set] at he
    split at he
    · cases he; exact parseMap_inRange hp
    · exact hs.entries ix e he
  | noEntry jx =>
    refine ⟨?_, hs.records⟩
    intro ix e he
    unfold Bank.setEntry Bank.entry at he
    simp only [Fin.getElem_fin, Vector.getElem_set] at he
    split at he
    · cases he
    · exact hs.entries ix e he
  | record hp =>
    refine ⟨hs.entries, ?_⟩
    intro ix e he
    unfold Bank.setRecord at he
    simp only [Fin.getElem_fin, Vector.getElem_set] at he
    split at he
    · cases he; exact parseEdit_inRange hp
    · exact hs.records ix e he
  | noRecord jx =>
    refine ⟨hs.entries, ?_⟩
    intro ix e he
    unfold Bank.setRecord at he
    simp only [Fin.getElem_fin, Vector.getElem_set] at he
    split at he
    · cases he
    · exact hs.records ix e he
  | page ix p => exact ⟨hs.entries, hs.records⟩
  | copy => exact active_inRange h

theorem setShadow_facts (st : BankStore) (b : Bank) : (st.setShadow b).shadowBank = b ∧ (st.setShadow b).activeBank =
    st.activeBank := by
  unfold BankStore.setShadow BankStore.shadowBank BankStore.activeBank
  cases st.active <;> simp

theorem BanksInRange.mgmt {s : State} (h : BanksInRange s) (hd args) : BanksInRange (takeMgmtByCode hd args s) := by
  refine takeMgmtByCode_keeps (P := BanksInRange) ⟨?_, h, ?_, ?_, ?_, ?_⟩ args
  · exact h.congr (by simp)
  · exact fun _ => h.congr ⟨rfl, rfl⟩
  · exact fun _ _ _ => h.congr ⟨rfl, rfl⟩
  · exact fun _ _ => h.congr ⟨rfl, rfl⟩
  · intro _
    constructor
    · exact fun _ _ => h.congr ⟨rfl, rfl⟩
    · exact fun _ _ _ => h.congr ⟨rfl, rfl⟩
    · exact h.congr ⟨rfl, rfl⟩
    · intro _ b w
      have hb := write_inRange h w
      unfold BanksInRange
      show BankInRange (s.store.setShadow b).bankA ∧ BankInRange (s.store.setShadow b).bankB
      unfold BankStore.setShadow
      cases s.store.active
      · exact ⟨h.1, hb⟩
      · exact ⟨hb, h.2⟩
    · exact fun k a => h.congr (by simp [resetStation, answerStored, answerOnly])
    · exact fun _ _ => h.congr ⟨rfl, rfl⟩
    · intro _ _
      refine BanksInRange.settled ?_ settled_drainIfDone
      exact h.congr ⟨rfl, rfl⟩
    · intro hd'
      exact BanksInRange.settled (s := answerStored hd .done [] s) (h.congr ⟨rfl, rfl⟩) (settled_failDrain _ hd')

theorem change_store (k src y v) {s : State} : (takeChange k src y v s).store = s.store ∧ (takeChange k src y v
    s).commit = s.commit := by
  have h1 : (signOfLife k src s).store = s.store ∧ (signOfLife k src s).commit = s.commit := by
    unfold signOfLife; split
    · exact ⟨(bystander_takeAlive _ _).store, (bystander_takeAlive _ _).commit⟩
    · exact ⟨rfl, rfl⟩
  unfold takeChange
  rw [← h1.1, ← h1.2]
  generalize signOfLife k src s = u
  unfold mapChange
  split
  · unfold editChange; split
    · unfold applyPolicy; split
      · simp
      · unfold offerChange; split <;> simp
      · unfold decideDeadband; dsimp only; split
        · unfold offerChange; split <;> simp
        · split
          · simp
          · unfold offerChange; split <;> simp
    · simp
  · simp

theorem endUpstream_store {s : State} : (endUpstream s).store = s.store := by
  unfold endUpstream; split
  · rfl
  · dsimp only; split <;> simp [restartEffect]

theorem emptyBank_inRange : BankInRange Bank.empty := by
  constructor
  · intro ix e h; simp [Bank.entry, Bank.empty] at h
  · intro ix e h; simp [Bank.empty] at h

theorem ActiveBankValid.congr {s t : State} (h : ActiveBankValid s) (hs : t.store = s.store) (hc : t.commit.state =
    s.commit.state) (h1 : t.s1Present = s.s1Present) : ActiveBankValid t := by
  constructor <;> rw [hs, h1]
  · exact h.active
  · rw [hc]; exact h.incoming

theorem ActiveBankValid.settled {s t : State} (h : ActiveBankValid s) (g : Settled s t) : ActiveBankValid t := by
  have h1 := g.fixed.s1Present
  rcases g.outcome with ⟨a, b, c⟩ | ⟨a, b, c, d⟩ | ⟨a, b, c, d⟩
  · exact h.congr a (by rw [b]) h1
  · constructor <;> rw [b, h1]
    · exact h.active
    · rw [c]; intro h'; cases h'
  · constructor <;> rw [b, h1]
    · have : s.store.swap.activeBank = s.store.shadowBank := by
        unfold BankStore.activeBank BankStore.shadowBank BankStore.swap BankId.other; cases s.store.active <;> rfl
      rw [this]; exact h.incoming a
    · rw [c]; intro h'; cases h'

theorem ActiveBankValid.mgmt {s : State} (h : ActiveBankValid s) (hd args) : ActiveBankValid (takeMgmtByCode hd args
    s) := by
  refine takeMgmtByCode_keeps (P := ActiveBankValid) ⟨?_, h, ?_, ?_, ?_, ?_⟩ args
  · exact h.congr (by simp) (by simp) (by simp)
  · exact fun _ => h.congr rfl rfl rfl
  · exact fun _ _ _ => h.congr rfl rfl rfl
  · exact fun _ _ => h.congr rfl rfl rfl
  · intro _
    constructor
    · exact fun _ _ => h.congr rfl rfl rfl
    · exact fun _ _ _ => h.congr rfl rfl rfl
    · exact h.congr rfl rfl rfl
    · intro hi b w
      constructor
      · show (s.store.setShadow b).activeBank.valid s.s1Present = true
        rw [(setShadow_facts _ _).2]; exact h.active
      · intro h'
        have : s.commit.state = .draining := h'
        rw [hi] at this; cases this
    · exact fun k a => h.congr (by simp [resetStation, answerStored, answerOnly]) (by simp [resetStation,
        answerStored, answerOnly]) (by simp [resetStation, answerStored, answerOnly])
    · exact fun _ _ => h.congr rfl rfl rfl
    · intro _ hex
      refine ActiveBankValid.settled ?_ settled_drainIfDone
      exact ⟨h.active, fun _ => by
        show s.store.shadowBank.valid s.s1Present = true
        unfold Bank.valid; rw [hex]; rfl⟩
    · intro hd'
      exact ActiveBankValid.settled (s := answerStored hd .done [] s) (h.congr rfl rfl rfl) (settled_failDrain _ hd')

theorem emptyBank_valid (b : Bool) : Bank.empty.valid b = true := by
  unfold Bank.valid Bank.examine
  have : (List.finRange 128).findSome? (Bank.empty.visitFault b) = none := by
    rw [List.findSome?_eq_none_iff]
    intro ix _
    unfold Bank.visitFault Bank.entry Bank.empty
    simp
  rw [this]; rfl

theorem CacheSound.congr {s t : State} (h : CacheSound s) (hs : t.store.activeBank = s.store.activeBank) (hc :
    t.cache = s.cache) : CacheSound t := by
  constructor <;> rw [hc]
  · exact h.bound
  · exact h.keys
  · rw [hs]; exact h.mapped

theorem CacheSound.nil {s : State} (h : s.cache = []) : CacheSound s := by
  constructor <;> rw [h] <;> simp

theorem CacheSound.settled {s t : State} (h : CacheSound s) (g : Settled s t) : CacheSound t := by
  rcases g.outcome with ⟨a, b, c⟩ | ⟨a, b, c, d⟩ | ⟨a, b, c, d⟩
  · exact h.congr (by rw [a]) c
  · exact h.congr (by rw [b]) d
  · exact CacheSound.nil d

theorem CacheSound.mapKeys {s t : State} (h : CacheSound s) (f : CacheEntry → CacheEntry) (hf : ∀ c, (f c).station =
    c.station ∧ (f c).index = c.index)
    (hs : t.store.activeBank = s.store.activeBank) (hc : t.cache = s.cache.map f) : CacheSound t := by
  constructor <;> rw [hc]
  · rw [List.length_map]; exact h.bound
  · rw [List.pairwise_map]
    refine h.keys.imp fun {a b} hab => ?_
    unfold CacheEntry.sameKey
    rw [(hf a).1, (hf a).2, (hf b).1, (hf b).2]
    exact hab
  · rw [hs]
    intro c hc'
    rw [List.mem_map] at hc'
    obtain ⟨d, hd, rfl⟩ := hc'
    rw [(hf d).1, (hf d).2]; exact h.mapped d hd

theorem CacheSound.mgmt {s : State} (h : CacheSound s) (hd args) : CacheSound (takeMgmtByCode hd args s) := by
  refine takeMgmtByCode_keeps (P := CacheSound) ⟨?_, h, ?_, ?_, ?_, ?_⟩ args
  · exact h.congr (by simp) (by simp)
  · exact fun _ => h.congr rfl rfl
  · exact fun _ _ _ => h.congr rfl rfl
  · exact fun _ _ => h.congr rfl rfl
  · intro _
    constructor
    · exact fun _ _ => h.congr rfl rfl
    · exact fun _ _ _ => h.congr rfl rfl
    · exact h.congr rfl rfl
    · intro hi b w
      exact h.congr (setShadow_facts s.store b).2 rfl
    · exact fun k a => h.congr (by simp [resetStation, answerStored, answerOnly]) (by simp [resetStation,
        answerStored, answerOnly])
    · exact fun _ _ => h.congr rfl rfl
    · intro _ hex
      unfold beginDrain
      refine CacheSound.settled (s := _) ?_ settled_drainIfDone
      exact h.congr rfl rfl
    · intro hd'
      exact CacheSound.settled (s := answerStored hd .done [] s) (h.congr rfl rfl) (settled_failDrain _ hd')

/-- The key of a change report lies in the entry that its reverse lookup found (R121, R126). -/
theorem reverse_key {s : State} {c : CacheEntry} {e : MapEntry} {y : Word} {k : Segment} {src : Byte} {l r : Word} (h :
    BanksInRange s) (hrev : s.store.activeBank.reverse k src y = some e)
    (hp : e.policy = .deadband l r) (hc : c.station = e.station) (hi : c.index = e.toLogical y) :
    ∃ ix e l r, s.store.activeBank.entry ix = some e ∧ e.policy = .deadband l r ∧ e.station = c.station ∧
      e.containsLogical c.index.toNat = true := by
  unfold Bank.reverse at hrev
  have h1 := List.mem_of_find?_eq_some hrev
  have h2 := List.find?_some hrev
  simp only [Bool.and_eq_true, decide_eq_true_eq] at h2
  unfold Bank.entries at h1
  simp only [List.mem_filterMap, id] at h1
  obtain ⟨o, ho, rfl⟩ := h1
  simp only [Vector.mem_toList_iff, Vector.mem_iff_getElem] at ho
  obtain ⟨n, hn, he⟩ := ho
  have hin := (active_inRange h).entries ⟨n, hn⟩ e he
  refine ⟨⟨n, hn⟩, e, l, r, he, hp, hc.symm, ?_⟩
  have hy := h2.2
  unfold MapEntry.containsPhysical MapEntry.physLast at hy
  simp only [decide_eq_true_eq] at hy
  unfold MapEntry.containsLogical
  rw [hi]
  unfold MapEntry.toLogical
  have ho := hin.order
  have hph := hin.physical
  have e1 : (e.first + (y - e.base)).toNat = e.first.toNat + (y.toNat - e.base.toNat) := by
    rw [BitVec.toNat_add, BitVec.toNat_sub]
    have := e.last.isLt
    have := y.isLt
    have := e.base.isLt
    omega
  rw [e1]
  simp only [decide_eq_true_eq]
  omega

theorem CacheSound.insert {s t : State} (h : CacheSound s) (c : CacheEntry) (hs : t.store.activeBank =
    s.store.activeBank)
    (hm : ∃ ix e l r, s.store.activeBank.entry ix = some e ∧ e.policy = .deadband l r ∧ e.station = c.station ∧
      e.containsLogical c.index.toNat = true)
    (l : List CacheEntry) (hsub : l.Sublist s.cache) (hlen : l.length < 64) (hfree : ∀ d ∈ l, ¬ CacheEntry.sameKey d
      c) (hc : t.cache = l ++ [c]) : CacheSound t := by
  constructor <;> rw [hc]
  · simp; omega
  · rw [List.pairwise_append]
    refine ⟨h.keys.sublist hsub, by simp, ?_⟩
    intro d hd x hx
    simp at hx; subst hx
    exact hfree d hd
  · rw [hs]
    intro d hd
    rcases List.mem_append.mp hd with hd | hd
    · exact h.mapped d (hsub.subset hd)
    · simp at hd; subst hd; exact hm

theorem CacheSound.change {s : State} (hb : BanksInRange s) (h : CacheSound s) (k src y v) : CacheSound (takeChange k
    src y v s) := by
  have h1 : Bystander s (signOfLife k src s) := by
    unfold signOfLife; split
    · exact bystander_takeAlive _ _
    · exact Bystander.refl s
  have hb' : BanksInRange (signOfLife k src s) := hb.settled h1.settled
  have h' : CacheSound (signOfLife k src s) := h.settled h1.settled
  unfold takeChange
  generalize signOfLife k src s = u at *
  unfold mapChange
  split
  · next e hrev =>
    unfold editChange; split
    · next w hw =>
      unfold applyPolicy; split
      · exact h'.congr (by simp) (by simp)
      · unfold offerChange; split
        · exact h'.congr (by simp) (by simp)
        · exact h'.congr (by simp) (by simp)
      · next l r hp =>
        have fwd : CacheSound (offerChange (forwardedChange u e y w) (cacheForward e.station (e.toLogical y) w r
          u.cache) u) := by
          unfold offerChange; split
          · unfold cacheForward
            simp only
            split
            · next d hf =>
              refine h'.insert _ (by simp) (reverse_key hb' hrev hp rfl rfl) (cacheRemove e.station (e.toLogical y)
                u.cache) List.filter_sublist ?_ ?_ rfl
              · have hd := List.find?_some hf
                have hdm := List.mem_of_find?_eq_some hf
                have : (cacheRemove e.station (e.toLogical y) u.cache).length < u.cache.length := by
                  unfold cacheRemove
                  rw [List.length_filter_lt_length_iff_exists]
                  exact ⟨d, hdm, by rw [hd]; decide⟩
                have := h'.bound; omega
              · intro d hd hk
                unfold cacheRemove at hd
                rw [List.mem_filter] at hd
                have := hd.2
                unfold CacheEntry.hasKey at this
                simp at this
                exact this.elim (fun x => x hk.1) (fun x => x hk.2)
            · next hf =>
              have hnk : ∀ d ∈ u.cache, ¬ CacheEntry.sameKey d
                { station := e.station, index := e.toLogical y, lastValue := w, countdown := refreshTimer r, due := false } := by
                intro d hd hk
                unfold cacheFind at hf
                rw [List.find?_eq_none] at hf
                have := hf d hd
                unfold CacheEntry.hasKey at this
                simp at this
                exact this hk.1 hk.2
              refine h'.insert _ (by simp) (reverse_key hb' hrev hp rfl rfl) (evictIfFull u.cache) ?_ ?_ ?_ rfl
              · unfold evictIfFull; split
                · exact List.Sublist.refl _
                · exact List.drop_sublist _ _
              · unfold evictIfFull Config.cacheCapacity; split
                · assumption
                · rw [List.length_drop]; have := h'.bound; omega
              · intro d hd
                apply hnk
                unfold evictIfFull at hd; split at hd
                · exact hd
                · exact List.mem_of_mem_drop hd
          · exact h'.congr (by simp) (by simp)
        unfold decideDeadband
        simp only
        split
        · exact fwd
        · next c hf =>
          split
          · have hd := List.find?_some hf
            have hdm := List.mem_of_find?_eq_some hf
            refine h'.insert c (by simp) (h'.mapped c hdm) (cacheRemove c.station c.index u.cache)
              List.filter_sublist ?_ ?_ (by rfl)
            · have : (cacheRemove c.station c.index u.cache).length < u.cache.length := by
                unfold cacheRemove
                rw [List.length_filter_lt_length_iff_exists]
                exact ⟨c, hdm, by simp [CacheEntry.hasKey]⟩
              have := h'.bound; omega
            · intro d hd hk
              unfold cacheRemove at hd
              rw [List.mem_filter] at hd
              have := hd.2
              unfold CacheEntry.hasKey at this
              simp at this
              exact this.elim (fun x => x hk.1) (fun x => x hk.2)
          · exact fwd
    · exact h'.congr (by simp) (by simp)
  · exact h'.congr (by simp) (by simp)

end Sys2Proof.Safety
end

