-- ==== Sys2Proof/Laws/Places.lean ====
section
/-! SUPPORT. What the operations inside a taking do to the places of slots (R74, R75, R77). -/

namespace Sys2Proof.Safety

open Sys2Proof.Machine

/-- `SlotPlaces` in the middle of a taking: the slots of `limbo` stand in no collection whatever their state, and the
record of the station `x` may name no active slot or a slot that is in limbo. -/
structure PlacesBut (s : State) (x : Option (Segment × StationAddr)) (limbo : List SlotIx) : Prop where
  held : ∀ k a i, i ∈ (s.station k a).held ↔
    i ∉ limbo ∧ (s.slot i).state = .held ∧ (s.slot i).seg = k ∧ (s.slot i).station = a
  heldOnce : ∀ k a, (s.station k a).held.Nodup
  queued : ∀ k i, i ∈ (s.seg k).queue ↔ i ∉ limbo ∧ (s.slot i).state = .queued ∧ (s.slot i).seg = k
  queuedOnce : ∀ k, (s.seg k).queue.Nodup
  parked : ∀ i, i ∈ s.parked ↔ i ∉ limbo ∧ (s.slot i).state = .parked
  parkedOnce : s.parked.Nodup
  waiting : ∀ i, i ∈ s.up.waitList ↔ i ∉ limbo ∧ (s.slot i).state = .replyReady
  waitingOnce : s.up.waitList.Nodup
  sending : ∀ k i, (∃ t, (s.seg k).record = .slot i t) ↔
    i ∉ limbo ∧ (s.slot i).state = .sending ∧ (s.slot i).seg = k
  active : ∀ k a, x ≠ some (k, a) → ∀ i, (s.station k a).activeSlot = some i ↔
    i ∉ limbo ∧ isActive (s.slot i).state ∧ (s.slot i).seg = k ∧ (s.slot i).station = a
  opened : ∀ k a, x = some (k, a) → ∀ i, i ∉ limbo → isActive (s.slot i).state →
    ¬((s.slot i).seg = k ∧ (s.slot i).station = a)
  heldBehind : ∀ k a, x ≠ some (k, a) → (s.station k a).held ≠ [] → (s.station k a).activeSlot ≠ none
  silent : ∀ k a, (s.station k a).health = .silent → (s.station k a).activeSlot = none
  limboOnce : limbo.Nodup

theorem placesBut_iff (s : State) : PlacesBut s none [] ↔ SlotPlaces s := by
  constructor
  · intro h
    exact ⟨by simpa using h.held, h.heldOnce, by simpa using h.queued, h.queuedOnce, by simpa using h.parked,
      h.parkedOnce, by simpa using h.waiting, h.waitingOnce, by simpa using h.sending, by simpa using h.active,
      by simpa using h.heldBehind, h.silent⟩
  · intro h
    exact ⟨by simpa using h.held, h.heldOnce, by simpa using h.queued, h.queuedOnce, by simpa using h.parked,
      h.parkedOnce, by simpa using h.waiting, h.waitingOnce, by simpa using h.sending, by simpa using h.active,
      by simp, by simpa using h.heldBehind, h.silent, by simp⟩

variable {s t : State} {x : Option (Segment × StationAddr)} {l : List SlotIx} {k : Segment} {a : StationAddr}
  {i : SlotIx}

/-- Only slots, segments, the parked list and the Reply Wait List matter. -/
theorem PlacesBut.congr (h : PlacesBut s x l) (hs : t.slots = s.slots) (h0 : t.seg0 = s.seg0) (h1 : t.seg1 = s.seg1)
    (hp : t.parked = s.parked) (hw : t.up.waitList = s.up.waitList) : PlacesBut t x l := by
  have hslot : ∀ i, t.slot i = s.slot i := fun i => by simp only [State.slot, hs]
  have hseg : ∀ k, t.seg k = s.seg k := fun k => by cases k <;> simp only [State.seg, h0, h1]
  have hst : ∀ k a, t.station k a = s.station k a := fun k a => by simp only [State.station, hseg]
  constructor <;> try simp only [hslot, hseg, hst, hp, hw]
  exacts [h.held, h.heldOnce, h.queued, h.queuedOnce, h.parked, h.parkedOnce, h.waiting, h.waitingOnce, h.sending,
    h.active, h.opened, h.heldBehind, h.silent, h.limboOnce]

/-- A slot in limbo may take any record. -/
theorem PlacesBut.setSlot (h : PlacesBut s x l) (hi : i ∈ l) (y : Slot) : PlacesBut (s.setSlot i y) x l := by
  have key : ∀ j, j ∉ l → i ≠ j := fun j hj e => hj (e ▸ hi)
  constructor <;> try simp only [State.slot_setSlot, State.setSlot_station, State.setSlot_seg, State.setSlot_parked,
    State.setSlot_up]
  · grind [h.held]
  · exact h.heldOnce
  · grind [h.queued]
  · exact h.queuedOnce
  · grind [h.parked]
  · exact h.parkedOnce
  · grind [h.waiting]
  · exact h.waitingOnce
  · intro k j; have := h.sending k j; grind
  · grind [h.active]
  · grind [h.opened]
  · exact h.heldBehind
  · exact h.silent
  · exact h.limboOnce

/-- A station's record may change its evidence, and the open station's its active slot. -/
theorem PlacesBut.setStation (h : PlacesBut s x l) (y : Station) (hheld : y.held = (s.station k a).held)
    (hact : x ≠ some (k, a) → y.activeSlot = (s.station k a).activeSlot)
    (hsil : y.health = .silent → y.activeSlot = none) : PlacesBut (s.setStation k a y) x l := by
  constructor <;> try simp only [State.setStation_slot, State.station_setStation, State.setStation_queue,
    State.setStation_record, State.setStation_parked, State.setStation_up]
  · grind [h.held]
  · grind [h.heldOnce]
  · exact h.queued
  · exact h.queuedOnce
  · exact h.parked
  · exact h.parkedOnce
  · exact h.waiting
  · exact h.waitingOnce
  · exact h.sending
  · grind [h.active]
  · exact h.opened
  · grind [h.heldBehind]
  · grind [h.silent]
  · exact h.limboOnce

/-- A SENT slot enters limbo, and its station is open. -/
theorem PlacesBut.fromSent (h : PlacesBut s none l) (hi : i ∉ l) (hs : (s.slot i).state = .sent) :
    PlacesBut s (some ((s.slot i).seg, (s.slot i).station)) (i :: l) := by
  have hact : isActive (s.slot i).state := .inr (.inr hs)
  constructor
  · grind [h.held]
  · exact h.heldOnce
  · grind [h.queued]
  · exact h.queuedOnce
  · grind [h.parked]
  · exact h.parkedOnce
  · grind [h.waiting]
  · exact h.waitingOnce
  · intro k j; have := h.sending k j; grind
  · intro k a hx j
    have := h.active k a (by simp) j
    grind
  · intro k a hx j hj hja
    have h1 := h.active k a (by simp) j
    have h2 := h.active k a (by simp) i
    grind
  · intro k a _; exact h.heldBehind k a (by simp)
  · exact h.silent
  · grind [h.limboOnce]

/-- A FREE slot enters limbo. -/
theorem PlacesBut.fromFree (h : PlacesBut s x l) (hi : i ∉ l) (hs : (s.slot i).state = .free) :
    PlacesBut s x (i :: l) := by
  have hact : ¬ isActive (s.slot i).state := by simp [isActive, hs]
  constructor
  · grind [h.held]
  · exact h.heldOnce
  · grind [h.queued]
  · exact h.queuedOnce
  · grind [h.parked]
  · exact h.parkedOnce
  · grind [h.waiting]
  · exact h.waitingOnce
  · intro k j; have := h.sending k j; grind
  · grind [h.active]
  · grind [h.opened]
  · exact h.heldBehind
  · exact h.silent
  · grind [h.limboOnce]

/-- A FREE slot leaves limbo. -/
theorem PlacesBut.toFree (h : PlacesBut s x (i :: l)) (hs : (s.slot i).state = .free) : PlacesBut s x l := by
  have hact : ¬ isActive (s.slot i).state := by simp [isActive, hs]
  constructor
  · grind [h.held]
  · exact h.heldOnce
  · grind [h.queued]
  · exact h.queuedOnce
  · grind [h.parked]
  · exact h.parkedOnce
  · grind [h.waiting]
  · exact h.waitingOnce
  · intro k j; have := h.sending k j; grind
  · grind [h.active]
  · grind [h.opened]
  · exact h.heldBehind
  · exact h.silent
  · grind [h.limboOnce]

/-- A REPLY_READY slot leaves limbo for the tail of the Reply Wait List. -/
theorem PlacesBut.toWait (h : PlacesBut s x (i :: l)) (hs : (s.slot i).state = .replyReady) :
    PlacesBut (joinWaitList i s) x l := by
  have hact : ¬ isActive (s.slot i).state := by simp [isActive, hs]
  have hn : i ∉ s.up.waitList := by grind [h.waiting]
  constructor <;> try simp only [joinWaitList, State.setUp_slot, State.setUp_station, State.setUp_seg, State.setUp_up,
    State.setUp_parked]
  · grind [h.held]
  · exact h.heldOnce
  · grind [h.queued]
  · exact h.queuedOnce
  · grind [h.parked]
  · exact h.parkedOnce
  · grind [h.waiting, h.limboOnce]
  · grind [h.waitingOnce]
  · intro k j; have := h.sending k j; grind
  · grind [h.active]
  · grind [h.opened]
  · exact h.heldBehind
  · exact h.silent
  · grind [h.limboOnce]

/-- The head of the Reply Wait List enters limbo. -/
theorem PlacesBut.fromWait {rest : List SlotIx} (h : PlacesBut s x l) (hw : s.up.waitList = i :: rest) :
    PlacesBut (s.setUp { s.up with waitList := rest }) x (i :: l) := by
  have hi := (h.waiting i).1 (by simp [hw])
  have hact : ¬ isActive (s.slot i).state := by simp [isActive, hi.2]
  have hnd := h.waitingOnce
  rw [hw] at hnd
  constructor <;> try simp only [State.setUp_slot, State.setUp_station, State.setUp_seg, State.setUp_up,
    State.setUp_parked]
  · grind [h.held]
  · exact h.heldOnce
  · grind [h.queued]
  · exact h.queuedOnce
  · grind [h.parked]
  · exact h.parkedOnce
  · grind [h.waiting]
  · grind
  · intro k j; have := h.sending k j; grind
  · grind [h.active]
  · grind [h.opened]
  · exact h.heldBehind
  · exact h.silent
  · grind [h.limboOnce]

/-- A QUEUED slot, the active slot of the open station, leaves limbo for the tail of its send queue. -/
theorem PlacesBut.toQueue (h : PlacesBut s (some (k, a)) (i :: l)) (hs : (s.slot i).state = .queued)
    (hk : (s.slot i).seg = k) (ha : (s.slot i).station = a) (hact : (s.station k a).activeSlot = some i) :
    PlacesBut (s.setSeg k { s.seg k with queue := (s.seg k).queue ++ [i] }) none l := by
  have hia : isActive (s.slot i).state := .inl hs
  have hn : i ∉ (s.seg k).queue := by grind [h.queued]
  have hnd := h.limboOnce
  constructor <;> try simp only [State.setSeg_slot, State.setSeg_station, State.seg_setSeg, State.setSeg_up,
    State.setSeg_parked, State.seg_stations]
  · intro k' a' j
    have := h.held k' a' j
    by_cases hkk : k = k' <;> simp only [hkk, if_true, if_false] <;> grind
  · intro k' a'
    have := h.heldOnce k' a'
    by_cases hkk : k = k' <;> simp only [hkk, if_true, if_false] <;> grind
  · intro k' j
    have := h.queued k' j
    by_cases hkk : k = k' <;> simp only [hkk, if_true, if_false] <;> grind
  · intro k'
    have := h.queuedOnce k'
    by_cases hkk : k = k' <;> simp only [hkk, if_true, if_false] <;> grind
  · grind [h.parked]
  · exact h.parkedOnce
  · grind [h.waiting]
  · exact h.waitingOnce
  · intro k' j
    have := h.sending k' j
    by_cases hkk : k = k' <;> simp only [hkk, if_true, if_false] <;> grind
  · intro k' a' _ j
    by_cases hx : (k, a) = (k', a')
    · have h1 := h.opened k a rfl j
      simp only [Prod.mk.injEq] at hx
      obtain ⟨rfl, rfl⟩ := hx
      simp only [if_true]
      grind
    · have h1 := h.active k' a' (by simpa using hx) j
      by_cases hkk : k = k' <;> simp only [hkk, if_true, if_false] <;> grind
  · simp
  · intro k' a' _
    by_cases hx : (k, a) = (k', a')
    · simp only [Prod.mk.injEq] at hx
      obtain ⟨rfl, rfl⟩ := hx
      simp only [if_true]
      grind
    · have h1 := h.heldBehind k' a' (by simpa using hx)
      by_cases hkk : k = k' <;> simp only [hkk, if_true, if_false] <;> grind
  · intro k' a'
    have := h.silent k' a'
    by_cases hkk : k = k' <;> simp only [hkk, if_true, if_false] <;> grind
  · grind

/-- The head of a send queue enters limbo, and its station is open. -/
theorem PlacesBut.fromQueue {rest : List SlotIx} (h : PlacesBut s none l) (hq : (s.seg k).queue = i :: rest) :
    PlacesBut (s.setSeg k { s.seg k with queue := rest }) (some (k, (s.slot i).station)) (i :: l) := by
  have hi := (h.queued k i).1 (by simp [hq])
  have hia : isActive (s.slot i).state := .inl hi.2.1
  have hnd := h.queuedOnce k
  rw [hq] at hnd
  have hl := h.limboOnce
  constructor <;> try simp only [State.setSeg_slot, State.setSeg_station, State.seg_setSeg, State.setSeg_up,
    State.setSeg_parked, State.seg_stations]
  · intro k' a' j
    have := h.held k' a' j
    by_cases hkk : k = k' <;> simp only [hkk, if_true, if_false] <;> grind
  · intro k' a'
    have := h.heldOnce k' a'
    by_cases hkk : k = k' <;> simp only [hkk, if_true, if_false] <;> grind
  · intro k' j
    have := h.queued k' j
    by_cases hkk : k = k' <;> simp only [hkk, if_true, if_false] <;> grind
  · intro k'
    have := h.queuedOnce k'
    by_cases hkk : k = k' <;> simp only [hkk, if_true, if_false] <;> grind
  · grind [h.parked]
  · exact h.parkedOnce
  · grind [h.waiting]
  · exact h.waitingOnce
  · intro k' j
    have := h.sending k' j
    by_cases hkk : k = k' <;> simp only [hkk, if_true, if_false] <;> grind
  · intro k' a' hx j
    have h1 := h.active k' a' (by simp) j
    by_cases hkk : k = k' <;> simp only [hkk, if_true, if_false] <;> grind
  · intro k' a' hx j hj hja
    have h1 := h.active k' a' (by simp) j
    have h2 := h.active k' a' (by simp) i
    grind
  · intro k' a' _
    have h1 := h.heldBehind k' a' (by simp)
    by_cases hkk : k = k' <;> simp only [hkk, if_true, if_false] <;> grind
  · intro k' a'
    have := h.silent k' a'
    by_cases hkk : k = k' <;> simp only [hkk, if_true, if_false] <;> grind
  · grind

/-- A SENDING slot, the active slot of the open station, leaves limbo for a record that named no slot. -/
theorem PlacesBut.toRecord (h : PlacesBut s (some (k, a)) (i :: l)) (hs : (s.slot i).state = .sending)
    (hk : (s.slot i).seg = k) (ha : (s.slot i).station = a) (hact : (s.station k a).activeSlot = some i)
    (hr : ∀ j u, (s.seg k).record ≠ .slot j u) (u : Telegram) :
    PlacesBut (s.setSeg k { s.seg k with record := .slot i u }) none l := by
  have hia : isActive (s.slot i).state := .inr (.inl hs)
  have hnd := h.limboOnce
  constructor <;> try simp only [State.setSeg_slot, State.setSeg_station, State.seg_setSeg, State.setSeg_up,
    State.setSeg_parked, State.seg_stations]
  · intro k' a' j
    have := h.held k' a' j
    by_cases hkk : k = k' <;> simp only [hkk, if_true, if_false] <;> grind
  · intro k' a'
    have := h.heldOnce k' a'
    by_cases hkk : k = k' <;> simp only [hkk, if_true, if_false] <;> grind
  · intro k' j
    have := h.queued k' j
    by_cases hkk : k = k' <;> simp only [hkk, if_true, if_false] <;> grind
  · intro k'
    have := h.queuedOnce k'
    by_cases hkk : k = k' <;> simp only [hkk, if_true, if_false] <;> grind
  · grind [h.parked]
  · exact h.parkedOnce
  · grind [h.waiting]
  · exact h.waitingOnce
  · intro k' j
    have h1 := h.sending k' j
    by_cases hkk : k = k'
    · subst hkk
      have : ¬∃ u, (s.seg k).record = .slot j u := fun ⟨u, e⟩ => hr j u e
      simp only [if_true, TxRecord.slot.injEq, exists_and_left, exists_eq', and_true]
      grind
    · simp only [hkk, if_false]; grind
  · intro k' a' _ j
    by_cases hx : (k, a) = (k', a')
    · have h1 := h.opened k a rfl j
      simp only [Prod.mk.injEq] at hx
      obtain ⟨rfl, rfl⟩ := hx
      simp only [if_true]
      grind
    · have h1 := h.active k' a' (by simpa using hx) j
      by_cases hkk : k = k' <;> simp only [hkk, if_true, if_false] <;> grind
  · simp
  · intro k' a' _
    by_cases hx : (k, a) = (k', a')
    · simp only [Prod.mk.injEq] at hx
      obtain ⟨rfl, rfl⟩ := hx
      simp only [if_true]
      grind
    · have h1 := h.heldBehind k' a' (by simpa using hx)
      by_cases hkk : k = k' <;> simp only [hkk, if_true, if_false] <;> grind
  · intro k' a'
    have := h.silent k' a'
    by_cases hkk : k = k' <;> simp only [hkk, if_true, if_false] <;> grind
  · grind

/-- A segment's record and probe change, and neither record names a slot. -/
theorem PlacesBut.setRecord (h : PlacesBut s x l) (y : SegState) (hq : y.queue = (s.seg k).queue)
    (hst : y.stations = (s.seg k).stations) (hr : ∀ j u, (s.seg k).record ≠ .slot j u) (hy : ∀ j u, y.record ≠ .slot j u) :
    PlacesBut (s.setSeg k y) x l := by
  have hstn : ∀ k' a', (s.setSeg k y).station k' a' = s.station k' a' := by
    intro k' a'
    simp only [State.setSeg_station]
    split
    · next e => subst e; rw [hst]; rfl
    · rfl
  constructor <;> try simp only [State.setSeg_slot, hstn, State.seg_setSeg, State.setSeg_up, State.setSeg_parked]
  · exact h.held
  · exact h.heldOnce
  · intro k' j
    have := h.queued k' j
    grind
  · intro k'
    have := h.queuedOnce k'
    grind
  · exact h.parked
  · exact h.parkedOnce
  · exact h.waiting
  · exact h.waitingOnce
  · intro k' j
    have h1 := h.sending k' j
    by_cases hkk : k = k'
    · subst hkk
      have e1 : ¬∃ u, (s.seg k).record = .slot j u := fun ⟨u, e⟩ => hr j u e
      have e2 : ¬∃ u, y.record = .slot j u := fun ⟨u, e⟩ => hy j u e
      simp only [if_true]
      grind
    · simp only [hkk, if_false]; grind
  · exact h.active
  · exact h.opened
  · exact h.heldBehind
  · exact h.silent
  · exact h.limboOnce

/-- The slot a record names becomes SENT and the record NONE (R81). -/
theorem PlacesBut.recordSent {u : Telegram} (h : PlacesBut s none l) (hr : (s.seg k).record = .slot i u) (y : Slot)
    (hs : y.state = .sent) (hk : y.seg = (s.slot i).seg) (ha : y.station = (s.slot i).station) (z : SegState)
    (hq : z.queue = (s.seg k).queue) (hst : z.stations = (s.seg k).stations) (hz : ∀ j u, z.record ≠ .slot j u) :
    PlacesBut ((s.setSlot i y).setSeg k z) none l := by
  have hi := (h.sending k i).1 ⟨u, hr⟩
  have hia : isActive (s.slot i).state := .inr (.inl hi.2.1)
  have hya : isActive y.state := .inr (.inr hs)
  have hstn : ∀ k' a', ((s.setSlot i y).setSeg k z).station k' a' = s.station k' a' := by
    intro k' a'
    simp only [State.setSeg_station, State.setSlot_station]
    split
    · next e => subst e; rw [hst]; rfl
    · rfl
  constructor <;> try simp only [State.setSeg_slot, State.slot_setSlot, State.setSlot_seg, hstn, State.seg_setSeg,
    State.setSeg_up, State.setSeg_parked, State.setSlot_up, State.setSlot_parked]
  · intro k' a' j
    have := h.held k' a' j
    grind
  · exact h.heldOnce
  · intro k' j
    have := h.queued k' j
    grind
  · intro k'
    have := h.queuedOnce k'
    grind
  · intro j
    have := h.parked j
    grind
  · exact h.parkedOnce
  · intro j
    have := h.waiting j
    grind
  · exact h.waitingOnce
  · intro k' j
    have h1 := h.sending k' j
    by_cases hkk : k = k'
    · subst hkk
      have e2 : ¬∃ u, z.record = .slot j u := fun ⟨u, e⟩ => hz j u e
      have e3 : (∃ u, (s.seg k).record = .slot j u) → j = i := by
        rintro ⟨u', e⟩; rw [hr] at e; cases e; rfl
      simp only [if_true]
      grind
    · simp only [hkk, if_false]; grind
  · intro k' a' _ j
    have := h.active k' a' (by simp) j
    grind
  · simp
  · exact h.heldBehind
  · exact h.silent
  · exact h.limboOnce

/-- The head of a held list enters limbo. -/
theorem PlacesBut.fromHeld {rest : List SlotIx} (h : PlacesBut s x l) (hh : (s.station k a).held = i :: rest) (y : Station)
    (hy : y.held = rest) (hact : y.activeSlot = (s.station k a).activeSlot) (hsil : y.health = (s.station k a).health) :
    PlacesBut (s.setStation k a y) x (i :: l) := by
  have hi := (h.held k a i).1 (by simp [hh])
  have hia : ¬ isActive (s.slot i).state := by simp [isActive, hi.2.1]
  have hnd := h.heldOnce k a
  rw [hh] at hnd
  have hl := h.limboOnce
  constructor <;> try simp only [State.setStation_slot, State.station_setStation, State.setStation_queue,
    State.setStation_record, State.setStation_parked, State.setStation_up]
  · intro k' a' j
    have := h.held k' a' j
    grind
  · intro k' a'
    have := h.heldOnce k' a'
    grind
  · intro k' j; have := h.queued k' j; grind
  · exact h.queuedOnce
  · intro j; have := h.parked j; grind
  · exact h.parkedOnce
  · intro j; have := h.waiting j; grind
  · exact h.waitingOnce
  · intro k' j; have := h.sending k' j; grind
  · intro k' a' hx j
    have := h.active k' a' hx j
    grind
  · intro k' a' hx j
    have := h.opened k' a' hx j
    grind
  · intro k' a' hx
    have := h.heldBehind k' a' hx
    grind
  · intro k' a'
    have := h.silent k' a'
    grind
  · grind

/-- The whole held list enters limbo. -/
theorem PlacesBut.fromAllHeld (h : PlacesBut s x []) (y : Station)
    (hy : y.held = []) (hact : y.activeSlot = (s.station k a).activeSlot)
    (hsil : y.health = .silent → y.activeSlot = none) :
    PlacesBut (s.setStation k a y) x (s.station k a).held := by
  have hmem := h.held k a
  have hia : ∀ i ∈ (s.station k a).held, (s.slot i).state = .held := fun i hi => ((hmem i).1 hi).2.1
  have hna : ∀ i ∈ (s.station k a).held, ¬ isActive (s.slot i).state := fun i hi => by simp [isActive, hia i hi]
  constructor <;> try simp only [State.setStation_slot, State.station_setStation, State.setStation_queue,
    State.setStation_record, State.setStation_parked, State.setStation_up]
  · intro k' a' j
    have := h.held k' a' j
    have := hmem j
    grind
  · intro k' a'
    have := h.heldOnce k' a'
    grind
  · intro k' j; have := h.queued k' j; have := hia j; grind
  · exact h.queuedOnce
  · intro j; have := h.parked j; have := hia j; grind
  · exact h.parkedOnce
  · intro j; have := h.waiting j; have := hia j; grind
  · exact h.waitingOnce
  · intro k' j; have := h.sending k' j; have := hia j; grind
  · intro k' a' hx j
    have := h.active k' a' hx j
    have := hna j
    grind
  · intro k' a' hx j
    have := h.opened k' a' hx j
    grind
  · intro k' a' hx
    have := h.heldBehind k' a' hx
    grind
  · intro k' a'
    have := h.silent k' a'
    grind
  · exact h.heldOnce k a

/-- A HELD slot leaves limbo for the tail of the held list of its station, which has an active slot. -/
theorem PlacesBut.toHeld (h : PlacesBut s none (i :: l)) (hs : (s.slot i).state = .held) (hk : (s.slot i).seg = k)
    (ha : (s.slot i).station = a) (hact : (s.station k a).activeSlot ≠ none) (y : Station)
    (hy : y.held = (s.station k a).held ++ [i]) (hya : y.activeSlot = (s.station k a).activeSlot)
    (hyh : y.health = (s.station k a).health) : PlacesBut (s.setStation k a y) none l := by
  have hia : ¬ isActive (s.slot i).state := by simp [isActive, hs]
  have hn : i ∉ (s.station k a).held := by grind [h.held]
  have hl := h.limboOnce
  constructor <;> try simp only [State.setStation_slot, State.station_setStation, State.setStation_queue,
    State.setStation_record, State.setStation_parked, State.setStation_up]
  · intro k' a' j
    have := h.held k' a' j
    grind
  · intro k' a'
    have := h.heldOnce k' a'
    grind
  · intro k' j; have := h.queued k' j; grind
  · exact h.queuedOnce
  · intro j; have := h.parked j; grind
  · exact h.parkedOnce
  · intro j; have := h.waiting j; grind
  · exact h.waitingOnce
  · intro k' j; have := h.sending k' j; grind
  · intro k' a' hx j
    have := h.active k' a' hx j
    grind
  · simp
  · intro k' a' hx
    have := h.heldBehind k' a' hx
    grind
  · intro k' a'
    have := h.silent k' a'
    grind
  · grind

/-- A PARKED slot leaves limbo for the tail of the parked list. -/
theorem PlacesBut.toParked (h : PlacesBut s x (i :: l)) (hs : (s.slot i).state = .parked) :
    PlacesBut { s with parked := s.parked ++ [i] } x l := by
  have hia : ¬ isActive (s.slot i).state := by simp [isActive, hs]
  have hn : i ∉ s.parked := by grind [h.parked]
  have hl := h.limboOnce
  have hseg : ∀ k, State.seg { s with parked := s.parked ++ [i] } k = s.seg k := fun k => by cases k <;> rfl
  have hst : ∀ k a, State.station { s with parked := s.parked ++ [i] } k a = s.station k a := fun k a => by
    cases k <;> rfl
  have hsl : ∀ j, State.slot { s with parked := s.parked ++ [i] } j = s.slot j := fun j => rfl
  constructor <;> try simp only [hseg, hst, hsl]
  · intro k' a' j; have := h.held k' a' j; grind
  · exact h.heldOnce
  · intro k' j; have := h.queued k' j; grind
  · exact h.queuedOnce
  · intro j; have := h.parked j; grind
  · grind [h.parkedOnce]
  · intro j; have := h.waiting j; grind
  · exact h.waitingOnce
  · intro k' j; have := h.sending k' j; grind
  · intro k' a' hx j; have := h.active k' a' hx j; grind
  · intro k' a' hx j; have := h.opened k' a' hx j; grind
  · exact h.heldBehind
  · exact h.silent
  · grind

/-- The whole parked list enters limbo. -/
theorem PlacesBut.fromParked (h : PlacesBut s x []) : PlacesBut { s with parked := [] } x s.parked := by
  have hia : ∀ i ∈ s.parked, (s.slot i).state = .parked := fun i hi => ((h.parked i).1 hi).2
  have hna : ∀ i ∈ s.parked, ¬ isActive (s.slot i).state := fun i hi => by simp [isActive, hia i hi]
  have hseg : ∀ k, State.seg { s with parked := [] } k = s.seg k := fun k => by cases k <;> rfl
  have hst : ∀ k a, State.station { s with parked := [] } k a = s.station k a := fun k a => by cases k <;> rfl
  have hsl : ∀ j, State.slot { s with parked := [] } j = s.slot j := fun j => rfl
  constructor <;> try simp only [hseg, hst, hsl]
  · intro k' a' j; have := h.held k' a' j; have := hia j; grind
  · exact h.heldOnce
  · intro k' j; have := h.queued k' j; have := hia j; grind
  · exact h.queuedOnce
  · intro j; have := h.parked j; grind
  · simp
  · intro j; have := h.waiting j; have := hia j; grind
  · exact h.waitingOnce
  · intro k' j; have := h.sending k' j; have := hia j; grind
  · intro k' a' hx j; have := h.active k' a' hx j; have := hna j; grind
  · intro k' a' hx j; have := h.opened k' a' hx j; grind
  · exact h.heldBehind
  · exact h.silent
  · exact h.parkedOnce

/-- The open station has no active slot and an empty held list: it is closed. -/
theorem PlacesBut.close (h : PlacesBut s (some (k, a)) l) (hact : (s.station k a).activeSlot = none)
    (hheld : (s.station k a).held = []) : PlacesBut s none l := by
  refine ⟨h.held, h.heldOnce, h.queued, h.queuedOnce, h.parked, h.parkedOnce, h.waiting, h.waitingOnce, h.sending, ?_,
    by simp, ?_, h.silent, h.limboOnce⟩
  · intro k' a' _ j
    by_cases hx : (k, a) = (k', a')
    · simp only [Prod.mk.injEq] at hx
      obtain ⟨rfl, rfl⟩ := hx
      have := h.opened k a rfl j
      grind
    · exact h.active k' a' (by simpa using hx) j
  · intro k' a' _
    by_cases hx : (k, a) = (k', a')
    · simp only [Prod.mk.injEq] at hx
      obtain ⟨rfl, rfl⟩ := hx
      simp [hheld]
    · exact h.heldBehind k' a' (by simpa using hx)

/-- A station without an active slot is opened. -/
theorem PlacesBut.openStation (h : PlacesBut s none l) (hact : (s.station k a).activeSlot = none) :
    PlacesBut s (some (k, a)) l := by
  refine ⟨h.held, h.heldOnce, h.queued, h.queuedOnce, h.parked, h.parkedOnce, h.waiting, h.waitingOnce, h.sending,
    fun k' a' _ => h.active k' a' (by simp), ?_, fun k' a' _ => h.heldBehind k' a' (by simp), h.silent, h.limboOnce⟩
  intro k' a' hx j
  have := h.active k' a' (by simp) j
  grind

end Sys2Proof.Safety
end

