-- ==== Sys2Proof/Laws/Takings.lean ====
section
/-! SUPPORT. What the checks of a taking establish: one inversion lemma per judgement. -/

namespace Sys2Proof.Machine

variable {s : State}

/-- The slot check finds the lowest-numbered FREE slot (R63). -/
theorem freeSlot?_some {i : SlotIx} (h : s.freeSlot? = some i) :
    (s.slot i).state = .free ∧ ∀ j, j < i → (s.slot j).state ≠ .free := by
  unfold State.freeSlot? at h
  have h1 := List.find?_some h
  rw [List.find?_eq_some_iff_getElem] at h
  obtain ⟨_, n, hn, he, hl⟩ := h
  refine ⟨by simpa using h1, fun j hj => ?_⟩
  have hi : i.val = n := by rw [← he]; simp
  have hj' : j.val < n := hi ▸ hj
  have := hl j.val hj'
  simpa using this

theorem freeSlot?_none (h : s.freeSlot? = none) (i : SlotIx) : (s.slot i).state ≠ .free := by
  unfold State.freeSlot? at h
  rw [List.find?_eq_none] at h
  simpa using h i (by simp)

/-- An admission has passed every check of R55. -/
theorem judgeRequest_allot {dst src tag : Byte} {rest : List Byte} {i : SlotIx} {x : Slot}
    (h : judgeRequest s dst src tag rest = .allot i x) :
    ∃ f e values, parseRequest rest = some f ∧ dst ≠ s.ownAddress
      ∧ s.judgingBank.forward dst f.index f.count.toNat = some e ∧ accessAllows e.access f.op = true
      ∧ (s.station e.seg e.phys).health ≠ .silent ∧ downEdited s.judgingBank e f = some values
      ∧ s.freeSlot? = some i ∧ x = admittedSlot s (s.slot i) dst src tag f e values := by
  unfold judgeRequest judgeEntry at h
  grind

/-- The form of a REQUEST that passes (R56). -/
theorem parseRequest_some {rest : List Byte} {f : RequestForm} (h : parseRequest rest = some f) :
    1 ≤ f.count.toNat ∧ f.count.toNat ≤ 8 ∧ (f.op = .read → f.values = [])
      ∧ (f.op = .write → f.values.length = f.count.toNat) := by
  unfold parseRequest at h
  split at h
  · simp only [Option.bind_eq_bind, Option.bind_eq_some_iff] at h
    obtain ⟨op, ho, vs, hv, h⟩ := h
    grind
  · cases h

theorem mapM_length {α β : Type} (f : α → Option β) : ∀ (l : List α) {m : List β}, l.mapM f = some m → m.length = l.length
  | [], m, h => by simp at h; simp [h]
  | a :: l, m, h => by
    simp only [List.mapM_cons, Option.bind_eq_bind, Option.bind_eq_some_iff, Option.pure_def] at h
    obtain ⟨b, _, c, hc, h⟩ := h
    cases h
    simp [mapM_length f l hc]

/-- An edit keeps the number of values (R52). -/
theorem editValues_length {bank : Bank} {edit : Option EditIx} {vs ws : List Word}
    (h : editValues bank edit vs = some ws) : ws.length = vs.length := by
  unfold editValues at h
  split at h
  · cases h; rfl
  · exact mapM_length _ _ h

/-- The write values of an admitted slot (R66). -/
theorem downEdited_some {bank : Bank} {e : MapEntry} {f : RequestForm} {ws : List Word}
    (h : downEdited bank e f = some ws) :
    (f.op = .read → ws = []) ∧ (f.op = .write → ws.length = f.values.length) := by
  unfold downEdited at h
  split at h
  · next ho => cases h; simp [ho]
  · next ho => simp [ho, editValues_length h]

end Sys2Proof.Machine
end

