-- ==== Sys2Proof/Laws/PlaceOps.lean ====
section
/-! SUPPORT. Every shared operation of a taking keeps the places of slots. -/

namespace Sys2Proof.Safety

open Sys2Proof.Machine

variable {s : State} {x : Option (Segment × StationAddr)} {l : List SlotIx} {k : Segment} {a : StationAddr} {i : SlotIx}

theorem PlacesBut.setCounters (h : PlacesBut s x l) (c : Counters) : PlacesBut (s.setCounters c) x l :=
  h.congr rfl rfl rfl rfl rfl

theorem PlacesBut.setAgent (h : PlacesBut s x l) (g : Agent) : PlacesBut (s.setAgent g) x l :=
  h.congr rfl rfl rfl rfl rfl

theorem PlacesBut.raiseNotice (h : PlacesBut s x l) (e : NoticeEvent) : PlacesBut (raiseNotice e s) x l :=
  h.congr (by simp) (by simp) (by simp) (by simp) (by simp)

theorem PlacesBut.enterTraffic (h : PlacesBut s x l) (u : Telegram) : PlacesBut (enterTraffic u s) x l :=
  h.congr rfl rfl rfl rfl rfl

theorem PlacesBut.placeReply (h : PlacesBut s x l) (r : MgmtReply) : PlacesBut (placeReply r s) x l :=
  h.congr rfl rfl rfl rfl rfl

/-- A slot's reply enters the Traffic Queue and the slot is FREE (R93). -/
theorem PlacesBut.sendUp (h : PlacesBut s x (i :: l)) : PlacesBut (sendUp i s) x l :=
  ((h.enterTraffic _).setSlot (by simp) _).toFree (by simp [Slot.cleared])

/-- A REPLY_READY slot's reply is offered (R92). -/
theorem PlacesBut.answerSlot (h : PlacesBut s x (i :: l)) (b : BuiltReply) : PlacesBut (answerSlot b s i) x l := by
  have h1 : PlacesBut (becomeReady i b s) x (i :: l) := h.setSlot (by simp) _
  unfold Machine.answerSlot offerReply
  split
  · exact h1.sendUp
  · exact h1.toWait (by simp [becomeReady])

theorem PlacesBut.answerAll (st : ReplyStatus) (m : List SlotIx) (h : PlacesBut s x (m ++ l)) :
    PlacesBut (answerAll st m s) x l := by
  unfold Machine.answerAll
  induction m generalizing s with
  | nil => simpa using h
  | cons j m ih => exact ih (PlacesBut.answerSlot (by simpa using h) _)

theorem PlacesBut.moveWaitList (h : PlacesBut s x l) : PlacesBut (moveWaitList s) x l := by
  unfold Machine.moveWaitList
  split
  · next e => exact (h.fromWait e).sendUp
  · exact h

theorem PlacesBut.arbiterChoice (h : PlacesBut s x l) : PlacesBut (arbiterChoice s) x l := by
  unfold Machine.arbiterChoice
  split
  · exact h.congr rfl rfl rfl rfl rfl
  · exact h.congr rfl rfl rfl rfl rfl
  · exact PlacesBut.moveWaitList (h.congr rfl rfl rfl rfl rfl)
  · exact h

theorem PlacesBut.arbiterIfIdle (h : PlacesBut s x l) : PlacesBut (arbiterIfIdle s) x l := by
  unfold Machine.arbiterIfIdle
  split
  · exact h.arbiterChoice
  · exact h

/-! ### Dispatch -/

theorem PlacesBut.startSlot {rest : List SlotIx} (h : PlacesBut s none l) (hq : (s.seg k).queue = i :: rest)
    (hr : ∀ j u, (s.seg k).record ≠ .slot j u) : PlacesBut (startSlot k i rest s) none l := by
  have hi := (h.queued k i).1 (by simp [hq])
  have hact := (h.active k (s.slot i).station (by simp) i).2 ⟨hi.1, .inl hi.2.1, hi.2.2, rfl⟩
  have h1 := (h.fromQueue hq).setSlot (i := i) (by simp) { advanceNumbers (s.slot i) with state := .sending }
  have h2 := h1.toRecord (k := k) (a := (s.slot i).station) (by simp) (by simp [advanceNumbers, hi.2.2])
    (by simp [advanceNumbers]) (by simpa using hact) (by simpa using hr)
    (forwardedRequest s.ownAddress i { advanceNumbers (s.slot i) with state := .sending })
  unfold Machine.startSlot
  convert h2 using 1
  cases k <;> rfl

theorem PlacesBut.startProbe (h : PlacesBut s none l) (hr : ∀ j u, (s.seg k).record ≠ .slot j u) :
    PlacesBut (startProbe k a s) none l := by
  have h1 := h.setStation (k := k) (a := a) { s.station k a with due := false } rfl (fun _ => rfl) (h.silent k a)
  exact h1.setRecord (k := k) { (s.setStation k a { s.station k a with due := false }).seg k with
    probe := .sending a,
    record := .probe (probeRequest (s.setStation k a { s.station k a with due := false }).ownAddress a) } rfl rfl (by simpa using hr) (by simp)

theorem PlacesBut.dispatchIfIdle (h : PlacesBut s none l) (k : Segment) : PlacesBut (dispatchIfIdle k s) none l := by
  unfold Machine.dispatchIfIdle
  split
  · next e =>
    have hr : ∀ j u, (s.seg k).record ≠ .slot j u := by simp [e]
    split
    · unfold dispatcherChoice
      split
      · exact h.startProbe hr
      · unfold startQueueHead
        split
        · next eq => exact h.startSlot eq hr
        · exact h
    · exact h
  · exact h

/-- A slot in limbo, named active by its open station, becomes QUEUED (R76). -/
theorem PlacesBut.queueSlot (h : PlacesBut s (some ((s.slot i).seg, (s.slot i).station)) (i :: l))
    (hact : (s.station (s.slot i).seg (s.slot i).station).activeSlot = some i) : PlacesBut (queueSlot i s) none l := by
  unfold Machine.queueSlot
  have h1 := h.setSlot (i := i) (by simp) { s.slot i with state := .queued, deadline := .stopped }
  have h2 := h1.toQueue (by simp) (by simp) (by simp) (by simpa using hact)
  simpa using h2.dispatchIfIdle (s.slot i).seg

/-! ### Evidence and release -/

theorem PlacesBut.takeAlive (h : PlacesBut s x l) (k : Segment) (a : StationAddr) : PlacesBut (takeAlive k a s) x l := by
  have h1 := h.setStation (k := k) (a := a) { s.station k a with health := .online, failures := 0 } rfl (fun _ => rfl)
    (by simp)
  have h2 := h.setStation (k := k) (a := a)
    { s.station k a with health := .online, failures := 0, dueTimer := .stopped, due := false } rfl (fun _ => rfl)
    (by simp)
  unfold Machine.takeAlive
  dsimp only
  split
  · exact h2.raiseNotice _
  · exact h1

theorem PlacesBut.clearActive (h : PlacesBut s (some (k, a)) l) : PlacesBut (clearActive k a s) (some (k, a)) l :=
  h.setStation _ rfl (by simp) (fun _ => rfl)

theorem PlacesBut.releaseHeld (h : PlacesBut s (some (k, a)) l) (hact : (s.station k a).activeSlot = none)
    (hsil : (s.station k a).health = .silent → (s.station k a).held = []) : PlacesBut (releaseHeld k a s) none l := by
  unfold Machine.releaseHeld
  split
  · next i rest e =>
    have hi := (h.held k a i).1 (by simp [e])
    have h1 := h.fromHeld e { s.station k a with held := rest } rfl rfl rfl
    have h2 : PlacesBut (s.setStation k a { s.station k a with activeSlot := some i, held := rest }) (some (k, a)) (i :: l) := by
      have := h1.setStation (k := k) (a := a) { s.station k a with activeSlot := some i, held := rest } (by simp) (by simp)
        (fun hh => absurd (hsil hh) (by rw [e]; simp))
      rwa [State.setStation_setStation] at this
    refine PlacesBut.queueSlot ?_ ?_
    · simpa [hi.2.2.1, hi.2.2.2] using h2
    · simp [hi.2.2.1, hi.2.2.2]
  · next e => exact h.close hact e

theorem releaseHeld_nil (h : (s.station k a).held = []) : releaseHeld k a s = s := by
  unfold Machine.releaseHeld; rw [h]

/-- Silencing of an open station with no active slot (R108). -/
theorem PlacesBut.silenceStation (h : PlacesBut s (some (k, a)) []) (hact : (s.station k a).activeSlot = none) (n : Nat) :
    PlacesBut (silenceStation k a n s) (some (k, a)) [] := by
  unfold Machine.silenceStation
  refine PlacesBut.answerAll _ _ (PlacesBut.raiseNotice ?_ _)
  have := h.fromAllHeld (k := k) (a := a) { s.station k a with
        health := .silent, failures := n, held := [], due := false,
        dueTimer := startTimer (unitsMs s.agent.probeInterval) } rfl rfl (fun _ => hact)
  simpa using this

theorem silenceStation_station (n : Nat) : (silenceStation k a n s).station k a =
    { s.station k a with health := .silent, failures := n, held := [], due := false,
                         dueTimer := startTimer (unitsMs s.agent.probeInterval) } := by
  unfold Machine.silenceStation
  simp

/-- A failure of an open station with no active slot, and the release after it (R95, steps 3 to 5). -/
theorem PlacesBut.completeFailure (h : PlacesBut s (some (k, a)) []) :
    PlacesBut (completeFailure k a s) none [] := by
  have h1 := h.clearActive
  have hact : ((Machine.clearActive k a s).station k a).activeSlot = none := by simp [Machine.clearActive]
  unfold Machine.completeFailure takeFailure
  dsimp only
  split
  · have h2 := h1.silenceStation hact (((Machine.clearActive k a s).station k a).failures + 1)
    refine h2.releaseHeld ?_ ?_
    · rw [silenceStation_station]; exact hact
    · intro _; rw [silenceStation_station]
  · have h2 := h1.setStation (k := k) (a := a) { (Machine.clearActive k a s).station k a with
      health := .suspect, failures := ((Machine.clearActive k a s).station k a).failures + 1 } rfl (by simp) (by simp)
    refine h2.releaseHeld ?_ ?_
    · simpa using hact
    · simp

theorem PlacesBut.completeSuccess (h : PlacesBut s (some (k, a)) []) :
    PlacesBut (completeSuccess k a s) none [] := by
  unfold Machine.completeSuccess
  refine (h.takeAlive k a).clearActive.releaseHeld ?_ ?_
  · simp [Machine.clearActive]
  · unfold Machine.clearActive Machine.takeAlive; dsimp only; split <;> simp

/-- One parked slot in limbo placed at a swap (R97, R174). -/
theorem PlacesBut.placeParked (h : PlacesBut s none (i :: l)) : PlacesBut (placeParked s i) none l := by
  unfold Machine.placeParked
  dsimp only
  split
  · exact h.answerSlot _
  · next hsil =>
    split
    · next e =>
      have h1 := (h.openStation e).setStation (k := (s.slot i).seg) (a := (s.slot i).station)
        { s.station (s.slot i).seg (s.slot i).station with activeSlot := some i } rfl (by simp) (fun hh => absurd hh hsil)
      refine PlacesBut.queueSlot ?_ ?_
      · simpa using h1
      · simp
    · next e =>
      have h1 := h.setSlot (i := i) (by simp) { s.slot i with state := .held }
      have h2 := h1.toHeld (k := (s.slot i).seg) (a := (s.slot i).station) (by simp) (by simp) (by simp) (by simp [e])
        { s.station (s.slot i).seg (s.slot i).station with held := (s.station (s.slot i).seg (s.slot i).station).held ++ [i] }
        (by simp) (by simp) (by simp)
      exact h2

theorem PlacesBut.foldPlace (m : List SlotIx) (h : PlacesBut s none (m ++ l)) :
    PlacesBut (m.foldl Machine.placeParked s) none l := by
  induction m generalizing s with
  | nil => simpa using h
  | cons j m ih => exact ih (PlacesBut.placeParked (by simpa using h))

theorem PlacesBut.completeDrain (h : PlacesBut s none []) : PlacesBut (completeDrain s) none [] := by
  have h1 : PlacesBut { s with
    commit := { s.commit with drainTimer := .stopped }
    store := s.store.swap
    cache := []
    parked := [] } none (s.parked ++ []) := by
    have := h.fromParked
    rw [List.append_nil]
    exact this.congr rfl rfl rfl rfl rfl
  unfold Machine.completeDrain
  dsimp only
  exact (((h1.foldPlace s.parked).raiseNotice _)).congr rfl rfl rfl rfl rfl

theorem PlacesBut.drainIfDone (h : PlacesBut s none []) : PlacesBut (drainIfDone s) none [] := by
  unfold Machine.drainIfDone
  split
  · exact h.completeDrain
  · exact h

theorem PlacesBut.failDrain (h : PlacesBut s none []) (r : FailReason) : PlacesBut (failDrain r s) none [] := by
  have h1 : PlacesBut { s with commit := { s.commit with drainTimer := .stopped }, parked := [] } none (s.parked ++ []) := by
    have := h.fromParked
    rw [List.append_nil]
    exact this.congr rfl rfl rfl rfl rfl
  unfold Machine.failDrain
  dsimp only
  exact ((h1.answerAll _ s.parked).raiseNotice _).congr rfl rfl rfl rfl rfl

/-! ### Takings -/

/-- A slot is placed at its admission (R68, R69): any record over a FREE slot, for a station that is not SILENT. -/
theorem PlacesBut.placeAdmitted (h : PlacesBut s none []) (hf : (s.slot i).state = .free) (y : Slot)
    (hsil : (s.station y.seg y.station).health ≠ .silent) : PlacesBut (placeAdmitted i y s) none [] := by
  have h0 := h.fromFree (i := i) (by simp) hf
  unfold Machine.placeAdmitted
  split
  · have h1 := h0.setSlot (i := i) (by simp) { y with state := .parked }
    exact h1.toParked (by simp)
  · dsimp only
    split
    · next e =>
      have h1 := h0.setSlot (i := i) (by simp) y
      have h2 := (h1.openStation (k := y.seg) (a := y.station) (by simpa using e)).setStation (k := y.seg) (a := y.station)
        { s.station y.seg y.station with activeSlot := some i } (by simp) (by simp) (fun hh => absurd hh hsil)
      refine PlacesBut.queueSlot ?_ ?_
      · simpa using h2
      · simp
    · next e =>
      have h1 := h0.setSlot (i := i) (by simp) { y with state := .held }
      exact h1.toHeld (k := y.seg) (a := y.station) (by simp) (by simp) (by simp) (by simp [e])
        { s.station y.seg y.station with held := (s.station y.seg y.station).held ++ [i] } (by simp) (by simp) (by simp)

theorem PlacesBut.takeRequest (h : PlacesBut s none []) (dst src tag : Byte) (rest : List Byte) :
    PlacesBut (takeRequest dst src tag rest s) none [] := by
  unfold Machine.takeRequest
  split
  · unfold offerRefusal
    split
    · exact (h.setCounters _).enterTraffic _
    · exact (h.setCounters _).setCounters _
  · next i y e =>
    obtain ⟨f, en, vs, _, _, _, _, hsil, _, hfree, rfl⟩ := judgeRequest_allot e
    have h0 : PlacesBut (countAdmitted s) none [] := h.setCounters _
    refine h0.placeAdmitted (freeSlot?_some hfree).1 _ ?_
    simpa [admittedSlot] using hsil

theorem PlacesBut.completeMatch (h : PlacesBut s none []) (hs : (s.slot i).state = .sent) (b : BuiltReply) :
    PlacesBut (completeMatch (s.slot i).seg i b s) none [] :=
  (((h.fromSent (by simp) hs).answerSlot b).completeSuccess).drainIfDone

theorem PlacesBut.setProbe (h : PlacesBut s x l) (p : ProbeRecord) :
    PlacesBut (s.setSeg k { s.seg k with probe := p }) x l := by
  have hst : ∀ k' a', (s.setSeg k { s.seg k with probe := p }).station k' a' = s.station k' a' := by
    intro k' a'; simp only [State.setSeg_station]; split
    · next e => subst e; rfl
    · rfl
  have hq : ∀ k', ((s.setSeg k { s.seg k with probe := p }).seg k').queue = (s.seg k').queue := by
    intro k'; simp only [State.seg_setSeg]; split
    · next e => subst e; rfl
    · rfl
  have hr : ∀ k', ((s.setSeg k { s.seg k with probe := p }).seg k').record = (s.seg k').record := by
    intro k'; simp only [State.seg_setSeg]; split
    · next e => subst e; rfl
    · rfl
  constructor <;> try simp only [State.setSeg_slot, hst, hq, hr, State.setSeg_up, State.setSeg_parked]
  exacts [h.held, h.heldOnce, h.queued, h.queuedOnce, h.parked, h.parkedOnce, h.waiting, h.waitingOnce, h.sending,
    h.active, h.opened, h.heldBehind, h.silent, h.limboOnce]

theorem PlacesBut.takeReply (h : PlacesBut s none []) (src tag status count : Byte) (vs : List Word) :
    PlacesBut (takeReply k src tag status count vs s) none [] := by
  unfold Machine.takeReply
  split
  · split
    · next hm =>
      simp only [slotMatches, decide_eq_true_eq] at hm
      have := h.completeMatch hm.1 (judgeReply s.store.activeBank (s.slot (tagIndex tag)) status count vs)
      rwa [hm.2.1] at this
    · exact h.setCounters _
  · split
    · unfold completeProbe
      dsimp only
      refine PlacesBut.dispatchIfIdle ?_ _
      split
      · exact (h.setProbe _).takeAlive _ _
      · exact h.setProbe _
    · exact h.setCounters _

theorem PlacesBut.offerChange (h : PlacesBut s x l) (u : Telegram) (c : List CacheEntry) :
    PlacesBut (offerChange u c s) x l := by
  unfold Machine.offerChange
  split
  · exact h.congr rfl rfl rfl rfl rfl
  · exact h.setCounters _

theorem PlacesBut.takeChange (h : PlacesBut s x l) (src : Byte) (y v : Word) :
    PlacesBut (takeChange k src y v s) x l := by
  have h1 : PlacesBut (signOfLife k src s) x l := by
    unfold signOfLife; split
    · exact h.takeAlive _ _
    · exact h
  unfold Machine.takeChange mapChange
  split
  · unfold editChange
    split
    · unfold applyPolicy
      split
      · exact h1.setCounters _
      · exact h1.offerChange _ _
      · unfold decideDeadband
        dsimp only
        split
        · exact h1.offerChange _ _
        · split
          · exact h1.congr rfl rfl rfl rfl rfl
          · exact h1.offerChange _ _
    · exact h1.setCounters _
  · exact h1.setCounters _

theorem PlacesBut.recordEnded (h : PlacesBut s none []) : PlacesBut (clearRecord k (recordEnded k s)) none [] := by
  have hvoid : (∀ j u, (s.seg k).record ≠ .slot j u) → PlacesBut (clearRecord k s) none [] := fun e =>
    h.setRecord (k := k) { s.seg k with record := .none } rfl rfl e (by simp)
  unfold Machine.recordEnded
  split
  · next i u e =>
    have := h.recordSent e { s.slot i with state := .sent, deadline := startTimer s.agent.replyTimeout } rfl rfl rfl
      { s.seg k with record := .none } rfl rfl (by simp)
    simpa [clearRecord, slotSent] using this
  · next u e =>
    unfold probeSent
    split
    · next a _ =>
      have := h.setRecord (k := k) { s.seg k with record := .none, probe := .awaiting a (startTimer s.agent.replyTimeout) }
        rfl rfl (by simp [e]) (by simp)
      simpa [clearRecord] using this
    · exact hvoid (by simp [e])
    · exact hvoid (by simp [e])
  · next e => exact hvoid (by simp [e])
  · next e => exact hvoid (by simp [e])

theorem PlacesBut.endSegment (h : PlacesBut s none []) : PlacesBut (endSegment k s) none [] := by
  unfold Machine.endSegment
  split
  · exact h
  · exact PlacesBut.dispatchIfIdle (PlacesBut.recordEnded (h.setCounters _)) _

/-- A segment and slots that hold nothing. -/
theorem placesBut_empty (hslot : ∀ i, (s.slot i).state = .free) (hst : ∀ k a, s.station k a = Station.initial)
    (hq : ∀ k, (s.seg k).queue = []) (hr : ∀ k j u, (s.seg k).record ≠ .slot j u) (hp : s.parked = [])
    (hw : s.up.waitList = []) : PlacesBut s none [] := by
  have hr' : ∀ k j, ¬∃ u, (s.seg k).record = .slot j u := fun k j ⟨u, e⟩ => hr k j u e
  constructor <;> simp [hslot, hst, hq, hp, hw, Station.initial, isActive, hr']

theorem seg_cases {P : Segment → Prop} (h0 : P .s0) (h1 : P .s1) (k : Segment) : P k := by cases k <;> assumption

theorem PlacesBut.restartEffect : PlacesBut (restartEffect s) none [] := by
  unfold Machine.restartEffect
  refine PlacesBut.raiseNotice ?_ _
  refine placesBut_empty ?_ ?_ ?_ ?_ rfl rfl
  · intro i; rw [State.slot_of_map (s := s) (f := restartSlot) rfl]; rfl
  · intro k a; cases k <;> simp [State.station, State.seg, restartSegment, SegState.initial]
  · intro k; cases k <;> rfl
  · intro k j u; cases k <;> simp only [State.seg, restartSegment, voidRecord] <;> split <;> simp

theorem PlacesBut.pinReset (addr : BitVec 4) (s1 : Bool) (p : List Instr) :
    PlacesBut (State.pinReset addr s1 p) none [] := by
  refine placesBut_empty ?_ ?_ ?_ ?_ rfl rfl
  · intro i; rw [State.slot_of_replicate (x := Slot.cleared 0 0) rfl]; rfl
  · intro k a; cases k <;> simp [State.station, State.seg, State.pinReset, SegState.initial]
  · intro k; cases k <;> rfl
  · intro k j u; cases k <;> simp [State.seg, State.pinReset, SegState.initial]

theorem PlacesBut.endUpstream (h : PlacesBut s none []) : PlacesBut (endUpstream s) none [] := by
  unfold Machine.endUpstream
  split
  · exact h
  · dsimp only
    refine PlacesBut.arbiterChoice ?_
    split
    · exact PlacesBut.restartEffect.congr rfl rfl rfl rfl rfl
    · exact h.congr rfl rfl rfl rfl rfl

theorem PlacesBut.expireSlot (h : PlacesBut s none []) : PlacesBut (expireSlot i s) none [] := by
  unfold Machine.expireSlot
  dsimp only
  split
  · next hs =>
    have h0 := h.fromSent (i := i) (by simp) hs.1
    have hact := (h.active (s.slot i).seg (s.slot i).station (by simp) i).2 ⟨by simp, .inr (.inr hs.1), rfl, rfl⟩
    split
    · unfold retrySlot
      dsimp only
      refine PlacesBut.setCounters ?_ _
      have h1 := h0.setSlot (i := i) (by simp) { s.slot i with retriesLeft := (s.slot i).retriesLeft - 1 }
      refine PlacesBut.queueSlot ?_ ?_
      · simpa using h1
      · simpa using hact
    · refine PlacesBut.arbiterIfIdle ?_
      unfold failSlot
      exact (((h0.setCounters _).answerSlot _).completeFailure).drainIfDone
  · exact h

theorem PlacesBut.expireProbeDue (h : PlacesBut s none []) : PlacesBut (expireProbeDue k a s) none [] := by
  unfold Machine.expireProbeDue
  split
  · exact PlacesBut.dispatchIfIdle (h.setStation (k := k) (a := a)
      { s.station k a with dueTimer := .stopped, due := true } rfl (fun _ => rfl) (h.silent k a)) _
  · exact h

theorem PlacesBut.expireProbeDeadline (h : PlacesBut s none []) : PlacesBut (expireProbeDeadline k s) none [] := by
  unfold Machine.expireProbeDeadline
  split
  · next a _ _ =>
    split
    · refine PlacesBut.dispatchIfIdle ?_ _
      have h1 := h.setProbe (k := k) .idle
      unfold restartProbeDue
      split
      · exact h1.setStation (k := k) (a := a) { (s.setSeg k { s.seg k with probe := .idle }).station k a with
          dueTimer := startTimer (unitsMs (s.setSeg k { s.seg k with probe := .idle }).agent.probeInterval) } rfl
          (fun _ => rfl) (h1.silent k a)
      · exact h1
    · exact h
  · exact h
  · exact h

theorem PlacesBut.expireDrain (h : PlacesBut s none []) : PlacesBut (expireDrain s) none [] := by
  unfold Machine.expireDrain
  split
  · exact (h.failDrain _).arbiterIfIdle
  · exact h

/-! ### Management commands -/

theorem PlacesBut.answerOnly (h : PlacesBut s x l) (hd : MgmtHead) (st : MgmtStatus) (d : List Byte) :
    PlacesBut (answerOnly hd st d s) x l := h.placeReply _

theorem PlacesBut.answerStored (h : PlacesBut s x l) (hd : MgmtHead) (st : MgmtStatus) (d : List Byte) :
    PlacesBut (answerStored hd st d s) x l := (h.answerOnly hd st d).setAgent _

theorem PlacesBut.takeMgmtByCode (h : PlacesBut s none []) (hd : MgmtHead) (args : List Byte) :
    PlacesBut (takeMgmtByCode hd args s) none [] := by
  have ha : ∀ {t : State}, PlacesBut t none [] → ∀ st d, PlacesBut (Machine.answerStored hd st d t) none [] :=
    fun h st d => h.answerStored hd st d
  refine takeMgmtByCode_keeps (P := fun s => PlacesBut s none []) ⟨h.setCounters _, h, fun _ => ha (h.setAgent _) _ _, fun _ _ _ => h.placeReply _,
    fun _ _ => h.placeReply _, fun _ => ?_⟩ args
  constructor
  · exact fun st d => ha h _ _
  · exact fun p v _ => ha (h.setAgent _) _ _
  · exact ha (h.setAgent _) _ _
  · exact fun _ b _ => ha (t := updateShadow (fun _ => b) s) (h.congr rfl rfl rfl rfl rfl) _ _
  · exact fun k a => ha (h.setStation (k := k) (a := a)
      { s.station k a with health := .unknown, failures := 0, dueTimer := .stopped, due := false } rfl (fun _ => rfl)
      (by simp)) _ _
  · exact fun d g => PlacesBut.setCounters (ha h _ _) _
  · exact fun _ _ => PlacesBut.drainIfDone ((ha h _ _).congr rfl rfl rfl rfl rfl)
  · exact fun _ => PlacesBut.failDrain (ha h _ _) _

end Sys2Proof.Safety
end

