-- ==== Sys2Proof/Laws/SlotRules.lean ====
section
/-! SUPPORT. The moves of a slot (R73, R76, R81, R83, R92, R93, R174), said once: a property of slots that survives them
survives every taking. -/

namespace Sys2Proof.Safety

open Sys2Proof.Machine

/-- Every slot has a property that may depend on its number. -/
def AllSlots (Q : SlotIx → Slot → Prop) (s : State) : Prop := ∀ i, Q i (s.slot i)

/-- A property that survives the moves that answer nothing, and a REPLY_READY slot's leaving. -/
structure MoveRules (Q : SlotIx → Slot → Prop) : Prop where
  start : ∀ i x, Q i x → x.state = .queued → Q i { advanceNumbers x with state := .sending }
  sent : ∀ i x d, Q i x → x.state = .sending → Q i { x with state := .sent, deadline := startTimer d }
  queue : ∀ i x, Q i x → x.state = .sent ∨ x.state = .held → Q i { x with state := .queued, deadline := .stopped }
  retry : ∀ i x, Q i x → x.state = .sent → Q i { x with retriesLeft := x.retriesLeft - 1 }
  leave : ∀ i x, Q i x → x.state = .replyReady → Q i (Slot.cleared x.cur x.next)

/-- A property that also survives an answer. -/
structure AnswerRules (Q : SlotIx → Slot → Prop) : Prop extends MoveRules Q where
  ready : ∀ i x b, Q i x → x.state = .sent ∨ x.state = .held ∨ x.state = .parked →
    Q i { x with state := .replyReady, deadline := .stopped, built := some b }

/-- A property that also survives the placing of a parked slot. -/
structure PlaceRules (Q : SlotIx → Slot → Prop) : Prop extends AnswerRules Q where
  place : ∀ i x, Q i x → x.state = .parked → Q i { x with state := .queued, deadline := .stopped }
  wait : ∀ i x, Q i x → x.state = .parked → Q i { x with state := .held }

variable {Q : SlotIx → Slot → Prop} {s t : State} {x : Option (Segment × StationAddr)} {l : List SlotIx} {k : Segment}
  {a : StationAddr} {i : SlotIx}

theorem AllSlots.congr (h : AllSlots Q s) (hs : t.slots = s.slots) : AllSlots Q t := by
  intro i
  have : t.slot i = s.slot i := by simp only [State.slot, hs]
  rw [this]
  exact h i

theorem AllSlots.setSlot (h : AllSlots Q s) {y : Slot} (hy : Q i y) : AllSlots Q (s.setSlot i y) := by
  intro j
  rw [State.slot_setSlot]
  split
  · next e => exact e ▸ hy
  · exact h j

/-! ### Answers -/

theorem AllSlots.sendUp (r : MoveRules Q) (h : AllSlots Q s) (hi : (s.slot i).state = .replyReady) :
    AllSlots Q (sendUp i s) := by
  unfold Machine.sendUp clearSlot
  exact AllSlots.setSlot (s := Machine.enterTraffic (slotReply (s.slot i)) s) (h.congr rfl) (r.leave i _ (h i) hi)

theorem AllSlots.answerSlot (r : AnswerRules Q) (h : AllSlots Q s) (b : BuiltReply)
    (hi : (s.slot i).state = .sent ∨ (s.slot i).state = .held ∨ (s.slot i).state = .parked) :
    AllSlots Q (answerSlot b s i) := by
  have h1 : AllSlots Q (becomeReady i b s) := h.setSlot (r.ready i _ b (h i) hi)
  unfold Machine.answerSlot offerReply
  split
  · exact h1.sendUp r.toMoveRules (by simp [becomeReady])
  · exact h1.congr rfl

theorem answerSlot_others (b : BuiltReply) {j : SlotIx} (hj : j ≠ i) : (answerSlot b s i).slot j = s.slot j := by
  unfold Machine.answerSlot offerReply Machine.sendUp clearSlot becomeReady joinWaitList enterTraffic
  split <;> simp [hj.symm]

theorem AllSlots.answerAll (r : AnswerRules Q) (st : ReplyStatus) (m : List SlotIx) (h : AllSlots Q s) (hn : m.Nodup)
    (hm : ∀ i ∈ m, (s.slot i).state = .sent ∨ (s.slot i).state = .held ∨ (s.slot i).state = .parked) :
    AllSlots Q (answerAll st m s) := by
  unfold Machine.answerAll
  induction m generalizing s with
  | nil => exact h
  | cons j m ih =>
    rw [List.nodup_cons] at hn
    refine ih (h.answerSlot r _ (hm j (by simp))) hn.2 fun i hi => ?_
    rw [answerSlot_others _ (by rintro rfl; exact hn.1 hi)]
    exact hm i (List.mem_cons_of_mem _ hi)

/-! ### The arbiter -/

theorem AllSlots.arbiterChoice (r : MoveRules Q) (h : AllSlots Q s) (p : PlacesBut s x l) :
    AllSlots Q (arbiterChoice s) := by
  unfold Machine.arbiterChoice
  split
  · exact h.congr rfl
  · exact h.congr rfl
  · unfold moveWaitList
    split
    · next i rest e =>
      refine AllSlots.sendUp r (h.congr rfl) ?_
      exact ((p.waiting i).1 (by simp only [State.setUp_up] at e; rw [e]; simp)).2
    · exact h.congr rfl
  · exact h

theorem AllSlots.arbiterIfIdle (r : MoveRules Q) (h : AllSlots Q s) (p : PlacesBut s x l) :
    AllSlots Q (arbiterIfIdle s) := by
  unfold Machine.arbiterIfIdle
  split
  · exact h.arbiterChoice r p
  · exact h

/-! ### Dispatch -/

theorem AllSlots.dispatchIfIdle (r : MoveRules Q) (h : AllSlots Q s) (k : Segment)
    (hq : ∀ i ∈ (s.seg k).queue, (s.slot i).state = .queued) : AllSlots Q (dispatchIfIdle k s) := by
  unfold Machine.dispatchIfIdle
  split
  · split
    · unfold dispatcherChoice
      split
      · exact h.congr (by simp [startProbe])
      · unfold startQueueHead
        split
        · next i rest e =>
          unfold startSlot
          exact AllSlots.congr (h.setSlot (r.start i _ (h i) (hq i (by rw [e]; simp)))) (by simp)
        · exact h
    · exact h
  · exact h

theorem AllSlots.queueSlot (r : MoveRules Q) (h : AllSlots Q s)
    (hi : Q i { s.slot i with state := .queued, deadline := .stopped })
    (hq : ∀ k, ∀ j ∈ (s.seg k).queue, (s.slot j).state = .queued) : AllSlots Q (queueSlot i s) := by
  unfold Machine.queueSlot
  refine AllSlots.dispatchIfIdle r (AllSlots.congr (h.setSlot hi) (by simp)) _ ?_
  intro j hj
  by_cases e : i = j
  · subst e; simp
  · simp only [State.seg_setSeg, if_true, State.setSlot_seg, List.mem_append, List.mem_singleton] at hj
    rcases hj with hj | hj
    · simpa [e] using hq _ j hj
    · exact absurd hj.symm e

theorem AllSlots.takeAlive (h : AllSlots Q s) (k : Segment) (a : StationAddr) : AllSlots Q (takeAlive k a s) := by
  unfold Machine.takeAlive
  dsimp only
  split <;> exact h.congr (by simp)

theorem AllSlots.releaseHeld (r : MoveRules Q) (h : AllSlots Q s) (p : PlacesBut s x l) :
    AllSlots Q (releaseHeld k a s) := by
  unfold Machine.releaseHeld
  split
  · next i rest e =>
    have hi := (p.held k a i).1 (by rw [e]; simp)
    refine AllSlots.queueSlot r (h.congr (by simp)) ?_ ?_
    · simpa using r.queue i _ (h i) (.inr hi.2.1)
    · intro k' j hj
      have := (p.queued k' j).1 (by simpa using hj)
      simpa using this.2.1
  · exact h

theorem AllSlots.completeSuccess (r : MoveRules Q) (h : AllSlots Q s) (p : PlacesBut s (some (k, a)) []) :
    AllSlots Q (completeSuccess k a s) := by
  unfold Machine.completeSuccess
  exact AllSlots.releaseHeld r ((h.takeAlive k a).congr (by simp [clearActive])) ((p.takeAlive k a).clearActive)

theorem AllSlots.completeFailure (r : AnswerRules Q) (h : AllSlots Q s) (p : PlacesBut s (some (k, a)) []) :
    AllSlots Q (completeFailure k a s) := by
  have p1 := p.clearActive
  have hact : ((Machine.clearActive k a s).station k a).activeSlot = none := by simp [Machine.clearActive]
  have h1 : AllSlots Q (clearActive k a s) := h.congr (by simp [clearActive])
  unfold Machine.completeFailure takeFailure
  dsimp only
  split
  · refine AllSlots.releaseHeld r.toMoveRules ?_ (p1.silenceStation hact _)
    unfold silenceStation
    refine AllSlots.answerAll r _ _ (h1.congr (by simp)) (p1.heldOnce k a) fun i hi => ?_
    have := (p1.held k a i).1 hi
    right; left
    simpa using this.2.1
  · refine AllSlots.releaseHeld r.toMoveRules (h1.congr (by simp)) (x := some (k, a)) (l := []) ?_
    exact p1.setStation (k := k) (a := a) { (Machine.clearActive k a s).station k a with
      health := .suspect, failures := ((Machine.clearActive k a s).station k a).failures + 1 } rfl (by simp) (by simp)

/-! ### The ends of a drain -/

theorem placeParked_others {j : SlotIx} (hj : j ≠ i) (hq : (s.slot j).state ≠ .queued)
    (p : PlacesBut s none l) : (placeParked s i).slot j = s.slot j := by
  unfold Machine.placeParked
  dsimp only
  split
  · exact answerSlot_others _ hj
  · split
    · generalize hv : s.setStation (s.slot i).seg (s.slot i).station { s.station (s.slot i).seg (s.slot i).station with activeSlot := some i } = v
      have hslot : ∀ j, v.slot j = s.slot j := fun j => by rw [← hv]; simp
      have hqv : ∀ k, (v.seg k).queue = (s.seg k).queue := fun k => by rw [← hv]; simp
      unfold Machine.queueSlot Machine.dispatchIfIdle
      dsimp only
      have key : ∀ u : State, u.slot j = s.slot j → (∀ k, ∀ m ∈ (u.seg k).queue, m = i ∨ m ∈ (s.seg k).queue) → ∀ k,
          (dispatcherChoice k u).slot j = s.slot j := by
        intro u hu hm k
        unfold dispatcherChoice
        split
        · simpa [startProbe] using hu
        · unfold startQueueHead
          split
          · next m rest e =>
            have := hm k m (by rw [e]; simp)
            have hmj : m ≠ j := by
              rintro rfl
              rcases this with h | h
              · exact hj h
              · exact hq ((p.queued k m).1 h).2.1
            simpa [startSlot, hmj] using hu
          · exact hu
      generalize hw : (v.setSlot i { v.slot i with state := .queued, deadline := .stopped }) = w
      have hws : w.slot j = s.slot j := by rw [← hw]; simp [hj.symm, hslot]
      have hwq : ∀ k, (w.seg k).queue = (s.seg k).queue := fun k => by rw [← hw]; simp [hqv]
      generalize (v.slot i).seg = k0
      split
      · split
        · refine key _ (by simpa using hws) ?_ _
          intro k m hm
          simp only [State.seg_setSeg] at hm
          split at hm
          · next e => subst e; simp [hwq] at hm; tauto
          · right; rwa [hwq] at hm
        · simpa using hws
      · simpa using hws
    · simp [hj.symm]

theorem AllSlots.foldPlace (r : PlaceRules Q) : ∀ (m : List SlotIx) {s : State}, AllSlots Q s → PlacesBut s none (m ++ l) →
    (∀ i ∈ m, (s.slot i).state = .parked) → AllSlots Q (m.foldl placeParked s)
  | [], _, h, _, _ => h
  | i :: m, s, h, p, hm => by
    have hn := p.limboOnce
    have hi := hm i (by simp)
    refine AllSlots.foldPlace r m ?_ (PlacesBut.placeParked (by simpa using p)) ?_
    · unfold Machine.placeParked
      dsimp only
      split
      · exact h.answerSlot r.toAnswerRules _ (.inr (.inr hi))
      · split
        · refine AllSlots.queueSlot r.toMoveRules (h.congr (by simp)) ?_ ?_
          · simpa using r.place i _ (h i) hi
          · intro k' j hj
            have := (p.queued k' j).1 (by simpa using hj)
            simpa using this.2.1
        · exact (h.setSlot (r.wait i _ (h i) hi)).congr (by simp)
    · intro j hj
      have hji : j ≠ i := by rintro rfl; simp at hn; exact hn.1.1 hj
      rw [placeParked_others hji (by rw [hm j (List.mem_cons_of_mem _ hj)]; simp) p]
      exact hm j (List.mem_cons_of_mem _ hj)

theorem AllSlots.completeDrain (r : PlaceRules Q) (h : AllSlots Q s) (p : PlacesBut s none []) :
    AllSlots Q (completeDrain s) := by
  have p1 : PlacesBut { s with
    commit := { s.commit with drainTimer := .stopped }
    store := s.store.swap
    cache := []
    parked := [] } none (s.parked ++ []) := by
    have := p.fromParked
    rw [List.append_nil]
    exact this.congr rfl rfl rfl rfl rfl
  have h0 : AllSlots Q { s with
    commit := { s.commit with drainTimer := .stopped }
    store := s.store.swap
    cache := []
    parked := [] } := h.congr rfl
  have h1 := h0.foldPlace r s.parked p1 fun i hi => ((p.parked i).1 hi).2
  unfold Machine.completeDrain
  dsimp only
  exact h1.congr (raiseNotice_slots _ _)

theorem AllSlots.drainIfDone (r : PlaceRules Q) (h : AllSlots Q s) (p : PlacesBut s none []) :
    AllSlots Q (drainIfDone s) := by
  unfold Machine.drainIfDone
  split
  · exact h.completeDrain r p
  · exact h

theorem AllSlots.failDrain (r : AnswerRules Q) (h : AllSlots Q s) (p : PlacesBut s none []) (e : FailReason) :
    AllSlots Q (failDrain e s) := by
  have h1 := AllSlots.answerAll r .reconfig s.parked
    (s := { s with commit := { s.commit with drainTimer := .stopped }, parked := [] }) (h.congr rfl) p.parkedOnce
    fun i hi => .inr (.inr ((p.parked i).1 hi).2)
  unfold Machine.failDrain
  dsimp only
  exact h1.congr (raiseNotice_slots _ _)

/-! ### Takings -/

theorem AllSlots.retrySlot (r : MoveRules Q) (h : AllSlots Q s) (p : PlacesBut s none []) (hi : (s.slot i).state = .sent) :
    AllSlots Q (retrySlot i s) := by
  unfold Machine.retrySlot
  dsimp only
  refine AllSlots.congr (s := Machine.queueSlot i (s.setSlot i { s.slot i with retriesLeft := (s.slot i).retriesLeft - 1 })) ?_ (by simp)
  refine AllSlots.queueSlot r (h.setSlot (r.retry i _ (h i) hi)) ?_ ?_
  · simpa using r.queue i _ (r.retry i _ (h i) hi) (.inl hi)
  · intro k j hj
    have := (p.queued k j).1 (by simpa using hj)
    by_cases e : i = j
    · subst e; rw [hi] at this; simp at this
    · simpa [e] using this.2.1

/-- A final failure, before the end of a drain. -/
theorem AllSlots.failed (r : AnswerRules Q) (h : AllSlots Q s) (p : PlacesBut s none []) (hi : (s.slot i).state = .sent) :
    AllSlots Q (Machine.completeFailure (s.slot i).seg (s.slot i).station
      (Machine.answerSlot { status := .timeout, values := [] } (countFinalTimeout (s.slot i).seg s) i)) :=
  AllSlots.completeFailure r (AllSlots.answerSlot r (h.congr (by simp)) _ (.inl (by simpa using hi)))
    (((p.fromSent (by simp) hi).setCounters _).answerSlot _)

/-- A match, before the end of a drain. -/
theorem AllSlots.matched (r : AnswerRules Q) (h : AllSlots Q s) (p : PlacesBut s none []) (hi : (s.slot i).state = .sent)
    (b : BuiltReply) : AllSlots Q (Machine.completeSuccess (s.slot i).seg (s.slot i).station (Machine.answerSlot b s i)) :=
  AllSlots.completeSuccess r.toMoveRules (h.answerSlot r b (.inl hi)) ((p.fromSent (by simp) hi).answerSlot b)

theorem AllSlots.endSegment (r : MoveRules Q) (h : AllSlots Q s) (p : PlacesBut s none []) :
    AllSlots Q (endSegment k s) := by
  have pe : PlacesBut (clearRecord k (Machine.recordEnded k (countTransmitted k.port s))) none [] :=
    PlacesBut.recordEnded (p.setCounters _)
  have h1 : AllSlots Q (clearRecord k (Machine.recordEnded k (countTransmitted k.port s))) := by
    refine AllSlots.congr (s := Machine.recordEnded k (countTransmitted k.port s)) ?_ (by simp [clearRecord])
    unfold Machine.recordEnded
    split
    · next i u e =>
      refine AllSlots.setSlot (h.congr (by simp)) ?_
      have := (p.sending k i).1 ⟨u, by simpa using e⟩
      simpa using r.sent i _ s.agent.replyTimeout (h i) this.2.1
    · unfold probeSent; split <;> exact h.congr (by simp)
    · exact h.congr (by simp)
    · exact h.congr (by simp)
  unfold Machine.endSegment
  split
  · exact h
  · exact h1.dispatchIfIdle r k fun i hi => ((pe.queued k i).1 hi).2.1

theorem AllSlots.endUpstream (r : MoveRules Q) (h : AllSlots Q s) (p : PlacesBut s none [])
    (hc : ∀ i, Q i (Slot.cleared (s.slot i).cur (s.slot i).next)) : AllSlots Q (endUpstream s) := by
  unfold Machine.endUpstream
  split
  · exact h
  · dsimp only
    split
    · refine AllSlots.arbiterChoice r (x := none) (l := []) ?_ (PlacesBut.restartEffect.congr rfl rfl rfl rfl rfl)
      intro i
      simp only [State.setUp_slot, restartEffect, raiseNotice_slot]
      rw [State.slot_of_map (s := countTransmitted .u s) (f := restartSlot) rfl]
      simpa [restartSlot] using hc i
    · exact AllSlots.arbiterChoice r (h.congr rfl) (p.congr rfl rfl rfl rfl rfl)

theorem AllSlots.probed (r : MoveRules Q) (h : AllSlots Q s) (p : PlacesBut s none []) : AllSlots Q (completeProbe k a s) := by
  unfold Machine.completeProbe
  dsimp only
  split
  · exact AllSlots.dispatchIfIdle r (AllSlots.takeAlive (h.congr (by simp)) _ _) _
      fun i hi => ((((p.setProbe .idle).takeAlive k a).queued k i).1 hi).2.1
  · exact AllSlots.dispatchIfIdle r (h.congr (by simp)) _ fun i hi => (((p.setProbe .idle).queued k i).1 hi).2.1

theorem AllSlots.expireProbeDue (r : MoveRules Q) (h : AllSlots Q s) (p : PlacesBut s none []) :
    AllSlots Q (expireProbeDue k a s) := by
  unfold Machine.expireProbeDue
  split
  · refine AllSlots.dispatchIfIdle r (h.congr (by simp)) _ fun i hi => ?_
    simpa using ((p.queued k i).1 (by simpa using hi)).2.1
  · exact h

theorem AllSlots.expireProbeDeadline (r : MoveRules Q) (h : AllSlots Q s) (p : PlacesBut s none []) :
    AllSlots Q (expireProbeDeadline k s) := by
  unfold Machine.expireProbeDeadline
  split
  · split
    · unfold restartProbeDue
      split
      · refine AllSlots.dispatchIfIdle r (h.congr (by simp)) _ fun i hi => ?_
        simpa using ((p.queued k i).1 (by simpa using hi)).2.1
      · refine AllSlots.dispatchIfIdle r (h.congr (by simp)) _ fun i hi => ?_
        simpa using ((p.queued k i).1 (by simpa using hi)).2.1
    · exact h
  · exact h
  · exact h

theorem AllSlots.takeChange (h : AllSlots Q s) (src : Byte) (y v : Word) : AllSlots Q (takeChange k src y v s) := by
  have h1 : AllSlots Q (signOfLife k src s) := by
    unfold signOfLife; split
    · exact h.takeAlive _ _
    · exact h
  unfold Machine.takeChange mapChange
  split
  · unfold editChange
    split
    · unfold applyPolicy
      have offer : ∀ u c, AllSlots Q (offerChange u c (signOfLife k src s)) := by
        intro u c; unfold offerChange; split <;> exact h1.congr (by simp)
      split
      · exact h1.congr (by simp)
      · exact offer _ _
      · unfold decideDeadband
        dsimp only
        split
        · exact offer _ _
        · split
          · exact h1.congr (by simp)
          · exact offer _ _
    · exact h1.congr (by simp)
  · exact h1.congr (by simp)

theorem AllSlots.placeAdmitted (r : MoveRules Q) (h : AllSlots Q s) (p : PlacesBut s none []) (y : Slot)
    (h12 : s.commit.state = .idle → Q i { y with state := .queued, deadline := .stopped } ∧ Q i { y with state := .held })
    (h3 : s.commit.state = .draining → Q i { y with state := .parked }) : AllSlots Q (placeAdmitted i y s) := by
  unfold Machine.placeAdmitted
  split
  · next hc => exact (h.setSlot (h3 hc)).congr rfl
  · next hc =>
    obtain ⟨h1, h2⟩ := h12 hc
    dsimp only
    split
    · unfold Machine.queueSlot
      have hs : ∀ j k a z, ((s.setSlot i y).setStation k a z).slot j = if i = j then y else s.slot j := by intros; simp
      refine AllSlots.dispatchIfIdle r (s := _) ?_ _ ?_
      · intro j
        by_cases e : i = j
        · subst e; simpa using h1
        · simpa [e] using h j
      · intro j hj
        by_cases e : i = j
        · subst e; simp
        · simp only [State.setStation_slot, State.slot_setSlot, if_true, State.seg_setSeg, State.setSlot_seg,
            List.mem_append, List.mem_singleton] at hj
          rcases hj with hj | hj
          · have := (p.queued y.seg j).1 (by simpa using hj)
            simpa [e] using this.2.1
          · exact absurd hj.symm e
    · exact (h.setSlot h2).congr (by simp)

theorem AllSlots.takeReply (r : PlaceRules Q) (h : AllSlots Q s) (p : PlacesBut s none []) (src tag status count : Byte)
    (vs : List Word) : AllSlots Q (takeReply k src tag status count vs s) := by
  unfold Machine.takeReply
  split
  · split
    · next hm =>
      simp only [slotMatches, decide_eq_true_eq] at hm
      have hb := fun b => AllSlots.matched r.toAnswerRules h p hm.1 b
      rw [hm.2.1] at hb
      unfold Machine.completeMatch
      refine (hb _).drainIfDone r ?_
      rw [← hm.2.1]
      exact ((p.fromSent (by simp) hm.1).answerSlot _).completeSuccess
    · exact h.congr (by simp)
  · split
    · exact h.probed r.toMoveRules p
    · exact h.congr (by simp)

theorem AllSlots.expireSlot (r : PlaceRules Q) (h : AllSlots Q s) (p : PlacesBut s none []) :
    AllSlots Q (expireSlot i s) := by
  unfold Machine.expireSlot
  dsimp only
  split
  · next hs =>
    split
    · exact h.retrySlot r.toMoveRules p hs.1
    · have pf := (((p.fromSent (by simp) hs.1).setCounters ((countFinalTimeout (s.slot i).seg s).counters)).answerSlot
        { status := .timeout, values := [] }).completeFailure
      unfold failSlot
      exact AllSlots.arbiterIfIdle r.toMoveRules ((h.failed r.toAnswerRules p hs.1).drainIfDone r pf) pf.drainIfDone
  · exact h

theorem AllSlots.expireDrain (r : AnswerRules Q) (h : AllSlots Q s) (p : PlacesBut s none []) :
    AllSlots Q (expireDrain s) := by
  unfold Machine.expireDrain
  split
  · exact (h.failDrain r p _).arbiterIfIdle r.toMoveRules (p.failDrain _)
  · exact h

theorem AllSlots.takeMgmtByCode (r : PlaceRules Q) (h : AllSlots Q s) (p : PlacesBut s none []) (hd : MgmtHead)
    (args : List Byte) : AllSlots Q (takeMgmtByCode hd args s) := by
  refine takeMgmtByCode_keeps (P := AllSlots Q) ⟨h.congr (by simp), h, fun _ => h.congr rfl,
    fun _ _ _ => h.congr rfl, fun _ _ => h.congr rfl, fun _ => ?_⟩ args
  constructor
  · exact fun _ _ => h.congr rfl
  · exact fun _ _ _ => h.congr rfl
  · exact h.congr rfl
  · exact fun _ _ _ => h.congr rfl
  · exact fun k a => h.congr (by simp [Machine.resetStation, answerStored, answerOnly])
  · exact fun _ _ => h.congr rfl
  · exact fun _ _ => AllSlots.drainIfDone r (h.congr rfl)
      ((p.answerStored hd .accepted (wordBytes s.store.nextGeneration)).congr rfl rfl rfl rfl rfl)
  · exact fun _ => AllSlots.failDrain r.toAnswerRules (s := Machine.answerStored hd .done [] s) (h.congr rfl)
      (p.answerStored hd .done []) _

/-- The admissions of a state give slots with the property, placed as its commit state has them placed (R68, R69). -/
def Admits (Q : SlotIx → Slot → Prop) (s : State) : Prop :=
  ∀ dst src tag rest i y, judgeRequest s dst src tag rest = .allot i y →
    (s.commit.state = .idle → Q i { y with state := .queued, deadline := .stopped } ∧ Q i { y with state := .held }) ∧
      (s.commit.state = .draining → Q i { y with state := .parked })

theorem AllSlots.takeRequest (r : MoveRules Q) (h : AllSlots Q s) (p : PlacesBut s none []) (had : Admits Q s)
    (dst src tag : Byte) (rest : List Byte) : AllSlots Q (takeRequest dst src tag rest s) := by
  unfold Machine.takeRequest
  split
  · unfold offerRefusal; split <;> exact h.congr (by simp)
  · next i y e =>
    obtain ⟨h1, h2⟩ := had _ _ _ _ _ _ e
    exact AllSlots.placeAdmitted r (h.congr (by simp)) (p.setCounters _) y h1 h2

/-- Every taking but the pin reset keeps such a property. -/
theorem AllSlots.kept (r : PlaceRules Q) (hc : ∀ i c n, Q i (Slot.cleared c n))
    (h : s.resetHeld = false → AllSlots Q s) (p : s.resetHeld = false → SlotPlaces s)
    (had : s.resetHeld = false → Admits Q (countReceived .u s)) :
    KeptBy (fun t => t.resetHeld = false → AllSlots Q t) s where
  hold := fun h => by cases h
  release a b := fun _ => by
    intro i
    unfold releaseReset
    refine AllSlots.arbiterIfIdle (x := none) (l := []) r.toMoveRules ?_ ((PlacesBut.pinReset a b s.pending).raiseNotice _) i
    intro i
    simp only [raiseNotice_slot]
    rw [State.slot_of_replicate (x := Slot.cleared 0 0) rfl]
    exact hc _ _ _
  malformed q := fun hr => (h (by simpa using hr)).congr (by simp)
  checkError q := fun hr => (h (by simpa using hr)).congr (by simp)
  request hr dst src tag rest := fun _ =>
    have pp := ((placesBut_iff s).mpr (p hr)).setCounters ((countReceived .u s).counters)
    (AllSlots.takeRequest r.toMoveRules (AllSlots.congr (h hr) (by simp)) pp (had hr) _ _ _ _).arbiterIfIdle r.toMoveRules
      (pp.takeRequest _ _ _ _)
  mgmt hr hd args := fun _ =>
    have pp := ((placesBut_iff s).mpr (p hr)).setCounters ((countReceived .u s).counters)
    (AllSlots.takeMgmtByCode r (AllSlots.congr (h hr) (by simp)) pp _ _).arbiterIfIdle r.toMoveRules
      (pp.takeMgmtByCode _ _)
  reply hr k src tag st n vs _ := fun _ =>
    have pp := ((placesBut_iff s).mpr (p hr)).setCounters ((countReceived k.port s).counters)
    (AllSlots.takeReply r (AllSlots.congr (h hr) (by simp)) pp _ _ _ _ _).arbiterIfIdle r.toMoveRules
      (pp.takeReply _ _ _ _ _)
  change hr k src y v _ := fun _ =>
    have pp := ((placesBut_iff s).mpr (p hr)).setCounters ((countReceived k.port s).counters)
    (AllSlots.takeChange (AllSlots.congr (h hr) (by simp)) _ _ _).arbiterIfIdle r.toMoveRules (pp.takeChange _ _ _)
  endSegment hr k := fun _ => (h hr).endSegment r.toMoveRules ((placesBut_iff s).mpr (p hr))
  endUpstream hr := fun _ => (h hr).endUpstream r.toMoveRules ((placesBut_iff s).mpr (p hr)) fun _ => hc _ _ _
  expireSlot hr i := fun _ => (h hr).expireSlot r ((placesBut_iff s).mpr (p hr))
  expireProbeDue hr k a := fun _ => (h hr).expireProbeDue r.toMoveRules ((placesBut_iff s).mpr (p hr))
  expireProbeDeadline hr k := fun _ => (h hr).expireProbeDeadline r.toMoveRules ((placesBut_iff s).mpr (p hr))
  expireRefresh hr st ix := fun _ => (h hr).congr rfl
  expireDrain hr := fun _ => (h hr).expireDrain r.toAnswerRules ((placesBut_iff s).mpr (p hr))

end Sys2Proof.Safety
end

