-- ==== Sys2Proof/Laws/AbsentSegment.lean ====
section
/-! SUPPORT. The rules of sound slots, what an admission gives, and what a taking does to segment 1 when no slot names it (R66, R70). -/

namespace Sys2Proof.Safety

open Sys2Proof.Machine

/-- Soundness of slots survives every move. -/
theorem soundRules : PlaceRules (fun _ x => SlotSound x) where
  start i x h e := by
    constructor <;> simp only [advanceNumbers, reduceCtorEq, iff_false]
    · rw [h.deadline, e]; simp
    · rw [h.built, e]; simp
    · intro _; exact h.count (by rw [e]; simp)
    · intro _; exact h.logStation (by rw [e]; simp)
    · exact h.retriesLeft
    · exact h.readValues
    · intro _; exact h.writeValues (by rw [e]; simp)
  sent i x d h e := by
    constructor <;> simp only [startTimer, Timer.isRunning, reduceCtorEq, iff_false]
    · rw [h.built, e]; simp
    · intro _; exact h.count (by rw [e]; simp)
    · intro _; exact h.logStation (by rw [e]; simp)
    · exact h.retriesLeft
    · exact h.readValues
    · intro _; exact h.writeValues (by rw [e]; simp)
  queue i x h e := by
    have hf : x.state ≠ .free := by rcases e with e | e <;> rw [e] <;> simp
    constructor <;> simp only [Timer.isRunning, reduceCtorEq, iff_false]
    · rw [h.built]; rcases e with e | e <;> rw [e] <;> simp
    · intro _; exact h.count hf
    · intro _; exact h.logStation hf
    · exact h.retriesLeft
    · exact h.readValues
    · intro _; exact h.writeValues hf
  retry i x h e := by
    obtain ⟨a, b, c, d, e', f, g⟩ := h
    exact ⟨a, b, c, d, by simp; omega, f, g⟩
  leave i x h e := by
    constructor <;> simp [Slot.cleared, Timer.isRunning]
  ready i x b h e := by
    have hf : x.state ≠ .free := by rcases e with e | e | e <;> rw [e] <;> simp
    constructor <;> simp only [Timer.isRunning, reduceCtorEq]
    · simp
    · intro _; exact h.count hf
    · intro _; exact h.logStation hf
    · exact h.retriesLeft
    · exact h.readValues
    · intro _; exact h.writeValues hf
  place i x h e := by
    have hf : x.state ≠ .free := by rw [e]; simp
    constructor <;> simp only [Timer.isRunning, reduceCtorEq, iff_false]
    · rw [h.built]; rw [e]; simp
    · intro _; exact h.count hf
    · intro _; exact h.logStation hf
    · exact h.retriesLeft
    · exact h.readValues
    · intro _; exact h.writeValues hf
  wait i x h e := by
    have hf : x.state ≠ .free := by rw [e]; simp
    constructor <;> simp only [reduceCtorEq, iff_false]
    · rw [h.deadline, e]; simp
    · rw [h.built]; rw [e]; simp
    · intro _; exact h.count hf
    · intro _; exact h.logStation hf
    · exact h.retriesLeft
    · exact h.readValues
    · intro _; exact h.writeValues hf

theorem judging_inRange {s : State} (h : BanksInRange s) : BankInRange s.judgingBank := by
  unfold State.judgingBank BankStore.activeBank BankStore.shadowBank
  unfold BanksInRange at h
  cases s.commit.state <;> cases s.store.active
  exacts [h.1, h.2, h.2, h.1]

/-- A forward lookup finds an entry of the station (R34). -/
theorem forward_entry {b : Bank} {st : Byte} {ix : Word} {c : Nat} {e : MapEntry} (hfw : b.forward st ix c = some e) :
    ∃ n, b.entry n = some e ∧ e.station = st := by
  unfold Bank.forward at hfw
  split at hfw
  · next e' hf =>
    split at hfw
    · cases hfw
      have h1 := List.mem_of_find?_eq_some hf
      have h2 := List.find?_some hf
      simp only [Bool.and_eq_true, decide_eq_true_eq] at h2
      unfold Bank.entries at h1
      simp only [List.mem_filterMap, id] at h1
      obtain ⟨o, ho, rfl⟩ := h1
      simp only [Vector.mem_toList_iff, Vector.mem_iff_getElem] at ho
      obtain ⟨n, hn, he⟩ := ho
      exact ⟨⟨n, hn⟩, he, h2.1⟩
    · cases hfw
  · cases hfw

theorem sound_admits {s : State} (hb : BanksInRange s) (ha : AgentSound s) : Admits (fun _ x => SlotSound x) s := by
  intro dst src tag rest i y e
  obtain ⟨f, en, vs, hp, _, hfw, _, _, hd, _, rfl⟩ := judgeRequest_allot e
  have hp' := parseRequest_some hp
  have hd' := downEdited_some hd
  have hst : dst.toNat ≤ 239 := by
    obtain ⟨n, he, e2⟩ := forward_entry hfw
    have := ((judging_inRange hb).entries n en he).station
    rw [e2] at this; exact this
  have hr := ha.retries
  have base : ∀ st : SlotState, st ≠ .sent → st ≠ .replyReady → SlotSound
    { admittedSlot s (s.slot i) dst src tag f en vs with state := st } := by
    intro st h1 h2
    constructor <;> simp only [admittedSlot, Timer.isRunning]
    · simp [h1]
    · simp [h2]
    · intro _; exact ⟨hp'.1, hp'.2.1⟩
    · intro _; exact hst
    · exact hr
    · exact hd'.1
    · intro _ ho; rw [hd'.2 ho, hp'.2.2.2 ho]
  exact ⟨fun _ => ⟨base .queued (by simp) (by simp), base .held (by simp) (by simp)⟩, fun _ => base .parked (by simp)
    (by simp)⟩

/-- So does naming segment 0 only. -/
theorem quietRules (b : Bool) : PlaceRules (fun _ x => b = false → x.state ≠ .free → x.seg = .s0) where
  start i x h e hb _ := h hb (by rw [e]; simp)
  sent i x d h e hb _ := h hb (by rw [e]; simp)
  queue i x h e hb _ := h hb (by rcases e with e | e <;> rw [e] <;> simp)
  retry i x h e hb _ := h hb (by rw [e]; simp)
  leave i x h e hb hf := absurd rfl hf
  ready i x b h e hb _ := h hb (by rcases e with e | e | e <;> rw [e] <;> simp)
  place i x h e hb _ := h hb (by rw [e]; simp)
  wait i x h e hb _ := h hb (by rw [e]; simp)

theorem judging_valid {s : State} (h : ActiveBankValid s) : s.judgingBank.valid s.s1Present = true := by
  unfold State.judgingBank
  cases hc : s.commit.state
  · exact h.active
  · exact h.incoming hc

/-- A bank valid while S1 is absent names segment 0 only (R31). -/
theorem valid_s0 {b : Bank} (h : b.valid false = true) {n : MapIx} {e : MapEntry} (he : b.entry n = some e) : e.seg =
    .s0 := by
  unfold Bank.valid Bank.examine at h
  simp only [Option.isNone_iff_eq_none, List.findSome?_eq_none_iff] at h
  have := h n (List.mem_finRange n)
  unfold Bank.visitFault at this
  rw [he] at this
  simp only [Option.map_eq_none_iff] at this
  unfold Bank.entryFault at this
  cases hs : e.seg
  · rfl
  · rw [hs] at this; simp at this; repeat (first | (split at this; cases this) | (split at this) | cases this)

theorem quiet_admits {s : State} (h : ActiveBankValid s) : Admits (fun _ x => s.s1Present = false → x.state ≠ .free →
    x.seg = .s0) s := by
  intro dst src tag rest i y e
  obtain ⟨f, en, vs, hp, _, hfw, _, _, hd, _, rfl⟩ := judgeRequest_allot e
  obtain ⟨n, he, _⟩ := forward_entry hfw
  have hv := judging_valid h
  have : s.s1Present = false → en.seg = .s0 := fun hb => valid_s0 (hb ▸ hv) he
  exact ⟨fun _ => ⟨fun hb _ => this hb, fun hb _ => this hb⟩, fun _ hb _ => this hb⟩

@[simp] theorem setSeg_s0_seg1 (s : State) (x) : (s.setSeg .s0 x).seg1 = s.seg1 := rfl

@[simp] theorem setStation_s0_seg1 (s : State) (a x) : (s.setStation .s0 a x).seg1 = s.seg1 := rfl

theorem dispatch_seg1 {s : State} : (dispatchIfIdle .s0 s).seg1 = s.seg1 := by
  unfold dispatchIfIdle; split
  · split
    · unfold dispatcherChoice; split
      · rfl
      · unfold startQueueHead; split <;> rfl
    · rfl
  · rfl

theorem queue_seg1 {s : State} {i} (h : (s.slot i).seg = .s0) : (queueSlot i s).seg1 = s.seg1 := by
  unfold queueSlot; dsimp only; rw [h]; rw [dispatch_seg1]; rfl

theorem release_seg1 {s : State} {a x l} (p : PlacesBut s x l) : (releaseHeld .s0 a s).seg1 = s.seg1 := by
  unfold releaseHeld; split
  · next i rest e =>
    have := (p.held .s0 a i).1 (by rw [e]; simp)
    rw [queue_seg1 (by simpa using this.2.2.1)]; rfl
  · rfl

theorem success_seg1 {s : State} {a} (p : PlacesBut s (some (.s0, a)) []) : (completeSuccess .s0 a s).seg1 =
    s.seg1 := by
  unfold completeSuccess
  rw [release_seg1 (p.takeAlive .s0 a).clearActive]
  unfold takeAlive clearActive; dsimp only; split
  · show (raiseNotice _ _).seg1 = _
    simp [State.setStation, State.setSeg]
  · rfl

theorem failure_seg1 {s : State} {a} (p : PlacesBut s (some (.s0, a)) []) : (completeFailure .s0 a s).seg1 =
    s.seg1 := by
  have p1 := p.clearActive
  have hact : ((Machine.clearActive .s0 a s).station .s0 a).activeSlot = none := by simp [Machine.clearActive]
  unfold completeFailure takeFailure
  dsimp only
  split
  · rw [release_seg1 (p1.silenceStation hact _)]
    unfold silenceStation
    simp [State.setStation, State.setSeg, clearActive]
  · rw [release_seg1 (x := some (.s0, a)) (l := []) (p1.setStation (k := .s0) (a := a)
      { (Machine.clearActive .s0 a s).station .s0 a with
      health := .suspect, failures := ((Machine.clearActive .s0 a s).station .s0 a).failures + 1 } rfl (by simp)
        (by simp))]
    rfl

theorem fold_seg1 : ∀ (m : List SlotIx) {s : State} {l}, PlacesBut s none (m ++ l) → (∀ i ∈ m, (s.slot i).state =
    .parked) → (∀ i ∈ m, (s.slot i).seg = .s0) →
   (m.foldl placeParked s).seg1 = s.seg1
  | [], _, _, _, _, _ => rfl
  | i :: m, s, l, p, hm, h0 => by
    have hn := p.limboOnce
    have hj : ∀ j ∈ m, (placeParked s i).slot j = s.slot j := fun j hj => by
      have hji : j ≠ i := by rintro rfl; simp at hn; exact hn.1.1 hj
      exact placeParked_others hji (by rw [hm j (List.mem_cons_of_mem _ hj)]; simp) p
    show (m.foldl placeParked (placeParked s i)).seg1 = _
    have hm' : ∀ j ∈ m, ((placeParked s i).slot j).state = .parked := fun j h => by
      rw [hj j h]
      exact hm j (List.mem_cons_of_mem _ h)
    have h0' : ∀ j ∈ m, ((placeParked s i).slot j).seg = .s0 := fun j h => by
      rw [hj j h]
      exact h0 j (List.mem_cons_of_mem _ h)
    rw [fold_seg1 m (PlacesBut.placeParked (by simpa using p)) hm' h0']
    have hi := h0 i (by simp)
    unfold placeParked; dsimp only
    split
    · simp
    · rw [hi]
      split
      · rw [queue_seg1 (by simpa using hi)]; rfl
      · rfl

theorem drain_seg1 {s : State} (p : PlacesBut s none []) (h : ∀ i, (s.slot i).state ≠ .free → (s.slot i).seg = .s0) :
    (drainIfDone s).seg1 = s.seg1 := by
  unfold drainIfDone; split
  · have p1 : PlacesBut { s with
      commit := { s.commit with drainTimer := .stopped }
      store := s.store.swap
      cache := []
      parked := [] } none (s.parked ++ []) := by
      have := p.fromParked
      rw [List.append_nil]
      exact this.congr rfl rfl rfl rfl rfl
    have h0 : ∀ i ∈ s.parked, (s.slot i).seg = .s0 := fun i hi => by
      refine h i ?_
      rw [((p.parked i).1 hi).2]
      simp
    have := fold_seg1 s.parked p1 (fun i hi => ((p.parked i).1 hi).2) h0
    unfold completeDrain; dsimp only
    rw [raiseNotice_seg1, this]
  · rfl

theorem quiet_slots {s : State} {b} : (AllSlots (fun _ x => b = false → x.state ≠ .free → x.seg = .s0) s) → b = false
    → ∀ i, (s.slot i).state ≠ .free → (s.slot i).seg = .s0 :=
  fun h hb i => h i hb

theorem match_seg1 {s : State} {i b} (pp : PlacesBut s none []) (hs : (s.slot i).state = .sent) (e : (s.slot i).seg =
    .s0) (h : ∀ i, (s.slot i).state ≠ .free → (s.slot i).seg = .s0) :
    (completeMatch .s0 i b s).seg1 = s.seg1 := by
  have pf := (pp.fromSent (by simp) hs).answerSlot b
  have hal := AllSlots.matched (quietRules false).toAnswerRules (fun i _ => h i) pp hs b
  rw [e] at hal pf
  unfold completeMatch
  rw [drain_seg1 pf.completeSuccess (fun i => hal i rfl), success_seg1 pf]
  simp

theorem mgmt_seg1 {u : State} {hd args} (pp : PlacesBut u none []) (h1 : u.seg1 = SegState.initial) (h2 : ∀ i,
    (u.slot i).state ≠ .free → (u.slot i).seg = .s0) :
    (takeMgmtByCode hd args u).seg1 = SegState.initial := by
  refine takeMgmtByCode_keeps (P := fun t => t.seg1 = SegState.initial) ⟨?_, h1, ?_, ?_, ?_, ?_⟩ args
  · simpa using h1
  · exact fun _ => h1
  · exact fun _ _ _ => h1
  · exact fun _ _ => h1
  · intro _
    constructor
    · exact fun _ _ => h1
    · exact fun _ _ _ => h1
    · exact h1
    · exact fun _ _ _ => h1
    · intro k a
      show (resetStation k a u).seg1 = _
      cases k
      · exact h1
      · show SegState.mk _ _ _ _ = _
        simp only [State.station, State.seg, h1]
        simp [SegState.initial, Station.initial]
    · exact fun _ _ => h1
    · intro _ _
      unfold beginDrain
      generalize hv : answerStored hd .accepted (wordBytes u.store.nextGeneration) u = v
      have pv : PlacesBut v none [] := by rw [← hv]; exact pp.answerStored _ _ _
      have hv1 : v.seg1 = u.seg1 := by rw [← hv]; rfl
      have hv2 : ∀ i, v.slot i = u.slot i := by intro i; rw [← hv]; rfl
      refine (drain_seg1 (s :=
        { v with commit := { state := .draining, incoming := some v.store.nextGeneration, drainTimer := startTimer v.agent.drainLimit } }) (pv.congr rfl rfl rfl rfl rfl) ?_).trans ?_
      · intro i; show (v.slot i).state ≠ _ → (v.slot i).seg = _; rw [hv2]; exact h2 i
      · show v.seg1 = _; rw [hv1]; exact h1
    · intro _
      show (failDrain _ _).seg1 = _
      unfold failDrain
      simp
      simpa [answerStored, answerOnly] using h1

theorem fail_seg1 {s : State} {i} (pp : PlacesBut s none []) (hs : (s.slot i).state = .sent) (e : (s.slot i).seg =
    .s0) (h : ∀ i, (s.slot i).state ≠ .free → (s.slot i).seg = .s0) :
    (drainIfDone (completeFailure (s.slot i).seg (s.slot i).station
      (answerSlot { status := .timeout, values := [] } (countFinalTimeout (s.slot i).seg s) i))).seg1 = s.seg1 := by
  have pf : PlacesBut (answerSlot { status := .timeout, values := [] } (countFinalTimeout (s.slot i).seg s) i) (some
    ((s.slot i).seg, (s.slot i).station)) [] := ((pp.fromSent (by simp) hs).setCounters _).answerSlot _
  have hal := AllSlots.failed (quietRules false).toAnswerRules (fun i _ => h i) pp hs
  rw [e] at hal pf ⊢
  rw [drain_seg1 pf.completeFailure (fun i => hal i rfl), failure_seg1 pf]
  simp

end Sys2Proof.Safety
end

