-- ==== Sys2Proof/Laws/Owed.lean ====
section
/-! SUPPORT. What the operations of a taking do to the telegrams on their way up: an answer joins the end of what is owed,
a notice is numbered or lost, and the arbiter's choice changes none of it (R92, R93, R135 to R141). -/

namespace Sys2Proof.Safety

open Sys2Proof.Machine

variable {s t : State}

/-- What is owed depends on the Upstream Transmitter and on what the slots would reply. -/
theorem trafficOwed_congr (hu : t.up = s.up) (hs : ∀ i ∈ s.up.waitList, slotReply (t.slot i) = slotReply (s.slot i)) :
    trafficOwed t = trafficOwed s := by
  unfold trafficOwed
  rw [hu, List.map_congr_left hs]

theorem noticesOwed_congr (hu : t.up = s.up) : noticesOwed t = noticesOwed s := by unfold noticesOwed; rw [hu]

theorem repliesOwed_congr (hu : t.up = s.up) : repliesOwed t = repliesOwed s := by unfold repliesOwed; rw [hu]

/-- A built reply is the answer of its exchange (R91). -/
theorem slotReply_ready (x : Slot) (b : BuiltReply) :
    slotReply { x with state := .replyReady, deadline := .stopped, built := some b } =
      slotAnswer x b.status b.values := rfl

/-! ### Answers (R92, R93) -/

/-- What answering a slot that waits for nothing does. -/
structure Answered (b : BuiltReply) (i : SlotIx) (s t : State) : Prop where
  traffic : trafficOwed t = trafficOwed s ++ [slotAnswer (s.slot i) b.status b.values]
  replies : repliesOwed t = repliesOwed s
  notices : noticesOwed t = noticesOwed s
  slot : slotDone (s.slot i) (t.slot i) b.status b.values
  others : ∀ j, j ≠ i → t.slot j = s.slot j
  wait : ∀ j ∈ t.up.waitList, j = i ∨ j ∈ s.up.waitList
  waitOnce : s.up.waitList.Nodup → t.up.waitList.Nodup
  waitPrefix : t.up.waitList = s.up.waitList ∨ t.up.waitList = s.up.waitList ++ [i]
  sending : t.up.sending = s.up.sending
  noticeQueue : t.up.notices = s.up.notices
  nextNotice : t.up.nextNotice = s.up.nextNotice
  pendingLost : t.up.pendingLost = s.up.pendingLost

theorem answerSlot_answered (b : BuiltReply) {i : SlotIx} (hi : i ∉ s.up.waitList) :
    Answered b i s (answerSlot b s i) := by
  have hmap : ∀ f : State, (∀ j, j ≠ i → f.slot j = s.slot j) →
      s.up.waitList.map (fun j => slotReply (f.slot j)) = s.up.waitList.map (fun j => slotReply (s.slot j)) := by
    intro f hf
    refine List.map_congr_left fun j hj => ?_
    rw [hf j (fun e => hi (e ▸ hj))]
  unfold answerSlot offerReply
  split
  · next hr =>
    have hw : s.up.waitList = [] := by
      have := trafficHasRoom_iff.mp hr
      simpa [becomeReady] using this.2
    have hslot : ∀ j, j ≠ i → (sendUp i (becomeReady i b s)).slot j = s.slot j := by
      intro j hj; simp [sendUp, becomeReady, clearSlot, enterTraffic, hj.symm]
    have htr : (sendUp i (becomeReady i b s)).up =
        { s.up with traffic := s.up.traffic ++ [slotAnswer (s.slot i) b.status b.values] } := by
      simp [sendUp, enterTraffic, becomeReady, slotReply_ready]
    constructor
    · unfold trafficOwed; rw [htr]; simp [hw]
    · unfold repliesOwed; rw [htr]
    · unfold noticesOwed; rw [htr]
    · left; simp [sendUp, clearSlot, becomeReady, enterTraffic]
    · exact hslot
    · intro j hj; rw [htr] at hj; exact .inr hj
    · intro h; rw [htr]; exact h
    · left; rw [htr]
    all_goals rw [htr]
  · have hslot : ∀ j, j ≠ i → (joinWaitList i (becomeReady i b s)).slot j = s.slot j := by
      intro j hj; simp [joinWaitList, becomeReady, hj.symm]
    have htr : (joinWaitList i (becomeReady i b s)).up = { s.up with waitList := s.up.waitList ++ [i] } := by
      simp [joinWaitList, becomeReady]
    constructor
    · unfold trafficOwed
      rw [htr]
      simp only [List.map_append, List.map_cons, List.map_nil, List.append_assoc]
      rw [hmap _ hslot]
      simp [joinWaitList, becomeReady, slotReply_ready]
    · unfold repliesOwed; rw [htr]
    · unfold noticesOwed; rw [htr]
    · right; simp [joinWaitList, becomeReady]
    · exact hslot
    · intro j hj; rw [htr] at hj; simp at hj; grind
    · intro h; rw [htr]; simp [List.nodup_append, h]; exact fun a ha e => hi (e ▸ ha)
    · right; rw [htr]
    all_goals rw [htr]

/-- What answering a list of slots in order does. -/
structure AllAnswered (st : ReplyStatus) (l : List SlotIx) (s t : State) : Prop where
  traffic : trafficOwed t = trafficOwed s ++ l.map (fun i => slotAnswer (s.slot i) st [])
  replies : repliesOwed t = repliesOwed s
  notices : noticesOwed t = noticesOwed s
  slot : ∀ i ∈ l, slotDone (s.slot i) (t.slot i) st []
  others : ∀ j, j ∉ l → t.slot j = s.slot j
  wait : ∀ j ∈ t.up.waitList, j ∈ l ∨ j ∈ s.up.waitList
  waitOnce : s.up.waitList.Nodup → t.up.waitList.Nodup
  sending : t.up.sending = s.up.sending
  noticeQueue : t.up.notices = s.up.notices
  nextNotice : t.up.nextNotice = s.up.nextNotice
  pendingLost : t.up.pendingLost = s.up.pendingLost

theorem answerAll_answered (st : ReplyStatus) : ∀ (l : List SlotIx) {s : State}, l.Nodup →
    (∀ i ∈ l, i ∉ s.up.waitList) → AllAnswered st l s (answerAll st l s)
  | [], s, _, _ => by
    constructor <;> simp [answerAll]
  | i :: l, s, hn, hw => by
    have h1 := answerSlot_answered (s := s) ⟨st, []⟩ (hw i (by simp))
    have hil : i ∉ l := (List.nodup_cons.mp hn).1
    have h2 := answerAll_answered st l (s := answerSlot ⟨st, []⟩ s i) (List.nodup_cons.mp hn).2 (by
      intro j hj hj2
      rcases h1.wait j hj2 with e | e
      · exact hil (e ▸ hj)
      · exact hw j (by simp [hj]) e)
    have e : answerAll st (i :: l) s = answerAll st l (answerSlot ⟨st, []⟩ s i) := rfl
    rw [e]
    constructor
    · rw [h2.traffic, h1.traffic, List.map_cons, List.append_assoc]
      congr 1
      simp only [List.cons_append, List.nil_append]
      congr 1
      exact List.map_congr_left fun j hj => by rw [h1.others j (fun e => hil (e ▸ hj))]
    · rw [h2.replies, h1.replies]
    · rw [h2.notices, h1.notices]
    · intro j hj
      rcases List.mem_cons.mp hj with rfl | hj
      · rw [h2.others j hil]; exact h1.slot
      · have := h2.slot j hj
        rw [h1.others j (fun e => hil (e ▸ hj))] at this
        exact this
    · intro j hj
      rw [List.mem_cons, not_or] at hj
      rw [h2.others j hj.2, h1.others j hj.1]
    · intro j hj
      rcases h2.wait j hj with h | h
      · left; simp [h]
      · rcases h1.wait j h with h | h
        · left; simp [h]
        · right; exact h
    · exact fun h => h2.waitOnce (h1.waitOnce h)
    · rw [h2.sending, h1.sending]
    · rw [h2.noticeQueue, h1.noticeQueue]
    · rw [h2.nextNotice, h1.nextNotice]
    · rw [h2.pendingLost, h1.pendingLost]

/-! ### Notices (R139) -/

@[simp] theorem raiseNotice_trafficOwed (e : NoticeEvent) : trafficOwed (raiseNotice e s) = trafficOwed s := by
  unfold trafficOwed; simp

@[simp] theorem raiseNotice_repliesOwed (e : NoticeEvent) : repliesOwed (raiseNotice e s) = repliesOwed s := by
  unfold repliesOwed; simp

theorem raiseNotice_noticesOwed (e : NoticeEvent) : noticesOwed (raiseNotice e s) = noticesWith e s := by
  unfold noticesWith raiseNotice Config.noticeCapacity
  by_cases h : s.up.notices.length < 16
  · rw [if_pos h, if_pos h]; simp [noticesOwed]
  · rw [if_neg h, if_neg h]; simp [noticesOwed]

/-- A notice to be raised over one state is the same over another with the same notice record. -/
theorem noticesWith_congr (e : NoticeEvent) (h1 : t.up.notices = s.up.notices) (h2 : t.up.sending = s.up.sending)
    (h3 : t.up.nextNotice = s.up.nextNotice) (h4 : t.up.pendingLost = s.up.pendingLost)
    (h5 : t.agent.ctrlAddr = s.agent.ctrlAddr) (h6 : t.ownAddress = s.ownAddress) :
    noticesWith e t = noticesWith e s := by
  unfold noticesWith noticesOwed
  rw [h1, h2, h3, h4, h5, h6]

/-! ### The arbiter (R136, R141) -/

/-- What the arbiter's choice keeps: everything owed, and every slot but the one whose reply entered the Traffic Queue. -/
structure Chosen (s t : State) : Prop where
  traffic : trafficOwed t = trafficOwed s
  replies : repliesOwed t = repliesOwed s
  notices : noticesOwed t = noticesOwed s
  slot : ∀ j, t.slot j = s.slot j ∨
    (s.up.sending = none ∧ j ∈ s.up.waitList ∧ t.slot j = Slot.cleared (s.slot j).cur (s.slot j).next)

theorem Chosen.refl (s : State) : Chosen s s := ⟨rfl, rfl, rfl, fun _ => .inl rfl⟩

theorem arbiterChoice_chosen (hs : s.up.sending = none) (hw : s.up.waitList.Nodup) : Chosen s (arbiterChoice s) := by
  unfold arbiterChoice
  split
  · next ho =>
    refine ⟨?_, ?_, ?_, fun _ => .inl (by simp)⟩
    · unfold trafficOwed; simp [hs]
    · unfold repliesOwed; simp [hs, ho]
    · unfold noticesOwed; simp [hs]
  · next hn =>
    refine ⟨?_, ?_, ?_, fun _ => .inl (by simp)⟩
    · unfold trafficOwed; simp [hs]
    · unfold repliesOwed; simp [hs]
    · unfold noticesOwed; simp [hs, hn]
  · next h4 _ _ =>
    unfold moveWaitList
    simp only [State.setUp_up]
    split
    · next i l hl =>
      rw [hl, List.nodup_cons] at hw
      refine ⟨?_, ?_, ?_, ?_⟩
      · unfold trafficOwed
        simp only [sendUp, enterTraffic, clearSlot, State.setSlot_up, State.setUp_up, hs, h4, hl]
        simp only [List.map_cons, List.append_assoc, List.nil_append, List.cons_append]
        congr 3
        refine List.map_congr_left fun j hj => ?_
        have : i ≠ j := fun e => hw.1 (e ▸ hj)
        simp [State.slot_setSlot, this]
      · unfold repliesOwed; simp [sendUp, enterTraffic, hs]
      · unfold noticesOwed; simp [sendUp, enterTraffic, hs]
      · intro j
        by_cases hj : i = j
        · subst hj
          exact .inr ⟨hs, by simp [hl], by simp [sendUp, clearSlot, enterTraffic]⟩
        · left; simp [sendUp, clearSlot, enterTraffic, hj]
    · next hl =>
      refine ⟨?_, ?_, ?_, fun _ => .inl (by simp)⟩
      · unfold trafficOwed; simp [hs, h4, hl]
      · unfold repliesOwed; simp [hs]
      · unfold noticesOwed; simp [hs]
  · exact Chosen.refl s

theorem arbiterIfIdle_chosen (hw : s.up.waitList.Nodup) : Chosen s (arbiterIfIdle s) := by
  unfold arbiterIfIdle
  split
  · next h => exact arbiterChoice_chosen h hw
  · exact Chosen.refl s

/-- An answered slot stays answered while the arbiter lets its reply into the Traffic Queue. -/
theorem Chosen.slotDone {x : Slot} {j : SlotIx} {st : ReplyStatus} {vs : List Word} (h : Chosen s t)
    (hd : slotDone x (s.slot j) st vs) : slotDone x (t.slot j) st vs := by
  rcases h.slot j with e | ⟨_, _, e⟩
  · rw [e]; exact hd
  · left
    rw [e]
    rcases hd with e | e
    · rw [e]; rfl
    · rw [e]

end Sys2Proof.Safety
end

