-- ==== Sys2Proof/Laws/Dispatching.lean ====
section
/-! SUPPORT. What a dispatcher's choice can change: nothing, the slot it starts, or the probe it starts (R78, R79, R111),
and what follows for the arrivals and releases that lead to one (R70, R94, R95). -/

namespace Sys2Proof.Safety

open Sys2Proof.Machine

variable {s t : State}

/-- The outcomes of a dispatcher's choice. -/
inductive Dispatched (k : Segment) (s : State) : State → Prop where
  | rest : Dispatched k s s
  | slot (i : SlotIx) (rest : List SlotIx) (free : (s.seg k).record = .none) (service : s.inService k = true)
      (head : (s.seg k).queue = i :: rest) : Dispatched k s (startSlot k i rest s)
  | probe (a : StationAddr) (free : (s.seg k).record = .none) (service : s.inService k = true)
      (idle : (s.seg k).probe = .idle) (due : s.lowestDue k = some a) : Dispatched k s (startProbe k a s)

theorem dispatchIfIdle_dispatched (k : Segment) (s : State) : Dispatched k s (dispatchIfIdle k s) := by
  unfold dispatchIfIdle
  split
  · next hr =>
    split
    · next hi =>
      unfold dispatcherChoice
      split
      · next hp hd => exact .probe _ hr hi hp hd
      · unfold startQueueHead
        split
        · next hq => exact .slot _ _ hr hi hq
        · exact .rest
    · exact .rest
  · exact .rest

/-- A choice changes at most the slot at the head of the send queue, which becomes SENDING. -/
theorem dispatchIfIdle_slot (k : Segment) (s : State) (j : SlotIx) :
    (dispatchIfIdle k s).slot j = s.slot j ∨ (j ∈ (s.seg k).queue ∧
      (dispatchIfIdle k s).slot j = { advanceNumbers (s.slot j) with state := .sending }) := by
  have h := dispatchIfIdle_dispatched k s
  generalize dispatchIfIdle k s = u at h
  cases h with
  | rest => exact .inl rfl
  | slot i rest free service head =>
    by_cases hij : i = j
    · subst hij; right; simp [startSlot, head]
    · left; simp [startSlot, hij]
  | probe a free service idle due => left; simp [startProbe]

theorem dispatchIfIdle_slotReply (k : Segment) (s : State) (j : SlotIx) :
    slotReply ((dispatchIfIdle k s).slot j) = slotReply (s.slot j) := by
  rcases dispatchIfIdle_slot k s j with h | ⟨_, h⟩ <;> rw [h]
  rfl

/-- A choice changes at most a station's due flag, in its own segment. -/
theorem dispatchIfIdle_station (k : Segment) (s : State) (j : Segment) (a : StationAddr) :
    (dispatchIfIdle k s).station j a = s.station j a ∨
      (j = k ∧ (s.station k a).health = .silent ∧ (s.station k a).due = true ∧
        (dispatchIfIdle k s).station j a = { s.station j a with due := false }) := by
  have h := dispatchIfIdle_dispatched k s
  generalize dispatchIfIdle k s = u at h
  cases h with
  | rest => exact .inl rfl
  | slot i rest free service head => left; simp [startSlot]; intro e; subst e; rfl
  | probe b free service idle due =>
    have hd : (s.station k b).health = .silent ∧ (s.station k b).due = true := by
      unfold State.lowestDue at due
      simpa using List.find?_some due
    by_cases hab : k = j ∧ b = a
    · obtain ⟨rfl, rfl⟩ := hab
      exact .inr ⟨rfl, hd.1, hd.2, by simp [startProbe]⟩
    · left
      by_cases hk : k = j
      · subst hk; simp [startProbe]; intro e; exact absurd ⟨rfl, e⟩ hab
      · simp [startProbe, hk]

/-- A choice takes nothing into a send queue. -/
theorem dispatchIfIdle_queue (k : Segment) (s : State) (j : Segment) (i : SlotIx)
    (h : i ∈ ((dispatchIfIdle k s).seg j).queue) : i ∈ (s.seg j).queue := by
  have hd := dispatchIfIdle_dispatched k s
  generalize dispatchIfIdle k s = u at hd h
  cases hd with
  | rest => exact h
  | slot m rest free service head =>
    by_cases hk : k = j
    · subst hk; simp [startSlot] at h; rw [head]; simp [h]
    · simpa [startSlot, hk] using h
  | probe a free service idle due =>
    by_cases hk : k = j
    · subst hk; simpa [startProbe] using h
    · simpa [startProbe, hk] using h

theorem dispatchIfIdle_trafficOwed (k : Segment) : trafficOwed (dispatchIfIdle k s) = trafficOwed s :=
  trafficOwed_congr (by simp) (fun i _ => dispatchIfIdle_slotReply k s i)

/-! ### A slot joins its send queue -/

/-- The slot that joined is QUEUED or SENDING, and keeps all that its exchange holds. -/
theorem queueSlot_joined (i : SlotIx) (s : State) :
    (queueSlot i s).slot i = { s.slot i with state := .queued, deadline := .stopped } ∨
      (queueSlot i s).slot i =
        { advanceNumbers { s.slot i with state := .queued, deadline := .stopped } with state := .sending } := by
  unfold queueSlot
  dsimp only
  generalize hu : (s.setSlot i { s.slot i with state := .queued, deadline := .stopped }).setSeg (s.slot i).seg
    { (s.setSlot i { s.slot i with state := .queued, deadline := .stopped }).seg (s.slot i).seg with
      queue := ((s.setSlot i { s.slot i with state := .queued, deadline := .stopped }).seg (s.slot i).seg).queue ++ [i] } = u
  have e : u.slot i = { s.slot i with state := .queued, deadline := .stopped } := by rw [← hu]; simp
  rcases dispatchIfIdle_slot (s.slot i).seg u i with h | ⟨_, h⟩
  · left; rw [h, e]
  · right; rw [h, e]

/-- No other slot changes but the head of the queue it joined. -/
theorem queueSlot_others (i : SlotIx) (s : State) {j : SlotIx} (hj : j ≠ i) :
    (queueSlot i s).slot j = s.slot j ∨ (j ∈ (s.seg (s.slot i).seg).queue ∧
      (queueSlot i s).slot j = { advanceNumbers (s.slot j) with state := .sending }) := by
  unfold queueSlot
  dsimp only
  generalize hu : (s.setSlot i { s.slot i with state := .queued, deadline := .stopped }).setSeg (s.slot i).seg
    { (s.setSlot i { s.slot i with state := .queued, deadline := .stopped }).seg (s.slot i).seg with
      queue := ((s.setSlot i { s.slot i with state := .queued, deadline := .stopped }).seg (s.slot i).seg).queue ++ [i] } = u
  have e : u.slot j = s.slot j := by rw [← hu]; simp [hj.symm]
  rcases dispatchIfIdle_slot (s.slot i).seg u j with h | ⟨hq, h⟩
  · left; rw [h, e]
  · right
    rw [h, e]
    refine ⟨?_, rfl⟩
    rw [← hu] at hq
    simpa [hj] using hq

theorem queueSlot_queue (i : SlotIx) (s : State) (j : Segment) (m : SlotIx)
    (h : m ∈ ((queueSlot i s).seg j).queue) : m = i ∨ m ∈ (s.seg j).queue := by
  unfold queueSlot at h
  dsimp only at h
  have := dispatchIfIdle_queue _ _ _ _ h
  by_cases hk : (s.slot i).seg = j
  · subst hk; simp at this; grind
  · right; simpa [hk] using this

theorem queueSlot_slotReply (i : SlotIx) (s : State) (j : SlotIx) :
    slotReply ((queueSlot i s).slot j) = slotReply (s.slot j) := by
  by_cases hj : j = i
  · subst hj
    rcases queueSlot_joined j s with h | h <;> (rw [h]; rfl)
  · rcases queueSlot_others i s hj with h | ⟨_, h⟩ <;> rw [h]
    rfl

theorem queueSlot_trafficOwed (i : SlotIx) : trafficOwed (queueSlot i s) = trafficOwed s :=
  trafficOwed_congr (by simp) (fun j _ => queueSlot_slotReply i s j)

theorem queueSlot_station (i : SlotIx) (s : State) (j : Segment) (a : StationAddr) :
    (queueSlot i s).station j a = s.station j a ∨
      (j = (s.slot i).seg ∧ (s.station j a).health = .silent ∧ (s.station j a).due = true ∧
        (queueSlot i s).station j a = { s.station j a with due := false }) := by
  unfold queueSlot
  dsimp only
  generalize hu : (s.setSlot i { s.slot i with state := .queued, deadline := .stopped }).setSeg (s.slot i).seg
    { (s.setSlot i { s.slot i with state := .queued, deadline := .stopped }).seg (s.slot i).seg with
      queue := ((s.setSlot i { s.slot i with state := .queued, deadline := .stopped }).seg (s.slot i).seg).queue ++ [i] } = u
  have e : ∀ j a, u.station j a = s.station j a := by
    intro j a; rw [← hu]; simp; intro h; subst h; rfl
  rcases dispatchIfIdle_station (s.slot i).seg u j a with h | ⟨h1, h2, h3, h4⟩
  · left; rw [h, e]
  · subst h1
    rw [e] at h2 h3
    rw [e] at h4
    exact .inr ⟨rfl, h2, h3, h4⟩

/-- Dispatchers read the levels, their own record, probe and queue, and their stations' evidence. -/
theorem DispatcherRests.congr {k : Segment} (h : DispatcherRests s k) (hr : t.resetHeld = s.resetHeld)
    (hp : t.s1Present = s.s1Present) (hrec : (t.seg k).record = (s.seg k).record)
    (hq : (t.seg k).queue = (s.seg k).queue) (hpr : (t.seg k).probe = (s.seg k).probe)
    (hd : t.lowestDue k = s.lowestDue k) : DispatcherRests t k := by
  intro h1 h2 h3
  have h2' : s.inService k = true := by
    cases k
    · rfl
    · show s.s1Present = true; rw [← hp]; exact h2
  rw [hq, hpr, hd]
  exact h (by rw [← hr]; exact h1) h2' (by rw [← hrec]; exact h3)

theorem lowestDue_congr {k : Segment}
    (h : ∀ a, (t.station k a).health = (s.station k a).health ∧ (t.station k a).due = (s.station k a).due) :
    t.lowestDue k = s.lowestDue k := by
  unfold State.lowestDue
  congr 1
  funext a
  rw [(h a).1, (h a).2]

/-- With its dispatcher at rest, a slot that joins its send queue is started at once or waits behind the others. -/
theorem queueSlot_joins {i : SlotIx} (hr : s.resetHeld = false) (hd : DispatcherRests s (s.slot i).seg) :
    queueSlot i s =
      queueJoined (s.slot i).seg i (s.setSlot i { s.slot i with state := .queued, deadline := .stopped }) := by
  unfold queueSlot
  dsimp only
  generalize hy : s.setSlot i { s.slot i with state := .queued, deadline := .stopped } = y
  generalize hk : (s.slot i).seg = k at hd ⊢
  have h1 : y.seg k = s.seg k := by rw [← hy]; simp
  have h2 : y.inService k = s.inService k := by rw [← hy]; cases k <;> rfl
  have h3 : y.lowestDue k = s.lowestDue k := lowestDue_congr fun a => by rw [← hy]; simp
  generalize hz : y.setSeg k { y.seg k with queue := (y.seg k).queue ++ [i] } = z
  have g1 : (z.seg k).record = (s.seg k).record ∧ (z.seg k).queue = (s.seg k).queue ++ [i] ∧
      (z.seg k).probe = (s.seg k).probe := by rw [← hz]; simp [h1]
  have g2 : z.inService k = s.inService k := by rw [← h2, ← hz]; cases k <;> rfl
  have g3 : z.lowestDue k = s.lowestDue k := by
    rw [← h3]; exact lowestDue_congr fun a => by rw [← hz]; simp
  unfold queueJoined dispatchIfIdle
  rw [h1, h2, g1.1, g2]
  cases hrec : (s.seg k).record with
  | none =>
    cases hsv : s.inService k with
    | true =>
      obtain ⟨hq, hdue⟩ := hd hr hsv hrec
      simp only [if_true, and_self]
      unfold dispatcherChoice
      rw [g3]
      have h5 : startQueueHead k z = startSlot k i [] y := by
        unfold startQueueHead
        rw [g1.2.1, hq, ← hz]
        unfold startSlot
        cases k <;> rfl
      split
      · next hp hl => rw [g1.2.2] at hp; rw [hdue hp] at hl; cases hl
      · exact h5
    | false => simp [← hz, h1]
  | slot _ _ => simp [← hz, h1]
  | probe _ => simp [← hz, h1]
  | void _ => simp [← hz, h1]

/-! ### A station's held head is released (R94, R95) -/

/-- What releasing a station's held head does. -/
structure Released (k : Segment) (a : StationAddr) (s t : State) : Prop where
  traffic : trafficOwed t = trafficOwed s
  joined : ∀ j, (s.station k a).held.head? = some j → (t.slot j).state = .queued ∨ (t.slot j).state = .sending
  others : ∀ j, (s.station k a).held.head? ≠ some j → t.slot j = s.slot j ∨ j ∈ (s.seg (s.slot j).seg).queue
  station : { t.station k a with due := (s.station k a).due } =
    { s.station k a with
      activeSlot := if (s.station k a).held = [] then (s.station k a).activeSlot else (s.station k a).held.head?,
      held := (s.station k a).held.tail }

theorem releaseHeld_released (k : Segment) (a : StationAddr) (s : State)
    (hq : ∀ j i, i ∈ (s.seg j).queue → (s.slot i).seg = j) : Released k a s (releaseHeld k a s) := by
  unfold releaseHeld
  split
  · next i rest hh =>
    generalize hv : s.setStation k a { s.station k a with activeSlot := some i, held := rest } = v
    have hslot : ∀ j, v.slot j = s.slot j := fun j => by rw [← hv]; simp
    have hqv : ∀ j, (v.seg j).queue = (s.seg j).queue := fun j => by rw [← hv]; simp
    constructor
    · rw [queueSlot_trafficOwed]
      exact trafficOwed_congr (by rw [← hv]; simp) (fun j _ => by rw [hslot])
    · intro j hj
      rw [hh] at hj
      cases hj
      rcases queueSlot_joined i v with h | h <;> rw [h]
      · exact .inl rfl
      · exact .inr rfl
    · intro j hj
      rw [hh] at hj
      have hji : j ≠ i := fun e => hj (by simp [e])
      rcases queueSlot_others i v hji with h | ⟨h1, h⟩
      · left; rw [h, hslot]
      · right
        rw [hqv] at h1
        rw [hq _ _ h1]; exact h1
    · have e : v.station k a = { s.station k a with activeSlot := some i, held := rest } := by rw [← hv]; simp
      rcases queueSlot_station i v k a with h | ⟨_, _, _, h⟩ <;> rw [h, e] <;> simp [hh]
  · next hh => constructor <;> simp [hh]

end Sys2Proof.Safety
end

