-- ==== Sys2Proof/Laws/Completion.lean ====
section
/-! SUPPORT. An exchange's end as one act: the active slot answered, its station's record written, the held head released,
and the arbiter's choice (R92 to R95, R140). -/

namespace Sys2Proof.Safety

open Sys2Proof.Machine

/-- How an answered exchange leaves the part, with `r` the record written for its station. -/
structure Finished (b : BuiltReply) (i : SlotIx) (r : Station) (s t : State) : Prop where
  traffic : trafficOwed t = trafficOwed s ++ [slotAnswer (s.slot i) b.status b.values]
  replies : repliesOwed t = repliesOwed s
  notices : noticesOwed t = noticesOwed s
  done : slotDone (s.slot i) (t.slot i) b.status b.values
  station : { t.station (s.slot i).seg (s.slot i).station with due := r.due } =
    { r with activeSlot := r.held.head?, held := r.held.tail }
  joined : ∀ j, r.held.head? = some j → (t.slot j).state = .queued ∨ (t.slot j).state = .sending
  others : ∀ j, j ≠ i → r.held.head? ≠ some j → (s.slot j).state ≠ .queued → t.slot j = s.slot j

theorem finished {b : BuiltReply} {i : SlotIx} {r : Station} {s u : State} (hr : s.resetHeld = false)
    (hp : SlotPlaces s) (hu : UpstreamRests s) (hs : (s.slot i).state = .sent) (hup : u.up = s.up)
    (hslot : ∀ j, u.slot j = s.slot j) (hseg : ∀ k, u.seg k = s.seg k)
    (hheld : r.held = (s.station (s.slot i).seg (s.slot i).station).held) (hact : r.activeSlot = none) :
    Finished b i r s (arbiterIfIdle (releaseHeld (s.slot i).seg (s.slot i).station
      ((answerSlot b u i).setStation (s.slot i).seg (s.slot i).station r))) := by
  have hiw : i ∉ u.up.waitList := by rw [hup, hp.waiting, hs]; decide
  have A := answerSlot_answered b hiw
  have hvs : ∀ k, (answerSlot b u i).seg k = s.seg k := fun k => by rw [answerSlot_seg, hseg]
  generalize answerSlot b u i = v at *
  obtain ⟨Rt, Rj, Ro, Rs⟩ := releaseHeld_released (s.slot i).seg (s.slot i).station (v.setStation (s.slot i).seg (s.slot i).station r) (by
    intro j m hm
    rw [State.setStation_queue, hvs, hp.queued] at hm
    have hmi : m ≠ i := fun e => by rw [e, hs] at hm; exact absurd hm.1 (by decide)
    rw [State.setStation_slot, A.others m hmi, hslot]
    exact hm.2)
  have hst : (v.setStation (s.slot i).seg (s.slot i).station r).station (s.slot i).seg (s.slot i).station = r := by simp
  rw [hst] at Rj Ro Rs
  have hup2 : (releaseHeld (s.slot i).seg (s.slot i).station
      (v.setStation (s.slot i).seg (s.slot i).station r)).up = v.up := by simp
  generalize hw : releaseHeld (s.slot i).seg (s.slot i).station (v.setStation (s.slot i).seg (s.slot i).station r) = w at *
  have hwait : w.up.waitList.Nodup := by rw [hup2]; exact A.waitOnce (by rw [hup]; exact hp.waitingOnce)
  have C := arbiterIfIdle_chosen hwait
  have hown : trafficOwed v = trafficOwed s ++ [slotAnswer (s.slot i) b.status b.values] := by
    rw [A.traffic, hslot, trafficOwed_congr hup (fun j _ => by rw [hslot])]
  have hvt : trafficOwed (v.setStation (s.slot i).seg (s.slot i).station r) = trafficOwed v :=
    trafficOwed_congr (by simp) (fun j _ => by simp)
  -- the arbiter lets in at most the answered slot's own reply
  have stay : ∀ j, j ≠ i → (arbiterIfIdle w).slot j = w.slot j := by
    intro j hj
    rcases C.slot j with e | ⟨h1, h2, _⟩
    · exact e
    · exfalso
      rw [hup2] at h1 h2
      rw [A.sending, hup] at h1
      rcases A.wait j h2 with e | e
      · exact hj e
      · rw [hup, (hu hr h1).2.2.2] at e; cases e
  have hheadi : r.held.head? ≠ some i := by
    intro e
    have : i ∈ r.held := List.mem_of_mem_head? e
    rw [hheld, hp.held, hs] at this
    exact absurd this.1 (by decide)
  have hdone : slotDone (s.slot i) (w.slot i) b.status b.values := by
    rcases Ro i hheadi with e | e
    · rw [e, State.setStation_slot, ← hslot]; exact A.slot
    · exfalso
      rw [State.setStation_queue, hvs, hp.queued, hs] at e
      exact absurd e.1 (by decide)
  constructor
  · rw [C.traffic, Rt, hvt, hown]
  · rw [C.replies, repliesOwed_congr hup2, A.replies, repliesOwed_congr hup]
  · rw [C.notices, noticesOwed_congr hup2, A.notices, noticesOwed_congr hup]
  · exact C.slotDone hdone
  · rw [arbiterIfIdle_station, Rs, hact]
    cases h : r.held <;> simp
  · intro j hj
    have hji : j ≠ i := fun e => hheadi (e ▸ hj)
    rw [stay j hji]
    exact Rj j hj
  · intro j hj hh hq
    rw [stay j hj]
    rcases Ro j hh with e | e
    · rw [e, State.setStation_slot, A.others j hj, hslot]
    · exfalso
      rw [State.setStation_queue, hvs, hp.queued] at e
      exact hq e.1

end Sys2Proof.Safety
end

