-- ==== Sys2Proof/Laws/DrainRules.lean ====
section
/-! SUPPORT. What the operations inside a taking do to a drain (R168 to R176). -/

namespace Sys2Proof.Safety

open Sys2Proof.Machine

/-- The generation of a slot on its way to a station, and of a parked slot. -/
def OnTheWay (G : Word) (_ : SlotIx) (x : Slot) : Prop := (x.state = .held ∨ isActive x.state → x.generation = G) ∧
    (x.state = .parked → x.generation = G + 1)

/-- One slot stays counted as old. -/
def CountedAt (G : Word) (i0 i : SlotIx) (x : Slot) : Prop := i = i0 → x.countsAsOld G = true

theorem onTheWay_rules (G) : AnswerRules (OnTheWay G) where
  start i x h e := ⟨fun _ => h.1 (by rw [e]; simp [isActive]), by simp⟩
  sent i x d h e := ⟨fun _ => h.1 (by rw [e]; simp [isActive]), by simp⟩
  queue i x h e := ⟨fun _ => h.1 (by rcases e with e | e <;> rw [e] <;> simp [isActive]), by simp⟩
  retry i x h e := ⟨fun _ => h.1 (by rw [e]; simp [isActive]), fun h2 => by simp [e] at h2⟩
  leave i x h e := ⟨by simp [Slot.cleared, isActive], by simp [Slot.cleared]⟩
  ready i x b h e := ⟨by simp [isActive], by simp⟩

theorem countedAt_rules (G i0) : MoveRules (CountedAt G i0) where
  start i x h e hi := by have := h hi; simp [Slot.countsAsOld, e, advanceNumbers] at this ⊢; exact this
  sent i x d h e hi := by have := h hi; simp [Slot.countsAsOld, e] at this ⊢; exact this
  queue i x h e hi := by have := h hi; rcases e with e | e <;> simp [Slot.countsAsOld, e] at this ⊢ <;> exact this
  retry i x h e hi := by have := h hi; simp [Slot.countsAsOld, e] at this ⊢; exact this
  leave i x h e hi := by have := h hi; simp [Slot.countsAsOld, e] at this

/-- The old-generation count is positive when some slot is counted (R168). -/
theorem oldGenCount_pos {s : State} : 0 < s.oldGenCount ↔ ∃ i, (s.slot i).countsAsOld s.store.generation = true := by
  unfold State.oldGenCount
  rw [List.countP_pos_iff]
  constructor
  · rintro ⟨x, hx, h⟩
    simp only [Vector.mem_toList_iff, Vector.mem_iff_getElem] at hx
    obtain ⟨n, hn, rfl⟩ := hx
    exact ⟨⟨n, hn⟩, h⟩
  · rintro ⟨i, h⟩
    exact ⟨s.slot i, by simp only [State.slot]; simp only [Vector.mem_toList_iff]; exact Vector.getElem_mem _, h⟩

/-- `DrainSound` before a drain that has come to its end is completed. -/
structure DrainPre (s : State) : Prop where
  idle : s.commit.state = .idle → s.commit.incoming = none ∧ s.commit.drainTimer = .stopped ∧ s.parked = []
  draining : s.commit.state = .draining → s.commit.incoming = some (s.store.generation + 1) ∧
    s.commit.drainTimer.isRunning = true
  slots : AllSlots (OnTheWay s.store.generation) s

theorem DrainSound.pre {s : State} (h : DrainSound s) : DrainPre s :=
  ⟨h.idle, fun e => ⟨(h.draining e).1, (h.draining e).2.1⟩, fun i => ⟨h.current i, h.parked i⟩⟩

theorem DrainPre.sound {s : State} (h : DrainPre s) (hc : s.commit.state = .draining → 0 < s.oldGenCount) :
    DrainSound s :=
  ⟨h.idle, fun e => ⟨(h.draining e).1, (h.draining e).2, hc e⟩, fun i => (h.slots i).1, fun i => (h.slots i).2⟩

theorem DrainPre.then {s t : State} (h : DrainPre s) (hc : t.commit = s.commit) (hs : t.store = s.store) (hp :
    s.commit.state = .idle → t.parked = s.parked)
    (ha : AllSlots (OnTheWay s.store.generation) t) : DrainPre t := by
  constructor
  · rw [hc]; intro e; rw [hp e]; exact h.idle e
  · rw [hc, hs]; exact h.draining
  · rw [hs]; exact ha

theorem DrainSound.then {s t : State} (h : DrainSound s) (hc : t.commit = s.commit) (hs : t.store = s.store) (hp :
    s.commit.state = .idle → t.parked = s.parked)
    (ha : AllSlots (OnTheWay s.store.generation) t) (hq : ∀ i0, AllSlots (CountedAt s.store.generation i0) s → AllSlots (CountedAt
      s.store.generation i0) t) : DrainSound t := by
  refine (h.pre.then hc hs hp ha).sound fun e => ?_
  rw [hc] at e
  obtain ⟨i0, h0⟩ := oldGenCount_pos.1 (h.draining e).2.2
  rw [oldGenCount_pos, hs]
  exact ⟨i0, hq i0 (fun i hi => hi ▸ h0) i0 rfl⟩

/-- A taking that answers nothing keeps it. -/
theorem DrainSound.move {s t : State} (h : DrainSound s) (hc : t.commit = s.commit) (hs : t.store = s.store) (hp :
    s.commit.state = .idle → t.parked = s.parked)
    (hm : ∀ Q : SlotIx → Slot → Prop, MoveRules Q → AllSlots Q s → AllSlots Q t) : DrainSound t :=
  h.then hc hs hp (hm _ (onTheWay_rules _).toMoveRules h.pre.slots) fun i0 => hm _ (countedAt_rules _ i0)

theorem DrainSound.congr {s t : State} (h : DrainSound s) (hc : t.commit = s.commit) (hs : t.store = s.store) (hp :
    t.parked = s.parked) (hl : t.slots = s.slots) : DrainSound t :=
  h.move hc hs (fun _ => hp) fun _ _ a => a.congr hl

theorem DrainSound.arbiter {s : State} (h : DrainSound s) (p : PlacesBut s none []) : DrainSound (arbiterIfIdle s) :=
  h.move (by simp) (by simp) (by simp) fun _ r a => a.arbiterIfIdle r p

theorem DrainSound.ofIdle {s : State} (hc : s.commit = CommitControl.initial) (hp : s.parked = []) (h1 : ∀ i, (s.slot
    i).state = .held ∨ isActive (s.slot i).state → (s.slot i).generation = s.store.generation)
    (h2 : ∀ i, (s.slot i).state ≠ .parked) : DrainSound s where
  idle _ := by rw [hc, hp]; exact ⟨rfl, rfl, rfl⟩
  draining e := by rw [hc] at e; cases e
  current := h1
  parked i e := absurd e (h2 i)

/-- Every slot not yet answered carries one generation. -/
def AllCurrent (G : Word) (_ : SlotIx) (x : Slot) : Prop := (x.state = .held ∨ isActive x.state ∨ x.state = .parked →
    x.generation = G)

theorem allCurrent_rules (G) : PlaceRules (AllCurrent G) where
  start i x h e := fun _ => h (by rw [e]; simp [isActive])
  sent i x d h e := fun _ => h (by rw [e]; simp [isActive])
  queue i x h e := fun _ => h (by rcases e with e | e <;> rw [e] <;> simp [isActive])
  retry i x h e := fun _ => h (by rw [e]; simp [isActive])
  leave i x h e := by simp [AllCurrent, Slot.cleared, isActive]
  ready i x b h e := by simp [AllCurrent, isActive]
  place i x h e := fun _ => h (by rw [e]; simp)
  wait i x h e := fun _ => h (by rw [e]; simp)

theorem parked_none {s : State} (p : PlacesBut s none []) (h : s.parked = []) (i) : (s.slot i).state ≠ .parked := by
  intro e
  have := (p.parked i).2 ⟨by simp, e⟩
  rw [h] at this; cases this

theorem swap_gen (st : BankStore) : st.swap.generation = st.generation + 1 := rfl

/-- Drain completion (R173). -/
theorem DrainPre.finish {s : State} (h : DrainPre s) (p : PlacesBut s none []) : DrainSound (drainIfDone s) := by
  unfold drainIfDone
  split
  · next hd =>
    have hz : ∀ i, (s.slot i).countsAsOld s.store.generation = false := by
      intro i
      by_contra hne
      have := oldGenCount_pos.2 ⟨i, by simpa using hne⟩
      omega
    have hq : AllSlots (AllCurrent (s.store.generation + 1)) s := by
      intro i hi
      rcases hi with e | e | e
      · have g := (h.slots i).1 (.inl e)
        have := hz i
        simp [Slot.countsAsOld, g, e] at this
      · have g := (h.slots i).1 (.inr e)
        have := hz i
        rcases e with e | e | e <;> simp [Slot.countsAsOld, g, e] at this
      · exact (h.slots i).2 e
    have pc := p.completeDrain
    have hc := hq.completeDrain (allCurrent_rules _) p
    have st : (completeDrain s).store = s.store.swap := by
      have := settled_completeDrain hd.1
      rcases this.outcome with ⟨_, b, _⟩ | ⟨_, b, c, d⟩ | ⟨_, b, _, _⟩
      · exfalso
        have : (completeDrain s).commit = CommitControl.initial := rfl
        rw [b] at this; rw [this] at hd; cases hd.1
      · exact (by unfold completeDrain; dsimp only; rw [raiseNotice_store, (bystander_foldPlace _).store])
      · exact b
    have hp : (completeDrain s).parked = [] := by
      unfold completeDrain; dsimp only; rw [raiseNotice_parked]
      have : ∀ (l : List SlotIx) (u : State), (l.foldl placeParked u).parked = u.parked := by
        intro l; induction l with
        | nil => intro u; rfl
        | cons i l ih =>
          intro u; rw [List.foldl_cons, ih]; unfold placeParked; dsimp only; split
          · simp
          · split <;> simp
      rw [this]
    refine DrainSound.ofIdle rfl hp ?_ (parked_none pc hp)
    intro i e
    rw [st, swap_gen]
    exact hc i (by rcases e with e | e; exact .inl e; exact .inr (.inl e))
  · next hd =>
    refine h.sound fun e => ?_
    by_contra hne
    exact hd ⟨e, by omega⟩

/-- The end of a drain without a swap (R175, R176). -/
theorem DrainPre.fail {s : State} (h : DrainPre s) (p : PlacesBut s none []) (r) : DrainSound (failDrain r s) := by
  have pf := p.failDrain r
  have hp : (failDrain r s).parked = [] := by unfold failDrain; dsimp only; simp
  have hs : (failDrain r s).store = s.store := by unfold failDrain; dsimp only; simp
  refine DrainSound.ofIdle rfl hp ?_ (parked_none pf hp)
  intro i e
  rw [hs]
  exact (h.slots.failDrain (onTheWay_rules _) p r i).1 e

theorem DrainSound.mgmt {s : State} (h : DrainSound s) (p : PlacesBut s none []) (hd args) : DrainSound
    (takeMgmtByCode hd args s) := by
  refine takeMgmtByCode_keeps (P := DrainSound) ⟨h.congr (by simp) (by simp) (by simp) (by simp), h, fun _ => h.congr
    rfl rfl rfl rfl,
    fun _ _ _ => h.congr rfl rfl rfl rfl, fun _ _ => h.congr rfl rfl rfl rfl, fun _ => ?_⟩ args
  constructor
  · exact fun _ _ => h.congr rfl rfl rfl rfl
  · exact fun _ _ _ => h.congr rfl rfl rfl rfl
  · exact h.congr rfl rfl rfl rfl
  · intro hi b _
    have hg : ∀ b : Bank, (s.store.setShadow b).generation = s.store.generation := by
      intro b
      unfold BankStore.setShadow
      cases s.store.active <;> rfl
    constructor
    · exact h.idle
    · intro e; have e' : s.commit.state = .draining := e; rw [hi] at e'; cases e'
    · intro i e; exact (h.current i e).trans (hg b).symm
    · intro i e
      have eg : (answerStored hd .done [] (updateShadow (fun _ => b) s)).store.generation = s.store.generation := hg b
      rw [eg]
      exact h.parked i e
  · exact fun k a => h.congr (by cases k <;> rfl) (by cases k <;> rfl) (by cases k <;> rfl) (by cases k <;> rfl)
  · exact fun _ _ => h.congr rfl rfl rfl rfl
  · intro hi _
    unfold beginDrain
    refine DrainPre.finish (s := _) ?_ ((p.answerStored hd .accepted (wordBytes s.store.nextGeneration)).congr rfl
      rfl rfl rfl rfl)
    constructor
    · intro e; cases e
    · intro _; exact ⟨rfl, rfl⟩
    · exact h.pre.slots.congr rfl
  · intro hi
    exact DrainPre.fail (s := answerStored hd .done [] s) (DrainSound.congr (t := answerStored hd .done [] s) h rfl
      rfl rfl rfl).pre (p.answerStored hd _ _) _

theorem DrainSound.request {s : State} (h : DrainSound s) (p : PlacesBut s none []) (dst src tag rest) : DrainSound
    (takeRequest dst src tag rest s) := by
  unfold takeRequest
  split
  · unfold offerRefusal; split <;> exact h.congr (by simp) (by simp) (by simp) (by simp)
  · next i y e =>
    obtain ⟨f, en, vs, _, _, _, _, hsil, _, hfree, rfl⟩ := judgeRequest_allot e
    have hfr := (freeSlot?_some hfree).1
    have had : ∀ Q : SlotIx → Slot → Prop, MoveRules Q → AllSlots Q s → ((s.commit.state = .idle → ∀ st, st = .queued
      ∨ st = .held → Q i { admittedSlot s (s.slot i) dst src tag f en vs with state := st }) ∧
       (s.commit.state = .draining → Q i { admittedSlot s (s.slot i) dst src tag f en vs with state := .parked })) →
         AllSlots Q (placeAdmitted i (admittedSlot s (s.slot i) dst src tag f en vs) (countAdmitted s)) := by
      intro Q r ha hq
      refine AllSlots.placeAdmitted r (ha.congr (by simp)) (p.setCounters _) _ ?_ ?_
      · intro hi; exact ⟨hq.1 hi .queued (.inl rfl), hq.1 hi .held (.inr rfl)⟩
      · exact hq.2
    have hst : (placeAdmitted i (admittedSlot s (s.slot i) dst src tag f en vs) (countAdmitted s)).commit = s.commit
      ∧ (placeAdmitted i (admittedSlot s (s.slot i) dst src tag f en vs) (countAdmitted s)).store = s.store ∧
        (s.commit.state = .idle → (placeAdmitted i (admittedSlot s (s.slot i) dst src tag f en vs) (countAdmitted
          s)).parked = s.parked) := by
      unfold placeAdmitted; split
      · next hc =>
        have hc' : s.commit.state = .draining := hc
        exact ⟨rfl, rfl, fun e => absurd (hc'.symm.trans e) (by simp)⟩
      · dsimp only; split <;> exact ⟨by simp, by simp, by simp⟩
    refine h.then hst.1 hst.2.1 hst.2.2 (had _ (onTheWay_rules _).toMoveRules h.pre.slots ⟨?_, ?_⟩) fun i0 ha => had _
      (countedAt_rules _ i0) ha ⟨?_, ?_⟩
    · intro hi st hst
      refine ⟨fun _ => ?_, fun e => ?_⟩
      · simp [admittedSlot, State.admissionGeneration, hi]
      · rcases hst with rfl | rfl <;> cases e
    · intro hd
      refine ⟨fun e => by simp [isActive] at e, fun _ => ?_⟩
      simp [admittedSlot, State.admissionGeneration, hd, (h.draining hd).1]
    · intro _ st _ hi0
      have := ha i hi0; simp [Slot.countsAsOld, hfr] at this
    · intro _ hi0
      have := ha i hi0; simp [Slot.countsAsOld, hfr] at this

end Sys2Proof.Safety
end

