-- ==== Sys2Proof/Laws/Placing.lean ====
section
/-! SUPPORT. The parked slots placed at a swap, in their order (R97, R174). -/

namespace Sys2Proof.Safety

open Sys2Proof.Machine

variable {s t : State}

/-- The slots of a station in the order they will be served. -/
def lineUp (r : Station) : List SlotIx := r.activeSlot.toList ++ r.held

theorem SameExchange.refl (x : Slot) : SameExchange x x := rfl

theorem SameExchange.trans {x y z : Slot} (h : SameExchange x y) (g : SameExchange y z) : SameExchange x z := by
  unfold SameExchange at *
  rw [← h, ← g]

theorem SameExchange.seg {x y : Slot} (h : SameExchange x y) : y.seg = x.seg := by
  unfold SameExchange at h; rw [← h]

theorem SameExchange.station {x y : Slot} (h : SameExchange x y) : y.station = x.station := by
  unfold SameExchange at h; rw [← h]

theorem SameExchange.answer {x y : Slot} (h : SameExchange x y) (st : ReplyStatus) (vs : List Word) :
    slotAnswer y st vs = slotAnswer x st vs := by
  unfold SameExchange at h; rw [← h]; rfl

theorem queueSlot_sameExchange (i : SlotIx) (s : State) (j : SlotIx) : SameExchange (s.slot j) ((queueSlot i s).slot j) := by
  by_cases hj : j = i
  · subst hj
    rcases queueSlot_joined j s with h | h <;> (rw [h]; exact rfl)
  · rcases queueSlot_others i s hj with h | ⟨_, h⟩ <;> (rw [h]; exact rfl)

/-- A parked slot is answered when its station is SILENT. -/
def parkedSilent (s : State) (i : SlotIx) : Bool :=
  decide ((s.station (s.slot i).seg (s.slot i).station).health = .silent)

/-- The slot goes to this station. -/
def goesTo (s : State) (k : Segment) (a : StationAddr) (i : SlotIx) : Bool :=
  decide ((s.slot i).seg = k ∧ (s.slot i).station = a)

/-- Slots wait at a station only behind its active slot (R75). -/
def InOrder (s : State) : Prop := ∀ k a, (s.station k a).activeSlot = none → (s.station k a).held = []

/-- What placing parked slots in order does. -/
structure AllPlaced (l : List SlotIx) (s t : State) : Prop where
  traffic : trafficOwed t = trafficOwed s ++
    (l.filter (parkedSilent s)).map (fun i => slotAnswer (s.slot i) .stationSilent [])
  replies : repliesOwed t = repliesOwed s
  notices : noticesOwed t = noticesOwed s
  record : ∀ k a, { t.station k a with activeSlot := none, held := [], due := false } =
    { s.station k a with activeSlot := none, held := [], due := false }
  silent : ∀ k a, (s.station k a).health = .silent →
    (t.station k a).activeSlot = (s.station k a).activeSlot ∧ (t.station k a).held = (s.station k a).held
  lineUp : ∀ k a, (s.station k a).health ≠ .silent →
    lineUp (t.station k a) = lineUp (s.station k a) ++ l.filter (goesTo s k a)
  inOrder : InOrder t
  slots : (∀ j ∈ l, ∀ k, j ∉ (s.seg k).queue) →
    ∀ j, SameExchange (s.slot j) (t.slot j) ∨ ((t.slot j).state = .free ∧ ∀ k, j ∉ (t.seg k).queue)
  others : ∀ j, j ∉ l → SameExchange (s.slot j) (t.slot j)
  apart : ∀ j, j ∉ l → (∀ k, j ∉ (s.seg k).queue) → t.slot j = s.slot j ∧ ∀ k, j ∉ (t.seg k).queue
  wait : ∀ j ∈ t.up.waitList, j ∈ l ∨ j ∈ s.up.waitList
  waitOnce : s.up.waitList.Nodup → t.up.waitList.Nodup
  sending : t.up.sending = s.up.sending
  noticeQueue : t.up.notices = s.up.notices
  nextNotice : t.up.nextNotice = s.up.nextNotice
  pendingLost : t.up.pendingLost = s.up.pendingLost

theorem AllPlaced.health {l : List SlotIx} (h : AllPlaced l s t) (k : Segment) (a : StationAddr) :
    (t.station k a).health = (s.station k a).health := by
  have e := congrArg Station.health (h.record k a)
  exact e

theorem placeParked_placed {i : SlotIx} (hi : i ∉ s.up.waitList) (ho : InOrder s) : AllPlaced [i] s (placeParked s i) := by
  unfold placeParked
  dsimp only
  split
  · next hs =>
    have A := answerSlot_answered ⟨.stationSilent, []⟩ hi
    have hst : ∀ k a, (answerSlot ⟨.stationSilent, []⟩ s i).station k a = s.station k a := by simp
    have hsg : ∀ k, (answerSlot ⟨.stationSilent, []⟩ s i).seg k = s.seg k := by simp
    generalize answerSlot ⟨.stationSilent, []⟩ s i = t at *
    have hps : parkedSilent s i = true := by simp [parkedSilent, hs]
    constructor
    · rw [A.traffic]; simp [hps]
    · exact A.replies
    · exact A.notices
    · intro k a; rw [hst]
    · intro k a _; rw [hst]; exact ⟨rfl, rfl⟩
    · intro k a hk
      rw [hst]
      have : goesTo s k a i = false := by
        unfold goesTo
        rw [decide_eq_false_iff_not]
        rintro ⟨rfl, rfl⟩
        exact hk hs
      simp [this]
    · intro k a; rw [hst]; exact ho k a
    · intro hq j
      by_cases hj : j = i
      · subst hj
        rcases A.slot with e | e
        · right; rw [e]; exact ⟨rfl, fun k => by rw [hsg]; exact hq j (by simp) k⟩
        · left; rw [e]; exact rfl
      · left; rw [A.others j hj]; exact SameExchange.refl _
    · intro j hj
      rw [A.others j (by simpa using hj)]; exact SameExchange.refl _
    · intro j hj hq
      exact ⟨A.others j (by simpa using hj), fun k => by rw [hsg]; exact hq k⟩
    · intro j hj; rcases A.wait j hj with e | e
      · left; simp [e]
      · exact .inr e
    · exact A.waitOnce
    · exact A.sending
    · exact A.noticeQueue
    · exact A.nextNotice
    · exact A.pendingLost
  · next hs =>
    have hps : parkedSilent s i = false := by simp [parkedSilent, hs]
    split
    · next hact =>
      generalize hv : s.setStation (s.slot i).seg (s.slot i).station
        { s.station (s.slot i).seg (s.slot i).station with activeSlot := some i } = v
      have hvs : ∀ j, v.slot j = s.slot j := fun j => by rw [← hv]; simp
      have hvu : v.up = s.up := by rw [← hv]; simp
      have hst : ∀ k a, { (queueSlot i v).station k a with due := false } = { v.station k a with due := false } ∧
          ((queueSlot i v).station k a).activeSlot = (v.station k a).activeSlot ∧
          ((queueSlot i v).station k a).held = (v.station k a).held := by
        intro k a
        rcases queueSlot_station i v k a with e | ⟨_, _, _, e⟩ <;> rw [e] <;> exact ⟨rfl, rfl, rfl⟩
      have hv2 : ∀ k a, v.station k a = if (s.slot i).seg = k ∧ (s.slot i).station = a then
          { s.station (s.slot i).seg (s.slot i).station with activeSlot := some i } else s.station k a := by
        intro k a; rw [← hv]; simp
      have hqu : (queueSlot i v).up = s.up := by simp [hvu]
      have hx : ∀ j, SameExchange (s.slot j) ((queueSlot i v).slot j) := fun j => by
        have := queueSlot_sameExchange i v j
        rw [hvs] at this; exact this
      constructor
      · rw [queueSlot_trafficOwed, trafficOwed_congr hvu (fun j _ => by rw [hvs])]; simp [hps]
      · exact repliesOwed_congr hqu
      · exact noticesOwed_congr hqu
      · intro k a
        have e := congrArg (fun r : Station => { r with activeSlot := none, held := [] }) (hst k a).1
        refine e.trans ?_
        rw [hv2]; split
        · next e => obtain ⟨rfl, rfl⟩ := e; rfl
        · rfl
      · intro k a hk; rw [(hst k a).2.1, (hst k a).2.2, hv2]; split
        · next e => obtain ⟨rfl, rfl⟩ := e; exact absurd hk hs
        · exact ⟨rfl, rfl⟩
      · intro k a hk
        unfold Safety.lineUp
        rw [(hst k a).2.1, (hst k a).2.2, hv2]
        split
        · next e =>
          have hg : goesTo s k a i = true := decide_eq_true e
          obtain ⟨rfl, rfl⟩ := e
          simp [hg, hact, ho _ _ hact]
        · next e =>
          have hg : goesTo s k a i = false := decide_eq_false e
          simp [hg]
      · intro k a; rw [(hst k a).2.1, (hst k a).2.2, hv2]; split
        · simp
        · exact ho k a
      · exact fun _ j => .inl (hx j)
      · exact fun j _ => hx j
      · intro j hj hq
        have hji : j ≠ i := by simpa using hj
        have hqv : ∀ k, (v.seg k).queue = (s.seg k).queue := fun k => by rw [← hv]; simp
        refine ⟨?_, fun k hk => ?_⟩
        · rcases queueSlot_others i v hji with e | ⟨h1, _⟩
          · rw [e, hvs]
          · rw [hqv] at h1; exact absurd h1 (hq _)
        · rcases queueSlot_queue i v k j hk with e | e
          · exact hji e
          · rw [hqv] at e; exact hq k e
      · intro j hj; rw [hqu] at hj; exact .inr hj
      · rw [hqu]; exact id
      all_goals rw [hqu]
    · next m hact =>
      generalize hv : (s.setSlot i { s.slot i with state := .held }).setStation (s.slot i).seg (s.slot i).station
        { s.station (s.slot i).seg (s.slot i).station with
          held := (s.station (s.slot i).seg (s.slot i).station).held ++ [i] } = v
      have hvu : v.up = s.up := by rw [← hv]; simp
      have hv2 : ∀ k a, v.station k a = if (s.slot i).seg = k ∧ (s.slot i).station = a then
          { s.station (s.slot i).seg (s.slot i).station with
            held := (s.station (s.slot i).seg (s.slot i).station).held ++ [i] } else s.station k a := by
        intro k a; rw [← hv]; simp
      have hx : ∀ j, SameExchange (s.slot j) (v.slot j) := fun j => by
        rw [← hv]
        by_cases hj : i = j
        · subst hj; simp; exact rfl
        · simp [hj]; exact SameExchange.refl _
      have hrep : ∀ j, slotReply (v.slot j) = slotReply (s.slot j) := fun j => by
        rw [← hv]
        by_cases hj : i = j
        · subst hj; simp; rfl
        · simp [hj]
      constructor
      · rw [trafficOwed_congr hvu (fun j _ => hrep j)]; simp [hps]
      · exact repliesOwed_congr hvu
      · exact noticesOwed_congr hvu
      · intro k a; rw [hv2]; split
        · next e => obtain ⟨rfl, rfl⟩ := e; rfl
        · rfl
      · intro k a hk; rw [hv2]; split
        · next e => obtain ⟨rfl, rfl⟩ := e; exact absurd hk hs
        · exact ⟨rfl, rfl⟩
      · intro k a hk
        unfold Safety.lineUp
        rw [hv2]
        split
        · next e =>
          have hg : goesTo s k a i = true := decide_eq_true e
          obtain ⟨rfl, rfl⟩ := e
          simp [hg]
        · next e =>
          have hg : goesTo s k a i = false := decide_eq_false e
          simp [hg]
      · intro k a; rw [hv2]; split
        · simp [hact]
        · exact ho k a
      · exact fun _ j => .inl (hx j)
      · exact fun j _ => hx j
      · intro j hj hq
        have hji : i ≠ j := by rw [List.mem_singleton] at hj; exact fun e => hj e.symm
        exact ⟨by rw [← hv]; simp [hji], fun k => by rw [← hv]; simpa using hq k⟩
      · intro j hj; rw [hvu] at hj; exact .inr hj
      · rw [hvu]; exact id
      all_goals rw [hvu]

theorem foldPlace_placed : ∀ (l : List SlotIx) {s : State}, l.Nodup → (∀ i ∈ l, i ∉ s.up.waitList) → InOrder s →
    AllPlaced l s (l.foldl placeParked s)
  | [], s, _, _, ho => by
    constructor <;> try simp
    · exact ho
    · exact fun j => .inl (SameExchange.refl _)
    · exact fun j => SameExchange.refl _
  | i :: l, s, hn, hw, ho => by
    have h1 := placeParked_placed (hw i (by simp)) ho
    have hil : i ∉ l := (List.nodup_cons.mp hn).1
    have h2 := foldPlace_placed l (s := placeParked s i) (List.nodup_cons.mp hn).2 (by
      intro j hj hj2
      rcases h1.wait j hj2 with e | e
      · rw [List.mem_singleton] at e; exact hil (e ▸ hj)
      · exact hw j (by simp [hj]) e) h1.inOrder
    rw [List.foldl_cons]
    generalize placeParked s i = u at *
    generalize l.foldl placeParked u = t at *
    have hx : ∀ j ∈ l, SameExchange (s.slot j) (u.slot j) := fun j hj => h1.others j (by
      rw [List.mem_singleton]; exact fun e => hil (e ▸ hj))
    have hf1 : l.filter (parkedSilent u) = l.filter (parkedSilent s) := List.filter_congr fun j hj => by
      unfold parkedSilent
      rw [(hx j hj).seg, (hx j hj).station, h1.health]
    have hf2 : ∀ k a, l.filter (goesTo u k a) = l.filter (goesTo s k a) := fun k a => List.filter_congr fun j hj => by
      unfold goesTo
      rw [(hx j hj).seg, (hx j hj).station]
    constructor
    · rw [h2.traffic, h1.traffic, hf1, List.append_assoc]
      congr 1
      rw [show i :: l = [i] ++ l from rfl, List.filter_append, List.map_append]
      congr 1
      exact List.map_congr_left fun j hj => (hx j (List.mem_of_mem_filter hj)).answer _ _
    · rw [h2.replies, h1.replies]
    · rw [h2.notices, h1.notices]
    · intro k a; exact (h2.record k a).trans (h1.record k a)
    · intro k a hk
      have g1 := h1.silent k a hk
      have g2 := h2.silent k a (by rw [h1.health]; exact hk)
      exact ⟨g2.1.trans g1.1, g2.2.trans g1.2⟩
    · intro k a hk
      rw [h2.lineUp k a (by rw [h1.health]; exact hk), h1.lineUp k a hk, hf2, List.append_assoc]
      congr 1
      rw [show i :: l = [i] ++ l from rfl, List.filter_append]
    · exact h2.inOrder
    · intro hq j
      have hq1 : ∀ j ∈ l, ∀ k, j ∉ (u.seg k).queue := fun j hj =>
        (h1.apart j (by rw [List.mem_singleton]; exact fun e => hil (e ▸ hj)) (hq j (by simp [hj]))).2
      by_cases hj : j ∈ l
      · rcases h2.slots hq1 j with e | e
        · exact .inl ((hx j hj).trans e)
        · exact .inr e
      · rcases h1.slots (fun j hj => hq j (by rw [List.mem_singleton] at hj; simp [hj])) j with e | ⟨e, e2⟩
        · exact .inl (e.trans (h2.others j hj))
        · right
          have g := h2.apart j hj e2
          exact ⟨by rw [g.1]; exact e, g.2⟩
    · intro j hj
      rw [List.mem_cons, not_or] at hj
      exact (h1.others j (by simpa using hj.1)).trans (h2.others j hj.2)
    · intro j hj hq
      rw [List.mem_cons, not_or] at hj
      have g := h1.apart j (by simpa using hj.1) hq
      have g2 := h2.apart j hj.2 g.2
      exact ⟨g2.1.trans g.1, g2.2⟩
    · intro j hj
      rcases h2.wait j hj with e | e
      · left; simp [e]
      · rcases h1.wait j e with e | e
        · left; rw [List.mem_singleton] at e; simp [e]
        · exact .inr e
    · exact fun h => h2.waitOnce (h1.waitOnce h)
    · rw [h2.sending, h1.sending]
    · rw [h2.noticeQueue, h1.noticeQueue]
    · rw [h2.nextNotice, h1.nextNotice]
    · rw [h2.pendingLost, h1.pendingLost]

end Sys2Proof.Safety
end

