-- ==== Sys2Proof/Laws/Closing.lean ====
section
/-! SUPPORT. How a taking that answers exchanges meets a drain: it leaves the drain on while another exchange of the current
generation is open, else it completes it as its last act (R168, R170, R173, R174). -/

namespace Sys2Proof.Safety

open Sys2Proof.Machine

variable {s v : State} {answered : SlotIx → Prop} {answers : List Telegram} {stands : Segment → StationAddr → Station}

theorem countsAsOld_iff {x : Slot} {G : Word} :
    x.countsAsOld G = true ↔ x.generation = G ∧ (x.state = .held ∨ isActive x.state) := by
  unfold Slot.countsAsOld isActive
  simp

/-! ### The three takings that answer an active slot, before a drain may complete -/

/-- A matching REPLY (R87, R94): the station of an active slot is not SILENT. -/
theorem completeMatch_form {b : BuiltReply} {i : SlotIx} {s : State}
    (hn : (s.station (s.slot i).seg (s.slot i).station).health ≠ .silent) :
    completeMatch (s.slot i).seg i b s = drainIfDone (releaseHeld (s.slot i).seg (s.slot i).station
      ((answerSlot b s i).setStation (s.slot i).seg (s.slot i).station
        { s.station (s.slot i).seg (s.slot i).station with health := .online, failures := 0, activeSlot := none })) := by
  unfold completeMatch completeSuccess takeAlive clearActive
  rw [answerSlot_station]
  dsimp only
  rw [if_neg hn]
  simp only [State.station_setStation, and_self, if_true, State.setStation_setStation]

/-- A final failure below the silent threshold (R84, R95, R106). -/
theorem failSlot_suspect {i : SlotIx} {s : State}
    (hlt : (s.station (s.slot i).seg (s.slot i).station).failures + 1 < s.agent.silentThreshold) :
    failSlot i s = drainIfDone (releaseHeld (s.slot i).seg (s.slot i).station
      ((answerSlot ⟨.timeout, []⟩ (countFinalTimeout (s.slot i).seg s) i).setStation (s.slot i).seg (s.slot i).station
        { s.station (s.slot i).seg (s.slot i).station with
          activeSlot := none, health := .suspect,
          failures := (s.station (s.slot i).seg (s.slot i).station).failures + 1 })) := by
  unfold failSlot
  dsimp only
  have hst : ∀ k a, (countFinalTimeout (s.slot i).seg s).station k a = s.station k a := fun k a => by simp
  have hag : (countFinalTimeout (s.slot i).seg s).agent = s.agent := by simp
  generalize countFinalTimeout (s.slot i).seg s = u at *
  unfold completeFailure takeFailure clearActive
  rw [answerSlot_station, hst]
  dsimp only
  rw [if_neg]
  · simp
  · simp [hag]; omega

/-- A final failure at the silent threshold (R84, R95, R96, R108). -/
theorem failSlot_silent {i : SlotIx} {s : State}
    (hle : s.agent.silentThreshold ≤ (s.station (s.slot i).seg (s.slot i).station).failures + 1) :
    failSlot i s = drainIfDone (answerAll .stationSilent (s.station (s.slot i).seg (s.slot i).station).held
      (raiseNotice (.stationSilent (s.slot i).seg (s.slot i).station)
        ((answerSlot ⟨.timeout, []⟩ (countFinalTimeout (s.slot i).seg s) i).setStation (s.slot i).seg (s.slot i).station
          ⟨.silent, (s.station (s.slot i).seg (s.slot i).station).failures + 1, none, [],
            startTimer (unitsMs s.agent.probeInterval), false⟩))) := by
  unfold failSlot
  dsimp only
  have hst : ∀ k a, (countFinalTimeout (s.slot i).seg s).station k a = s.station k a := fun k a => by simp
  have hag : (countFinalTimeout (s.slot i).seg s).agent = s.agent := by simp
  generalize countFinalTimeout (s.slot i).seg s = u at *
  unfold completeFailure takeFailure silenceStation clearActive
  rw [answerSlot_station, hst]
  simp only [State.setStation_agent, answerSlot_agent, hag, State.station_setStation, and_self,
    if_true, hle, State.setStation_setStation]
  rw [releaseHeld_nil]
  simp

/-! ### The drain goes on -/

/-- Nothing is completed in IDLE, nor while some slot is counted. -/
theorem drainIfDone_open (h : s.commit.state = .idle ∨ ∃ j, (s.slot j).countsAsOld s.store.generation = true) :
    drainIfDone s = s := by
  unfold drainIfDone
  rw [if_neg]
  rintro ⟨hd, hz⟩
  rcases h with h | h
  · rw [h] at hd; cases hd
  · have := oldGenCount_pos.2 h; omega

/-- A counted slot stays counted while a held head is released. -/
theorem releaseHeld_counts (k : Segment) (a : StationAddr) {G : Word} {j : SlotIx}
    (h : (s.slot j).countsAsOld G = true) : ((releaseHeld k a s).slot j).countsAsOld G = true := by
  unfold releaseHeld
  split
  · next i rest _ =>
    generalize hv : s.setStation k a { s.station k a with activeSlot := some i, held := rest } = v
    have hslot : v.slot j = s.slot j := by rw [← hv]; simp
    rw [← hslot] at h
    have hg := (countsAsOld_iff.1 h).1
    by_cases hj : j = i
    · subst hj
      rcases queueSlot_joined j v with e | e <;> rw [e]
      · exact countsAsOld_iff.2 ⟨hg, .inr (.inl rfl)⟩
      · exact countsAsOld_iff.2 ⟨hg, .inr (.inr (.inl rfl))⟩
    · rcases queueSlot_others i v hj with e | ⟨_, e⟩ <;> rw [e]
      · exact h
      · exact countsAsOld_iff.2 ⟨hg, .inr (.inr (.inl rfl))⟩
  · exact h

/-- The answers of a taking that ends no drain leave it on. -/
theorem NoDrainEnds.stays (h : NoDrainEnds s answered) (hc : v.commit = s.commit) (hs : v.store = s.store)
    (ho : ∀ j, ¬ answered j → (s.slot j).countsAsOld s.store.generation = true →
      (v.slot j).countsAsOld s.store.generation = true) : drainIfDone v = v := by
  refine drainIfDone_open ?_
  rw [hc, hs]
  rcases h with h | ⟨j, hj, hg, hst⟩
  · exact .inl h
  · exact .inr ⟨j, ho j hj (countsAsOld_iff.2 ⟨hg, hst⟩)⟩

/-! ### The drain ends -/

/-- What a taking has done before its last act: its answers given, in order, and no station left with an active slot. -/
structure Answers (answered : SlotIx → Prop) (answers : List Telegram) (stands : Segment → StationAddr → Station)
    (s v : State) : Prop where
  commit : v.commit = s.commit
  store : v.store = s.store
  parked : v.parked = s.parked
  agent : v.agent = s.agent
  ownAddress : v.ownAddress = s.ownAddress
  records : ∀ k a, v.station k a = { stands k a with activeSlot := none, held := [] }
  queues : ∀ k, (v.seg k).queue = (s.seg k).queue
  others : ∀ j, ¬ answered j → v.slot j = s.slot j
  done : ∀ j, answered j → (v.slot j).state = .free ∨ (v.slot j).state = .replyReady
  traffic : trafficOwed v = trafficOwed s ++ answers
  replies : repliesOwed v = repliesOwed s
  sending : v.up.sending = s.up.sending
  wait : ∀ j ∈ v.up.waitList, answered j ∨ j ∈ s.up.waitList
  waitOnce : v.up.waitList.Nodup

/-- What placing parked slots leaves alone. -/
structure Aside (s t : State) : Prop where
  store : t.store = s.store
  cache : t.cache = s.cache
  parked : t.parked = s.parked
  agent : t.agent = s.agent
  counters : t.counters = s.counters
  ownAddress : t.ownAddress = s.ownAddress

theorem foldPlace_aside : ∀ (l : List SlotIx) (s : State), Aside s (l.foldl placeParked s)
  | [], _ => ⟨rfl, rfl, rfl, rfl, rfl, rfl⟩
  | j :: l, s => by
    have h := foldPlace_aside l (placeParked s j)
    have g : Aside s (placeParked s j) := by
      unfold placeParked
      dsimp only
      split
      · constructor <;> simp
      · split <;> constructor <;> simp
    exact ⟨h.store.trans g.store, h.cache.trans g.cache, h.parked.trans g.parked, h.agent.trans g.agent,
      h.counters.trans g.counters, h.ownAddress.trans g.ownAddress⟩

/-- A station none of whose held slots is answered has none. -/
theorem DrainEnds.held_nil {P : SlotIx → Prop} (hd : DrainEnds s P) (hp : SlotPlaces s) (k a)
    (h : ∀ j ∈ (s.station k a).held, ¬ P j) : (s.station k a).held = [] := by
  by_contra hne
  obtain ⟨m, hm⟩ := List.exists_mem_of_ne_nil _ hne
  exact (hd.2 m (h m hm)).1 ((hp.held _ _ _).1 hm).1

/-- A station whose active slot is not answered has none. -/
theorem DrainEnds.active_none {P : SlotIx → Prop} (hd : DrainEnds s P) (hp : SlotPlaces s) (k a)
    (h : ∀ j, (s.station k a).activeSlot = some j → ¬ P j) : (s.station k a).activeSlot = none := by
  cases hc : (s.station k a).activeSlot with
  | none => rfl
  | some m => exact absurd ((hp.active _ _ _).1 hc).1 (hd.2 m (h m hc)).2

/-- The last open exchange answered and its station's record written, with nothing to release. -/
theorem Answers.one {u : State} {i : SlotIx} {b : BuiltReply} {r : Station} (hp : SlotPlaces s)
    (hd : DrainEnds s (· = i)) (hs : (s.slot i).state = .sent) (hup : u.up = s.up) (hslot : ∀ j, u.slot j = s.slot j)
    (hseg : ∀ k, u.seg k = s.seg k) (hc : u.commit = s.commit) (hst : u.store = s.store)
    (hpk : u.parked = s.parked) (hag : u.agent = s.agent) (ho : u.ownAddress = s.ownAddress)
    (hheld : r.held = (s.station (s.slot i).seg (s.slot i).station).held) :
    ∃ v, releaseHeld (s.slot i).seg (s.slot i).station ((answerSlot b u i).setStation (s.slot i).seg (s.slot i).station
        { r with activeSlot := none }) = v ∧
      Answers (· = i) [slotAnswer (s.slot i) b.status b.values]
        (fun j a => if (s.slot i).seg = j ∧ (s.slot i).station = a then r else s.station j a) s v ∧
      slotDone (s.slot i) (v.slot i) b.status b.values ∧ v.counters = u.counters ∧
      noticesOwed v = noticesOwed s ∧ v.up.notices = s.up.notices ∧ v.up.nextNotice = s.up.nextNotice ∧
      v.up.pendingLost = s.up.pendingLost := by
  have hiw : i ∉ u.up.waitList := by rw [hup, hp.waiting, hs]; decide
  have A := answerSlot_answered b hiw
  have hall : ∀ k a, (s.station k a).held = [] := fun k a => hd.held_nil hp k a fun j hj e => by
    rw [hp.held, e, hs] at hj; cases hj.1
  rw [releaseHeld_nil (by simp [hheld, hall])]
  refine ⟨_, rfl, ⟨?_, ?_, ?_, ?_, ?_, ?_, ?_, ?_, ?_, ?_, ?_, ?_, ?_, ?_⟩, ?_, ?_, ?_, ?_, ?_, ?_⟩
  · simp [hc]
  · simp [hst]
  · simp [hpk]
  · simp [hag]
  · simp [ho]
  · intro k a
    rw [State.station_setStation]
    have hus : u.station k a = s.station k a := by unfold State.station; rw [hseg]
    split
    · next e => obtain ⟨rfl, rfl⟩ := e; rw [hheld, hall]
    · next hne =>
      rw [answerSlot_station, hus]
      have h1 := hd.active_none hp k a fun j hj e => hne (by
        rw [e] at hj; exact ((hp.active _ _ _).1 hj).2)
      rw [← h1, ← hall k a]
  · intro k; rw [State.setStation_queue, answerSlot_seg, hseg]
  · intro j hj; rw [State.setStation_slot, A.others j hj, hslot]
  · intro j hj
    cases hj
    rw [State.setStation_slot]
    rcases A.slot with e | e <;> rw [e]
    · exact .inl rfl
    · exact .inr rfl
  · rw [trafficOwed_congr (s := answerSlot b u i) (by simp) (by simp), A.traffic, hslot,
      trafficOwed_congr hup (fun j _ => by rw [hslot])]
  · rw [repliesOwed_congr (s := answerSlot b u i) (by simp), A.replies, repliesOwed_congr hup]
  · rw [State.setStation_up, A.sending, hup]
  · intro j hj; rw [State.setStation_up] at hj; rcases A.wait j hj with e | e
    · exact .inl e
    · exact .inr (hup ▸ e)
  · rw [State.setStation_up]; exact A.waitOnce (by rw [hup]; exact hp.waitingOnce)
  · rw [State.setStation_slot, ← hslot]; exact A.slot
  · simp
  · rw [noticesOwed_congr (s := answerSlot b u i) (by simp), A.notices, noticesOwed_congr hup]
  · rw [State.setStation_up, A.noticeQueue, hup]
  · rw [State.setStation_up, A.nextNotice, hup]
  · rw [State.setStation_up, A.pendingLost, hup]

/-- With nothing left counted, the drain is completed. -/
theorem Answers.completes (A : Answers answered answers stands s v) (hd : DrainEnds s answered) :
    drainIfDone v = completeDrain v := by
  have hz : v.oldGenCount = 0 := by
    by_contra hne
    obtain ⟨j, hj⟩ := oldGenCount_pos.1 (Nat.pos_of_ne_zero hne)
    have hst := (countsAsOld_iff.1 hj).2
    by_cases ha : answered j
    · rcases A.done j ha with e | e <;> rw [e] at hst <;> simp [isActive] at hst
    · rw [A.others j ha] at hst
      rcases hst with e | e
      · exact (hd.2 j ha).1 e
      · exact (hd.2 j ha).2 e
  unfold drainIfDone
  rw [if_pos ⟨by rw [A.commit]; exact hd.1, hz⟩]

/-- How a taking that has answered the last open exchange ends (R173, R174). -/
structure Closed (answered : SlotIx → Prop) (answers : List Telegram) (stands : Segment → StationAddr → Station)
    (s v t : State) : Prop where
  ended : DrainEnded s answered answers stands t
  notices : noticesOwed t = noticesWith (.commitDone (s.store.generation + 1)) v
  counters : t.counters = v.counters
  done : ∀ j, answered j → ∀ {x st vs}, slotDone x (v.slot j) st vs → slotDone x (t.slot j) st vs

theorem Answers.closed (A : Answers answered answers stands s v) (hr : s.resetHeld = false) (hp : SlotPlaces s)
    (hu : UpstreamRests s) (hd : DrainEnds s answered)
    (hw : ∀ j, answered j → (s.slot j).state = .sent ∨ (s.slot j).state = .held) :
    Closed answered answers stands s v (arbiterIfIdle (drainIfDone v)) := by
  rw [A.completes hd]
  set w : State := { v with
    commit := { v.commit with drainTimer := .stopped }
    store := v.store.swap
    cache := []
    parked := [] } with hwd
  have hwst : ∀ k a, w.station k a = { stands k a with activeSlot := none, held := [] } := fun k a => by
    rw [← A.records]; cases k <;> rfl
  have hwq : ∀ k, (w.seg k).queue = (s.seg k).queue := fun k => by
    rw [← A.queues]; cases k <;> rfl
  have hap : ∀ j, answered j → j ∉ s.parked := by
    intro j ha hj
    rw [hp.parked] at hj
    rcases hw j ha with e | e <;> rw [e] at hj <;> cases hj
  have hparked : ∀ j ∈ s.parked, w.slot j = s.slot j := fun j hj => A.others j fun ha => hap j ha hj
  have hnq : ∀ j, ∀ k, j ∉ (w.seg k).queue := by
    intro j k hj
    rw [hwq, hp.queued] at hj
    by_cases ha : answered j
    · rcases hw j ha with e | e <;> rw [e] at hj <;> cases hj.1
    · exact (hd.2 j ha).2 (.inl hj.1)
  have P := foldPlace_placed s.parked (s := w) hp.parkedOnce (by
    intro j hj hj2
    rcases A.wait j hj2 with e | e
    · exact hap j e hj
    · rw [hp.waiting] at e
      rw [hp.parked, e] at hj
      cases hj) (fun k a _ => by rw [hwst])
  have B := foldPlace_aside s.parked w
  have hcd : completeDrain v = { raiseNotice (.commitDone (List.foldl placeParked w s.parked).store.generation)
      (List.foldl placeParked w s.parked) with commit := CommitControl.initial } := by
    unfold completeDrain
    dsimp only
    rw [A.parked]
  have hws : w.store = s.store.swap := by rw [hwd, ← A.store]
  rw [hcd, B.store, hws, swap_gen]
  generalize List.foldl placeParked w s.parked = y at *
  set z : State := { raiseNotice (.commitDone (s.store.generation + 1)) y with commit := CommitControl.initial } with hz
  have hzu : z.up = (raiseNotice (.commitDone (s.store.generation + 1)) y).up := rfl
  have hzs : ∀ j, z.slot j = y.slot j := fun j => by
    show (raiseNotice (.commitDone (s.store.generation + 1)) y).slot j = _
    simp
  have hzw : z.up.waitList = y.up.waitList ∧ z.up.sending = y.up.sending := by rw [hzu]; simp
  have hzst : ∀ k a, z.station k a = y.station k a := fun k a => by
    have : z.station k a = (raiseNotice (.commitDone (s.store.generation + 1)) y).station k a := by cases k <;> rfl
    rw [this]; simp
  have C := arbiterIfIdle_chosen (s := z) (by rw [hzw.1]; exact P.waitOnce A.waitOnce)
  refine ⟨⟨?_, ?_, ?_, ?_, ?_, ?_, ?_, ?_, ?_, ?_⟩, ?_, ?_, ?_⟩
  · rw [arbiterIfIdle_store]; simp [hz, B.store, hws]
  · rw [arbiterIfIdle_cache]; simp [hz, B.cache, hwd]
  · rw [arbiterIfIdle_parked]; simp [hz, B.parked, hwd]
  · rw [arbiterIfIdle_commit]; rfl
  · rw [C.traffic, trafficOwed_congr (s := raiseNotice (.commitDone (s.store.generation + 1)) y) hzu
        (by intro j _; rw [hzs]; simp), raiseNotice_trafficOwed, P.traffic]
    refine congrArg₂ (· ++ ·) ((trafficOwed_congr (s := v) rfl (fun _ _ => rfl)).trans A.traffic) ?_
    have : s.parked.filter (parkedSilent w) = s.parked.filter (fun j =>
        decide ((stands (s.slot j).seg (s.slot j).station).health = .silent)) := List.filter_congr fun j hj => by
      unfold parkedSilent
      rw [hparked j hj, hwst]
    rw [this]
    exact List.map_congr_left fun j hj => by rw [hparked j (List.mem_of_mem_filter hj)]
  · rw [C.replies, repliesOwed_congr hzu, raiseNotice_repliesOwed, P.replies]
    exact (repliesOwed_congr (s := v) rfl).trans A.replies
  · intro k a
    rw [arbiterIfIdle_station, hzst]
    have hrec := P.record k a
    rw [hwst] at hrec
    have key : ∀ (act : Option SlotIx) (held : List SlotIx), (y.station k a).activeSlot = act →
        (y.station k a).held = held →
        { y.station k a with due := (stands k a).due } = { stands k a with activeSlot := act, held := held } := by
      intro act held h1 h2
      have := congrArg (fun r : Station => { r with activeSlot := act, held := held, due := (stands k a).due }) hrec
      simp only at this
      rw [← this, ← h1, ← h2]
    have hh : (w.station k a).health = (stands k a).health := by rw [hwst]
    split
    · next h =>
      have := P.silent k a (hh.trans h)
      rw [hwst] at this
      exact key _ _ this.1 this.2
    · next h =>
      have hl := P.lineUp k a (fun e => h (hh.symm.trans e))
      rw [hwst] at hl
      have hm : s.parked.filter (goesTo w k a) =
          s.parked.filter (fun j => decide ((s.slot j).seg = k ∧ (s.slot j).station = a)) :=
        List.filter_congr fun j hj => by unfold goesTo; rw [hparked j hj]
      rw [hm] at hl
      generalize s.parked.filter (fun j => decide ((s.slot j).seg = k ∧ (s.slot j).station = a)) = mine at *
      unfold lineUp at hl
      simp only [Option.toList_none, List.nil_append] at hl
      have ho := P.inOrder k a
      cases hc : (y.station k a).activeSlot with
      | none =>
        rw [hc, ho hc] at hl
        refine key _ _ ?_ ?_
        · rw [hc, ← hl]; rfl
        · rw [ho hc, ← hl]; rfl
      | some m =>
        rw [hc] at hl
        refine key _ _ ?_ ?_
        · rw [hc, ← hl]; rfl
        · rw [← hl]; rfl
  · intro j hj
    have key : SameExchange (s.slot j) (y.slot j) ∨ (y.slot j).state = .free := by
      rcases P.slots (fun j _ => hnq j) j with e | e
      · rw [hparked j hj] at e; exact .inl e
      · exact .inr e.1
    rcases C.slot j with e | ⟨_, _, e⟩
    · rw [e, hzs]; exact key
    · right; rw [e]; rfl
  · intro j ha hj
    have hy : y.slot j = s.slot j := ((P.apart j hj (hnq j)).1).trans (A.others j ha)
    rcases C.slot j with e | ⟨h1, h2, _⟩
    · rw [e, hzs, hy]
    · exfalso
      rw [hzw.2, P.sending] at h1
      rw [hzw.1] at h2
      rcases P.wait j h2 with e | e
      · exact hj e
      · rcases A.wait j e with e | e
        · exact ha e
        · rw [(hu hr (A.sending.symm.trans h1)).2.2.2] at e; cases e
  · rw [arbiterIfIdle_agent]; simp [hz, B.agent, hwd, A.agent]
  · rw [C.notices, noticesOwed_congr hzu, raiseNotice_noticesOwed]
    exact noticesWith_congr _ P.noticeQueue P.sending P.nextNotice P.pendingLost (by rw [B.agent]) B.ownAddress
  · rw [arbiterIfIdle_counters]; simp [hz, B.counters, hwd]
  · intro j ha x st vs h
    refine C.slotDone ?_
    rw [hzs, (P.apart j (hap j ha) (hnq j)).1]
    exact h

end Sys2Proof.Safety
end

