-- ==== Sys2Proof/Laws/Dialogue.lean ====
section
/-! SUPPORT. What a MGMT telegram's taking comes to, for the statements about commands: a placed reply goes upstream, and a
telegram with the next sequence reaches its command (R138 to R141, R149, R155). -/

namespace Sys2Proof.Safety

open Sys2Proof.Machine

variable {s : State}

/-- With nothing else waiting, a placed reply is the arbiter's choice of an idle transmitter. -/
theorem arbiterIfIdle_placed (h : s.up.sending = none → s.up.traffic = [] ∧ s.up.outbox = []) (r : MgmtReply) :
    arbiterIfIdle (placeReply r s) = s.setUp (replyPlaced r s.up) := by
  unfold arbiterIfIdle placeReply replyPlaced
  cases hs : s.up.sending with
  | none =>
    obtain ⟨ht, ho⟩ := h hs
    unfold arbiterChoice State.controlMayGo
    simp [ht, ho, hs, State.setUp]
  | some x => simp [hs, State.setUp]

/-- The arbiter's choice does not read the agent's record. -/
theorem arbiterIfIdle_setAgent (g : Agent) (s : State) : arbiterIfIdle (s.setAgent g) = (arbiterIfIdle s).setAgent g := by
  unfold arbiterIfIdle
  have e : (s.setAgent g).up = s.up := rfl
  rw [e]
  cases s.up.sending with
  | some x => rfl
  | none =>
    unfold arbiterChoice
    have e2 : (s.setAgent g).controlMayGo = s.controlMayGo := rfl
    rw [e2, e]
    dsimp only
    split
    · rfl
    · rfl
    · unfold moveWaitList
      simp only [State.setUp_up]
      split <;> rfl
    · rfl

/-- A MGMT telegram the port hands over, with its taking. -/
theorem whenRunning_deliver {args : List Byte} {take : State → State} (hr : s.resetHeld = false)
    (hl : args.length ≤ 32) :
    whenRunning (deliverMgmt args take) s = .next (arbiterIfIdle (take (countReceived .u s))) := by
  rw [whenRunning_next, hr]
  unfold deliverMgmt argsOk Config.maxArgs
  simp [hl]

/-- Every MGMT row is the taking of its code. -/
theorem exec_mgmtCommand (code src seq : Byte) (args : List Byte) (s : State) :
    exec (mgmtCommand code src seq args) s =
      whenRunning (deliverMgmt args (takeMgmtByCode ⟨src, seq, code⟩ args)) s := by
  have hc : code = BitVec.ofNat 8 code.toNat := by simp
  unfold mgmtCommand
  split <;> first | (next h => rw [h] at hc; subst hc; rfl) | rfl

/-- An answer built, placed and stored over a state whose transmitter stands as `s` has it. -/
theorem arbiterIfIdle_answered {t : State} (hu : UpstreamRests s) (hr : s.resetHeld = false) (he : t.up = s.up)
    (hd : MgmtHead) (st : MgmtStatus) (data : List Byte) :
    arbiterIfIdle (answerStored hd st data (countReceived .u t)) = answered hd st data t := by
  have h := arbiterIfIdle_placed (s := countReceived .u t) (fun hs => by
    have e : (countReceived .u t).up = s.up := by simpa using he
    rw [e] at hs ⊢
    obtain ⟨h1, h2, _⟩ := hu hr hs
    exact ⟨h1, h2⟩) (buildReply t.ownAddress hd st data)
  unfold answerStored answerOnly
  rw [arbiterIfIdle_setAgent]
  exact congrArg (fun u : State => u.setAgent _) h

/-- A reply placed and not stored. -/
theorem arbiterIfIdle_turnedAway (hu : UpstreamRests s) (hr : s.resetHeld = false) (hd : MgmtHead) (st : MgmtStatus)
    (data : List Byte) : arbiterIfIdle (answerOnly hd st data (countReceived .u s)) = turnedAway hd st data s :=
  arbiterIfIdle_placed (s := countReceived .u s) (fun hs => by
    have e : (countReceived .u s).up = s.up := by simp
    rw [e] at hs ⊢
    obtain ⟨h1, h2, _⟩ := hu hr hs
    exact ⟨h1, h2⟩) _

/-- With room in the Outbox, a telegram that carries the next sequence reaches its command (R149, act 5). -/
theorem exec_ready {code src seq : Byte} {args : List Byte} (h : MgmtReady s seq) (hl : args.length ≤ 32)
    (hc : code ≠ 1) :
    exec (mgmtCommand code src seq args) s =
      .next (arbiterIfIdle (runByCode ⟨src, seq, code⟩ args (countReceived .u s))) := by
  rw [exec_mgmtCommand, whenRunning_deliver h.running hl]
  have e : ∀ t : State, t.up = s.up → t.agent = s.agent →
      takeMgmtByCode ⟨src, seq, code⟩ args t = runByCode ⟨src, seq, code⟩ args t := by
    intro t hu ha
    unfold takeMgmtByCode
    rw [if_neg hc]
    unfold takeMgmt State.outboxFull State.expectedSeq Config.outboxCapacity
    have hro := h.room
    have hne : s.agent.lastSeq ≠ s.agent.lastSeq + 1 := by
      generalize s.agent.lastSeq = b
      bv_omega
    rw [hu, ha, if_neg (by rw [decide_eq_true_eq]; omega), if_neg (by rw [h.synced]; decide),
      if_neg (by rw [h.next]; exact fun hh => hne hh.symm), if_pos h.next, if_neg (by rw [h.noRestart]; decide)]
  rw [e _ (by simp) (by simp)]

end Sys2Proof.Safety
end

