-- ==== Sys2Proof/Laws/DispatcherRules.lean ====
section
/-! SUPPORT. What the operations inside a taking do to the rest of the dispatchers (R78) and to the probe records (R110). -/

namespace Sys2Proof.Safety

open Sys2Proof.Machine

/-- What a change of the state may do to a resting dispatcher. -/
theorem DispatcherRests.of {s t : State} {k} (h : DispatcherRests s k) (hr : t.resetHeld = s.resetHeld) (hi :
    t.s1Present = s.s1Present)
    (hrec : (t.seg k).record = .none → (s.seg k).record = .none) (hq : (s.seg k).queue = [] → (t.seg k).queue = [])
    (hp : (t.seg k).probe = .idle → (s.seg k).probe = .idle)
    (hst : ∀ a, (t.station k a).health = .silent → (t.station k a).due = true → (s.station k a).health = .silent ∧
      (s.station k a).due = true) : DispatcherRests t k := by
  intro h1 h2 h3
  obtain ⟨a, b⟩ := h (hr ▸ h1) (by unfold State.inService at *; rw [hi] at h2; exact h2) (hrec h3)
  refine ⟨hq a, fun e => ?_⟩
  have := b (hp e)
  unfold State.lowestDue at *
  rw [List.find?_eq_none] at *
  intro x hx hx'
  simp only [Bool.and_eq_true, decide_eq_true_eq] at hx'
  exact this x hx (by simpa using hst x hx'.1 hx'.2)

/-- Both dispatchers rest as R78 says. -/
def AllRest (s : State) : Prop := ∀ k, DispatcherRests s k

theorem dispatchersRest_iff {s} : DispatchersRest s ↔ AllRest s := ⟨fun h k => by cases k; exact h.1; exact h.2, fun h => ⟨h _, h _⟩⟩

theorem AllRest.congr {s t : State} (h : AllRest s) (hr : t.resetHeld = s.resetHeld) (hi : t.s1Present = s.s1Present) (h0 :
    t.seg0 = s.seg0) (h1 : t.seg1 = s.seg1) : AllRest t := by
  intro k
  have hs : t.seg k = s.seg k := by cases k <;> simp only [State.seg, h0, h1]
  refine (h k).of hr hi (by rw [hs]; exact id) (by rw [hs]; exact id) (by rw [hs]; exact id) fun a => ?_
  simp only [State.station, hs]; exact fun x y => ⟨x, y⟩

theorem AllRest.set {s : State} (h : AllRest s) {k a r} (hr : r.health = .silent → r.due = true → (s.station k a).health =
    .silent ∧ (s.station k a).due = true) : AllRest (s.setStation k a r) := by
  intro j
  refine (h j).of (by simp) (by simp) (by simp) (by simp) (by simp) fun b => ?_
  rw [State.station_setStation]
  split
  · next e => obtain ⟨rfl, rfl⟩ := e; exact hr
  · exact fun x y => ⟨x, y⟩

/-- Every dispatcher but one does. -/
def OthersRest (k : Segment) (s : State) : Prop := ∀ j, j ≠ k → DispatcherRests s j

theorem dispatch_service (k j : Segment) (s : State) : (dispatchIfIdle k s).inService j = s.inService j := by
  cases j
  · rfl
  · show (dispatchIfIdle k s).s1Present = s.s1Present; simp

/-- After its choice a dispatcher rests as R78 says. -/
theorem dispatch_self (k : Segment) (s : State) : DispatcherRests (dispatchIfIdle k s) k := by
  intro h1 h2 h3
  rw [dispatch_service] at h2
  have hd := dispatchIfIdle_dispatched k s
  cases hrec : (s.seg k).record with
  | none =>
    have e : dispatchIfIdle k s = dispatcherChoice k s := by unfold dispatchIfIdle; rw [hrec]; simp [h2]
    rw [e] at h3 ⊢
    unfold dispatcherChoice at h3 ⊢
    split at h3
    · simp [startProbe] at h3
    · next hne =>
      unfold startQueueHead at h3 ⊢
      split at h3
      · simp [startSlot] at h3
      · next hq =>
        refine ⟨hq, fun hi => ?_⟩
        cases hl : s.lowestDue k with
        | none => rfl
        | some a => exact absurd hl (hne a hi)
  | slot i u =>
    have e : dispatchIfIdle k s = s := by unfold dispatchIfIdle; rw [hrec]
    rw [e, hrec] at h3; cases h3
  | probe u =>
    have e : dispatchIfIdle k s = s := by unfold dispatchIfIdle; rw [hrec]
    rw [e, hrec] at h3; cases h3
  | void u =>
    have e : dispatchIfIdle k s = s := by unfold dispatchIfIdle; rw [hrec]
    rw [e, hrec] at h3; cases h3

/-- A choice concerns one dispatcher. -/
theorem dispatch_other {k j : Segment} (hj : j ≠ k) {s : State} (h : DispatcherRests s j) : DispatcherRests
    (dispatchIfIdle k s) j := by
  have hd := dispatchIfIdle_dispatched k s
  have e1 : (dispatchIfIdle k s).resetHeld = s.resetHeld := by simp
  have e2 : (dispatchIfIdle k s).s1Present = s.s1Present := by simp
  generalize dispatchIfIdle k s = u at *
  refine h.of e1 e2 ?_ ?_ ?_ fun a => ?_
  all_goals
    cases hd with
    | rest => first | exact id | exact fun x y => ⟨x, y⟩
    | slot i rest _ _ _ => simp only [startSlot, State.seg_setSeg, if_neg (Ne.symm hj), State.setSlot_seg,
      State.setSeg_station, State.setSlot_station]; first | exact id | exact fun x y => ⟨x, y⟩
    | probe b _ _ _ _ => simp only [startProbe, State.seg_setSeg, if_neg (Ne.symm hj), State.setStation_record,
      State.setStation_queue, State.setStation_probe, State.setSeg_station,
        State.station_setStation]; first | exact id | (simp [Ne.symm hj]; done) | (simp [Ne.symm hj]; exact fun x y
          => ⟨x, y⟩)

theorem OthersRest.dispatch {k : Segment} {s : State} (h : OthersRest k s) : AllRest (dispatchIfIdle k s) := by
  intro j
  by_cases e : j = k
  · subst e; exact dispatch_self _ _
  · exact dispatch_other e (h j e)

theorem AllRest.but {s : State} (h : AllRest s) (k) : OthersRest k s := fun j _ => h j

theorem OthersRest.setSeg {k : Segment} {s : State} (h : OthersRest k s) (x) : OthersRest k (s.setSeg k x) := by
  intro j hj
  refine (h j hj).of (by simp) (by simp) ?_ ?_ ?_ fun a => ?_
  all_goals simp only [State.seg_setSeg, if_neg (Ne.symm hj), State.setSeg_station]
  all_goals first | exact id | exact fun x y => ⟨x, y⟩

theorem AllRest.queue {s : State} (h : AllRest s) (i) : AllRest (queueSlot i s) := by
  unfold queueSlot; dsimp only
  have h1 : AllRest (s.setSlot i { s.slot i with state := .queued, deadline := .stopped }) := h.congr rfl rfl rfl rfl
  exact OthersRest.dispatch ((h1.but _).setSeg _)

theorem AllRest.alive {s : State} (h : AllRest s) (k a) : AllRest (takeAlive k a s) := by
  unfold takeAlive; dsimp only; split
  · refine AllRest.congr (h.set (k := k) (a := a) (r := _) ?_) (raiseNotice_resetHeld _ _) (raiseNotice_s1Present _ _)
      (raiseNotice_seg0 _ _) (raiseNotice_seg1 _ _)
    simp
  · exact h.set (by simp)

theorem OthersRest.congr {k} {s t : State} (h : OthersRest k s) (hr : t.resetHeld = s.resetHeld) (hi : t.s1Present = s.s1Present)
    (h0 : t.seg0 = s.seg0) (h1 : t.seg1 = s.seg1) : OthersRest k t := by
  intro j hj
  have hs : t.seg j = s.seg j := by cases j <;> simp only [State.seg, h0, h1]
  refine (h j hj).of hr hi (by rw [hs]; exact id) (by rw [hs]; exact id) (by rw [hs]; exact id) fun a => ?_
  simp only [State.station, hs]; exact fun x y => ⟨x, y⟩

theorem OthersRest.alive {s : State} {k} (h : OthersRest k s) (a) : OthersRest k (takeAlive k a s) := by
  unfold takeAlive; dsimp only; split
  · exact OthersRest.congr (OthersRest.setSeg h _) (raiseNotice_resetHeld _ _) (raiseNotice_s1Present _ _) (raiseNotice_seg0 _ _)
      (raiseNotice_seg1 _ _)
  · exact OthersRest.setSeg h _

theorem AllRest.release {s : State} (h : AllRest s) (k a) : AllRest (releaseHeld k a s) := by
  unfold releaseHeld; split
  · refine AllRest.queue (s := State.setStation _ _ _ _) ?_ _; refine AllRest.set h ?_; exact fun x y => ⟨x, y⟩
  · exact h

theorem AllRest.success {s : State} (h : AllRest s) (k a) : AllRest (completeSuccess k a s) := by
  unfold completeSuccess
  refine AllRest.release ?_ _ _
  exact AllRest.set (h.alive k a) (k := k) (a := a) (r := { (takeAlive k a s).station k a with activeSlot := none })
    (fun x y => ⟨x, y⟩)

theorem AllRest.failure {s : State} (h : AllRest s) (k a) : AllRest (completeFailure k a s) := by
  unfold completeFailure
  refine AllRest.release ?_ _ _
  have h1 : AllRest (clearActive k a s) := AllRest.set h (k := k) (a := a) (r := { s.station k a with activeSlot := none })
    (fun x y => ⟨x, y⟩)
  generalize clearActive k a s = u at h1
  unfold takeFailure; dsimp only
  split
  · unfold silenceStation
    have h2 : AllRest (u.setStation k a { u.station k a with
        health := .silent, failures := (u.station k a).failures + 1, held := [], due := false,
        dueTimer := startTimer (unitsMs u.agent.probeInterval) }) := h1.set (by simp)
    exact h2.congr (by simp) (by simp) (by simp) (by simp)
  · exact h1.set (by simp)

theorem AllRest.answer {s : State} (h : AllRest s) (b i) : AllRest (answerSlot b s i) := h.congr (by simp) (by simp) (by simp)
    (by simp)

theorem AllRest.place {s : State} (h : AllRest s) (i) : AllRest (placeParked s i) := by
  unfold placeParked; dsimp only; split
  · exact h.answer _ _
  · split
    · refine AllRest.queue (s := State.setStation _ _ _ _) ?_ _; refine AllRest.set h ?_; exact fun x y => ⟨x, y⟩
    · refine AllRest.set (h.congr (by simp) (by simp) (by simp) (by simp)) ?_
      simp only [State.setSlot_station]; exact fun x y => ⟨x, y⟩

theorem AllRest.fold : ∀ (l : List SlotIx) {s : State}, AllRest s → AllRest (l.foldl placeParked s)
  | [], _, h => h
  | i :: l, _, h => AllRest.fold l (h.place i)

theorem AllRest.drain {s : State} (h : AllRest s) : AllRest (drainIfDone s) := by
  unfold drainIfDone; split
  · have : AllRest { s with
        commit := { s.commit with drainTimer := .stopped }
        store := s.store.swap
        cache := []
        parked := [] } := h.congr rfl rfl rfl rfl
    have := AllRest.fold s.parked this
    unfold completeDrain; dsimp only
    exact AllRest.congr this (raiseNotice_resetHeld _ _) (raiseNotice_s1Present _ _) (raiseNotice_seg0 _ _)
      (raiseNotice_seg1 _ _)
  · exact h

theorem AllRest.fail {s : State} (h : AllRest s) (r) : AllRest (failDrain r s) := by
  refine h.congr ?_ ?_ ?_ ?_ <;> unfold failDrain <;> simp

theorem AllRest.initial {s : State} (h : ∀ k, (s.seg k).queue = [] ∧ ∀ a, (s.station k a).due = false) : AllRest s := by
  intro k _ _ _
  refine ⟨(h k).1, fun _ => ?_⟩
  unfold State.lowestDue; rw [List.find?_eq_none]; intro a _; simp [(h k).2 a]

theorem AllRest.mgmt {s : State} (h : AllRest s) (hd args) : AllRest (takeMgmtByCode hd args s) := by
  refine takeMgmtByCode_keeps (P := AllRest) ⟨h.congr rfl rfl rfl rfl, h, fun _ => h.congr rfl rfl rfl rfl, fun _ _ _ =>
    h.congr rfl rfl rfl rfl, fun _ _ => h.congr rfl rfl rfl rfl, fun _ => ?_⟩ args
  constructor
  · exact fun _ _ => h.congr rfl rfl rfl rfl
  · exact fun _ _ _ => h.congr rfl rfl rfl rfl
  · exact h.congr rfl rfl rfl rfl
  · exact fun _ _ _ => h.congr rfl rfl rfl rfl
  · intro k a
    exact AllRest.congr (s := resetStation k a s) (h.set (by simp)) rfl rfl rfl rfl
  · exact fun _ _ => h.congr rfl rfl rfl rfl
  · intro _ _; exact AllRest.drain (h.congr rfl rfl rfl rfl)
  · intro _; exact AllRest.fail (s := answerStored hd .done [] s) (h.congr rfl rfl rfl rfl) _

variable {s t : State} {j : Segment}

theorem ProbeSound.of (h : ProbeSound s j) (hr : t.resetHeld = s.resetHeld) (h1 : (t.seg j).record = (s.seg
    j).record) (h2 : (t.seg j).probe = (s.seg j).probe) : ProbeSound t j := by
  unfold ProbeSound; rw [hr, h1, h2]; exact h

theorem ProbeSound.dispatch (h : ProbeSound s j) (k) : ProbeSound (dispatchIfIdle k s) j := by
  have hd := dispatchIfIdle_dispatched k s
  generalize dispatchIfIdle k s = u at hd
  cases hd with
  | rest => exact h
  | slot i rest free sv hq =>
    by_cases e : k = j
    · subst e
      intro hr
      have hr' : s.resetHeld = false := by simpa [startSlot] using hr
      have := h hr'
      rw [free] at this
      simp only [startSlot, State.seg_setSeg, if_true, State.setSlot_seg]
      refine ⟨Iff.intro (fun h => by obtain ⟨t, e⟩ := h; cases e) (fun e => ?_), this.2⟩
      obtain ⟨t, e⟩ := this.1.2 e; cases e
    · refine h.of (by simp [startSlot]) ?_ ?_ <;> simp [startSlot, e]
  | probe a free sv hi hd =>
    by_cases e : k = j
    · subst e
      intro hr
      simp [startProbe]
    · refine h.of (by simp [startProbe]) ?_ ?_ <;> simp [startProbe, e]

theorem ProbeSound.queue (h : ProbeSound s j) (i) : ProbeSound (queueSlot i s) j := by
  unfold queueSlot; dsimp only
  refine ProbeSound.dispatch (ProbeSound.of h ?_ ?_ ?_) _
  · simp
  all_goals
    simp only [State.seg_setSeg, State.setSlot_seg]; split
    · next e => subst e; rfl
    · rfl

theorem ProbeSound.alive (h : ProbeSound s j) (k a) : ProbeSound (takeAlive k a s) j := by
  refine h.of ?_ ?_ ?_ <;> (unfold takeAlive; dsimp only; split <;> simp)

theorem ProbeSound.set (h : ProbeSound s j) (k a r) : ProbeSound (s.setStation k a r) j := h.of (by simp) (by simp)
    (by simp)

theorem ProbeSound.release (h : ProbeSound s j) (k a) : ProbeSound (releaseHeld k a s) j := by
  unfold releaseHeld; split
  · exact ProbeSound.queue (h.set _ _ _) _
  · exact h

theorem ProbeSound.success (h : ProbeSound s j) (k a) : ProbeSound (completeSuccess k a s) j := by
  unfold completeSuccess; exact ProbeSound.release ((h.alive k a).set _ _ _) _ _

theorem ProbeSound.failure (h : ProbeSound s j) (k a) : ProbeSound (completeFailure k a s) j := by
  unfold completeFailure
  refine ProbeSound.release ?_ _ _
  unfold takeFailure silenceStation; dsimp only
  split
  · exact h.of (by simp) (by simp [clearActive]) (by simp [clearActive])
  · exact h.of (by simp) (by simp [clearActive]) (by simp [clearActive])

theorem ProbeSound.answer (h : ProbeSound s j) (b i) : ProbeSound (answerSlot b s i) j := h.of (by simp) (by simp)
    (by simp)

theorem ProbeSound.place (h : ProbeSound s j) (i) : ProbeSound (placeParked s i) j := by
  unfold placeParked; dsimp only; split
  · exact h.answer _ _
  · split
    · exact ProbeSound.queue (h.set _ _ _) _
    · exact h.of (by simp) (by simp) (by simp)

theorem ProbeSound.fold : ∀ (l : List SlotIx) {s : State}, ProbeSound s j → ProbeSound (l.foldl placeParked s) j
  | [], _, h => h
  | i :: l, _, h => ProbeSound.fold l (h.place i)

theorem seg_congr (h0 : t.seg0 = s.seg0) (h1 : t.seg1 = s.seg1) (j) : t.seg j = s.seg j := by cases j <;> simp only
    [State.seg, h0, h1]

theorem ProbeSound.congr (h : ProbeSound s j) (hr : t.resetHeld = s.resetHeld) (h0 : t.seg0 = s.seg0) (h1 : t.seg1 =
    s.seg1) : ProbeSound t j :=
  h.of hr (by rw [seg_congr h0 h1]) (by rw [seg_congr h0 h1])

theorem ProbeSound.drain (h : ProbeSound s j) : ProbeSound (drainIfDone s) j := by
  unfold drainIfDone; split
  · have : ProbeSound { s with
        commit := { s.commit with drainTimer := .stopped }
        store := s.store.swap
        cache := []
        parked := [] } j := ProbeSound.congr h rfl rfl rfl
    have := ProbeSound.fold s.parked this
    unfold completeDrain; dsimp only
    exact ProbeSound.congr this (raiseNotice_resetHeld _ _) (raiseNotice_seg0 _ _) (raiseNotice_seg1 _ _)
  · exact h

theorem ProbeSound.fail (h : ProbeSound s j) (r) : ProbeSound (failDrain r s) j := by
  refine h.congr ?_ ?_ ?_ <;> unfold failDrain <;> simp

theorem ProbeSound.mgmt (h : ProbeSound s j) (hd args) : ProbeSound (takeMgmtByCode hd args s) j := by
  refine takeMgmtByCode_keeps (P := fun s => ProbeSound s j) ⟨h.congr rfl rfl rfl, h, fun _ => h.congr rfl rfl rfl,
    fun _ _ _ => h.congr rfl rfl rfl, fun _ _ => h.congr rfl rfl rfl, fun _ => ?_⟩ args
  constructor
  · exact fun _ _ => h.congr rfl rfl rfl
  · exact fun _ _ _ => h.congr rfl rfl rfl
  · exact h.congr rfl rfl rfl
  · exact fun _ _ _ => h.congr rfl rfl rfl
  · intro k a
    exact ProbeSound.congr (s := resetStation k a s) (h.set _ _ _) rfl rfl rfl
  · exact fun _ _ => h.congr rfl rfl rfl
  · intro _ _; exact ProbeSound.drain (h.congr rfl rfl rfl)
  · intro _; exact ProbeSound.fail (s := answerStored hd .done [] s) (h.congr rfl rfl rfl) _

theorem ProbeSound.idle (h1 : ∀ u, (s.seg j).record ≠ .probe u) (h2 : (s.seg j).probe = .idle) : ProbeSound s j := by
  intro _; rw [h2]
  refine ⟨⟨fun ⟨u, e⟩ => absurd e (h1 u), fun ⟨a, e⟩ => by cases e⟩, fun a t e => by cases e⟩

end Sys2Proof.Safety
end

