-- ==== Sys2Proof/Laws/Framing.lean ====
section
/-! SUPPORT. What a framer makes of a body with its check, and of any other block (R1, R2, R7). -/

namespace Sys2Proof.Machine

theorem exec_block {p : Port} {b : List Byte} {s : State} (h : s.resetHeld = false) :
    exec (.framingDiscard p b) s = .next (deliverBlock p b s) := by
  show whenRunning _ s = _
  unfold whenRunning
  rw [h]
  rfl

theorem receive_service {own : Byte} {s1 : Bool} {p : Port} {b : List Byte} (h : p = .s1 → s1 = true) :
    receive own s1 p b = match examineFramed p (framed b) with
      | .passed body => formCheck own p body
      | .malformed => .malformed
      | .checkError => .checkError := by
  unfold receive
  exact if_neg (by rintro ⟨h1, h2⟩; rw [h h1] at h2; cases h2)

theorem examine_length {p : Port} {b : List Byte} (h : b.length < 8 ∨ 64 < b.length) :
    examineFramed p (framed b) = .malformed := by
  unfold examineFramed
  rw [if_neg]
  simp only [framed, Config.minBlock, Config.maxBlock]
  omega

/-- Any two bytes behind a body of 6 to 62 bytes: the check is compared, then the kind. -/
theorem examine_body {p : Port} {body c : List Byte} (hc : c.length = 2) (h6 : 6 ≤ body.length)
    (h62 : body.length ≤ 62) :
    examineFramed p (framed (body ++ c)) =
      if c = wordBytes (check body) then if kindAccepted p (body.headD 0) then .passed body else .malformed
      else .checkError := by
  have e1 : (framed (body ++ c)).body = body := by
    simp only [Framed.body, framed, Config.maxBlock, List.length_append, hc]
    rw [List.take_take, show min (body.length + 2 - 2) 64 = body.length by omega, List.take_left]
  have e2 : (framed (body ++ c)).checkBytes = c := by
    simp only [Framed.checkBytes, framed, Config.maxBlock, List.length_append, hc]
    rw [List.take_of_length_le (by rw [List.length_append]; omega), Nat.add_sub_cancel, List.drop_left]
  unfold examineFramed
  rw [e1, e2, if_pos]
  simp only [framed, Config.minBlock, Config.maxBlock, List.length_append, hc]
  omega

theorem examine_withCheck {p : Port} {body : List Byte} (h6 : 6 ≤ body.length) (h62 : body.length ≤ 62) :
    examineFramed p (framed (withCheck body)) =
      if kindAccepted p (body.headD 0) then .passed body else .malformed := by
  unfold withCheck
  rw [examine_body rfl h6 h62, if_pos rfl]

/-- A body a port's framer passes is put to the port's form check. -/
theorem receive_withCheck {own : Byte} {s1 : Bool} {p : Port} {body : List Byte} (h : p = .s1 → s1 = true)
    (h6 : 6 ≤ body.length) (h62 : body.length ≤ 62) (hk : kindAccepted p (body.headD 0) = true) :
    receive own s1 p (withCheck body) = formCheck own p body := by
  rw [receive_service h, examine_withCheck h6 h62, if_pos hk]

/-! ### Form checks (R5, R6) -/

theorem formCheck_mgmt (own dst src seq code n : Byte) (args : List Byte) :
    formCheck own .u ([kindMgmt, dst, src, seq, code, n] ++ args) =
      if args.length = n.toNat ∧ n.toNat ≤ Config.maxArgs ∧ dst = own then .mgmt src seq code args else .malformed := rfl

theorem formCheck_reply (own : Byte) (k : Segment) (dst src tag st : Byte) (index : Word) (count : Byte)
    (vs : List Byte) :
    formCheck own k.port ([kindReply, dst, src, tag, st] ++ wordBytes index ++ [count] ++ vs) =
      match wordsOf vs with
      | some values => if replyFormOk st count values then .reply k dst src tag st index count values else .malformed
      | none => .malformed := by
  have e : formCheck own k.port ([kindReply, dst, src, tag, st] ++ wordBytes index ++ [count] ++ vs) =
      match wordsOf vs with
      | some values => if replyFormOk st count values then
          .reply k dst src tag st (wordOf (index.extractLsb' 8 8) (index.extractLsb' 0 8)) count values else .malformed
      | none => .malformed := by cases k <;> rfl
  rw [e, wordOf_bytes]

theorem formCheck_change (own : Byte) (k : Segment) (dst src tag st : Byte) (index : Word) (count : Byte)
    (vs : List Byte) :
    formCheck own k.port ([kindChange, dst, src, tag, st] ++ wordBytes index ++ [count] ++ vs) =
      match vs with
      | [v1, v0] => if st = 0 ∧ count = 1 then .change k dst src tag index (wordOf v1 v0) else .malformed
      | _ => .malformed := by
  have e : formCheck own k.port ([kindChange, dst, src, tag, st] ++ wordBytes index ++ [count] ++ vs) =
      match vs with
      | [v1, v0] => if st = 0 ∧ count = 1 then
          .change k dst src tag (wordOf (index.extractLsb' 8 8) (index.extractLsb' 0 8)) (wordOf v1 v0) else .malformed
      | _ => .malformed := by cases k <;> rfl
  rw [e, wordOf_bytes]

end Sys2Proof.Machine
end

