-- ==== Sys2Proof/Laws/Growth.lean ====
section
/-! SUPPORT. A taking only adds to what is owed upstream, behind all that was owed before (R92, R135, R136). -/

namespace Sys2Proof.Safety

open Sys2Proof.Machine

variable {s t u : State}

/-- What is owed has grown at its end, by answers of the slots of `l` and by telegrams that hold no slot. -/
structure Grew (l : List SlotIx) (s t : State) : Prop where
  traffic : ∃ sent, trafficOwed t = trafficOwed s ++ sent
  once : s.up.waitList.Nodup → t.up.waitList.Nodup
  wait : ∀ j ∈ t.up.waitList, j ∈ l ∨ j ∈ s.up.waitList

theorem Grew.of_up (hu : t.up.traffic = s.up.traffic) (hs : t.up.sending = s.up.sending)
    (hw : t.up.waitList = s.up.waitList) (hr : ∀ i, slotReply (t.slot i) = slotReply (s.slot i)) : Grew [] s t := by
  refine ⟨⟨[], ?_⟩, by rw [hw]; exact id, by rw [hw]; exact fun j h => .inr h⟩
  unfold trafficOwed
  rw [hu, hs, hw]
  simp only [hr, List.append_nil]

theorem Grew.refl (s : State) : Grew [] s s := Grew.of_up rfl rfl rfl fun _ => rfl

theorem Grew.trans {l m : List SlotIx} (h : Grew l s t) (g : Grew m t u) : Grew (l ++ m) s u := by
  obtain ⟨x, hx⟩ := h.traffic
  obtain ⟨y, hy⟩ := g.traffic
  refine ⟨⟨x ++ y, by rw [hy, hx, List.append_assoc]⟩, fun hn => g.once (h.once hn), fun j hj => ?_⟩
  rcases g.wait j hj with e | e
  · left; simp [e]
  · rcases h.wait j e with e | e
    · left; simp [e]
    · exact .inr e

/-- What is owed at the end of a taking, after the arbiter's choice. -/
theorem Grew.chosen {l : List SlotIx} (h : Grew l s t) (hn : s.up.waitList.Nodup) :
    ∃ sent, trafficOwed (arbiterIfIdle t) = trafficOwed s ++ sent := by
  rw [(arbiterIfIdle_chosen (h.once hn)).traffic]
  exact h.traffic

theorem Grew.answerSlot (b : BuiltReply) {i : SlotIx} (hi : i ∉ s.up.waitList) : Grew [i] s (answerSlot b s i) := by
  have A := answerSlot_answered b hi
  exact ⟨⟨_, A.traffic⟩, A.waitOnce, fun j hj => by
    rcases A.wait j hj with e | e
    · left; simp [e]
    · exact .inr e⟩

theorem Grew.answerAll (st : ReplyStatus) {l : List SlotIx} (hn : l.Nodup) (hl : ∀ i ∈ l, i ∉ s.up.waitList) :
    Grew l s (answerAll st l s) := by
  have A := answerAll_answered st l hn hl
  exact ⟨⟨_, A.traffic⟩, A.waitOnce, A.wait⟩

theorem Grew.foldPlace {l : List SlotIx} (hn : l.Nodup) (hl : ∀ i ∈ l, i ∉ s.up.waitList) (ho : InOrder s) :
    Grew l s (l.foldl placeParked s) := by
  have A := foldPlace_placed l hn hl ho
  exact ⟨⟨_, A.traffic⟩, A.waitOnce, A.wait⟩

theorem Grew.enterTraffic (x : Telegram) (hw : s.up.waitList = []) : Grew [] s (enterTraffic x s) := by
  refine ⟨⟨[x], ?_⟩, id, fun j hj => .inr hj⟩
  unfold trafficOwed
  simp [Machine.enterTraffic, hw]

theorem Grew.queueSlot (i : SlotIx) : Grew [] s (queueSlot i s) :=
  Grew.of_up (by simp) (by simp) (by simp) (queueSlot_slotReply i s)

theorem Grew.dispatchIfIdle (k : Segment) : Grew [] s (dispatchIfIdle k s) :=
  Grew.of_up (by simp) (by simp) (by simp) (dispatchIfIdle_slotReply k s)

theorem Grew.raiseNotice (e : NoticeEvent) : Grew [] s (raiseNotice e s) :=
  Grew.of_up (by simp) (by simp) (by simp) (by simp)

theorem Grew.takeAlive (k : Segment) (a : StationAddr) : Grew [] s (takeAlive k a s) := by
  unfold Machine.takeAlive
  dsimp only
  split <;> exact Grew.of_up (by simp) (by simp) (by simp) (by simp)

theorem Grew.releaseHeld (k : Segment) (a : StationAddr) : Grew [] s (releaseHeld k a s) := by
  unfold Machine.releaseHeld
  split
  · next i rest _ =>
    have h : Grew [] s (s.setStation k a { s.station k a with activeSlot := some i, held := rest }) :=
      Grew.of_up (by simp) (by simp) (by simp) (by simp)
    exact h.trans (Grew.queueSlot i)
  · exact Grew.refl s

theorem Grew.completeSuccess (k : Segment) (a : StationAddr) : Grew [] s (completeSuccess k a s) := by
  have h := Grew.takeAlive (s := s) k a
  have h2 : Grew [] (Machine.takeAlive k a s) (clearActive k a (Machine.takeAlive k a s)) :=
    Grew.of_up (by simp) (by simp) (by simp) (by simp [clearActive])
  exact (h.trans h2).trans (Grew.releaseHeld k a)

/-- A failure answers at most the slots its station held. -/
theorem Grew.completeFailure (k : Segment) (a : StationAddr) (hn : (s.station k a).held.Nodup)
    (hw : ∀ i ∈ (s.station k a).held, i ∉ s.up.waitList) : Grew (s.station k a).held s (completeFailure k a s) := by
  have h1 : Grew [] s (clearActive k a s) := Grew.of_up (by simp) (by simp) (by simp) (by simp [clearActive])
  have e : ((clearActive k a s).station k a).held = (s.station k a).held := by simp [clearActive]
  have h2 : Grew (s.station k a).held (clearActive k a s) (takeFailure k a (clearActive k a s)) := by
    unfold takeFailure
    dsimp only
    split
    · unfold silenceStation
      dsimp only
      rw [e]
      refine Grew.trans (l := []) (Grew.of_up ?_ ?_ ?_ ?_) (Grew.answerAll _ hn ?_) <;> simp
      exact hw
    · refine ⟨⟨[], ?_⟩, ?_, ?_⟩
      · rw [List.append_nil]; exact trafficOwed_congr (by simp) (by simp)
      · simp
      · simp; exact fun j h => .inr h
  have := (h1.trans h2).trans (Grew.releaseHeld k a)
  simpa [Machine.completeFailure] using this

theorem Grew.completeDrain (hn : s.parked.Nodup) (hw : ∀ i ∈ s.parked, i ∉ s.up.waitList) (ho : InOrder s) :
    Grew s.parked s (completeDrain s) := by
  unfold Machine.completeDrain
  dsimp only
  have h1 : Grew [] s { s with
      commit := { s.commit with drainTimer := .stopped }
      store := s.store.swap
      cache := []
      parked := [] } := Grew.of_up rfl rfl rfl fun _ => rfl
  have h2 := Grew.foldPlace (s := { s with
      commit := { s.commit with drainTimer := .stopped }
      store := s.store.swap
      cache := []
      parked := [] }) hn hw (fun k a h => by
    have e : ∀ k a, State.station { s with
      commit := { s.commit with drainTimer := .stopped }
      store := s.store.swap
      cache := []
      parked := [] } k a = s.station k a := fun k a => by cases k <;> rfl
    rw [e] at h ⊢
    exact ho k a h)
  generalize List.foldl placeParked _ s.parked = y at *
  have h3 : Grew [] y { Machine.raiseNotice (.commitDone y.store.generation) y with commit := CommitControl.initial } :=
    Grew.of_up (by simp) (by simp) (by simp) (fun i => by
      show slotReply ((Machine.raiseNotice _ y).slot i) = _
      simp)
  have := (h1.trans h2).trans h3
  simpa using this

theorem Grew.drainIfDone (hn : s.parked.Nodup) (hw : ∀ i ∈ s.parked, i ∉ s.up.waitList) (ho : InOrder s) :
    Grew s.parked s (drainIfDone s) := by
  unfold Machine.drainIfDone
  split
  · exact Grew.completeDrain hn hw ho
  · exact ⟨⟨[], by simp⟩, id, fun j h => .inr h⟩

theorem Grew.failDrain (r : FailReason) (hn : s.parked.Nodup) (hw : ∀ i ∈ s.parked, i ∉ s.up.waitList) :
    Grew s.parked s (failDrain r s) := by
  unfold Machine.failDrain
  dsimp only
  have h1 : Grew [] s { s with commit := { s.commit with drainTimer := .stopped }, parked := [] } :=
    Grew.of_up rfl rfl rfl fun _ => rfl
  have h2 := Grew.answerAll .reconfig (s := { s with commit := { s.commit with drainTimer := .stopped }, parked := [] })
    hn hw
  generalize Machine.answerAll .reconfig s.parked _ = y at *
  have h3 : Grew [] y
      { Machine.raiseNotice (.commitFailed r y.store.generation s.parked.length) y with commit := CommitControl.initial } :=
    Grew.of_up (by simp) (by simp) (by simp) (fun i => by
      show slotReply ((Machine.raiseNotice _ y).slot i) = _
      simp)
  have := (h1.trans h2).trans h3
  simpa using this

/-! ### Takings -/

/-- The slots on their way that no answer has reached: none of them waits in the Reply Wait List. -/
theorem SlotPlaces.parked_waits (h : SlotPlaces s) : ∀ i ∈ s.parked, i ∉ s.up.waitList := by
  intro i hi hw
  rw [h.parked] at hi
  rw [h.waiting, hi] at hw
  cases hw

theorem SlotPlaces.held_waits (h : SlotPlaces s) {k : Segment} {a : StationAddr} :
    ∀ i ∈ (s.station k a).held, i ∉ s.up.waitList := by
  intro i hi hw
  rw [h.held] at hi
  rw [h.waiting, hi.1] at hw
  cases hw

theorem SlotPlaces.sent_waits (h : SlotPlaces s) {i : SlotIx} (hs : (s.slot i).state = .sent) :
    i ∉ s.up.waitList := by
  intro hw
  rw [h.waiting, hs] at hw
  cases hw

theorem SlotPlaces.inOrder (h : SlotPlaces s) : InOrder s := by
  intro k a hn
  by_contra hh
  exact h.heldBehind k a hh hn

theorem Grew.takeRequest (h : SlotPlaces s) (dst src tag : Byte) (rest : List Byte) :
    Grew [] s (takeRequest dst src tag rest s) := by
  unfold Machine.takeRequest
  split
  · unfold offerRefusal
    split
    · next hr =>
      have hw := (trafficHasRoom_iff.mp hr).2
      have h1 : Grew [] s (countRefused s) := Grew.of_up (by simp) (by simp) (by simp) (by simp)
      exact h1.trans (Grew.enterTraffic _ hw)
    · exact Grew.of_up (by simp) (by simp) (by simp) (by simp)
  · next i x hj =>
    -- the slot taken is FREE, so it owes nothing
    have hfree : (s.slot i).state = .free := by
      obtain ⟨_, _, _, _, _, _, _, _, _, hf, _⟩ := judgeRequest_allot hj
      exact (freeSlot?_some hf).1
    have hiw : i ∉ s.up.waitList := fun hw => by rw [h.waiting, hfree] at hw; cases hw
    have key : ∀ t : State, t.up = s.up → (∀ j, j ≠ i → slotReply (t.slot j) = slotReply (s.slot j)) → Grew [] s t := by
      intro t hu hs
      refine ⟨⟨[], ?_⟩, by rw [hu]; exact id, by rw [hu]; exact fun j h => .inr h⟩
      rw [List.append_nil]
      exact trafficOwed_congr hu fun j hj => hs j (fun e => hiw (e ▸ hj))
    unfold placeAdmitted
    split
    · exact key _ (by simp) (fun j hj => by
        show slotReply (((countAdmitted s).setSlot i _).slot j) = _
        simp [hj.symm])
    · dsimp only
      split
      · refine key _ (by simp) (fun j hj => ?_)
        rw [queueSlot_slotReply]
        simp [hj.symm]
      · exact key _ (by simp) (fun j hj => by simp [hj.symm])

theorem Grew.signOfLife (k : Segment) (src : Byte) : Grew [] s (signOfLife k src s) := by
  unfold Machine.signOfLife; split
  · exact Grew.takeAlive _ _
  · exact Grew.refl s

theorem Grew.offerChange (x : Telegram) (c : List CacheEntry) : Grew [] s (offerChange x c s) := by
  unfold Machine.offerChange
  split
  · next hr =>
    have hw := (trafficHasRoom_iff.mp hr).2
    have h1 : Grew [] (Machine.enterTraffic x s) (countChangeForwarded { Machine.enterTraffic x s with cache := c }) :=
      Grew.of_up (by simp) (by simp) (by simp) (by simp; exact fun i => rfl)
    exact (Grew.enterTraffic x hw).trans h1
  · exact Grew.of_up (by simp) (by simp) (by simp) (by simp)

theorem Grew.takeChange (k : Segment) (src : Byte) (y v : Word) : Grew [] s (takeChange k src y v s) := by
  unfold Machine.takeChange
  refine (Grew.signOfLife k src).trans (l := []) (m := []) ?_
  generalize Machine.signOfLife k src s = u
  unfold mapChange
  split
  · unfold editChange
    split
    · unfold applyPolicy
      split
      · exact Grew.of_up (by simp) (by simp) (by simp) (by simp)
      · exact Grew.offerChange _ _
      · unfold decideDeadband
        dsimp only
        split
        · exact Grew.offerChange _ _
        · split
          · exact Grew.of_up (by simp) (by simp) (by simp) (by simp; exact fun i => rfl)
          · exact Grew.offerChange _ _
    · exact Grew.of_up (by simp) (by simp) (by simp) (by simp)
  · exact Grew.of_up (by simp) (by simp) (by simp) (by simp)

theorem PlacesBut.held_waits {x : Option (Segment × StationAddr)} (h : PlacesBut s x []) {k : Segment}
    {a : StationAddr} : ∀ i ∈ (s.station k a).held, i ∉ s.up.waitList := by
  intro i hi hw
  rw [h.held] at hi
  rw [h.waiting, hi.2.1] at hw
  cases hw.2

/-- A drain that may complete answers at most the parked slots. -/
theorem Grew.drained (h : PlacesBut s none []) : Grew s.parked s (Machine.drainIfDone s) :=
  have hp := (placesBut_iff s).mp h
  Grew.drainIfDone hp.parkedOnce hp.parked_waits hp.inOrder

theorem Grew.completeMatch (h : SlotPlaces s) {i : SlotIx} (hs : (s.slot i).state = .sent) (b : BuiltReply) :
    ∃ l, Grew l s (completeMatch (s.slot i).seg i b s) := by
  have hp := (((placesBut_iff s).mpr h).fromSent (by simp) hs).answerSlot b
  have h1 := Grew.answerSlot b (h.sent_waits hs)
  have h2 := Grew.completeSuccess (s := Machine.answerSlot b s i) (s.slot i).seg (s.slot i).station
  exact ⟨_, (h1.trans h2).trans (Grew.drained hp.completeSuccess)⟩

theorem Grew.failSlot (h : SlotPlaces s) {i : SlotIx} (hs : (s.slot i).state = .sent) :
    ∃ l, Grew l s (failSlot i s) := by
  have h0 : PlacesBut (countFinalTimeout (s.slot i).seg s) none [] := ((placesBut_iff s).mpr h).setCounters _
  have hs0 : ((countFinalTimeout (s.slot i).seg s).slot i).state = .sent := by simpa using hs
  have hp := (h0.fromSent (by simp) hs0).answerSlot ⟨.timeout, []⟩
  have e : (countFinalTimeout (s.slot i).seg s).slot i = s.slot i := by simp
  rw [e] at hp
  have g0 : Grew [] s (countFinalTimeout (s.slot i).seg s) := Grew.of_up (by simp) (by simp) (by simp) (by simp)
  have g1 := Grew.answerSlot (s := countFinalTimeout (s.slot i).seg s) ⟨.timeout, []⟩ (i := i)
    (by simpa using h.sent_waits hs)
  have g2 := Grew.completeFailure (s := Machine.answerSlot ⟨.timeout, []⟩ (countFinalTimeout (s.slot i).seg s) i)
    (s.slot i).seg (s.slot i).station (hp.heldOnce _ _) hp.held_waits
  exact ⟨_, ((g0.trans g1).trans g2).trans (Grew.drained hp.completeFailure)⟩

theorem Grew.takeReply (h : SlotPlaces s) (k : Segment) (src tag status count : Byte) (vs : List Word) :
    ∃ l, Grew l s (takeReply k src tag status count vs s) := by
  unfold Machine.takeReply
  split
  · split
    · next hm =>
      unfold slotMatches at hm
      rw [decide_eq_true_eq] at hm
      rw [← hm.2.1]
      exact Grew.completeMatch h hm.1 _
    · exact ⟨[], Grew.of_up (by simp) (by simp) (by simp) (by simp)⟩
  · split
    · next a _ =>
      unfold completeProbe
      dsimp only
      have h1 : Grew [] s (s.setSeg k { s.seg k with probe := .idle }) :=
        Grew.of_up (by simp) (by simp) (by simp) (by simp)
      refine ⟨_, (h1.trans (m := []) ?_).trans (Grew.dispatchIfIdle k)⟩
      split
      · exact Grew.takeAlive _ _
      · exact Grew.refl _
    · exact ⟨[], Grew.of_up (by simp) (by simp) (by simp) (by simp)⟩

theorem Grew.endSegment (k : Segment) : Grew [] s (endSegment k s) := by
  unfold Machine.endSegment
  split
  · exact Grew.refl s
  · refine Grew.trans (l := []) (m := []) (t := clearRecord k (recordEnded k (countTransmitted k.port s))) ?_
      (Grew.dispatchIfIdle k)
    refine Grew.of_up ?_ ?_ ?_ ?_
    · simp [clearRecord, recordEnded_up]
    · simp [clearRecord, recordEnded_up]
    · simp [clearRecord, recordEnded_up]
    · intro i
      simp only [clearRecord, State.setSeg_slot]
      unfold recordEnded
      split
      · next m _ _ =>
        unfold slotSent
        by_cases hm : m = i
        · subst hm; simp; rfl
        · simp [hm]
      · unfold probeSent; split <;> simp
      · simp
      · simp

theorem Grew.retrySlot (i : SlotIx) : Grew [] s (retrySlot i s) := by
  unfold Machine.retrySlot
  dsimp only
  have h1 : Grew [] s (s.setSlot i { s.slot i with retriesLeft := (s.slot i).retriesLeft - 1 }) := by
    refine Grew.of_up (by simp) (by simp) (by simp) (fun j => ?_)
    by_cases hj : i = j
    · subst hj; simp; rfl
    · simp [hj]
  have h2 := Grew.queueSlot (s := s.setSlot i { s.slot i with retriesLeft := (s.slot i).retriesLeft - 1 }) i
  generalize Machine.queueSlot i _ = y at *
  have h3 : Grew [] y (countRetry (s.slot i).seg y) := Grew.of_up (by simp) (by simp) (by simp) (by simp)
  exact (h1.trans h2).trans h3

theorem Grew.expireProbeDue (k : Segment) (a : StationAddr) : Grew [] s (expireProbeDue k a s) := by
  unfold Machine.expireProbeDue
  split
  · exact Grew.trans (l := []) (m := []) (Grew.of_up (by simp) (by simp) (by simp) (by simp)) (Grew.dispatchIfIdle k)
  · exact Grew.refl s

theorem Grew.expireProbeDeadline (k : Segment) : Grew [] s (expireProbeDeadline k s) := by
  unfold Machine.expireProbeDeadline
  split
  · split
    · refine Grew.trans (l := []) (m := []) ?_ (Grew.dispatchIfIdle k)
      unfold restartProbeDue
      split <;> exact Grew.of_up (by simp) (by simp) (by simp) (by simp)
    · exact Grew.refl s
  · exact Grew.refl s
  · exact Grew.refl s

theorem Grew.takeMgmtByCode (h : SlotPlaces s) (hd : MgmtHead) (args : List Byte) :
    ∃ l, Grew l s (takeMgmtByCode hd args s) := by
  have place : ∀ t : State, t.up = s.up → (∀ i, t.slot i = s.slot i) → ∀ st d, Grew [] s (answerStored hd st d t) := by
    intro t hu hs st d
    exact Grew.of_up (by rw [show (Machine.answerStored hd st d t).up.traffic = t.up.traffic from rfl, hu])
      (by rw [show (Machine.answerStored hd st d t).up.sending = t.up.sending from rfl, hu])
      (by rw [show (Machine.answerStored hd st d t).up.waitList = t.up.waitList from rfl, hu])
      (fun i => by rw [show (Machine.answerStored hd st d t).slot i = t.slot i from rfl, hs])
  refine takeMgmtByCode_keeps (P := fun t => ∃ l, Grew l s t) ⟨?_, ?_, ?_, ?_, ?_, ?_⟩ args
  · exact ⟨[], Grew.of_up (by simp) (by simp) (by simp) (by simp)⟩
  · exact ⟨[], Grew.refl s⟩
  · exact fun _ => ⟨[], by refine place _ ?_ ?_ _ _ <;> intros <;> rfl⟩
  · exact fun _ st d => ⟨[], Grew.of_up (by rfl) (by rfl) (by rfl) (fun _ => rfl)⟩
  · exact fun _ r => ⟨[], Grew.of_up (by rfl) (by rfl) (by rfl) (fun _ => rfl)⟩
  · intro _
    constructor
    · exact fun st d => ⟨[], place s (by rfl) (fun _ => rfl) st d⟩
    · exact fun p v _ => ⟨[], by refine place _ ?_ ?_ _ _ <;> intros <;> rfl⟩
    · exact ⟨[], by refine place _ ?_ ?_ _ _ <;> intros <;> rfl⟩
    · exact fun _ b _ => ⟨[], by refine place _ ?_ ?_ _ _ <;> intros <;> rfl⟩
    · exact fun k a => ⟨[], place _ (by simp [resetStation]) (fun i => by simp [resetStation]) _ _⟩
    · exact fun d g => ⟨[], (place s (by rfl) (fun _ => rfl) .done d).trans (m := [])
        (Grew.of_up (by rfl) (by rfl) (by rfl) (fun _ => rfl))⟩
    · intro _ _
      unfold beginDrain
      have hp : ∀ t : State, t.slots = s.slots → t.seg0 = s.seg0 → t.seg1 = s.seg1 → t.parked = s.parked →
          t.up.waitList = s.up.waitList → PlacesBut t none [] :=
        fun t h0 h1 h2 h3 h4 => ((placesBut_iff s).mpr h).congr h0 h1 h2 h3 h4
      refine ⟨_, Grew.trans (l := []) (Grew.of_up ?_ ?_ ?_ ?_) (Grew.drained (hp _ ?_ ?_ ?_ ?_ ?_))⟩ <;> intros <;> rfl
    · intro _
      have g := Grew.failDrain (s := Machine.answerStored hd .done [] s) .aborted h.parkedOnce h.parked_waits
      exact ⟨_, (place s rfl (fun _ => rfl) .done []).trans g⟩

end Sys2Proof.Safety
end

