-- ==== Sys2Proof/Laws/StationRules.lean ====
section
/-! SUPPORT. What the operations inside a taking do to the station records' evidence (R102 to R109). -/

namespace Sys2Proof.Safety

open Sys2Proof.Machine

/-- Every station record is sound. -/
def StationsSound (s : State) : Prop := ∀ k a, StationSound (s.station k a)

theorem StationsSound.congr {s t : State} (h : StationsSound s) (he : ∀ k a, t.station k a = s.station k a) : StationsSound t := fun k a
    => by rw [he]; exact h k a

theorem StationsSound.set {s : State} (h : StationsSound s) {k a r} (hr : StationSound r) : StationsSound (s.setStation k a r) := by
  intro k' a'
  by_cases e : k = k' ∧ a = a'
  · obtain ⟨rfl, rfl⟩ := e; simpa using hr
  · have : (s.setStation k a r).station k' a' = s.station k' a' := by rw [State.station_setStation]; grind
    rw [this]; exact h k' a'

/-- Clearing the due flag keeps a record sound. -/
theorem StationSound.undue {r : Station} (h : StationSound r) : StationSound { r with due := false } :=
  ⟨h.unknown, h.online, h.suspect, h.silent, h.timer, by simp⟩

/-- So does a change of its slots. -/
theorem StationSound.same {r : Station} (h : StationSound r) (x : Option SlotIx) (l : List SlotIx) : StationSound
    { r with activeSlot := x, held := l } :=
  ⟨h.unknown, h.online, h.suspect, h.silent, h.timer, h.due⟩

theorem StationsSound.dispatch {s : State} (h : StationsSound s) (k) : StationsSound (dispatchIfIdle k s) := by
  intro k' a
  rcases dispatchIfIdle_station k s k' a with e | ⟨_, _, _, e⟩ <;> rw [e]
  · exact h _ _
  · exact (h _ _).undue

theorem StationsSound.queue {s : State} (h : StationsSound s) (i) : StationsSound (queueSlot i s) := by
  intro k' a
  rcases queueSlot_station i s k' a with e | ⟨_, _, _, e⟩ <;> rw [e]
  · exact h _ _
  · exact (h _ _).undue

theorem StationsSound.alive {s : State} (h : StationsSound s) (k a) : StationsSound (takeAlive k a s) := by
  unfold takeAlive; dsimp only; split
  · refine StationsSound.congr (h.set (r := _) ?_) (fun _ _ => raiseNotice_station _ _ _ _)
    constructor <;> simp [Timer.isRunning]
  · next hn =>
    refine h.set ?_
    have := h k a
    constructor <;> simp
    · by_contra hd; exact hn (this.timer (by simpa using hd))
    · by_contra hd; exact hn (this.due (by simpa using hd))

theorem StationsSound.release {s : State} (h : StationsSound s) (k a) : StationsSound (releaseHeld k a s) := by
  unfold releaseHeld; split
  · exact StationsSound.queue (h.set ((h k a).same _ _)) _
  · exact h

theorem StationsSound.success {s : State} (h : StationsSound s) (k a) : StationsSound (completeSuccess k a s) := by
  unfold completeSuccess
  refine StationsSound.release ?_ _ _
  unfold clearActive
  exact (h.alive k a).set ((h.alive k a k a).same _ _)

/-- A failure of a station that is not SILENT (R106). -/
theorem StationsSound.failure {s : State} (h : StationsSound s) (k a) (hn : (s.station k a).health ≠ .silent) (ht :
    s.agent.silentThreshold ≤ 15) : StationsSound (completeFailure k a s) := by
  unfold completeFailure
  refine StationsSound.release ?_ _ _
  have h1 : StationsSound (clearActive k a s) := h.set ((h k a).same _ _)
  have e : (clearActive k a s).station k a = { s.station k a with activeSlot := none } := by simp [clearActive]
  have ea : (clearActive k a s).agent = s.agent := by simp [clearActive]
  have hf : (s.station k a).failures ≤ 14 := by
    have := h k a
    cases hh : (s.station k a).health
    · rw [this.unknown hh]; omega
    · rw [this.online hh]; omega
    · exact (this.suspect hh).2
    · exact absurd hh hn
  have hdue : (s.station k a).due = false := by
    by_contra hd; exact hn ((h k a).due (by simpa using hd))
  have htm : ¬ (s.station k a).dueTimer.isRunning = true := fun hd => hn ((h k a).timer hd)
  unfold takeFailure; dsimp only; rw [e, ea]
  split
  · unfold silenceStation
    refine StationsSound.congr (s := (clearActive k a s).setStation k a { (clearActive k a s).station k a with
        health := .silent, failures := (s.station k a).failures + 1, held := [], due := false,
        dueTimer := startTimer (unitsMs (clearActive k a s).agent.probeInterval) }) (h1.set ?_) ?_
    · constructor <;> simp; omega
    · intro k' a'
      simp
  · next hlt =>
    have hlt' : ¬ s.agent.silentThreshold ≤ (s.station k a).failures + 1 := hlt
    refine h1.set ?_
    constructor <;> simp [hdue]
    · omega
    · simpa using htm

theorem StationsSound.answer {s : State} (h : StationsSound s) (b i) : StationsSound (answerSlot b s i) := h.congr (by simp)

theorem StationsSound.place {s : State} (h : StationsSound s) (i) : StationsSound (placeParked s i) := by
  unfold placeParked; dsimp only; split
  · exact h.answer _ _
  · split
    · exact StationsSound.queue (h.set ((h _ _).same _ _)) _
    · refine StationsSound.set (h.congr (by simp)) ((h _ _).same _ _)

theorem StationsSound.fold : ∀ (l : List SlotIx) {s : State}, StationsSound s → StationsSound (l.foldl placeParked s)
  | [], _, h => h
  | i :: l, _, h => StationsSound.fold l (h.place i)

theorem StationsSound.drain {s : State} (h : StationsSound s) : StationsSound (drainIfDone s) := by
  unfold drainIfDone; split
  · have : StationsSound { s with
        commit := { s.commit with drainTimer := .stopped }
        store := s.store.swap
        cache := []
        parked := [] } := h
    have := StationsSound.fold s.parked this
    unfold completeDrain; dsimp only
    exact StationsSound.congr this (fun k a => raiseNotice_station _ _ _ _)
  · exact h

theorem StationsSound.fail {s : State} (h : StationsSound s) (r) : StationsSound (failDrain r s) := by
  unfold failDrain; dsimp only
  have : StationsSound { s with commit := { s.commit with drainTimer := .stopped }, parked := [] } := h
  refine StationsSound.congr (this) (fun k a => ?_)
  exact (raiseNotice_station _ _ k a).trans (by simp)

theorem StationsSound.initial {s : State} (h : ∀ k a, s.station k a = Station.initial) : StationsSound s := by
  intro k a; rw [h]; constructor <;> simp [Station.initial, Timer.isRunning]

theorem StationsSound.mgmt {s : State} (h : StationsSound s) (hd args) : StationsSound (takeMgmtByCode hd args s) := by
  have cg : ∀ {t : State}, t.seg0 = s.seg0 → t.seg1 = s.seg1 → StationsSound t := fun a b => h.congr fun k x => by
    cases k <;> simp only [State.station, State.seg, a, b]
  refine takeMgmtByCode_keeps (P := StationsSound) ⟨cg rfl rfl, h, fun _ => cg rfl rfl, fun _ _ _ => cg rfl rfl, fun _ _ => cg
    rfl rfl, fun _ => ?_⟩ args
  constructor
  · exact fun _ _ => cg rfl rfl
  · exact fun _ _ _ => cg rfl rfl
  · exact cg rfl rfl
  · exact fun _ _ _ => cg rfl rfl
  · intro k a
    refine StationsSound.congr (s := resetStation k a s) (h.set ?_) ?_
    · constructor <;> simp [Timer.isRunning]
    · intro k' a'; cases k' <;> rfl
  · exact fun _ _ => cg rfl rfl
  · intro _ _; exact StationsSound.drain (cg rfl rfl)
  · intro _; exact StationsSound.fail (s := answerStored hd .done [] s) (cg rfl rfl) _

end Sys2Proof.Safety
end

