-- ==== Sys2Proof/Tests/Slice0.lean ====
section
/-! SUPPORT. The model's own tests: the well-formedness smoke, the manual's worked examples, and for each statement with
hypotheses a state and operands that meet them, clause by clause. -/

namespace Sys2Proof.Tests

open Sys2Proof.Machine Sys2Proof.Safety

/-! ### Well-formedness: each check refuses a term -/

theorem test_requestTooShort : (Instr.request 17 9 1 [0]).wellFormed = false := by decide
theorem test_requestTooLong : (Instr.request 17 9 1 (List.replicate 59 0)).wellFormed = false := by decide
theorem test_requestAtTheLimits : (Instr.request 17 9 1 [0, 0]).wellFormed = true ∧
    (Instr.request 17 9 1 (List.replicate 58 0)).wellFormed = true := by decide
theorem test_replyOkWithoutCount : (Instr.reply .s0 240 5 32 0 0 0 []).wellFormed = false := by decide
theorem test_replyOkWithNineValues :
    (Instr.reply .s0 240 5 32 0 0 9 (List.replicate 9 0)).wellFormed = false := by decide
theorem test_replyErrorWithValues : (Instr.reply .s0 240 5 32 3 0 0 [7]).wellFormed = false := by decide
theorem test_tooManyArguments : (Instr.sync 9 0 (List.replicate 33 0)).wellFormed = false ∧
    (Instr.sync 9 0 (List.replicate 32 0)).wellFormed = true := by decide
theorem test_unknownCommandIsKnown : (Instr.unknownCommand 19 9 0 []).wellFormed = false ∧
    (Instr.unknownCommand 20 9 0 []).wellFormed = true ∧ (Instr.unknownCommand 0 9 0 []).wellFormed = true := by decide
theorem test_refreshOfNoStation : (Instr.refreshCountdownExpiry 240 0).wellFormed = false ∧
    (Instr.refreshCountdownExpiry 239 0).wellFormed = true := by decide

/-- No row of the table gives bits. -/
theorem test_noWordIsACommand : decodeTableWord 8 0 = none ∧ (State.reset.withFetchWord 8 0).pending = [] := by decide

/-! ### The manual's worked examples -/

/-- Chapter 3, example 1: a loop current scaled to tenths of a percent. -/
def levelRecord : EditRecord :=
  ⟨.unsigned, .unsigned, .saturate, .useDefault,
    [⟨.add, .always, 0xE700, 0⟩, ⟨.scale, .always, 5, 0x0107⟩, ⟨.limit, .always, 0, 1000⟩]⟩

theorem test_example1 : applyRecord Bank.empty levelRecord 0x4E2B = some 0x0214 ∧
    applyRecord Bank.empty levelRecord 0x1388 = some 0 := by decide +kernel

/-- Chapter 3, example 2: a packed-decimal total. -/
def meterRecord : EditRecord := ⟨.decimal, .unsigned, .reject, .useDefault, [⟨.scale, .always, 10, 0⟩]⟩

theorem test_example2 : applyRecord Bank.empty meterRecord 0x4719 = some 0xB856 ∧
    applyRecord Bank.empty meterRecord 0x9999 = none ∧ applyRecord Bank.empty meterRecord 0x47A9 = none := by
  decide +kernel

/-- Chapter 3, example 3: a status word with bits forced. -/
def statusRecord : EditRecord :=
  ⟨.unsigned, .unsigned, .saturate, .useDefault,
    [⟨.clearBits, .always, 0xF000, 0⟩, ⟨.flipBits, .always, 8, 0⟩, ⟨.setBits, .ifZ, 0x8000, 0⟩]⟩

theorem test_example3 : applyRecord Bank.empty statusRecord 0xA5C2 = some 0x05CA ∧
    applyRecord Bank.empty statusRecord 0xF008 = some 0x8000 := by decide +kernel

/-- Chapter 3, example 4: a mode code translated, in a telegram of three values. -/
def modeRecord : EditRecord := ⟨.unsigned, .unsigned, .saturate, .reject, [⟨.translate, .always, 2, 0⟩]⟩

def modePage : Page :=
  { words := (((Vector.replicate 64 0).set 0 0x10).set 1 0x20).set 2 0x40, dflt := 0xFFFF }

def modeBank : Bank := (Bank.empty.setPage 2 modePage).setRecord 7 (some modeRecord)

theorem test_example4 : editValues modeBank (some 7) [1, 2, 0] = some [0x20, 0x40, 0x10] ∧
    editValues modeBank (some 7) [1, 70, 2] = none := by decide +kernel

/-- The table of R45. -/
theorem test_scaleTable :
    [((68055 : Int), 7), (7, 1), (-7, 1), (-5, 2), (-6, 2)].map (fun p =>
      ((stepResult Bank.empty ⟨.scale, .always, 1, BitVec.ofNat 16 p.2⟩ ⟨p.1, ⟨false, false, false, false⟩⟩).w,
       (stepResult Bank.empty ⟨.scale, .always, 1, BitVec.ofNat 16 (256 + p.2)⟩ ⟨p.1, ⟨false, false, false, false⟩⟩).w))
      = [(531, 532), (3, 4), (-4, -4), (-2, -1), (-2, -2)] := by decide +kernel

/-- The command a state's next step leads to, for a command that always has one. -/
def after (c : Instr) (s : State) : State :=
  match exec c s with
  | .next t => t
  | .fault _ => s
  | .refused _ => s

/-- A SYNC's bytes on port U open the dialogue of a part fresh from reset (R152). -/
theorem test_syncBytes :
    (after (.framingDiscard .u (withCheck [4, 240, 9, 7, 1, 0])) State.reset).agent.sync = .synced ∧
    (after (.framingDiscard .u (withCheck [4, 240, 9, 7, 1, 0])) State.reset).up.outbox =
      [⟨9, 240, 7, 1, .done, [240, 3, 0, 0, 0]⟩] := by decide +kernel

/-! ### States that meet the hypotheses -/

/-- Logical station 17, objects 100 to 149, on station 5 of segment 0. -/
def entry : MapEntry := ⟨17, 100, 149, .s0, 4, 0, .readWrite, none, none, .forward⟩

/-- The part after reset with one entry in its active bank. -/
def withEntry (e : MapEntry) (s : State) : State :=
  { s with store := { s.store with bankA := s.store.bankA.setEntry 0 (some e) } }

def mapped : State := withEntry entry State.reset

/-- The part after a SYNC, with the next sequence 5. -/
def synced : State :=
  { State.reset with agent := { State.reset.agent with
      sync := .synced, lastSeq := 4, ctrlAddr := 9, stored := some ⟨9, 240, 4, 1, .done, []⟩ } }

/-- Slot 0, waiting for station 5's reply to its transmission 1, in its last try. -/
def sentSlot : Slot :=
  { state := .sent, ctrlAddr := 9, ctrlTag := 7, logStation := 17, logIndex := 100, count := 1, op := .read, seg := .s0,
    station := 4, physIndex := 0, writeValues := [], upEdit := none, generation := 0, retriesLeft := 0, cur := 1,
    next := 2, deadline := .running 20, built := none }

/-- Slot 0 SENT and slot 1 HELD behind it; the station has failed `failures` times. -/
def waiting (failures : Nat) : State :=
  ((mapped.setSlot 0 sentSlot).setSlot 1 { sentSlot with state := .held, deadline := .stopped }).setStation .s0 4
    { Station.initial with health := .suspect, failures := failures, activeSlot := some 0, held := [1] }

/-- A drain with slot 0 SENT and slot 1 parked for the same station. -/
def draining : State :=
  { (synced.setSlot 0 sentSlot).setStation .s0 4 { Station.initial with activeSlot := some 0 } with
    slots := (synced.slots.set 0 sentSlot).set 1
      { sentSlot with state := .parked, generation := 1, deadline := .stopped }
    parked := [1]
    commit := ⟨.draining, some 1, .running 500⟩ }

/-- Station 5 SILENT with its probe due. -/
def silent : Station := ⟨.silent, 3, none, [], .stopped, true⟩

def probing (p : ProbeRecord) (r : Station) : State :=
  (State.reset.setStation .s0 4 r).setSeg .s0 { (State.reset.setStation .s0 4 r).seg .s0 with probe := p }

/-- The parts of `SlotPlaces` that can be computed, for one segment. -/
def placesOk (k : Segment) (s : State) : Bool :=
  decide (∀ a i, i ∈ (s.station k a).held ↔
      (s.slot i).state = .held ∧ (s.slot i).seg = k ∧ (s.slot i).station = a) &&
    decide (∀ a, (s.station k a).held.Nodup) &&
    decide (∀ i, i ∈ (s.seg k).queue ↔ (s.slot i).state = .queued ∧ (s.slot i).seg = k) &&
    decide ((s.seg k).queue.Nodup) &&
    decide (∀ a i, (s.station k a).activeSlot = some i ↔
      ((s.slot i).state = .queued ∨ (s.slot i).state = .sending ∨ (s.slot i).state = .sent) ∧ (s.slot i).seg = k ∧
        (s.slot i).station = a) &&
    decide (∀ a, (s.station k a).held ≠ [] → (s.station k a).activeSlot ≠ none) &&
    decide (∀ a, (s.station k a).health = .silent → (s.station k a).activeSlot = none) &&
    decide ((s.seg k).record = .none) && decide (∀ i, (s.slot i).state ≠ .sending)

def allPlacesOk (s : State) : Bool :=
  placesOk .s0 s && placesOk .s1 s && decide (∀ i, i ∈ s.parked ↔ (s.slot i).state = .parked) &&
    decide s.parked.Nodup && decide (∀ i, i ∈ s.up.waitList ↔ (s.slot i).state = .replyReady) &&
    decide s.up.waitList.Nodup

theorem placesOk_of {s : State} (h : allPlacesOk s = true) : SlotPlaces s := by
  unfold allPlacesOk placesOk at h
  simp only [Bool.and_eq_true, decide_eq_true_eq] at h
  obtain ⟨⟨⟨⟨⟨⟨⟨⟨⟨⟨⟨⟨⟨a1, a2⟩, a3⟩, a4⟩, a5⟩, a6⟩, a7⟩, a8⟩, a9⟩,
    ⟨⟨⟨⟨⟨⟨⟨⟨b1, b2⟩, b3⟩, b4⟩, b5⟩, b6⟩, b7⟩, b8⟩, b9⟩⟩, c1⟩, c2⟩, c3⟩, c4⟩ := h
  constructor
  · intro k; cases k
    exacts [a1, b1]
  · intro k; cases k
    exacts [a2, b2]
  · intro k; cases k
    exacts [a3, b3]
  · intro k; cases k
    exacts [a4, b4]
  · exact c1
  · exact c2
  · exact c3
  · exact c4
  · intro k i
    have hn : (s.seg k).record = .none := by cases k; exacts [a8, b8]
    rw [hn]
    exact ⟨fun h => (by obtain ⟨_, e⟩ := h; cases e), fun e => absurd e.1 (a9 i)⟩
  · intro k; cases k
    exacts [a5, b5]
  · intro k; cases k
    exacts [a6, b6]
  · intro k; cases k
    exacts [a7, b7]

theorem places_waiting : SlotPlaces (waiting 1) ∧ SlotPlaces (waiting 2) :=
  ⟨placesOk_of (by decide +kernel), placesOk_of (by decide +kernel)⟩

/-- A drain with slot 0 SENT, slot 1 HELD behind it and slot 2 parked for the same station; and slot 3 SENT to the next
station when `more`. -/
def closing (failures : Nat) (more : Bool) : State :=
  let s := { (waiting failures).setSlot 2 { sentSlot with state := .parked, generation := 1, deadline := .stopped } with
    parked := [2]
    commit := ⟨.draining, some 1, .running 500⟩ }
  if more then (s.setSlot 3 { sentSlot with station := 5 }).setStation .s0 5 { Station.initial with activeSlot := some 3 }
  else s

theorem places_closing : SlotPlaces (closing 1 false) ∧ SlotPlaces (closing 2 false) ∧ SlotPlaces (closing 2 true) :=
  ⟨placesOk_of (by decide +kernel), placesOk_of (by decide +kernel), placesOk_of (by decide +kernel)⟩

/-- In IDLE; in a drain with the held slot 1, or slot 3 at another station, still open. -/
theorem goesOn : NoDrainEnds (waiting 1) (· = 0) ∧
    NoDrainEnds (waiting 2) (fun j => j = 0 ∨ j ∈ ((waiting 2).station .s0 4).held) ∧
    NoDrainEnds (closing 1 false) (· = 0) ∧
    NoDrainEnds (closing 2 true) (fun j => j = 0 ∨ j ∈ ((closing 2 true).station .s0 4).held) :=
  ⟨.inl rfl, .inl rfl, .inr ⟨1, by decide, by decide, .inl (by decide)⟩,
    .inr ⟨3, by decide, by decide, .inr (.inr (.inr (by decide)))⟩⟩

theorem places_draining : SlotPlaces draining := placesOk_of (by decide +kernel)

/-- Port U is busy sending STARTED in all of these. -/
theorem rests_of {s : State} (h : s.up.sending.isSome = true) : UpstreamRests s := by
  intro _ e
  rw [e] at h
  cases h

theorem ready_synced : MgmtReady synced 5 := ⟨rfl, rests_of rfl, by decide, rfl, by decide, rfl⟩

theorem ready_draining : MgmtReady draining 5 := ⟨rfl, rests_of rfl, by decide, rfl, by decide, rfl⟩

/-! ### The queue, pins and events that do not occur -/

theorem test_hyps_StepTakesTheFrontCommand : ({ State.reset with pending := [.drainExpiry, .pinResetAssert] } : State).pending =
    .drainExpiry :: [.pinResetAssert] ∧ State.reset.pending = [] := by decide

theorem test_hyps_EventsHeld : (holdReset State.reset).resetHeld = true ∧
    Instr.sync 9 0 [] ≠ .pinResetAssert ∧ ∀ addr s1En, Instr.sync 9 0 [] ≠ .pinResetRelease addr s1En := by
  refine ⟨rfl, by decide, nofun⟩

/-- A FREE slot, a SENT one whose timer has stopped, and every other timer stopped, idle or absent. -/
theorem test_hyps_EventsStopped : (State.reset.slot 31).state ≠ .sent ∧
    (((waiting 1).setSlot 0 { sentSlot with deadline := .stopped }).slot 0).deadline = .stopped ∧
    (State.reset.station .s1 30).dueTimer = .stopped ∧
    (∀ a d, (State.reset.seg .s0).probe ≠ .awaiting a (.running d)) ∧
    (∀ a d, ((probing (.awaiting 4 .stopped) silent).seg .s0).probe ≠ .awaiting a (.running d)) ∧
    (∀ c ∈ State.reset.cache, c.station = 17 → c.index = 100 → c.countdown = .stopped) ∧
    State.reset.commit.state = .idle ∧
    ({ draining with commit := ⟨.draining, some 1, .stopped⟩ } : State).commit.drainTimer = .stopped ∧
    (State.reset.seg .s1).record = .none ∧
    ({ State.reset with up := Upstream.initial } : State).up.sending = none := by
  refine ⟨by decide, by decide, by decide, nofun, nofun, by decide, rfl, rfl, rfl,
    rfl⟩

/-! ### Blocks -/

theorem test_hyps_FramingTests : State.reset.resetHeld = false ∧ State.reset.s1Present = true ∧
    (List.replicate 7 (0 : Byte)).length < 8 ∧ 64 < (List.replicate 65 (0 : Byte)).length ∧
    [0, 0] ≠ wordBytes (check (List.replicate 6 0)) ∧ (∃ c1 c0, [c1, c0] ≠ wordBytes (check (List.replicate 62 0))) ∧
    (List.replicate 6 (0 : Byte)).length = 6 ∧ (List.replicate 62 (0 : Byte)).length = 62 ∧
    ((2 : Byte) ≠ 1 ∧ (2 : Byte) ≠ 4) ∧ ((1 : Byte) ≠ 2 ∧ (1 : Byte) ≠ 3) := by
  refine ⟨by decide, by decide, by decide, by decide, ?_, ?_, by decide, by decide, by decide, by decide⟩
  · decide +kernel
  · by_contra h
    push Not at h
    have e := (h 0 0).trans (h 0 1).symm
    revert e
    decide

/-- A MGMT with 33 arguments announced, with one too few, and to another address. -/
theorem test_hyps_FormFailuresMgmt : 32 < (33 : Byte).toNat ∧ ([] : List Byte).length ≠ (1 : Byte).toNat ∧
    (0xF1 : Byte) ≠ State.reset.ownAddress ∧ (List.replicate 56 (0 : Byte)).length ≤ 56 := by decide

/-- REPLY forms that fail: count 0, count 9, a byte too few, and an error with a count or with values; CHANGE forms that
fail: an error, two objects, no value; and either kind with 8 or 9 bytes. -/
theorem test_hyps_FormFailuresSegment : State.reset.inService .s0 = true ∧ State.reset.inService .s1 = true ∧
    8 < (9 : Byte).toNat ∧ ([1] ≠ ([] : List Byte) ∧ ([1] : List Byte).length ≠ 2 * (1 : Byte).toNat) ∧
    (3 : Byte) ≠ 0 ∧ (1 : Byte) ≠ 0 ∧ (2 : Byte) ≠ 1 ∧ ([] : List Byte).length ≠ 2 ∧
    (List.replicate 54 (0 : Byte)).length ≤ 54 ∧ (List.replicate 5 (0 : Byte)).length = 5 ∧
    (List.replicate 6 (0 : Byte)).length = 6 := by decide

theorem test_hyps_AbsentSegment : ({ State.reset with s1Present := false } : State).resetHeld = false ∧
    ({ State.reset with s1Present := false } : State).s1Present = false := by decide

/-- Each of the four layouts, the shortest and the longest MGMT among them. -/
theorem test_hyps_FramedTelegram :
    (TelegramOf 240 (.request 17 9 1 [0, 0, 100, 1]) .u ([1, 17, 9, 1] ++ [0, 0, 100, 1]) ∧
      (Instr.request 17 9 1 [0, 0, 100, 1]).wellFormed = true) ∧
    (TelegramOf 240 (.sync 9 0 []) .u ([4, 240, 9, 0, 1, byteOf 0] ++ []) ∧ (Instr.sync 9 0 []).wellFormed = true) ∧
    (TelegramOf 240 (.unknownCommand 20 9 0 (List.replicate 32 0)) .u
        ([4, 240, 9, 0, 20, byteOf (List.replicate 32 (0 : Byte)).length] ++ List.replicate 32 0) ∧
      (Instr.unknownCommand 20 9 0 (List.replicate 32 0)).wellFormed = true) ∧
    (TelegramOf 240 (.reply .s1 240 5 32 0 0 1 [7]) .s1
        ([2, 240, 5, 32, 0] ++ wordBytes 0 ++ [1] ++ wordsBytes [7]) ∧
      (Instr.reply .s1 240 5 32 0 0 1 [7]).wellFormed = true) ∧
    TelegramOf 240 (.change .s0 240 5 0 3 7) .s0 ([3, 240, 5, 0, 0] ++ wordBytes 3 ++ [1] ++ wordBytes 7) :=
  ⟨⟨.request _ _ _ _, by decide⟩, ⟨.mgmt 1 9 0 [], by decide⟩, ⟨.mgmt 20 9 0 _, by decide⟩,
    ⟨.reply .s1 _ _ _ _ _ _ _, by decide⟩, .change .s0 _ _ _ _ _⟩

/-! ### REQUEST -/

/-- A READ of one object and a WRITE of eight. -/
theorem form_read (ix : Word) : RequestBytes ([1] ++ wordBytes ix ++ [1] ++ wordsBytes []) .read ix 1 [] :=
  ⟨by decide, rfl, rfl⟩

theorem form_write : RequestBytes ([2] ++ wordBytes 142 ++ [8] ++ wordsBytes (List.replicate 8 7)) .write 142 8
    (List.replicate 8 7) := ⟨by decide, rfl, rfl⟩

def readRest : List Byte := [1] ++ wordBytes 149 ++ [1] ++ wordsBytes []

def writeRest : List Byte := [2] ++ wordBytes 142 ++ [8] ++ wordsBytes (List.replicate 8 7)

theorem mapped_read (s : State) (hr : s.resetHeld = false) (ho : s.ownAddress = 240)
    (hm : s.judgingBank.forward 17 149 1 = some entry) : Mapped s 17 readRest .read 149 1 [] entry :=
  ⟨hr, form_read 149, by rw [ho]; decide, hm, .inl rfl⟩

/-- The refusals of form: two and three bytes; an op that is none, at the longest; and the own address, no entry. -/
theorem test_hyps_RefusedForm : State.reset.resetHeld = false ∧ UpstreamRests State.reset ∧
    ([0, 0] : List Byte).length = 2 ∧ ([0, 0, 0] : List Byte).length = 3 ∧
    (¬ ∃ o ix n vs, RequestBytes (List.replicate 58 9) o ix n vs) ∧
    RequestBytes ([1] ++ wordBytes 100 ++ [1] ++ wordsBytes []) .read 100 1 [] ∧
    State.reset.judgingBank.forward 17 100 1 = none ∧ (17 : Byte) ≠ State.reset.ownAddress := by
  refine ⟨rfl, rests_of rfl, rfl, rfl, ?_, form_read 100, by decide +kernel, by decide⟩
  rintro ⟨o, ix, n, vs, h⟩
  have := h.bytes
  cases o <;> simp [opCode, List.replicate] at this

/-- Read-only against a WRITE and write-only against a READ. -/
theorem test_hyps_RefusedAccess :
    (withEntry { entry with access := .readOnly } State.reset).judgingBank.forward 17 142 8 =
      some { entry with access := .readOnly } ∧
    (withEntry { entry with access := .writeOnly } State.reset).judgingBank.forward 17 149 1 =
      some { entry with access := .writeOnly } := by decide +kernel

/-- A SILENT station; a down-edit that rejects; no FREE slot. -/
def refusing : State := (withEntry { entry with downEdit := some 0 } State.reset)

def rejectAll : State :=
  let bank := refusing.store.bankA.setRecord 0
    (some ⟨.unsigned, .decimal, .reject, .reject, [⟨.add, .always, 0x7FFF, 0⟩]⟩)
  { refusing with store := { refusing.store with bankA := bank } }

theorem test_hyps_RefusedSilent : Mapped (mapped.setStation .s0 4 silent) 17 readRest .read 149 1 [] entry ∧
    ((mapped.setStation .s0 4 silent).station entry.seg entry.phys).health = .silent :=
  ⟨mapped_read _ rfl rfl (by decide +kernel), by decide⟩

theorem test_hyps_RefusedEdit : Mapped rejectAll 17 writeRest .write 142 8 (List.replicate 8 7) { entry with downEdit := some 0 } ∧
    (rejectAll.station .s0 4).health ≠ .silent ∧
    editValues rejectAll.judgingBank (some 0) (List.replicate 8 7) = none :=
  ⟨⟨rfl, form_write, by decide, by decide +kernel, .inl rfl⟩, by decide, by decide +kernel⟩

def full : State := { mapped with slots := Vector.replicate 32 { sentSlot with state := .held } }

theorem test_hyps_RefusedNoSlot : Mapped full 17 readRest .read 149 1 [] entry ∧ (full.station entry.seg entry.phys).health ≠ .silent ∧
    ∀ j : SlotIx, (full.slot j).state ≠ .free :=
  ⟨mapped_read _ rfl rfl (by decide +kernel), by decide, by decide⟩

/-- IDLE with no active slot; IDLE behind an active slot, at the last slot; and DRAINING. -/
theorem test_hyps_AdmittedQueued : Admitted mapped 17 readRest .read 149 1 [] entry [] 0 ∧ mapped.commit.state = .idle ∧
    UpstreamRests mapped ∧ DispatcherRests mapped .s0 ∧ (mapped.station .s0 4).activeSlot = none := by
  refine ⟨⟨mapped_read _ rfl rfl (by decide +kernel), by decide, rfl, by decide, by intro j h; revert j; decide⟩, rfl, rests_of rfl,
    fun _ _ _ => ⟨rfl, fun _ => by decide⟩, by decide⟩

def almostFull : State :=
  (full.setSlot 31 (Slot.cleared 0 0)).setStation .s0 4 { Station.initial with activeSlot := some 0 }

theorem test_hyps_AdmittedHeld : Admitted almostFull 17 writeRest .write 142 8 (List.replicate 8 7) entry (List.replicate 8 7) 31 ∧
    almostFull.commit.state = .idle ∧ UpstreamRests almostFull ∧ DispatcherRests almostFull .s0 ∧
    (almostFull.station .s0 4).activeSlot = some 0 := by
  refine ⟨⟨⟨rfl, form_write, by decide, by decide +kernel, .inl rfl⟩, by decide, by decide +kernel, by decide, ?_⟩, rfl,
    rests_of rfl, fun _ _ _ => ⟨rfl, fun _ => by decide⟩, by decide⟩
  intro j h
  revert j
  decide

def drainingMapped : State :=
  { draining with store := { draining.store with bankB := draining.store.bankB.setEntry 127 (some entry) } }

theorem test_hyps_AdmittedParked : Admitted drainingMapped 17 readRest .read 149 1 [] entry [] 2 ∧
    drainingMapped.commit.state = .draining ∧ UpstreamRests drainingMapped ∧
    drainingMapped.commit.incoming = some (drainingMapped.store.generation + 1) := by
  refine ⟨⟨mapped_read _ rfl rfl (by decide +kernel), by decide, rfl, by decide, ?_⟩, rfl, rests_of rfl, by decide⟩
  intro j h
  revert j
  decide

/-! ### Banks and edits -/

theorem test_hyps_Lookups : (Bank.empty.setEntry 127 (some entry)).valid false = true ∧
    (Bank.empty.setEntry 127 (some entry)).forward 17 100 8 = some entry ∧
    (Bank.empty.setEntry 127 (some entry)).forward 17 142 8 = some entry ∧
    (Bank.empty.setEntry 127 (some entry)).forward 17 143 8 = none ∧
    (Bank.empty.setEntry 127 (some entry)).reverse .s0 (addrByte 4) 49 = some entry ∧
    (Bank.empty.setEntry 127 (some entry)).reverse .s0 (addrByte 4) 50 = none := by decide +kernel

theorem test_hyps_DecimalInput : (0x9A0F : Word).toNat = 4096 * 9 + 256 * 10 + 16 * 0 + 15 ∧
    (0xFFFF : Word).toNat = 4096 * 15 + 256 * 15 + 16 * 15 + 15 ∧ (0 : Word).toNat = 4096 * 0 + 256 * 0 + 16 * 0 + 0 := by
  decide

/-- A guard that fails and one that passes; LIMIT with equal bounds; the first and the last page. -/
theorem test_hyps_Steps : (0x8000 : Word).toInt ≤ (0x7FFF : Word).toInt ∧ (5 : Word).toInt ≤ (5 : Word).toInt ∧
    (0 : Word).toNat = (0 : PageIx).val ∧ (7 : Word).toNat = (7 : PageIx).val ∧
    ((63 : Int) = ((63 : Fin 64).val : Int)) ∧ (-1 : Int) < 0 ∧ (63 : Int) < 64 := by decide

theorem test_hyps_Scale : (0 : Word).toNat = 0 ∧ (15 : Word).toNat = 15 ∧ (256 : Word).toNat = 256 + 0 ∧
    (271 : Word).toNat = 256 + 15 := by decide

theorem test_hyps_TelegramValues : modeBank.edits[(7 : EditIx)] = some modeRecord := by decide +kernel

/-! ### Segments -/

theorem test_hyps_DispatcherProbe : ((probing .idle silent).seg .s0).probe = .idle ∧
    ((probing .idle silent).station .s0 4).health = .silent ∧ ((probing .idle silent).station .s0 4).due = true ∧
    ∀ b : StationAddr, b < 4 → ¬ (((probing .idle silent).station .s0 b).health = .silent ∧
      ((probing .idle silent).station .s0 b).due = true) := by decide

def queued : State :=
  (mapped.setSlot 0 { sentSlot with state := .queued, deadline := .stopped }).setSeg .s0
    { SegState.initial with queue := [0], stations := (mapped.setStation .s0 4
        { Station.initial with activeSlot := some 0 }).seg0.stations }

theorem test_hyps_DispatcherQueue : ((queued.seg .s0).probe = .idle → ∀ a : StationAddr,
      ¬ ((queued.station .s0 a).health = .silent ∧ (queued.station .s0 a).due = true)) ∧
    (queued.seg .s0).queue = 0 :: [] ∧ (State.reset.seg .s1).queue = [] := by decide

def aTelegram : Telegram := ⟨1, 5, 240, 32, 0, 0, 1, []⟩

theorem test_hyps_SegmentTransmissionEnd :
    ((queued.setSeg .s0 { queued.seg .s0 with queue := [], record := .slot 0 aTelegram }).seg .s0).record =
      .slot 0 aTelegram ∧
    (((probing (.sending 4) silent).setSeg .s0
        { (probing (.sending 4) silent).seg .s0 with record := .probe aTelegram }).seg .s0).record = .probe aTelegram ∧
    (((probing (.sending 4) silent).setSeg .s0
        { (probing (.sending 4) silent).seg .s0 with record := .probe aTelegram }).seg .s0).probe = .sending 4 ∧
    ((State.reset.setSeg .s1 { SegState.initial with record := .void aTelegram }).seg .s1).record = .void aTelegram := by
  decide

theorem test_hyps_Retry : (((waiting 1).setSlot 0 { sentSlot with retriesLeft := 1 }).slot 0).state = .sent ∧
    (((waiting 1).setSlot 0 { sentSlot with retriesLeft := 1 }).slot 0).deadline.isRunning = true ∧
    0 < (((waiting 1).setSlot 0 { sentSlot with retriesLeft := 1 }).slot 0).retriesLeft ∧
    DispatcherRests ((waiting 1).setSlot 0 { sentSlot with retriesLeft := 1 }) .s0 :=
  ⟨by decide, by decide, by decide, fun _ _ _ => ⟨rfl, fun _ => by decide⟩⟩

/-- One failure below the threshold of 3, and one that reaches it, in IDLE and in a drain that goes on. -/
theorem test_hyps_FinalFailure (d : Bool) :
    let s := if d then closing 1 false else waiting 1
    let u := if d then closing 2 true else waiting 2
    (SlotPlaces s ∧ UpstreamRests s ∧ NoDrainEnds s (· = 0) ∧ (s.slot 0).state = .sent ∧
      (s.slot 0).deadline.isRunning = true ∧ (s.slot 0).retriesLeft = 0 ∧
      (s.station .s0 4).failures + 1 < s.agent.silentThreshold) ∧
    (SlotPlaces u ∧ UpstreamRests u ∧ NoDrainEnds u (fun j => j = 0 ∨ j ∈ (u.station .s0 4).held) ∧
      (u.slot 0).state = .sent ∧ u.agent.silentThreshold ≤ (u.station .s0 4).failures + 1) := by
  cases d
  · exact ⟨⟨places_waiting.1, rests_of rfl, goesOn.1, by decide, by decide, by decide, by decide⟩,
      places_waiting.2, rests_of rfl, goesOn.2.1, by decide, by decide⟩
  · exact ⟨⟨places_closing.1, rests_of rfl, goesOn.2.2.1, by decide, by decide, by decide, by decide⟩,
      places_closing.2.2, rests_of rfl, goesOn.2.2.2, by decide, by decide⟩

/-- A reply with another number, and a probe number from another station. -/
theorem test_hyps_StaleReply : replyFormOk 0 1 [7] = true ∧ (waiting 1).inService .s0 = true ∧
    ((64 : Byte).toNat / 32 < 7 → ∀ i : SlotIx, i.val = (64 : Byte).toNat % 32 →
      ¬ (((waiting 1).slot i).state = .sent ∧ ((waiting 1).slot i).seg = .s0 ∧
        byteOf (((waiting 1).slot i).station.val + 1) = 5 ∧ ((waiting 1).slot i).cur.val = (64 : Byte).toNat / 32)) ∧
    ((229 : Byte).toNat / 32 = 7 ∧ (229 : Byte).toNat % 32 = (4 : StationAddr).val + 1 ∧ (6 : Byte) ≠ byteOf (4 + 1)) := by
  decide

/-- The bounds of the statuses, and both ops. -/
theorem test_hyps_Judged : 1 ≤ (1 : Byte).toNat ∧ (31 : Byte).toNat ≤ 31 ∧ 32 ≤ (32 : Byte).toNat ∧ 32 ≤ (255 : Byte).toNat ∧
    sentSlot.op = .read ∧ ({ sentSlot with op := .write } : Slot).op = .write ∧ (1 : Byte) = sentSlot.count ∧
    ([7] : List Word).length = (1 : Byte).toNat ∧ (2 : Byte) ≠ sentSlot.count ∧
    editValues modeBank (some 7) [1] = some [0x20] ∧ editValues modeBank (some 7) [70] = none := by decide +kernel

/-- In IDLE, and in a drain that goes on. -/
theorem test_hyps_MatchingReply (d : Bool) :
    let s := if d then closing 1 false else waiting 1
    SlotPlaces s ∧ UpstreamRests s ∧ NoDrainEnds s (· = 0) ∧ replyFormOk 0 1 [7] = true ∧
      (5 : Byte) = byteOf ((s.slot 0).station.val + 1) ∧
      (32 : Byte) = byteOf (32 * (s.slot 0).cur.val + (0 : SlotIx).val) ∧ (s.slot 0).seg = .s0 := by
  cases d
  · exact ⟨places_waiting.1, rests_of rfl, goesOn.1, by decide, by decide, by decide, by decide⟩
  · exact ⟨places_closing.1, rests_of rfl, goesOn.2.2.1, by decide, by decide, by decide, by decide⟩

/-- A probe answered while SILENT, and while ONLINE. -/
theorem test_hyps_ProbeReply : ((probing (.awaiting 4 (.running 20)) silent).seg .s0).probe = .awaiting 4 (.running 20) ∧
    ((probing (.awaiting 4 (.running 20)) silent).station .s0 4).health = .silent ∧
    ((probing (.awaiting 4 (.running 20)) { silent with health := .online }).station .s0 4).health ≠ .silent ∧
    (229 : Byte) = byteOf (224 + (4 + 1)) := by decide

theorem test_hyps_ProbeDue : ((probing .idle { silent with dueTimer := .running 1000, due := false }).station .s0 4).dueTimer.isRunning
      = true ∧ ((probing .idle silent).seg .s0).record = .none ∧ (probing .idle silent).inService .s0 = true ∧
    ((queued.setSeg .s0 { queued.seg .s0 with record := .slot 0 aTelegram }).seg .s0).record ≠ .none := by decide

/-! ### CHANGE -/

theorem test_hyps_Change : (5 : Byte) = byteOf ((4 : StationAddr).val + 1) ∧
    (State.reset.station .s0 4).health ≠ .silent ∧ ((probing .idle silent).station .s0 4).health = .silent ∧
    State.reset.store.activeBank.reverse .s0 5 0 = none ∧ mapped.store.activeBank.reverse .s0 5 49 = some entry ∧
    editValues mapped.store.activeBank none [7] = some [7] ∧
    (withEntry { entry with policy := .drop } State.reset).store.activeBank.reverse .s0 5 0 =
      some { entry with policy := .drop } ∧
    mapped.up.traffic.length < 24 ∧ mapped.up.waitList = [] ∧
    24 ≤ ({ mapped.up with traffic := List.replicate 24 aTelegram } : Upstream).traffic.length := by decide +kernel

/-- An up-edit that rejects the change's value. -/
theorem test_hyps_ChangeReject : editValues rejectAll.store.activeBank (some 0) [7] = none := by decide +kernel

def cachedEntry (due : Bool) : CacheEntry := ⟨17, 100, 50, .stopped, due⟩

def cached (due : Bool) : State :=
  { withEntry { entry with policy := .deadband 5 600 } State.reset with cache := [cachedEntry due] }

theorem cacheSound_cached (due : Bool) : CacheSound (cached due) := by
  refine ⟨by cases due <;> decide, by simp [cached], ?_⟩
  intro c hc
  simp only [cached, List.mem_singleton] at hc
  subst hc
  exact ⟨0, { entry with policy := .deadband 5 600 }, 5, 600, by cases due <;> decide +kernel, rfl, rfl, rfl⟩

/-- A difference at the deadband suppresses; one above it, a due entry, and no entry are offered. -/
theorem test_hyps_Deadband (due : Bool) : CacheSound (cached due) ∧ UpstreamRests (cached due) ∧
    (cached due).store.activeBank.reverse .s0 5 0 = some { entry with policy := .deadband 5 600 } ∧
    valueDifference (cached due).store.activeBank none 55 50 ≤ (5 : Word).toNat ∧
    (5 : Word).toNat < valueDifference (cached due).store.activeBank none 56 50 ∧
    (cachedEntry true).due = true ∧ (cachedEntry false).due = false ∧ State.reset.cache = [] := by
  refine ⟨cacheSound_cached due, rests_of rfl, ?_, ?_, ?_, rfl, rfl, rfl⟩ <;> cases due <;> decide +kernel

theorem test_hyps_ValueDifference : (modeBank.setRecord 1 (some { levelRecord with outType := .signed })).edits[(1 : EditIx)] =
    some { levelRecord with outType := .signed } ∧ modeRecord.outType ≠ .signed := by decide +kernel

/-! ### Port U -/

def reply1 : MgmtReply := ⟨9, 240, 5, 2, .done, []⟩

def notice1 : Notice := ⟨9, 240, 1, 0, .commitDone 1⟩

/-- Control at its limit with and without traffic, each source alone, and a waiting reply. -/
theorem test_hyps_Arbiter : ((0 : Nat) < 4 ∨ ([] : List Telegram) = []) ∧ (4 : Nat) ≤ 4 ∧ ¬ ((4 : Nat) < 4 ∨ [aTelegram] = []) ∧
    ({ Upstream.initial with
        control := 4, outbox := [reply1], notices := [notice1], traffic := [aTelegram], waitList := [0] } : Upstream).waitList = 0 :: [] := by decide

/-- The end of a reply that is no RESTART's, and of one that is. -/
theorem test_hyps_PortUEnd : reply1.code ≠ 19 ∧ ({ reply1 with code := 19 } : MgmtReply).code = 19 ∧
    ({ reply1 with code := 19 } : MgmtReply).status = .done ∧
    ({ State.reset with up := { State.reset.up with sending := some (.mgmt { reply1 with code := 19 }) } } : State).up.sending =
      some (.mgmt { reply1 with code := 19 }) ∧ State.reset.resetHeld = false := by decide

theorem test_hyps_Notices : State.reset.up.notices.length < 16 ∧
    16 ≤ ({ State.reset.up with notices := List.replicate 16 notice1 } : Upstream).notices.length := by decide

theorem test_hyps_TrafficInOrder : SlotPlaces (waiting 1) ∧ UpstreamRests (waiting 1) ∧ (waiting 1).resetHeld = false ∧
    Instr.slotDeadlineExpiry 0 ≠ .pinResetAssert ∧
    (∀ addr s1En, Instr.slotDeadlineExpiry 0 ≠ .pinResetRelease addr s1En) ∧
    Instr.slotDeadlineExpiry 0 ≠ .portUTransmissionEnd ∧ (∀ r, (waiting 1).up.sending ≠ some (.mgmt r)) ∧
    (∀ u, (waiting 1).up.sending ≠ some (.traffic u)) ∧
    ({ (waiting 1).up with sending := some (.traffic aTelegram) } : Upstream).sending = some (.traffic aTelegram) :=
  ⟨places_waiting.1, rests_of rfl, rfl, by decide, nofun, by decide, nofun,
    nofun, rfl⟩

/-! ### The dialogue -/

theorem test_hyps_Sync : UpstreamRests State.reset ∧ State.reset.up.outbox.length < 4 ∧ ([] : List Byte).length ≤ 32 ∧
    ([1] : List Byte) ≠ [] := ⟨rests_of rfl, by decide, by decide, by decide⟩

/-- A full Outbox; UNSYNCED; SYNCED with the last sequence, and with one that is neither it nor the next. -/
theorem test_hyps_TurnedAway : 4 ≤ ({ State.reset.up with outbox := List.replicate 4 reply1 } : Upstream).outbox.length ∧
    State.reset.agent.sync = .unsynced ∧ synced.agent.sync = .synced ∧ (4 : Byte) = synced.agent.lastSeq ∧
    synced.agent.stored = some ⟨9, 240, 4, 1, .done, []⟩ ∧ (6 : Byte) ≠ synced.agent.lastSeq ∧
    (6 : Byte) ≠ synced.agent.lastSeq + 1 ∧ (2 : Byte) ≠ 1 := by decide

theorem test_hyps_EarlyRefusals : MgmtReady synced 5 ∧ MgmtReady draining 5 ∧
    ({ synced.agent with restartPending := true } : Agent).restartPending = true ∧
    (0 : Byte) = 0 ∧ 19 < (20 : Byte).toNat ∧ 19 < (255 : Byte).toNat ∧ draining.commit.state = .draining ∧
    synced.commit.state = .idle := ⟨ready_synced, ready_draining, by decide, by decide, by decide, by decide, rfl, rfl⟩

theorem test_hyps_Resent : MgmtReady synced 5 ∧ (List.replicate 32 (0 : Byte)).length ≤ 32 ∧ (3 : Byte) ≠ 1 ∧
    (after (.readInfo 9 5 []) synced).up.outbox.length < 4 := ⟨ready_synced, by decide, by decide, by decide +kernel⟩

/-- Argument bytes just outside each range. -/
theorem test_hyps_BadArguments : (∀ n : Byte, n.toNat ≤ 127 → [128] ≠ [n]) ∧ (∀ n : Byte, n.toNat ≤ 63 → [64] ≠ [n]) ∧
    (∀ n : Byte, n.toNat ≤ 31 → [32] ≠ [n]) ∧
    (∀ k a : Byte, k.toNat ≤ 1 → 1 ≤ a.toNat → a.toNat ≤ 31 → [1, 32] ≠ [k, a]) ∧
    (∀ k a : Byte, k.toNat ≤ 1 → 1 ≤ a.toNat → a.toNat ≤ 31 → [1, 0] ≠ [k, a]) ∧
    (∀ g c : Byte, 1 ≤ g.toNat → g.toNat ≤ 3 → c.toNat ≤ 1 → [4, 0] ≠ [g, c]) ∧
    (∀ sel ix : Byte, sel.toNat ≤ 1 → ix.toNat ≤ 127 → [2, 0] ≠ [sel, ix]) ∧
    (∀ sel ix : Byte, sel.toNat ≤ 1 → ix.toNat ≤ 63 → [0, 64] ≠ [sel, ix]) ∧
    (∀ sel pg first w : Byte, sel.toNat ≤ 1 → pg.toNat ≤ 7 →
      (first = 255 ∧ w = 1 ∨ 1 ≤ w.toNat ∧ w.toNat ≤ 8 ∧ first.toNat + w.toNat ≤ 64) →
      [0, 7, 57, 8] ≠ [sel, pg, first, w]) ∧
    (∀ (p : Byte) (v : Word), (p = 1 ∧ 1 ≤ v.toNat ∧ v.toNat ≤ 250 ∨ p = 2 ∧ v.toNat ≤ 3 ∨
      p = 3 ∧ 1 ≤ v.toNat ∧ v.toNat ≤ 15 ∨ p = 4 ∧ 1 ≤ v.toNat ∧ v.toNat ≤ 600 ∨
      p = 5 ∧ 10 ≤ v.toNat ∧ v.toNat ≤ 5000) → [6, 0, 1] ≠ [p] ++ wordBytes v) := by
  refine ⟨?_, ?_, ?_, ?_, ?_, ?_, ?_, ?_, ?_, ?_⟩
  · rintro n h e; cases e; revert h; decide
  · rintro n h e; cases e; revert h; decide
  · rintro n h e; cases e; revert h; decide
  · rintro k a _ _ h e; cases e; revert h; decide
  · rintro k a _ h _ e; cases e; revert h; decide
  · rintro g c _ h _ e; cases e; revert h; decide
  · rintro sel ix h _ e; cases e; revert h; decide
  · rintro sel ix _ h e; cases e; revert h; decide
  · rintro sel pg first w _ _ h e; cases e; revert h; decide
  · intro p v h e
    unfold wordBytes at e
    simp only [List.cons_append, List.nil_append, List.cons.injEq] at e
    obtain ⟨rfl, _⟩ := e
    revert h
    intro h
    rcases h with h | h | h | h | h <;> exact absurd h.1 (by decide)

/-! ### Configuration commands -/

theorem test_hyps_MapArgs : MapArgs [127, 17, 0, 100, 0, 149, 0, 5, 0, 0, 3, 255, 255, 1, 0, 0, 0, 0] 127 entry ∧
    (¬ ∃ ix e, MapArgs [127] ix e) := by
  refine ⟨⟨⟨by decide, by decide, by decide, nofun⟩, 0, 0, nofun, by decide⟩, ?_⟩
  rintro ⟨ix, e, h⟩
  obtain ⟨_, _, _, h⟩ := h.bytes
  simp [wordBytes] at h

theorem test_hyps_EditArgs : EditArgs [63, 2, 0, 1, 0, 1, 2, 0, 0, 10, 0, 0] 63 meterRecord ∧
    (¬ ∃ ix r, EditArgs [63] ix r) := by
  refine ⟨⟨⟨by decide, by decide, by decide, by decide⟩, by decide +kernel⟩, ?_⟩
  rintro ⟨ix, r, h⟩
  have := h.bytes
  simp at this

theorem test_hyps_PageArgs : PageArgs [7, 63, 1, 0, 9] 7 63 [9] ∧ PageArgs ([0, 56, 8] ++ wordsBytes (List.replicate 8 7)) 0 56
    (List.replicate 8 7) ∧ PageDefaultArgs [7, 255, 1, 0, 9] 7 9 ∧ (¬ ∃ ix first ws, PageArgs [7] ix first ws) ∧
    (¬ ∃ ix w, PageDefaultArgs [7] ix w) := by
  refine ⟨⟨by decide, by decide, by decide⟩, ⟨by decide, by decide, by decide⟩, by unfold PageDefaultArgs; decide, ?_, ?_⟩
  · rintro ⟨ix, first, ws, h⟩
    have := h.bytes
    simp at this
  · rintro ⟨ix, w, h⟩
    unfold PageDefaultArgs at h
    simp at h

/-- The operand ranges at their ends. -/
theorem test_hyps_StepOperands : RecordInRange ⟨.unsigned, .unsigned, .saturate, .reject,
    [⟨.scale, .always, 1, 15⟩, ⟨.scale, .always, 1, 271⟩, ⟨.translate, .always, 7, 0⟩, ⟨.limit, .always, 0xFFFF, 0xFFFF⟩]⟩ := by
  constructor <;> decide

/-- A bank selector with a valid and an invalid item, and the last words of a page. -/
theorem test_hyps_BankReads : synced.store.shadowBank.map[(127 : MapIx)] = none ∧
    mapped.store.activeBank.map[(0 : MapIx)] = some entry ∧ modeBank.edits[(7 : EditIx)] = some modeRecord ∧
    modeBank.edits[(63 : EditIx)] = none ∧ 56 + 8 ≤ 64 ∧ 63 + 1 ≤ 64 := by decide +kernel

/-- The bounds of the timing parameters. -/
theorem test_hyps_Timing : 1 ≤ (1 : Word).toNat ∧ (250 : Word).toNat ≤ 250 ∧ (0 : Word).toNat ≤ 3 ∧ (3 : Word).toNat ≤ 3 ∧
    (15 : Word).toNat ≤ 15 ∧ (600 : Word).toNat ≤ 600 ∧ 10 ≤ (10 : Word).toNat ∧ (5000 : Word).toNat ≤ 5000 := by decide

/-! ### Commit -/

/-- A faulty shadow; a valid one with an open exchange, and without one. -/
theorem test_hyps_Commit : synced.commit = ⟨.idle, none, .stopped⟩ ∧ synced.parked = [] ∧
    synced.store.shadowBank.examine synced.s1Present = none ∧
    (Bank.empty.setEntry 127 (some { entry with upEdit := some 63 })).examine true = some (.undefinedEdit, 127) ∧
    (((synced.setSlot 0 sentSlot).slot 0).generation = (synced.setSlot 0 sentSlot).store.generation ∧
      ((synced.setSlot 0 sentSlot).slot 0).state = .sent) ∧
    (¬ ∃ i, (synced.slot i).generation = synced.store.generation ∧ ((synced.slot i).state = .held ∨
      (synced.slot i).state = .queued ∨ (synced.slot i).state = .sending ∨ (synced.slot i).state = .sent)) := by
  decide +kernel

theorem test_hyps_FailedDrain : MgmtReady draining 5 ∧ SlotPlaces draining ∧ draining.commit.state = .draining ∧
    UpstreamRests draining ∧ draining.commit.drainTimer.isRunning = true :=
  ⟨ready_draining, places_draining, rfl, rests_of rfl, rfl⟩

/-- A drain whose last open exchange is slot 0, one failure from SUSPECT; and one whose others are the held slots of a
station that the failure silences. -/
theorem test_hyps_LastReply :
    (SlotPlaces draining ∧ UpstreamRests draining ∧ DrainEnds draining (· = 0) ∧ draining.inService .s0 = true ∧
      replyFormOk 0 1 [7] = true ∧ (draining.slot 0).state = .sent ∧ (draining.slot 0).seg = .s0 ∧
      (5 : Byte) = byteOf ((draining.slot 0).station.val + 1) ∧
      (32 : Byte) = byteOf (32 * (draining.slot 0).cur.val + (0 : SlotIx).val)) ∧
    ((draining.slot 0).deadline.isRunning = true ∧ (draining.slot 0).retriesLeft = 0 ∧
      (draining.station .s0 4).failures + 1 < draining.agent.silentThreshold) ∧
    (SlotPlaces (closing 2 false) ∧ UpstreamRests (closing 2 false) ∧
      DrainEnds (closing 2 false) (fun j => j = 0 ∨ j ∈ ((closing 2 false).station .s0 4).held) ∧
      (closing 2 false).agent.silentThreshold ≤ ((closing 2 false).station .s0 4).failures + 1) :=
  ⟨⟨places_draining, rests_of rfl, ⟨rfl, by unfold isActive; decide⟩, rfl, by decide, by decide, by decide, by decide,
      by decide⟩,
    ⟨by decide, by decide, by decide⟩,
    places_closing.2.1, rests_of rfl, ⟨rfl, by unfold isActive; decide⟩, by decide⟩

/-! ### Invariants: a state that has each of them, with a command in its queue -/

theorem test_hyps_Invariants : QueueBounds (waiting 1) ∧ DispatchersRest (waiting 1) ∧ ProbeSound (waiting 1) .s0 ∧
    AgentSound (waiting 1) ∧ ActiveBankValid (waiting 1) ∧ SegmentOneQuiet (waiting 1) ∧
    ∃ t, step { waiting 1 with pending := [.slotDeadlineExpiry 0] } = .next t := by
  refine ⟨⟨by decide, by decide, by decide, by decide, by decide⟩,
    ⟨fun _ _ _ => ⟨rfl, fun _ => by decide⟩, fun _ _ _ => ⟨rfl, fun _ => by decide⟩⟩,
    fun _ => ⟨⟨fun h => (by obtain ⟨_, e⟩ := h; cases e), fun h => (by obtain ⟨_, e⟩ := h; cases e)⟩,
      nofun⟩,
    ⟨by decide, by decide, by decide, by decide, by decide, nofun⟩,
    ⟨by decide +kernel, nofun⟩, nofun, ⟨_, rfl⟩⟩

theorem test_hyps_SoundSlotsAndStations : (∀ i, SlotSound ((waiting 1).slot i)) ∧
    ∀ k a, StationSound ((waiting 1).station k a) := by
  constructor
  · intro i
    have h : (waiting 1).slot i = sentSlot ∨ (waiting 1).slot i = { sentSlot with state := .held, deadline := .stopped } ∨
        (waiting 1).slot i = Slot.cleared 0 0 := by revert i; decide
    rcases h with h | h | h <;> rw [h] <;> constructor <;> decide
  · intro k a
    have h : (waiting 1).station k a = Station.initial ∨ (waiting 1).station k a =
        { Station.initial with health := .suspect, failures := 1, activeSlot := some 0, held := [1] } := by
      cases k <;> revert a <;> decide
    rcases h with h | h <;> rw [h] <;> constructor <;> decide

theorem test_hyps_Drains : SlotPlaces draining ∧ DrainSound draining :=
  ⟨places_draining, nofun, fun _ => ⟨by decide, by decide, by decide +kernel⟩, by unfold isActive; decide,
    by decide⟩

theorem test_hyps_BanksInRange (due : Bool) : BanksInRange (cached due) := by
  have h0 : ∀ ix : MapIx, (cached due).store.bankA.entry ix =
      if ix = 0 then some { entry with policy := .deadband 5 600 } else none := by
    cases due <;> decide +kernel
  refine ⟨⟨fun ix e h => ?_, fun ix r h => ?_⟩, ⟨fun ix e h => ?_, fun ix r h => ?_⟩⟩
  · rw [h0] at h
    split at h
    · cases h
      exact ⟨by decide, by decide, by decide, fun l r h => by cases h; decide⟩
    · cases h
  · have : ∀ ix : EditIx, (cached due).store.bankA.edits[ix] = none := by cases due <;> decide +kernel
    rw [this] at h
    cases h
  · have : ∀ ix : MapIx, (cached due).store.bankB.entry ix = none := by cases due <;> decide +kernel
    rw [this] at h
    cases h
  · have : ∀ ix : EditIx, (cached due).store.bankB.edits[ix] = none := by cases due <;> decide +kernel
    rw [this] at h
    cases h

end Sys2Proof.Tests
end

/-! The examination of a bank (R31, R32): each test of a visit is the condition it names, a visit reports the
first broken one, and the examination reports the lowest-indexed visit that reports any. -/

namespace Sys2Proof.Safety

open Sys2Proof.Machine

/-! ### The tests of one visit are conditions (a) to (d) -/

theorem mem_lowerEntries {b : Bank} {ix : MapIx} {f : MapEntry} :
    f ∈ b.lowerEntries ix ↔ ∃ jx, jx < ix ∧ b.entry jx = some f := by
  simp only [Bank.lowerEntries, Bank.entry, List.mem_filterMap, id, exists_eq_right, List.mem_take_iff_getElem]
  constructor
  · rintro ⟨n, hn, hf⟩
    have hlt : n < ix.val := by omega
    exact ⟨⟨n, hlt.trans ix.isLt⟩, hlt, by simpa using hf⟩
  · rintro ⟨jx, hlt, hf⟩
    have hj : jx.val < ix.val := hlt
    exact ⟨jx.val, by simp [hj], by simpa using hf⟩

theorem rangesOverlap_iff {p q p' q' : Nat} : rangesOverlap p q p' q' = true ↔ p ≤ q' ∧ p' ≤ q :=
  decide_eq_true_iff

theorem any_overlapLogical_iff {b : Bank} {s1 : Bool} {ix : MapIx} {e : MapEntry} :
    (b.lowerEntries ix).any (overlapLogical e) = true ↔ Breaks b s1 ix e .overlapLogical := by
  simp only [List.any_eq_true, mem_lowerEntries, overlapLogical, rangesOverlap_iff, Breaks, Bool.and_eq_true,
    decide_eq_true_eq]
  constructor
  · rintro ⟨f, ⟨jx, hlt, hf⟩, hst, hov⟩
    exact ⟨jx, f, hlt, hf, hst.symm, hov⟩
  · rintro ⟨jx, f, hlt, hf, hst, hov⟩
    exact ⟨f, ⟨jx, hlt, hf⟩, hst.symm, hov⟩

theorem any_overlapPhysical_iff {b : Bank} {s1 : Bool} {ix : MapIx} {e : MapEntry} :
    (b.lowerEntries ix).any (overlapPhysical e) = true ↔ Breaks b s1 ix e .overlapPhysical := by
  simp only [List.any_eq_true, mem_lowerEntries, overlapPhysical, rangesOverlap_iff, MapEntry.physLast, Breaks,
    Bool.and_eq_true, decide_eq_true_eq]
  constructor
  · rintro ⟨f, ⟨jx, hlt, hf⟩, ⟨hseg, hphys⟩, hov⟩
    exact ⟨jx, f, hlt, hf, hseg.symm, hphys.symm, hov⟩
  · rintro ⟨jx, f, hlt, hf, hseg, hphys, hov⟩
    exact ⟨f, ⟨jx, hlt, hf⟩, ⟨hseg.symm, hphys.symm⟩, hov⟩

theorem undefinedRef_iff {b : Bank} {edit : Option EditIx} :
    b.undefinedRef edit = true ↔ ∃ r, edit = some r ∧ b.edits[r] = none := by
  cases edit <;> simp [Bank.undefinedRef]

theorem undefinedRefs_iff {b : Bank} {s1 : Bool} {ix : MapIx} {e : MapEntry} :
    (b.undefinedRef e.downEdit || b.undefinedRef e.upEdit) = true ↔ Breaks b s1 ix e .undefinedEdit := by
  simp only [Breaks, Bool.or_eq_true, undefinedRef_iff, ← exists_or, ← or_and_right]

theorem segmentAbsent_iff {b : Bank} {s1 : Bool} {ix : MapIx} {e : MapEntry} :
    (decide (e.seg = .s1) && !s1) = true ↔ Breaks b s1 ix e .segmentAbsent := by
  simp [Breaks]

/-! ### A visit reports the first condition its entry breaks (R32) -/

/-- The condition is the first, in the order (a) to (d), that the entry breaks. -/
def FirstBroken (b : Bank) (s1 : Bool) (ix : MapIx) (e : MapEntry) (reason : ValidityReason) : Prop :=
  Breaks b s1 ix e reason ∧
    ∀ r, (validityReasonCode r).toNat < (validityReasonCode reason).toNat → ¬ Breaks b s1 ix e r

theorem forall_reason_iff {P : ValidityReason → Prop} :
    (∀ r, P r) ↔ P .overlapLogical ∧ P .overlapPhysical ∧ P .undefinedEdit ∧ P .segmentAbsent :=
  ⟨fun h => ⟨h _, h _, h _, h _⟩, fun ⟨ha, hb, hc, hd⟩ r => by cases r <;> assumption⟩

theorem validityReasonCode_injective : Function.Injective validityReasonCode := by
  simp [Function.Injective, forall_reason_iff, validityReasonCode]

theorem FirstBroken.unique {b : Bank} {s1 : Bool} {ix : MapIx} {e : MapEntry} {r q : ValidityReason}
    (hr : FirstBroken b s1 ix e r) (hq : FirstBroken b s1 ix e q) : r = q := by
  rcases lt_trichotomy (validityReasonCode r).toNat (validityReasonCode q).toNat with h | h | h
  · exact absurd hr.1 (hq.2 r h)
  · exact validityReasonCode_injective (BitVec.eq_of_toNat_eq h)
  · exact absurd hq.1 (hr.2 q h)

open Classical in
/-- The tests of a visit, read as the conditions of R31. -/
theorem entryFault_eq_ite_breaks (b : Bank) (s1 : Bool) (ix : MapIx) (e : MapEntry) :
    b.entryFault s1 ix e =
      if Breaks b s1 ix e .overlapLogical then some .overlapLogical
      else if Breaks b s1 ix e .overlapPhysical then some .overlapPhysical
      else if Breaks b s1 ix e .undefinedEdit then some .undefinedEdit
      else if Breaks b s1 ix e .segmentAbsent then some .segmentAbsent
      else none := by
  simp only [Bank.entryFault, any_overlapLogical_iff (s1 := s1), any_overlapPhysical_iff (s1 := s1),
    undefinedRefs_iff (s1 := s1) (ix := ix), segmentAbsent_iff (b := b) (ix := ix)]

theorem firstBroken_of_entryFault {b : Bank} {s1 : Bool} {ix : MapIx} {e : MapEntry} {reason : ValidityReason}
    (h : b.entryFault s1 ix e = some reason) : FirstBroken b s1 ix e reason := by
  rw [entryFault_eq_ite_breaks] at h
  rw [FirstBroken, forall_reason_iff]
  split at h
  next ha => cases h; simp [validityReasonCode, ha]
  next ha =>
  split at h
  next hb => cases h; simp [validityReasonCode, ha, hb]
  next hb =>
  split at h
  next hc => cases h; simp [validityReasonCode, ha, hb, hc]
  next hc =>
  split at h
  next hd => cases h; simp [validityReasonCode, ha, hb, hc, hd]
  next => cases h

theorem entryFault_eq_none_iff {b : Bank} {s1 : Bool} {ix : MapIx} {e : MapEntry} :
    b.entryFault s1 ix e = none ↔ ∀ r, ¬ Breaks b s1 ix e r := by
  rw [entryFault_eq_ite_breaks, forall_reason_iff]
  simp only [ite_eq_right_iff, reduceCtorEq, imp_false, ite_eq_iff, and_false, false_or]

theorem entryFault_eq_some_iff {b : Bank} {s1 : Bool} {ix : MapIx} {e : MapEntry} {reason : ValidityReason} :
    b.entryFault s1 ix e = some reason ↔ FirstBroken b s1 ix e reason := by
  refine ⟨firstBroken_of_entryFault, fun h => ?_⟩
  cases hf : b.entryFault s1 ix e with
  | none => exact absurd h.1 (entryFault_eq_none_iff.mp hf reason)
  | some q => rw [(firstBroken_of_entryFault hf).unique h]

/-! ### The visits in index order (R32) -/

theorem visitFault_eq_none_iff {b : Bank} {s1 : Bool} {ix : MapIx} :
    b.visitFault s1 ix = none ↔ ∀ e r, b.entry ix = some e → ¬ Breaks b s1 ix e r := by
  unfold Bank.visitFault
  cases b.entry ix with
  | none => simp
  | some e =>
    rw [Option.map_eq_none_iff, entryFault_eq_none_iff]
    exact ⟨fun h _ r he => Option.some.inj he ▸ h r, fun h r => h e r rfl⟩

theorem visitFault_eq_some_iff {b : Bank} {s1 : Bool} {ix jx : MapIx} {reason : ValidityReason} :
    b.visitFault s1 jx = some (reason, ix) ↔ jx = ix ∧ ∃ e, b.entry jx = some e ∧ FirstBroken b s1 jx e reason := by
  unfold Bank.visitFault
  cases b.entry jx with
  | none => simp
  | some e => simp [entryFault_eq_some_iff, and_comm]

theorem examine_eq_findSome? (b : Bank) (s1 : Bool) : b.examine s1 = Fin.findSome? (b.visitFault s1) :=
  (Fin.findSome?_eq_findSome?_finRange _).symm

theorem examine_eq_none_iff {b : Bank} {s1 : Bool} :
    b.examine s1 = none ↔ ∀ ix e r, b.entry ix = some e → ¬ Breaks b s1 ix e r := by
  simp only [examine_eq_findSome?, Fin.findSome?_eq_none_iff, visitFault_eq_none_iff]

theorem examine_eq_some_iff {b : Bank} {s1 : Bool} {reason : ValidityReason} {ix : MapIx} :
    b.examine s1 = some (reason, ix) ↔ (∃ e, b.entry ix = some e ∧ FirstBroken b s1 ix e reason) ∧
      ∀ jx f r, jx < ix → b.entry jx = some f → ¬ Breaks b s1 jx f r := by
  rw [examine_eq_findSome?, Fin.findSome?_eq_some_iff]
  simp only [visitFault_eq_some_iff, visitFault_eq_none_iff, and_assoc, exists_eq_left]
  exact and_congr_right' ⟨fun h jx f r hlt => h jx hlt f r, fun h jx hlt f r => h jx f r hlt⟩

/-- Settles O13, from what each visit reports. -/
theorem examinationReportsTheFirstFault : Obligations.ExaminationReportsTheFirstFault :=
  ⟨⟨rfl, rfl, rfl, rfl⟩, fun _ _ => ⟨examine_eq_none_iff, fun _ _ => examine_eq_some_iff⟩⟩

end Sys2Proof.Safety

/-! The Edit Engine (chapter 3): how a word enters W, what each step does to W and the flags, how SCALE rounds, and how
the output is bounded, encoded and judged. -/

namespace Sys2Proof.Machine

/-! ### Input (R41, R42) -/

/-- The sign of a 16-bit word is read at the boundary R41 names. -/
theorem word_toInt_eq (word : Word) :
    word.toInt = if word.toNat ≤ 0x7FFF then (word.toNat : Int) else (word.toNat : Int) - 65536 := by
  rw [BitVec.toInt_eq_toNat_cond]
  split <;> split <;> omega

/-- Each hexadecimal digit of a word is read back from the word's expansion. -/
theorem hexDigit_of_expansion {word : Word} {d3 d2 d1 d0 : Nat} (h2 : d2 ≤ 15) (h1 : d1 ≤ 15) (h0 : d0 ≤ 15)
    (h : word.toNat = 4096 * d3 + 256 * d2 + 16 * d1 + d0) :
    hexDigit word 3 = d3 ∧ hexDigit word 2 = d2 ∧ hexDigit word 1 = d1 ∧ hexDigit word 0 = d0 := by
  simp only [hexDigit, h, Nat.reducePow]
  omega

theorem takeInput_unsigned (word : Word) : takeInput .unsigned word = ⟨word.toNat, .start⟩ := rfl

theorem takeInput_signed (word : Word) : takeInput .signed word = ⟨word.toInt, .start⟩ := rfl

theorem takeInput_decimal (word : Word) :
    takeInput .decimal word =
      if hexDigit word 3 ≤ 9 ∧ hexDigit word 2 ≤ 9 ∧ hexDigit word 1 ≤ 9 ∧ hexDigit word 0 ≤ 9 then
        ⟨decimalValue word, .start⟩
      else ⟨0, { EditFlags.start with v := true }⟩ := by
  simp only [takeInput, allDigitsDecimal, decide_eq_true_eq]
  rfl

/-- Settles O14: the signed reading by its boundary, the decimal one by the digits of the word's expansion. -/
theorem editInputReadsTheWord : Obligations.EditInputReadsTheWord := by
  intro word
  refine ⟨takeInput_unsigned word, ?_, fun d3 d2 d1 d0 _ h2 h1 h0 hword => ?_⟩
  · rw [takeInput_signed, word_toInt_eq]
    rfl
  · obtain ⟨e3, e2, e1, e0⟩ := hexDigit_of_expansion h2 h1 h0 hword
    rw [takeInput_decimal, decimalValue, e3, e2, e1, e0]
    rfl

/-! ### One visit of a step (R43) -/

theorem runSteps_nil (bank : Bank) (x : Working) : runSteps bank [] x = x := rfl

theorem runSteps_cons (bank : Bank) (st : EditStep) (rest : List EditStep) (x : Working) :
    runSteps bank (st :: rest) x = runSteps bank rest (visitStep bank x st) := rfl

theorem visitStep_of_guard_fails {bank : Bank} {st : EditStep} {x : Working} (h : st.guard.passes x.flags = false) :
    visitStep bank x st = x := by
  simp [visitStep, h]

theorem visitStep_of_guard_passes {bank : Bank} {st : EditStep} {x : Working} (h : st.guard.passes x.flags = true) :
    visitStep bank x st =
      { stepResult bank st x with
        flags := (stepResult bank st x).flags.fromResult (stepResult bank st x).w } := by
  simp [visitStep, h]

/-! ### The bit operations (R46) -/

/-- A test for lying inside a range, negated, is the test for lying below or above it. -/
theorem not_decide_between (w lo hi : Int) : (!decide (lo ≤ w ∧ w ≤ hi)) = decide (w < lo ∨ hi < w) := by
  rw [← decide_not, decide_eq_decide]
  omega

theorem not_inWord (w : Int) : (!inWord w) = decide (w < 0 ∨ 65535 < w) := not_decide_between w 0 65535

theorem reduceWord_eq_ofNat_mod (w : Int) : reduceWord w = BitVec.ofNat 16 (w % 65536).toNat := by
  apply BitVec.eq_of_toNat_eq
  rw [reduceWord, BitVec.toNat_ofInt, BitVec.toNat_ofNat]
  omega

/-- The mask function of each bit operation. -/
def bitMask : StepOp → Word → Option (Word → Word)
  | .setBits, a => some (· ||| a)
  | .clearBits, a => some (· &&& ~~~a)
  | .flipBits, a => some (· ^^^ a)
  | _, _ => none

/-- A bit operation masks the reduced W and raises V when the reduction changed W. -/
theorem stepResult_of_bitMask {op : StepOp} {a : Word} {mask : Word → Word} (h : bitMask op a = some mask) (bank : Bank)
    (g : Guard) (b : Word) (x : Working) :
    stepResult bank ⟨op, g, a, b⟩ x =
      { w := ((mask (BitVec.ofNat 16 (x.w % 65536).toNat)).toNat : Int),
        flags := { x.flags with v := x.flags.v || decide (x.w < 0 ∨ 65535 < x.w) } } := by
  rw [← reduceWord_eq_ofNat_mod, ← not_inWord]
  cases op <;> cases h <;> rfl

/-! ### TRANSLATE (R47) -/

theorem stepPage_of_toNat {a : Word} {p : PageIx} (h : a.toNat = p.val) (bank : Bank) :
    stepPage bank a = bank.pages[p] := by
  have hmod : a.toNat % 8 = p.val := by omega
  simp only [stepPage, hmod]
  rfl

theorem pageWord_of_input (page : Page) (n : Fin 64) : pageWord page (n.val : Int) = page.words[n] := by
  have hin : 0 ≤ (n.val : Int) ∧ (n.val : Int) ≤ 63 := by omega
  simp [pageWord, hin]

theorem pageWord_of_outside {page : Page} {w : Int} (h : w < 0 ∨ 63 < w) : pageWord page w = page.dflt :=
  dif_neg (by omega)

theorem stepResult_translate (bank : Bank) (g : Guard) (a b : Word) (x : Working) :
    stepResult bank ⟨.translate, g, a, b⟩ x =
      { w := ((pageWord (stepPage bank a) x.w).toNat : Int),
        flags := { x.flags with m := x.flags.m || decide (x.w < 0 ∨ 63 < x.w) } } := by
  rw [← not_decide_between]
  rfl

theorem stepResult_translate_of_input {bank : Bank} {a : Word} {p : PageIx} {x : Working} {n : Fin 64}
    (hp : a.toNat = p.val) (hn : x.w = (n.val : Int)) (g : Guard) (b : Word) :
    stepResult bank ⟨.translate, g, a, b⟩ x = { x with w := ((bank.pages[p].words[n]).toNat : Int) } := by
  have hin : ¬ ((n.val : Int) < 0 ∨ 63 < (n.val : Int)) := by omega
  rw [stepResult_translate, stepPage_of_toNat hp, hn, pageWord_of_input, decide_eq_false hin, Bool.or_false]

theorem stepResult_translate_of_outside {bank : Bank} {a : Word} {p : PageIx} {x : Working}
    (hp : a.toNat = p.val) (hx : x.w < 0 ∨ 63 < x.w) (g : Guard) (b : Word) :
    stepResult bank ⟨.translate, g, a, b⟩ x =
      { w := ((bank.pages[p].dflt).toNat : Int), flags := { x.flags with m := true } } := by
  rw [stepResult_translate, stepPage_of_toNat hp, pageWord_of_outside hx, decide_eq_true hx, Bool.or_true]

/-- Settles O15: a visit by its guard, then the result of each operation. -/
theorem stepsObeyTheirGuardsAndRules : Obligations.StepsObeyTheirGuardsAndRules := by
  refine ⟨⟨runSteps_nil, runSteps_cons, fun bank st x => ⟨visitStep_of_guard_fails, visitStep_of_guard_passes⟩⟩,
    fun bank g a b x => ⟨rfl, fun _ => rfl, fun op mask hop => ?_, fun p hp =>
      ⟨fun n hn => stepResult_translate_of_input hp hn g b, fun hx => stepResult_translate_of_outside hp hx g b⟩⟩⟩
  have hmask : bitMask op a = some mask := by
    obtain ⟨rfl, rfl⟩ | ⟨rfl, rfl⟩ | ⟨rfl, rfl⟩ := hop <;> rfl
  exact stepResult_of_bitMask hmask bank g b x

/-! ### SCALE (R45) -/

/-- An integer is nearest to the quotient p / 2^s, and the one farther from zero when two are equally near. -/
def NearestAway (p q : Int) (s : Nat) : Prop :=
  2 * |p - q * 2 ^ s| ≤ 2 ^ s ∧ (2 * |p - q * 2 ^ s| = 2 ^ s → |p| < |q| * 2 ^ s)

/-- Rounding halves away from zero treats both signs alike. -/
theorem NearestAway.neg {p q : Int} {s : Nat} (h : NearestAway p q s) : NearestAway (-p) (-q) s := by
  have hdist : -p - -q * 2 ^ s = -(p - q * 2 ^ s) := by ring
  rwa [NearestAway, hdist, abs_neg, abs_neg, abs_neg]

/-- For a product at or above 0, halves upward is halves away from zero. -/
theorem nearestAway_nearestUp {p : Int} (hp : 0 ≤ p) (s : Nat) : NearestAway p (nearestUp p s) s := by
  have hpow : (0 : Int) < 2 ^ s := by positivity
  have hq : 0 ≤ nearestUp p s := Int.ediv_nonneg (by omega) (by positivity)
  have hle : nearestUp p s * 2 ^ (s + 1) ≤ 2 * p + 2 ^ s := Int.ediv_mul_le _ (by positivity)
  have hlt : 2 * p + 2 ^ s < (nearestUp p s + 1) * 2 ^ (s + 1) := Int.lt_ediv_add_one_mul_self _ (by positivity)
  rw [pow_succ, ← mul_assoc] at hle hlt
  rw [add_mul, one_mul] at hlt
  refine ⟨?_, fun hhalf => ?_⟩
  · rcases abs_cases (p - nearestUp p s * 2 ^ s) with ⟨habs, -⟩ | ⟨habs, -⟩ <;> omega
  · rw [abs_of_nonneg hp, abs_of_nonneg hq]
    rcases abs_cases (p - nearestUp p s * 2 ^ s) with ⟨habs, -⟩ | ⟨habs, -⟩ <;> omega

theorem nearestAway_scaleNearest (p : Int) (s : Nat) : NearestAway p (scaleNearest p s) s := by
  unfold scaleNearest
  split
  next hp => exact nearestAway_nearestUp hp s
  next hp =>
    have h := (nearestAway_nearestUp (p := -p) (by omega) s).neg
    rwa [neg_neg] at h

theorem scaleFloor_bounds (p : Int) (s : Nat) :
    scaleFloor p s * 2 ^ s ≤ p ∧ p < (scaleFloor p s + 1) * 2 ^ s :=
  ⟨Int.ediv_mul_le _ (by positivity), Int.lt_ediv_add_one_mul_self _ (by positivity)⟩

theorem scaleValue_of_floor {b : Word} {s : Nat} (hs : s ≤ 15) (hb : b.toNat = s) (w : Int) (a : Word) :
    scaleValue w a b = scaleFloor (w * a.toInt) s := by
  rw [scaleValue, if_pos (by omega), hb]

theorem scaleValue_of_nearest {b : Word} {s : Nat} (hb : b.toNat = 256 + s) (w : Int) (a : Word) :
    scaleValue w a b = scaleNearest (w * a.toInt) s := by
  rw [scaleValue, if_neg (by omega), hb, Nat.add_sub_cancel_left]

theorem stepResult_scale (bank : Bank) (g : Guard) (a b : Word) (x : Working) :
    stepResult bank ⟨.scale, g, a, b⟩ x = { x with w := scaleValue x.w a b } := rfl

/-- Settles O16, from the two roundings of the exact product. -/
theorem scaleRoundsAsItsSelectorSays : Obligations.ScaleRoundsAsItsSelectorSays := by
  intro bank g a b x s hs
  rw [stepResult_scale]
  refine ⟨rfl, fun hb => ?_, fun hb => ?_⟩
  · rw [scaleValue_of_floor hs hb]
    exact scaleFloor_bounds _ s
  · rw [scaleValue_of_nearest hb]
    exact nearestAway_scaleNearest _ s

/-! ### Output and verdict (R49, R50) -/

theorem limitValue_bounds {lo hi : Int} (h : lo ≤ hi) (w : Int) :
    lo ≤ limitValue w lo hi ∧ limitValue w lo hi ≤ hi := by
  unfold limitValue
  split_ifs <;> omega

theorem outputLow_le_outputHigh (t : ValueType) : outputLow t ≤ outputHigh t := by cases t <;> decide

theorem boundOutput_eq (t : ValueType) (x : Working) :
    boundOutput t x =
      { w := limitValue x.w (outputLow t) (outputHigh t),
        flags := { x.flags with v := x.flags.v || decide (x.w < outputLow t ∨ outputHigh t < x.w) } } := by
  rw [← not_decide_between]
  rfl

theorem boundOutput_w_bounds (t : ValueType) (x : Working) :
    outputLow t ≤ (boundOutput t x).w ∧ (boundOutput t x).w ≤ outputHigh t :=
  limitValue_bounds (outputLow_le_outputHigh t) x.w

theorem encodeOutput_unsigned_toNat {w : Int} (h : outputLow .unsigned ≤ w ∧ w ≤ outputHigh .unsigned) :
    ((encodeOutput .unsigned w).toNat : Int) = w := by
  simp only [outputLow, outputHigh] at h
  rw [encodeOutput, BitVec.toNat_ofInt]
  omega

theorem encodeOutput_signed_toInt {w : Int} (h : outputLow .signed ≤ w ∧ w ≤ outputHigh .signed) :
    (encodeOutput .signed w).toInt = w := by
  simp only [outputLow, outputHigh] at h
  exact BitVec.toInt_ofInt_eq_self (by decide) (by omega) (by omega)

theorem encodeOutput_decimal_toNat {w : Int} (h : outputLow .decimal ≤ w ∧ w ≤ outputHigh .decimal) :
    (encodeOutput .decimal w).toNat =
      4096 * (w.toNat / 1000) + 256 * (w.toNat / 100 % 10) + 16 * (w.toNat / 10 % 10) + w.toNat % 10 := by
  simp only [outputLow, outputHigh] at h
  have hthousands : w.toNat / 1000 % 10 = w.toNat / 1000 := Nat.mod_eq_of_lt (by omega)
  rw [encodeOutput, packDecimal, hthousands, BitVec.toNat_ofNat]
  exact Nat.mod_eq_of_lt (by omega)

theorem verdictRejects_iff (r : EditRecord) (f : EditFlags) :
    verdictRejects r f = true ↔ f.v = true ∧ r.overflow = .reject ∨ f.m = true ∧ r.miss = .reject := by
  simp [verdictRejects]

/-- The working value and flags a record's application ends with, after the output bounding. -/
def finalWorking (bank : Bank) (r : EditRecord) (word : Word) : Working :=
  boundOutput r.outType (runSteps bank r.steps (takeInput r.inType word))

theorem applyRecord_of_rejects {bank : Bank} {r : EditRecord} {word : Word}
    (h : verdictRejects r (finalWorking bank r word).flags = true) : applyRecord bank r word = none :=
  if_pos h

theorem applyRecord_of_stands {bank : Bank} {r : EditRecord} {word : Word}
    (h : ¬ verdictRejects r (finalWorking bank r word).flags = true) :
    applyRecord bank r word = some (encodeOutput r.outType (finalWorking bank r word).w) :=
  if_neg h

/-- Settles O17: the verdict reads the flags after the bounding, and the bounded W is in its type's range. -/
theorem outputIsBoundedEncodedAndJudged : Obligations.OutputIsBoundedEncodedAndJudged := by
  intro bank r word x low high w v
  have hfinal : finalWorking bank r word = ⟨w, { x.flags with v := v }⟩ := boundOutput_eq r.outType x
  have hverdict : verdictRejects r (finalWorking bank r word).flags = true ↔
      v = true ∧ r.overflow = .reject ∨ x.flags.m = true ∧ r.miss = .reject := by
    rw [hfinal, verdictRejects_iff]
  refine ⟨fun h => applyRecord_of_rejects (hverdict.mpr h), fun h =>
    ⟨_, applyRecord_of_stands (hverdict.not.mpr h), ?_⟩⟩
  have hrange : outputLow r.outType ≤ w ∧ w ≤ outputHigh r.outType := boundOutput_w_bounds r.outType x
  rw [hfinal]
  generalize r.outType = t at hrange ⊢
  cases t with
  | unsigned => exact encodeOutput_unsigned_toNat hrange
  | signed => exact encodeOutput_signed_toInt hrange
  | decimal => exact encodeOutput_decimal_toNat hrange

end Sys2Proof.Machine

/-! A stale REPLY (R86, R88): the matcher's two tests as the conditions they decide, the taking when each fails, and
the arbiter's choice when nothing waits upstream (R140, R141). -/

namespace Sys2Proof.Machine

open Sys2Proof.Safety

/-! ### The tests of the Reply Matcher (R86, R87) -/

theorem slotMatches_iff {k : Segment} {src tag : Byte} {x : Slot} :
    slotMatches k src tag x = true ↔
      x.state = .sent ∧ x.seg = k ∧ addrByte x.station = src ∧ x.cur.val = tagNumber tag :=
  decide_eq_true_iff

theorem probeAnswered_eq_some_iff {p : ProbeRecord} {src tag : Byte} {a : StationAddr} :
    probeAnswered p src tag = some a ↔
      (∃ d, p = .awaiting a d) ∧ (tagIndex tag).val = a.val + 1 ∧ src = addrByte a := by
  cases p with
  | idle => simp [probeAnswered]
  | sending b => simp [probeAnswered]
  | awaiting b d =>
    simp only [probeAnswered, Option.ite_none_right_eq_some, Option.some.injEq, ProbeRecord.awaiting.injEq,
      exists_and_left, exists_eq', and_true]
    constructor
    · rintro ⟨hprobe, rfl⟩
      exact ⟨rfl, hprobe⟩
    · rintro ⟨rfl, hprobe⟩
      exact ⟨hprobe, rfl⟩

theorem tagNumber_eq_seven {tag : Byte} (h : ¬ tagNumber tag < 7) : tagNumber tag = 7 := by
  unfold tagNumber at h ⊢
  omega

/-! ### A REPLY that fails its test (R88) -/

theorem takeReply_of_slot_differs {k : Segment} {src tag : Byte} {s : State} (hn : tagNumber tag < 7)
    (hs : ¬ slotMatches k src tag (s.slot (tagIndex tag)) = true) (status count : Byte) (values : List Word) :
    takeReply k src tag status count values s = countStaleReply k s := by
  rw [takeReply, if_pos hn, if_neg hs]

theorem takeReply_of_probe_unanswered {k : Segment} {src tag : Byte} {s : State} (hn : ¬ tagNumber tag < 7)
    (hp : probeAnswered (s.seg k).probe src tag = none) (status count : Byte) (values : List Word) :
    takeReply k src tag status count values s = countStaleReply k s := by
  rw [takeReply, if_neg hn, hp]

theorem takeReply_of_stale {k : Segment} {src tag : Byte} {s : State}
    (hs : tagNumber tag < 7 → ¬ slotMatches k src tag (s.slot (tagIndex tag)) = true)
    (hp : tagNumber tag = 7 → probeAnswered (s.seg k).probe src tag = none)
    (status count : Byte) (values : List Word) :
    takeReply k src tag status count values s = countStaleReply k s := by
  by_cases hn : tagNumber tag < 7
  · exact takeReply_of_slot_differs hn (hs hn) status count values
  · exact takeReply_of_probe_unanswered hn (hp (tagNumber_eq_seven hn)) status count values

/-- A REPLY that its port hands over is received, matched, and followed by the arbiter's choice (R6, R86, R140). -/
theorem exec_reply_of_form {k : Segment} {status count : Byte} {values : List Word} {s : State}
    (hr : s.resetHeld = false) (hk : s.inService k = true) (hf : replyFormOk status count values = true)
    (dst src tag : Byte) (index : Word) :
    exec (.reply k dst src tag status index count values) s =
      .next (arbiterIfIdle (takeReply k src tag status count values (countReceived k.port s))) := by
  have hexec : exec (.reply k dst src tag status index count values) s =
      whenRunning (deliverReply k src tag status count values) s := rfl
  rw [hexec, whenRunning_next, hr, deliverReply, hk, hf]
  rfl

/-! ### An arbiter with nothing to choose (R140, R141) -/

theorem arbiterChoice_of_empty {s : State} (ht : s.up.traffic = []) (ho : s.up.outbox = [])
    (hn : s.up.notices = []) : arbiterChoice s = s := by
  have hm : s.controlMayGo = true := by simp [State.controlMayGo, ht]
  simp only [arbiterChoice, hm, ht, ho, hn]

theorem arbiterIfIdle_of_rests {s : State} (hr : s.resetHeld = false) (hu : UpstreamRests s) :
    arbiterIfIdle s = s := by
  cases hs : s.up.sending with
  | some x => simp only [arbiterIfIdle, hs]
  | none =>
    obtain ⟨ht, ho, hn, -⟩ := hu hr hs
    simp only [arbiterIfIdle, hs, arbiterChoice_of_empty ht ho hn]

/-- Settles O24: the failed test leaves the stale count, and the arbiter finds upstream as it rested. -/
theorem staleReplyChangesOnlyCounters : Obligations.StaleReplyChangesOnlyCounters := by
  intro k dst src tag status index count values s hr hu hk hf hslot hprobe
  have hstale : takeReply k src tag status count values (countReceived k.port s) =
      countStaleReply k (countReceived k.port s) := by
    refine takeReply_of_stale (fun hn hmatch => ?_) (fun hn => ?_) status count values
    · exact hslot hn (tagIndex tag) rfl (slotMatches_iff.mp hmatch)
    · rw [Option.eq_none_iff_forall_ne_some]
      intro a ha
      obtain ⟨⟨d, hd⟩, htag, hsrc⟩ := probeAnswered_eq_some_iff.mp ha
      rw [countReceived_eq, State.setCounters_seg] at hd
      exact hprobe hn a d hd htag hsrc
  have hrests : UpstreamRests (countStaleReply k (countReceived k.port s)) := hu.congr rfl rfl
  have hrunning : (countStaleReply k (countReceived k.port s)).resetHeld = false := hr
  rw [exec_reply_of_form hr hk hf, hstale, arbiterIfIdle_of_rests hrunning hrests]

end Sys2Proof.Machine

/-! A CHANGE under DEADBAND (R127 to R131): the Report Cache as a list, the difference, the decision, the offer
upstream, and the taking around them. -/

namespace Sys2Proof.Machine

open Sys2Proof.Safety

/-! ### The Report Cache as a list (R126, R129) -/

theorem CacheEntry.hasKey_iff {c : CacheEntry} {station : Byte} {index : Word} :
    c.hasKey station index = true ↔ c.station = station ∧ c.index = index :=
  decide_eq_true_iff

theorem mem_of_cacheFind {station : Byte} {index : Word} {cache : List CacheEntry} {c : CacheEntry}
    (h : cacheFind station index cache = some c) : c ∈ cache ∧ c.station = station ∧ c.index = index := by
  have hkey := List.find?_some h
  exact ⟨List.mem_of_find?_eq_some h, CacheEntry.hasKey_iff.mp hkey⟩

/-- In a cache that holds no key twice, an entry's key finds that entry (R126). -/
theorem cacheFind_of_mem {cache : List CacheEntry} (hkeys : cache.Pairwise (fun c d => ¬ CacheEntry.sameKey c d))
    {c : CacheEntry} (hc : c ∈ cache) : cacheFind c.station c.index cache = some c := by
  induction cache with
  | nil => cases hc
  | cons d rest ih =>
    obtain ⟨hd, hrest⟩ := List.pairwise_cons.mp hkeys
    rcases List.mem_cons.mp hc with rfl | hmem
    · exact List.find?_cons_of_pos (CacheEntry.hasKey_iff.mpr ⟨rfl, rfl⟩)
    · have hskip : cacheFind c.station c.index (d :: rest) = cacheFind c.station c.index rest :=
        List.find?_cons_of_neg fun hkey => hd c hmem (CacheEntry.hasKey_iff.mp hkey)
      exact hskip.trans (ih hrest hmem)

theorem cacheRemove_of_cacheFind_none {station : Byte} {index : Word} {cache : List CacheEntry}
    (h : cacheFind station index cache = none) : cacheRemove station index cache = cache :=
  List.filter_eq_self.mpr fun c hc => by simp [List.find?_eq_none.mp h c hc]

theorem length_cacheRemove_lt {station : Byte} {index : Word} {cache : List CacheEntry} {c : CacheEntry}
    (h : cacheFind station index cache = some c) : (cacheRemove station index cache).length < cache.length := by
  obtain ⟨hc, hkey⟩ := mem_of_cacheFind h
  exact List.length_filter_lt_length_iff_exists.mpr ⟨c, hc, by simp [CacheEntry.hasKey_iff.mpr hkey]⟩

theorem refreshTimer_eq (refresh : Word) :
    refreshTimer refresh = if refresh = 0 then .stopped else .running (100 * refresh.toNat) := by
  rw [refreshTimer, startTimer, unitsMs, Nat.mul_comm]

/-- A forward leaves the other entries and then the fresh one. The least recent entry goes when the others alone are 64:
an entry with the key would have left room (R129). -/
theorem cacheForward_eq {cache : List CacheEntry} (hbound : cache.length ≤ 64) (station : Byte)
    (index value refresh : Word) :
    cacheForward station index value refresh cache =
      let others := cacheRemove station index cache
      let fresh : CacheEntry := ⟨station, index, value, refreshTimer refresh, false⟩
      if others.length = 64 then others.drop 1 ++ [fresh] else others ++ [fresh] := by
  cases hf : cacheFind station index cache with
  | none =>
    have hfull : cache.length < 64 ↔ ¬ cache.length = 64 := by omega
    simp only [cacheForward, hf, cacheRemove_of_cacheFind_none hf, evictIfFull, Config.cacheCapacity, hfull, ite_not]
    exact apply_ite (· ++ _) _ _ _
  | some c =>
    have hlt := length_cacheRemove_lt hf
    have hroom : ¬ (cacheRemove station index cache).length = 64 := by omega
    simp only [cacheForward, hf, if_neg hroom]

/-! ### The difference (R128) -/

theorem valueDifference_of_absent (bank : Bank) (new last : Word) :
    (valueDifference bank none new last : Int) = |(new.toNat : Int) - last.toNat| :=
  Int.natCast_natAbs _

theorem compareReading_of_record {bank : Bank} {e : EditIx} {r : EditRecord} (h : bank.edits[e] = some r)
    (word : Word) :
    compareReading bank (some e) word = if r.outType = .signed then word.toInt else (word.toNat : Int) := by
  have hrecord : bank.record e = r := by rw [Bank.record, h, Option.getD_some]
  simp only [compareReading, hrecord]
  cases r.outType <;> rfl

theorem valueDifference_of_record {bank : Bank} {e : EditIx} {r : EditRecord} (h : bank.edits[e] = some r)
    (new last : Word) :
    (r.outType = .signed → (valueDifference bank (some e) new last : Int) = |new.toInt - last.toInt|) ∧
      (r.outType ≠ .signed → (valueDifference bank (some e) new last : Int) = |(new.toNat : Int) - last.toNat|) := by
  simp only [valueDifference, compareReading_of_record h, Int.natCast_natAbs]
  exact ⟨fun hs => by simp only [if_pos hs], fun hs => by simp only [if_neg hs]⟩

theorem cacheSuppresses_iff {bank : Bank} {edit : Option EditIx} {value limit : Word} {c : CacheEntry} :
    cacheSuppresses bank edit value limit c = true ↔
      c.due = false ∧ valueDifference bank edit value c.lastValue ≤ limit.toNat := by
  simp [cacheSuppresses]

/-! ### What the sign of life keeps (R105, R120) -/

/-- What the acts after the sign of life read of the state is as it was. -/
structure KeepsForChange (s t : State) : Prop where
  store : t.store = s.store
  agent : t.agent = s.agent
  cache : t.cache = s.cache
  counters : t.counters = s.counters
  slots : t.slots = s.slots
  traffic : t.up.traffic = s.up.traffic
  waitList : t.up.waitList = s.up.waitList
  sending : t.up.sending = s.up.sending

theorem takeAlive_keepsForChange (k : Segment) (a : StationAddr) (s : State) : KeepsForChange s (takeAlive k a s) := by
  unfold takeAlive
  dsimp only
  split <;> constructor <;> simp

theorem signOfLife_keepsForChange (k : Segment) (src : Byte) (s : State) : KeepsForChange s (signOfLife k src s) := by
  unfold signOfLife
  split
  · exact takeAlive_keepsForChange k _ s
  · exact ⟨rfl, rfl, rfl, rfl, rfl, rfl, rfl, rfl⟩

/-- The taking of a mapped and edited DEADBAND change is the cache's decision after the sign of life. -/
theorem takeChange_of_deadband {k : Segment} {src : Byte} {y value w limit refresh : Word} {e : MapEntry} {s : State}
    (hrev : s.store.activeBank.reverse k src y = some e) (hp : e.policy = .deadband limit refresh)
    (hw : editValues s.store.activeBank e.upEdit [value] = some [w]) :
    takeChange k src y value s = decideDeadband e limit refresh y w (signOfLife k src s) := by
  have hstore := (signOfLife_keepsForChange k src s).store
  simp only [takeChange, mapChange, editChange, applyPolicy, hstore, hrev, hw, hp]

/-- The state a CHANGE leaves before the arbiter's choice: counted, `sent` entered upstream, the cache rewritten, and no
reply waiting at an idle transmitter. -/
structure ChangeLeaves (s : State) (counters : Counters) (sent : List Telegram) (cache : List CacheEntry)
    (t : State) : Prop where
  counters : t.counters = counters
  traffic : trafficOwed t = trafficOwed s ++ sent
  cache : t.cache = cache
  idle : t.up.sending = none → t.up.waitList = []

/-! ### The decision and the offer (R125, R127, R129, R130) -/

section AfterSignOfLife

variable {s u : State} (K : KeepsForChange s u)
include K

theorem KeepsForChange.trafficOwed_eq : trafficOwed u = trafficOwed s := by
  simp only [trafficOwed, State.slot, K.sending, K.traffic, K.waitList, K.slots]

theorem KeepsForChange.idle (hidle : s.up.sending = none → s.up.waitList = []) :
    u.up.sending = none → u.up.waitList = [] := by
  rwa [K.sending, K.waitList]

theorem decideDeadband_of_suppresses {e : MapEntry} {limit value y : Word} {c : CacheEntry}
    (hkeys : s.cache.Pairwise (fun c d => ¬ CacheEntry.sameKey c d)) (hc : c ∈ s.cache)
    (hstation : c.station = e.station) (hindex : c.index = e.toLogical y) (hdue : c.due = false)
    (hdiff : valueDifference s.store.activeBank e.upEdit value c.lastValue ≤ limit.toNat) (refresh : Word) :
    decideDeadband e limit refresh y value u =
      countChangeSuppressed { u with cache := cacheRemove e.station (e.toLogical y) s.cache ++ [c] } := by
  have hf := cacheFind_of_mem hkeys hc
  have hs := cacheSuppresses_iff.mpr ⟨hdue, hdiff⟩
  rw [hstation, hindex] at hf
  simp only [decideDeadband, K.cache, K.store, hf, hs, if_true, cacheTouch, hstation, hindex]

theorem decideDeadband_of_forwards {e : MapEntry} {limit value y : Word}
    (h : ∀ c ∈ s.cache, c.station = e.station → c.index = e.toLogical y →
      c.due = true ∨ limit.toNat < valueDifference s.store.activeBank e.upEdit value c.lastValue) (refresh : Word) :
    decideDeadband e limit refresh y value u =
      offerChange (forwardedChange s e y value) (cacheForward e.station (e.toLogical y) value refresh s.cache) u := by
  cases hf : cacheFind e.station (e.toLogical y) s.cache with
  | none => simp only [decideDeadband, forwardedChange, K.cache, K.agent, hf]
  | some c =>
    obtain ⟨hc, hstation, hindex⟩ := mem_of_cacheFind hf
    have hnot : ¬ cacheSuppresses s.store.activeBank e.upEdit value limit c = true := by
      rw [cacheSuppresses_iff]
      rintro ⟨hclear, hdiff⟩
      rcases h c hc hstation hindex with hset | habove
      · exact Bool.false_ne_true (hclear.symm.trans hset)
      · exact Nat.not_le_of_lt habove hdiff
    simp only [decideDeadband, forwardedChange, K.cache, K.store, K.agent, hf, if_neg hnot]

variable (hidle : s.up.sending = none → s.up.waitList = [])
include hidle

theorem countChangeSuppressed_changeLeaves (cache : List CacheEntry) :
    ChangeLeaves s (countChangeSuppressed s).counters [] cache (countChangeSuppressed { u with cache := cache }) :=
  ⟨by simp [K.counters], K.trafficOwed_eq.trans (List.append_nil _).symm, rfl, K.idle hidle⟩

theorem offerChange_changeLeaves_of_room (hroom : s.up.traffic.length < 24) (hwait : s.up.waitList = [])
    (x : Telegram) (cache : List CacheEntry) :
    ChangeLeaves s (countChangeForwarded s).counters [x] cache (offerChange x cache u) := by
  have hu : u.trafficHasRoom = true := trafficHasRoom_iff.mpr (by rw [K.traffic, K.waitList]; exact ⟨hroom, hwait⟩)
  rw [offerChange, if_pos hu]
  refine ⟨by simp [K.counters], ?_, rfl, K.idle hidle⟩
  rw [← K.trafficOwed_eq]
  simp [trafficOwed, enterTraffic, K.waitList, hwait]

theorem offerChange_changeLeaves_of_full (hfull : 24 ≤ s.up.traffic.length ∨ s.up.waitList ≠ [])
    (x : Telegram) (cache : List CacheEntry) :
    ChangeLeaves s (countChangeDropped s).counters [] s.cache (offerChange x cache u) := by
  have hu : ¬ u.trafficHasRoom = true := by
    rw [trafficHasRoom_iff, K.traffic, K.waitList]
    exact fun ⟨hroom, hwait⟩ => hfull.elim (Nat.not_le_of_lt hroom) (absurd hwait)
  rw [offerChange, if_neg hu]
  exact ⟨by simp [K.counters], K.trafficOwed_eq.trans (List.append_nil _).symm, K.cache, K.idle hidle⟩

end AfterSignOfLife

/-! ### The taking of a CHANGE -/

/-- The arbiter's choice at the end of the taking moves nothing that was counted, owed or cached (R140). -/
theorem exec_change_of_changeLeaves {k : Segment} {src : Byte} {y value : Word} {s : State} {counters : Counters}
    {sent : List Telegram} {cache : List CacheEntry} (hr : s.resetHeld = false) (hk : s.inService k = true)
    (h : ChangeLeaves (countReceived k.port s) counters sent cache (takeChange k src y value (countReceived k.port s)))
    (dst tag : Byte) :
    ∃ t, exec (.change k dst src tag y value) s = .next t ∧ t.counters = counters ∧
      trafficOwed t = trafficOwed s ++ sent ∧ t.cache = cache := by
  have hexec : exec (.change k dst src tag y value) s = whenRunning (deliverChange k src y value) s := rfl
  refine ⟨arbiterIfIdle (takeChange k src y value (countReceived k.port s)), ?_, ?_, ?_, ?_⟩
  · rw [hexec, whenRunning_next, hr, deliverChange, hk]
    rfl
  · rw [arbiterIfIdle_counters, h.counters]
  · have howed := h.traffic
    generalize takeChange k src y value (countReceived k.port s) = t at h howed ⊢
    cases hs : t.up.sending with
    | none =>
      have hwait : t.up.waitList.Nodup := h.idle hs ▸ List.nodup_nil
      rw [(arbiterIfIdle_chosen hwait).traffic, howed]
      rfl
    | some x =>
      simp only [arbiterIfIdle, hs, howed]
      rfl
  · rw [arbiterIfIdle_cache, h.cache]

/-- Settles O31: the decision is made on the cache, queues and counters that the sign of life left alone. -/
theorem deadbandForwardsOrSuppresses : Obligations.DeadbandForwardsOrSuppresses := by
  refine ⟨fun k dst src tag y value w limit refresh e s hr hu hcache hk hrev hp hw => ?_, fun bank new last =>
    ⟨valueDifference_of_absent bank new last, fun _ _ h => valueDifference_of_record h new last⟩⟩
  intro ix others fresh received ends
  have K : KeepsForChange received (signOfLife k src received) := signOfLife_keepsForChange k src received
  have hidle : received.up.sending = none → received.up.waitList = [] := by
    intro hs
    obtain ⟨-, -, -, hwait⟩ := hu hr hs
    exact hwait
  have htaken : takeChange k src y value received = decideDeadband e limit refresh y w (signOfLife k src received) :=
    takeChange_of_deadband hrev hp hw
  refine ⟨fun c hc hstation hindex hdue hdiff => ?_, fun hforwards => ?_⟩
  · refine exec_change_of_changeLeaves hr hk ?_ dst tag
    rw [htaken, decideDeadband_of_suppresses K hcache.keys hc hstation hindex hdue hdiff]
    exact countChangeSuppressed_changeLeaves K hidle _
  · have hoffer := htaken.trans (decideDeadband_of_forwards K hforwards refresh)
    have hcacheForward : cacheForward e.station ix w refresh s.cache =
        if others.length = 64 then others.drop 1 ++ [fresh] else others ++ [fresh] := by
      rw [cacheForward_eq hcache.bound, refreshTimer_eq]
      rfl
    refine ⟨fun hroom hwait => ?_, fun hfull => ?_⟩
    · refine exec_change_of_changeLeaves hr hk ?_ dst tag
      rw [hoffer, ← hcacheForward]
      exact offerChange_changeLeaves_of_room K hidle hroom hwait _ _
    · refine exec_change_of_changeLeaves hr hk ?_ dst tag
      rw [hoffer]
      exact offerChange_changeLeaves_of_full K hidle hfull _ _

end Sys2Proof.Machine

/-! Port U's queues keep their bounds (R137): the takings that the laws of the transmitter leave out, each either moving
no queue or made of operations that keep the bounds; then every command, and every step. -/

namespace Sys2Proof.Safety

open Sys2Proof.Machine

variable {s : State}

/-! ### The pins and the segments' transmission ends -/

theorem QueueBounds.holdReset (h : QueueBounds s) : QueueBounds (holdReset s) :=
  ⟨h.traffic, h.outbox, h.notices, h.waiting, h.control⟩

theorem QueueBounds.endSegment (h : QueueBounds s) (k : Segment) : QueueBounds (endSegment k s) :=
  h.congr (endSegment_up k)

/-! ### Expiries -/

theorem expireProbeDue_up (k : Segment) (a : StationAddr) : (expireProbeDue k a s).up = s.up := by
  unfold expireProbeDue
  split <;> simp

theorem restartProbeDue_up (k : Segment) (a : StationAddr) : (restartProbeDue k a s).up = s.up := by
  unfold restartProbeDue
  split <;> simp

theorem expireProbeDeadline_up (k : Segment) : (expireProbeDeadline k s).up = s.up := by
  unfold expireProbeDeadline
  split
  · split
    · rw [dispatchIfIdle_up, restartProbeDue_up, State.setSeg_up]
    · rfl
  · rfl
  · rfl

theorem QueueBounds.expireSlot (h : QueueBounds s) (i : SlotIx) : QueueBounds (expireSlot i s) := by
  have hcounted : QueueBounds (countFinalTimeout (s.slot i).seg s) := h.congr rfl
  unfold Machine.expireSlot
  dsimp only
  split
  · split
    · exact h.congr (by simp [retrySlot])
    · exact QueueBounds.arbiterIfIdle (QueueBounds.drainIfDone (QueueBounds.completeFailure
        (hcounted.answerSlot _ _) _ _))
  · exact h

theorem QueueBounds.expireDrain (h : QueueBounds s) : QueueBounds (expireDrain s) := by
  unfold Machine.expireDrain
  split
  · exact (h.failDrain _).arbiterIfIdle
  · exact h

/-! ### Every command -/

theorem QueueBounds.countReceived (h : QueueBounds s) (p : Port) : QueueBounds (countReceived p s) := h.congr rfl

theorem QueueBounds.keptBy (h : QueueBounds s) : KeptBy QueueBounds s where
  hold := h.holdReset
  release := QueueBounds.releaseReset
  malformed _ := h.congr rfl
  checkError _ := h.congr rfl
  request _ _ _ _ _ := ((h.countReceived _).takeRequest _ _ _ _).arbiterIfIdle
  mgmt _ _ _ := ((h.countReceived _).takeMgmtByCode _ _).arbiterIfIdle
  reply _ _ _ _ _ _ _ _ := ((h.countReceived _).takeReply _ _ _ _ _ _).arbiterIfIdle
  change _ _ _ _ _ _ := ((h.countReceived _).takeChange _ _ _ _).arbiterIfIdle
  endSegment _ := h.endSegment
  endUpstream _ := h.endUpstream
  expireSlot _ := h.expireSlot
  expireProbeDue _ k a := h.congr (expireProbeDue_up k a)
  expireProbeDeadline _ k := h.congr (expireProbeDeadline_up k)
  expireRefresh _ _ _ := h.congr rfl
  expireDrain _ := h.expireDrain

/-- Settles O52: the bounds do not read the queue of commands, and every command keeps them. -/
theorem stepKeepsQueueBounds : Obligations.StepKeepsQueueBounds := by
  intro s t h hstep
  have hqueue : ∀ rest, QueueBounds { s with pending := rest } := fun _ => h.congr rfl
  exact step_keeps hqueue (fun rest => (hqueue rest).keptBy) h hstep

end Sys2Proof.Safety

/-! The arbiter's choice (R136, R141), one equation for each source it can serve, and the end of a transmission that
restarts nothing (R142). -/

namespace Sys2Proof.Machine

variable {s : State}

/-! ### The consecutive-control count (R141) -/

theorem controlMayGo_iff : s.controlMayGo = true ↔ s.up.control < 4 ∨ s.up.traffic = [] := by
  rw [State.controlMayGo, Bool.or_eq_true, decide_eq_true_eq, List.isEmpty_iff, Config.controlLimit]

theorem bumpControl_eq {n : Nat} (h : n ≤ 4) : bumpControl n = if n = 4 then 4 else n + 1 := by
  unfold bumpControl Config.controlLimit
  split <;> split <;> omega

/-! ### The head of the Reply Wait List (R136) -/

theorem moveWaitList_of_nil (h : s.up.waitList = []) : moveWaitList s = s := by rw [moveWaitList, h]

theorem moveWaitList_of_cons {i : SlotIx} {waiting : List SlotIx} (h : s.up.waitList = i :: waiting) :
    moveWaitList s = { s.setSlot i (Slot.cleared (s.slot i).cur (s.slot i).next) with
      up := { s.up with traffic := s.up.traffic ++ [slotReply (s.slot i)], waitList := waiting } } := by
  rw [moveWaitList, h]
  rfl

/-! ### The four rules of the choice (R141) -/

theorem arbiterChoice_of_outbox {r : MgmtReply} {rest : List MgmtReply} (hm : s.controlMayGo = true)
    (ho : s.up.outbox = r :: rest) :
    arbiterChoice s = s.setUp { s.up with
      outbox := rest, control := bumpControl s.up.control, sending := some (.mgmt r) } := by
  simp only [arbiterChoice, hm, ho]

theorem arbiterChoice_of_notice {n : Notice} {rest : List Notice} (hm : s.controlMayGo = true)
    (ho : s.up.outbox = []) (hn : s.up.notices = n :: rest) :
    arbiterChoice s = s.setUp { s.up with
      notices := rest, control := bumpControl s.up.control, sending := some (.notice n) } := by
  simp only [arbiterChoice, hm, ho, hn]

theorem arbiterChoice_of_traffic {u : Telegram} {rest : List Telegram}
    (h : s.controlMayGo = false ∨ s.up.outbox = [] ∧ s.up.notices = []) (ht : s.up.traffic = u :: rest) :
    arbiterChoice s =
      moveWaitList (s.setUp { s.up with traffic := rest, control := 0, sending := some (.traffic u) }) := by
  rcases h with hm | ⟨ho, hn⟩
  · simp only [arbiterChoice, hm, ht]
  · cases hm : s.controlMayGo <;> simp only [arbiterChoice, hm, ho, hn, ht]

/-! ### The end of a transmission (R142) -/

theorem endsRestart_eq_false {u : UpTelegram} (h : ∀ r, u = .mgmt r → ¬ (r.code = 19 ∧ r.status = .done)) :
    endsRestart u = false := by
  cases u with
  | mgmt r => exact decide_eq_false (h r rfl)
  | notice n => rfl
  | traffic t => rfl

theorem endUpstream_of_not_endsRestart {u : UpTelegram} (hs : s.up.sending = some u) (hu : endsRestart u = false) :
    endUpstream s = arbiterChoice { countTransmitted .u s with up := { s.up with sending := none } } := by
  rw [endUpstream, hs]
  simp only [hu]
  rfl

/-- Settles O32, from the equation of each source and that of the end. -/
theorem arbiterServesControlFourTimesThenTraffic : Obligations.ArbiterServesControlFourTimesThenTraffic := by
  refine ⟨fun s hc => ⟨fun r rest hm ho => ?_, fun n rest hm ho hn => ?_, fun u rest h ht => ?_,
    fun ho hn ht => arbiterChoice_of_empty ht ho hn⟩, fun u s hr hs hu => ?_⟩
  · rw [arbiterChoice_of_outbox (controlMayGo_iff.mpr hm) ho, bumpControl_eq hc]
    rfl
  · rw [arbiterChoice_of_notice (controlMayGo_iff.mpr hm) ho hn, bumpControl_eq hc]
    rfl
  · have hturn : s.controlMayGo = false ∨ s.up.outbox = [] ∧ s.up.notices = [] :=
      h.imp_left fun hm => Bool.eq_false_iff.mpr (mt controlMayGo_iff.mp hm)
    rw [arbiterChoice_of_traffic hturn ht]
    exact ⟨fun hw => moveWaitList_of_nil hw, fun i waiting hw => moveWaitList_of_cons hw⟩
  · have hexec : exec .portUTransmissionEnd s = whenRunning endUpstream s := rfl
    rw [hexec, whenRunning_next, hr, endUpstream_of_not_endsRestart hs (endsRestart_eq_false hu)]
    rfl

end Sys2Proof.Machine

/-! What is owed to the controller only grows behind its end (R92, R135, R136): every command but the pins and the end of
a transmission on port U. -/

namespace Sys2Proof.Safety

open Sys2Proof.Machine

variable {s t : State}

theorem SlotPlaces.setCounters (h : SlotPlaces s) (c : Counters) : SlotPlaces (s.setCounters c) :=
  (placesBut_iff _).mp (((placesBut_iff s).mpr h).setCounters c)

/-- A taking that starts with a count and ends with the arbiter's choice. -/
theorem owed_grows_of_counted {c : Counters} {u : State} (h : SlotPlaces s) (g : ∃ l, Grew l (s.setCounters c) u) :
    ∃ sent, trafficOwed (arbiterIfIdle u) = trafficOwed s ++ sent := by
  obtain ⟨l, g⟩ := g
  exact g.chosen h.waitingOnce

theorem owed_grows_of_expireSlot (h : SlotPlaces s) (i : SlotIx) :
    ∃ sent, trafficOwed (expireSlot i s) = trafficOwed s ++ sent := by
  unfold expireSlot
  dsimp only
  split
  · next hs =>
    split
    · exact (Grew.retrySlot i).traffic
    · obtain ⟨l, g⟩ := Grew.failSlot h hs.1
      exact g.chosen h.waitingOnce
  · exact (Grew.refl s).traffic

theorem owed_grows_of_expireDrain (h : SlotPlaces s) : ∃ sent, trafficOwed (expireDrain s) = trafficOwed s ++ sent := by
  unfold expireDrain
  split
  · exact (Grew.failDrain .drainTimeout h.parkedOnce h.parked_waits).chosen h.waitingOnce
  · exact (Grew.refl s).traffic

theorem owed_grows_of_taken {c : Instr} (h : SlotPlaces s) (hr : s.resetHeld = false) (hc : c ≠ .pinResetAssert)
    (hc' : ∀ addr s1En, c ≠ .pinResetRelease addr s1En) (hend : c ≠ .portUTransmissionEnd) (ht : Taken s c t) :
    ∃ sent, trafficOwed t = trafficOwed s ++ sent := by
  cases ht with
  | held _ hh => rw [hr] at hh; cases hh
  | hold => exact absurd rfl hc
  | release addr s1En => exact absurd rfl (hc' addr s1En)
  | malformed _ p => exact (Grew.of_up rfl rfl rfl fun _ => rfl).traffic
  | checkError _ p => exact (Grew.of_up rfl rfl rfl fun _ => rfl).traffic
  | request _ _ dst src tag rest =>
    exact owed_grows_of_counted h ⟨[], Grew.takeRequest (h.setCounters _) dst src tag rest⟩
  | mgmt _ _ hd args => exact owed_grows_of_counted h (Grew.takeMgmtByCode (h.setCounters _) hd args)
  | reply _ _ k src tag st n vs _ => exact owed_grows_of_counted h (Grew.takeReply (h.setCounters _) k src tag st n vs)
  | change _ _ k src y v _ => exact owed_grows_of_counted h ⟨[], Grew.takeChange k src y v⟩
  | endSegment _ k => exact (Grew.endSegment k).traffic
  | endUpstream _ => exact absurd rfl hend
  | expireSlot _ i => exact owed_grows_of_expireSlot h i
  | expireProbeDue _ k a => exact (Grew.expireProbeDue k a).traffic
  | expireProbeDeadline _ k => exact (Grew.expireProbeDeadline k).traffic
  | expireRefresh _ st ix => exact (Grew.of_up rfl rfl rfl fun _ => rfl).traffic
  | expireDrain _ => exact owed_grows_of_expireDrain h

/-- What a telegram on port U's wire adds to the traffic that is owed. -/
def trafficOf : UpTelegram → List Telegram
  | .traffic x => [x]
  | .mgmt _ => []
  | .notice _ => []

theorem trafficOwed_of_sending {u : UpTelegram} (hs : s.up.sending = some u) :
    trafficOwed s = trafficOf u ++ (s.up.traffic ++ s.up.waitList.map (fun i => slotReply (s.slot i))) := by
  rw [trafficOwed, hs, List.append_assoc]
  cases u <;> rfl

theorem trafficOwed_of_free (hs : s.up.sending = none) :
    trafficOwed s = s.up.traffic ++ s.up.waitList.map (fun i => slotReply (s.slot i)) := by
  rw [trafficOwed, hs]
  rfl

/-- The end of a transmission on port U removes from what is owed at most the telegram that has left (R142). -/
theorem trafficOwed_endUpstream {u : UpTelegram} (h : SlotPlaces s) (hs : s.up.sending = some u)
    (hu : endsRestart u = false) : trafficOwed s = trafficOf u ++ trafficOwed (endUpstream s) := by
  have hchosen := arbiterChoice_chosen (s := { countTransmitted .u s with up := { s.up with sending := none } }) rfl
    h.waitingOnce
  rw [endUpstream_of_not_endsRestart hs hu, hchosen.traffic, trafficOwed_of_sending hs, trafficOwed_of_free rfl]
  rfl

/-- Settles O35: every other command adds behind what is owed; the end of port U's transmission takes what it sent. -/
theorem trafficReachesTheControllerInOrder : Obligations.TrafficReachesTheControllerInOrder := by
  intro c s hp hu hr hc hc'
  by_cases hend : c = .portUTransmissionEnd
  · subst hend
    have hexec : exec .portUTransmissionEnd s = .next (endUpstream s) := by
      have e : exec .portUTransmissionEnd s = whenRunning endUpstream s := rfl
      rw [e, whenRunning_next, hr]
      rfl
    refine ⟨endUpstream s, hexec, fun h => absurd rfl h, fun _ hno => ?_⟩
    cases hs : s.up.sending with
    | none =>
      have hidle : endUpstream s = s := by simp only [endUpstream, hs]
      rw [hidle]
      exact ⟨nofun, fun _ => rfl⟩
    | some u =>
      have howed := trafficOwed_endUpstream hp hs (endsRestart_eq_false fun r hr => hno r (hs.trans (congrArg some hr)))
      cases u with
      | traffic x => exact ⟨fun y hy => by cases hy; exact howed, fun hn => absurd rfl (hn x)⟩
      | mgmt r => exact ⟨nofun, fun _ => howed.symm⟩
      | notice n => exact ⟨nofun, fun _ => howed.symm⟩
  · obtain ⟨t, he, ht⟩ := exec_taken c s
    exact ⟨t, he, fun _ => owed_grows_of_taken hp hr hc hc' hend ht, fun h => absurd h hend⟩

end Sys2Proof.Safety

/-! Properties of the dispatchers and the station records alone (R77, R78, R102, R109, R110): what such a property must
survive to survive every command, and the three that do. -/

namespace Sys2Proof.Safety

open Sys2Proof.Machine

variable {P : State → Prop} {s t : State}

/-- A SENT slot is its station's active slot, so its station is not SILENT (R75, R108). -/
theorem SlotPlaces.sent_active (h : SlotPlaces s) {i : SlotIx} (hs : (s.slot i).state = .sent) :
    (s.station (s.slot i).seg (s.slot i).station).activeSlot = some i :=
  (h.active _ _ i).mpr ⟨.inr (.inr hs), rfl, rfl⟩

theorem SlotPlaces.sent_not_silent (h : SlotPlaces s) {i : SlotIx} (hs : (s.slot i).state = .sent) :
    (s.station (s.slot i).seg (s.slot i).station).health ≠ .silent := by
  intro hsil
  have hnone := h.silent _ _ hsil
  rw [h.sent_active hs] at hnone
  cases hnone

/-- A property that reads RESET_N, S1's presence and the two segments, kept by the operations that takings share. -/
structure SegmentRules (P : State → Prop) : Prop where
  congr : ∀ {s t : State}, P s → t.resetHeld = s.resetHeld → t.s1Present = s.s1Present → t.seg0 = s.seg0 →
    t.seg1 = s.seg1 → P t
  place : ∀ {s : State}, P s → ∀ k a x l, P (s.setStation k a { s.station k a with activeSlot := x, held := l })
  queue : ∀ {s : State}, P s → ∀ i, P (queueSlot i s)
  alive : ∀ {s : State}, P s → ∀ k a, P (takeAlive k a s)
  success : ∀ {s : State}, P s → ∀ k a, P (completeSuccess k a s)
  probed : ∀ {s : State}, P s → ∀ k a d, (s.seg k).probe = .awaiting a d → P (completeProbe k a s)
  drain : ∀ {s : State}, P s → P (drainIfDone s)
  mgmt : ∀ {s : State}, P s → ∀ hd args, P (takeMgmtByCode hd args s)
  pinReset : ∀ addr s1En pending, P (State.pinReset addr s1En pending)
  restart : ∀ s : State, P (restartEffect s)

section Takings

variable (r : SegmentRules P) (h : P s)
include r h

theorem SegmentRules.setCounters (c : Counters) : P (s.setCounters c) := r.congr h rfl rfl rfl rfl

theorem SegmentRules.arbiter : P (arbiterIfIdle s) := r.congr h (by simp) (by simp) (by simp) (by simp)

theorem SegmentRules.answer (b : BuiltReply) (i : SlotIx) : P (answerSlot b s i) :=
  r.congr h (by simp) (by simp) (by simp) (by simp)

theorem SegmentRules.placeAdmitted (i : SlotIx) (y : Slot) : P (placeAdmitted i y s) := by
  unfold Machine.placeAdmitted
  split
  · exact r.congr h rfl rfl rfl rfl
  · have hset : ∀ x, P (s.setSlot i x) := fun x => r.congr h rfl rfl rfl rfl
    have hplaced := fun x => r.place (hset x) y.seg y.station
    simp only [State.setSlot_station] at hplaced
    dsimp only
    split
    · exact r.queue (hplaced _ _ _) i
    · exact hplaced _ _ _

theorem SegmentRules.takeRequest (dst src tag : Byte) (rest : List Byte) : P (takeRequest dst src tag rest s) := by
  unfold Machine.takeRequest
  split
  · unfold offerRefusal
    split <;> exact r.congr h rfl rfl rfl rfl
  · exact r.placeAdmitted (r.setCounters h _) _ _

theorem SegmentRules.takeReply (k : Segment) (src tag status count : Byte) (vs : List Word) :
    P (takeReply k src tag status count vs s) := by
  unfold Machine.takeReply
  split
  · split
    · exact r.drain (r.success (r.answer h _ _) _ _)
    · exact r.setCounters h _
  · split
    · next hp =>
      obtain ⟨⟨d, hd⟩, -, -⟩ := probeAnswered_eq_some_iff.mp hp
      exact r.probed h _ _ d hd
    · exact r.setCounters h _

theorem SegmentRules.offerChange (x : Telegram) (c : List CacheEntry) : P (offerChange x c s) := by
  unfold Machine.offerChange
  split <;> exact r.congr h rfl rfl rfl rfl

theorem SegmentRules.mapChange (k : Segment) (src : Byte) (y v : Word) : P (mapChange k src y v s) := by
  unfold Machine.mapChange
  split
  · unfold editChange
    split
    · unfold applyPolicy
      split
      · exact r.setCounters h _
      · exact r.offerChange h _ _
      · unfold decideDeadband
        dsimp only
        split
        · exact r.offerChange h _ _
        · split
          · exact r.congr h rfl rfl rfl rfl
          · exact r.offerChange h _ _
    · exact r.setCounters h _
  · exact r.setCounters h _

theorem SegmentRules.takeChange (k : Segment) (src : Byte) (y v : Word) : P (takeChange k src y v s) := by
  refine r.mapChange ?_ k src y v
  unfold signOfLife
  split
  · exact r.alive h _ _
  · exact h

theorem SegmentRules.endUpstream : P (endUpstream s) := by
  unfold Machine.endUpstream
  split
  · exact h
  · have hsent : ∀ {u : State}, P u → P (arbiterChoice (u.setUp { u.up with sending := none })) := fun hu =>
      r.congr hu (by simp) (by simp) (by simp) (by simp)
    dsimp only
    split
    · exact hsent (r.restart _)
    · exact hsent (r.setCounters h _)

/-- A final failure's taking, when the failure itself keeps the property (R84). -/
theorem SegmentRules.expireSlot (i : SlotIx)
    (hfail : (s.slot i).state = .sent → ∀ u : State, (∀ k a, u.station k a = s.station k a) → u.agent = s.agent → P u →
      P (completeFailure (s.slot i).seg (s.slot i).station u)) : P (expireSlot i s) := by
  unfold Machine.expireSlot
  dsimp only
  split
  · next hs =>
    split
    · have hset : P (s.setSlot i { s.slot i with retriesLeft := (s.slot i).retriesLeft - 1 }) :=
        r.congr h rfl rfl rfl rfl
      exact r.setCounters (r.queue hset i) _
    · refine r.arbiter (r.drain (hfail hs.1 _ ?_ ?_ (r.answer (r.setCounters h _) _ _)))
      · simp
      · simp
  · exact h

theorem SegmentRules.expireDrain : P (expireDrain s) := by
  unfold Machine.expireDrain
  split
  · exact r.arbiter (r.congr h (by simp [failDrain]) (by simp [failDrain]) (by simp [failDrain]) (by simp [failDrain]))
  · exact h

end Takings

theorem SegmentRules.releaseReset (r : SegmentRules P) (addr : BitVec 4) (s1En : Bool) :
    P (releaseReset addr s1En s) :=
  r.congr (r.pinReset addr s1En s.pending) (by simp [Machine.releaseReset]) (by simp [Machine.releaseReset])
    (by simp [Machine.releaseReset]) (by simp [Machine.releaseReset])

/-- The takings that these rules leave out: a final failure, a segment's transmission end and the two probe timers. -/
structure SegmentEnds (P : State → Prop) (s : State) : Prop where
  fail : ∀ i, (s.slot i).state = .sent → ∀ u : State, (∀ k a, u.station k a = s.station k a) → u.agent = s.agent →
    P u → P (completeFailure (s.slot i).seg (s.slot i).station u)
  endSegment : ∀ k, P (endSegment k s)
  expireProbeDue : ∀ k a, P (expireProbeDue k a s)
  expireProbeDeadline : ∀ k, P (expireProbeDeadline k s)

theorem SegmentRules.keptBy (r : SegmentRules P) (h : P s) (hhold : P (holdReset s))
    (e : s.resetHeld = false → SegmentEnds P s) : KeptBy P s where
  hold := hhold
  release := r.releaseReset
  malformed _ := r.setCounters h _
  checkError _ := r.setCounters h _
  request _ _ _ _ _ := r.arbiter (r.takeRequest (r.setCounters h _) _ _ _ _)
  mgmt _ _ _ := r.arbiter (r.mgmt (r.setCounters h _) _ _)
  reply _ _ _ _ _ _ _ _ := r.arbiter (r.takeReply (r.setCounters h _) _ _ _ _ _ _)
  change _ _ _ _ _ _ := r.arbiter (r.takeChange (r.setCounters h _) _ _ _ _)
  endSegment hr := (e hr).endSegment
  endUpstream _ := r.endUpstream h
  expireSlot hr i := r.expireSlot h i ((e hr).fail i)
  expireProbeDue hr := (e hr).expireProbeDue
  expireProbeDeadline hr := (e hr).expireProbeDeadline
  expireRefresh _ _ _ := r.congr h rfl rfl rfl rfl
  expireDrain _ := r.expireDrain h

/-! ### The takings at a segment -/

theorem recordEnded_station (k j : Segment) (a : StationAddr) : (recordEnded k s).station j a = s.station j a := by
  unfold recordEnded
  split
  · simp [slotSent]
  · unfold probeSent
    split
    · by_cases e : k = j
      · subst e; simp
      · simp [e]
    · rfl
    · rfl
  · rfl
  · rfl

theorem clearRecord_station (k j : Segment) (a : StationAddr) : (clearRecord k s).station j a = s.station j a := by
  by_cases e : k = j
  · subst e; simp [clearRecord]
  · simp [clearRecord, e]

/-- The end of a segment's transmission concerns that segment alone. -/
theorem recordEnded_seg_of_ne {k j : Segment} (e : k ≠ j) : (recordEnded k s).seg j = s.seg j := by
  unfold recordEnded
  split
  · simp [slotSent]
  · unfold probeSent
    split <;> simp [e]
  · rfl
  · rfl

theorem endSegment_cases (k : Segment) : endSegment k s = s ∨
    (s.seg k).record ≠ .none ∧
      endSegment k s = dispatchIfIdle k (clearRecord k (recordEnded k (countTransmitted k.port s))) := by
  unfold endSegment
  split
  · exact .inl rfl
  · next hn => exact .inr ⟨hn, rfl⟩

/-! ### Dispatchers that rest (R78) -/

theorem OthersRest.recordEnded {k : Segment} (h : OthersRest k s) :
    OthersRest k (clearRecord k (recordEnded k s)) := by
  refine OthersRest.setSeg (fun j hj => ?_) _
  have hseg : (Machine.recordEnded k s).seg j = s.seg j := recordEnded_seg_of_ne (Ne.symm hj)
  have hf := fixed_recordEnded (s := s) k
  refine (h j hj).of hf.resetHeld hf.s1Present ?_ ?_ ?_ fun a => ?_
  · rw [hseg]; exact id
  · rw [hseg]; exact id
  · rw [hseg]; exact id
  · rw [recordEnded_station]; exact fun x y => ⟨x, y⟩

theorem allRest_rules : SegmentRules AllRest where
  congr h := h.congr
  place h k a x l := h.set fun hs hd => ⟨hs, hd⟩
  queue h := h.queue
  alive h := h.alive
  success h := h.success
  drain h := h.drain
  mgmt h := h.mgmt
  probed {s} h k a d _ := by
    have hidle := (h.but k).setSeg { s.seg k with probe := .idle }
    unfold completeProbe
    dsimp only
    split
    · exact (hidle.alive a).dispatch
    · exact hidle.dispatch
  pinReset addr s1En pending := AllRest.initial fun k => by
    cases k <;> exact ⟨rfl, fun a => by
      simp [State.station, State.seg, State.pinReset, SegState.initial, Station.initial]⟩
  restart s := AllRest.initial fun k => by
    cases k <;> simp [restartEffect, State.station, State.seg, restartSegment, SegState.initial, Station.initial]

theorem AllRest.ends (h : AllRest s) : SegmentEnds AllRest s where
  fail _ _ _ _ _ hu := hu.failure _ _
  endSegment k := by
    rcases endSegment_cases k with e | ⟨-, e⟩ <;> rw [e]
    · exact h
    · have hcounted : AllRest (countTransmitted k.port s) := allRest_rules.setCounters h _
      exact (hcounted.but k).recordEnded.dispatch
  expireProbeDue k a := by
    unfold expireProbeDue
    split
    · exact ((h.but k).setSeg _).dispatch
    · exact h
  expireProbeDeadline k := by
    unfold expireProbeDeadline
    split
    · split
      · have hidle := (h.but k).setSeg { s.seg k with probe := .idle }
        unfold restartProbeDue
        split
        · exact (hidle.setSeg _).dispatch
        · exact hidle.dispatch
      · exact h
    · exact h
    · exact h

/-! ### Sound probe records (R77, R110) -/

/-- A segment whose record is no PROBE may have its probe record IDLE, whatever it was. -/
theorem ProbeSound.setIdle {j k : Segment} (h : ProbeSound s j)
    (hk : k = j → s.resetHeld = false → ∀ u, (s.seg k).record ≠ .probe u) :
    ProbeSound (s.setSeg k { s.seg k with probe := .idle }) j := by
  by_cases e : k = j
  · subst e
    intro hr
    have hno := hk rfl (by simpa using hr)
    simp only [State.seg_setSeg, if_true]
    exact ⟨⟨fun ⟨u, hu⟩ => absurd hu (hno u), nofun⟩, nofun⟩
  · exact h.of (by simp) (by simp [e]) (by simp [e])

theorem ProbeSound.record_of_awaiting {k : Segment} (h : ProbeSound s k) {a : StationAddr} {d : Timer}
    (hp : (s.seg k).probe = .awaiting a d) (hr : s.resetHeld = false) (u : Telegram) :
    (s.seg k).record ≠ .probe u := by
  intro hu
  obtain ⟨b, hb⟩ := (h hr).1.mp ⟨u, hu⟩
  rw [hp] at hb
  cases hb

theorem ProbeSound.recordEnded {j k : Segment} (h : ProbeSound s j) (hn : (s.seg k).record ≠ .none) :
    ProbeSound (clearRecord k (recordEnded k s)) j := by
  by_cases e : k = j
  · subst e
    intro hr
    have hr' : s.resetHeld = false := by
      rw [← (fixed_recordEnded (s := s) k).resetHeld]
      simpa [clearRecord] using hr
    obtain ⟨hiff, hawait⟩ := h hr'
    simp only [clearRecord, State.seg_setSeg, if_true, reduceCtorEq, exists_false, false_iff, not_exists]
    cases hrec : (s.seg k).record with
    | none => exact absurd hrec hn
    | slot i u =>
      rw [hrec] at hiff
      have hno : ∀ a, (s.seg k).probe ≠ .sending a := fun a ha => by
        obtain ⟨u, hu⟩ := hiff.mpr ⟨a, ha⟩
        cases hu
      simpa [Machine.recordEnded, hrec, slotSent] using ⟨hno, hawait⟩
    | probe u =>
      rw [hrec] at hiff
      obtain ⟨a, ha⟩ := hiff.mp ⟨u, rfl⟩
      simp [Machine.recordEnded, hrec, probeSent, ha, startTimer, Timer.isRunning]
    | void u =>
      rw [hrec] at hiff
      have hno : ∀ a, (s.seg k).probe ≠ .sending a := fun a ha => by
        obtain ⟨u, hu⟩ := hiff.mpr ⟨a, ha⟩
        cases hu
      simpa [Machine.recordEnded, hrec] using ⟨hno, hawait⟩
  · refine h.of ?_ ?_ ?_
    · simp [clearRecord, (fixed_recordEnded (s := s) k).resetHeld]
    · simp [clearRecord, e, recordEnded_seg_of_ne e]
    · simp [clearRecord, e, recordEnded_seg_of_ne e]

theorem probeSound_rules (j : Segment) : SegmentRules (fun s => ProbeSound s j) where
  congr h hr _ h0 h1 := h.congr hr h0 h1
  place h k a x l := h.set _ _ _
  queue h := h.queue
  alive h := h.alive
  success h := h.success
  drain h := h.drain
  mgmt h := h.mgmt
  probed {s} h k a d hp := by
    have hidle := h.setIdle (k := k) fun e hr => by subst e; exact h.record_of_awaiting hp hr
    unfold completeProbe
    dsimp only
    split
    · exact (hidle.alive k a).dispatch k
    · exact hidle.dispatch k
  pinReset addr s1En pending := ProbeSound.idle (by cases j <;> exact nofun) (by cases j <;> rfl)
  restart s := ProbeSound.idle (by
      intro u
      cases j <;> simp only [restartEffect, raiseNotice_seg] <;> simp only [State.seg, restartSegment] <;>
        unfold voidRecord <;> split <;> simp)
    (by cases j <;> simp only [restartEffect, raiseNotice_seg] <;> rfl)

theorem ProbeSound.ends {j : Segment} (h : ProbeSound s j) : SegmentEnds (fun t => ProbeSound t j) s where
  fail _ _ _ _ _ hu := hu.failure _ _
  endSegment k := by
    rcases endSegment_cases k with e | ⟨hn, e⟩ <;> rw [e]
    · exact h
    · have hcounted : ProbeSound (countTransmitted k.port s) j := (probeSound_rules j).setCounters h _
      exact (hcounted.recordEnded (by simpa using hn)).dispatch k
  expireProbeDue k a := by
    unfold expireProbeDue
    split
    · exact (h.set _ _ _).dispatch k
    · exact h
  expireProbeDeadline k := by
    unfold expireProbeDeadline
    split
    · next a d hp =>
      split
      · have hidle := h.setIdle (k := k) fun e hr => by subst e; exact h.record_of_awaiting hp hr
        unfold restartProbeDue
        split
        · exact (hidle.set _ _ _).dispatch k
        · exact hidle.dispatch k
      · exact h
    · exact h
    · exact h

/-! ### Sound station records (R102, R109) -/

theorem setProbe_station (k j : Segment) (a : StationAddr) (p : ProbeRecord) :
    (s.setSeg k { s.seg k with probe := p }).station j a = s.station j a := by
  by_cases e : k = j
  · subst e; simp
  · simp [e]

theorem StationsSound.setProbe (h : StationsSound s) (k : Segment) (p : ProbeRecord) :
    StationsSound (s.setSeg k { s.seg k with probe := p }) := h.congr fun j a => setProbe_station k j a p

theorem stationsSound_rules : SegmentRules StationsSound where
  congr h _ _ h0 h1 := h.congr fun k a => by rw [State.station, State.station, seg_congr h0 h1]
  place h k a x l := h.set ((h k a).same x l)
  queue h := h.queue
  alive h := h.alive
  success h := h.success
  drain h := h.drain
  mgmt h := h.mgmt
  probed {s} h k a d _ := by
    have hidle := h.setProbe k .idle
    unfold completeProbe
    dsimp only
    split
    · exact (hidle.alive k a).dispatch k
    · exact hidle.dispatch k
  pinReset addr s1En pending := StationsSound.initial fun k a => by
    cases k <;> simp [State.station, State.seg, State.pinReset, SegState.initial]
  restart s := StationsSound.initial fun k a => by
    cases k <;> simp [restartEffect, State.station, State.seg, restartSegment, SegState.initial]

theorem StationsSound.ends (h : StationsSound s) (hp : SlotPlaces s) (ha : s.agent.silentThreshold ≤ 15) :
    SegmentEnds StationsSound s where
  fail i hs u hst hag hu := hu.failure _ _ (by rw [hst]; exact hp.sent_not_silent hs) (by rw [hag]; exact ha)
  endSegment k := by
    rcases endSegment_cases k with e | ⟨-, e⟩ <;> rw [e]
    · exact h
    · refine StationsSound.dispatch (h.congr fun j a => ?_) k
      rw [clearRecord_station, recordEnded_station]
      simp
  expireProbeDue k a := by
    unfold expireProbeDue
    split
    · next ht =>
      have hsil := (h k a).timer ht
      refine StationsSound.dispatch (h.set ?_) k
      have := h k a
      exact ⟨this.unknown, this.online, this.suspect, this.silent, fun _ => hsil, fun _ => hsil⟩
    · exact h
  expireProbeDeadline k := by
    unfold expireProbeDeadline
    split
    · next a d _ =>
      split
      · have hidle : StationsSound (s.setSeg k { s.seg k with probe := .idle }) := h.congr fun j b => by
          by_cases e : k = j
          · subst e; simp
          · simp [e]
        unfold restartProbeDue
        split
        · next hsil =>
          have := hidle k a
          refine StationsSound.dispatch (hidle.set ?_) k
          exact ⟨this.unknown, this.online, this.suspect, this.silent, fun _ => hsil, this.due⟩
        · exact hidle.dispatch k
      · exact h
    · exact h
    · exact h

theorem holdReset_station (k : Segment) (a : StationAddr) :
    (holdReset s).station k a = { s.station k a with dueTimer := .stopped } := by
  cases k <;> simp [holdReset, haltSegment, State.station, State.seg]

theorem StationsSound.holdReset (h : StationsSound s) : StationsSound (holdReset s) := by
  intro k a
  rw [holdReset_station]
  have := h k a
  exact ⟨this.unknown, this.online, this.suspect, this.silent, nofun, this.due⟩

end Sys2Proof.Safety

/-! What every step keeps (R22 to R33, R73 to R78, R102 to R110, R126, R148, R160, R168 to R173): each invariant through
every command. -/

namespace Sys2Proof.Safety

open Sys2Proof.Machine

variable {s : State}

/-! ### Transmitters (R78, R110, R140) -/

theorem UpstreamRests.keptBy (hq : QueueBounds s) (h : UpstreamRests s) : KeptBy UpstreamRests s where
  hold := .of_held rfl
  release _ _ := UpstreamRests.arbiterIfIdle (QueueBounds.raiseNotice (QueueBounds.initial rfl) _)
  malformed _ := h.congr rfl rfl
  checkError _ := h.congr rfl rfl
  request _ _ _ _ _ := .arbiterIfIdle ((hq.countReceived _).takeRequest _ _ _ _)
  mgmt _ _ _ := .arbiterIfIdle ((hq.countReceived _).takeMgmtByCode _ _)
  reply _ _ _ _ _ _ _ _ := .arbiterIfIdle ((hq.countReceived _).takeReply _ _ _ _ _ _)
  change _ _ _ _ _ _ := .arbiterIfIdle ((hq.countReceived _).takeChange _ _ _ _)
  endSegment _ k := h.congr (fixed_endSegment k).resetHeld (endSegment_up k)
  endUpstream _ := h.endUpstream hq
  expireSlot _ := h.expireSlot hq
  expireProbeDue _ k a := h.congr (fixed_expireProbeDue k a).resetHeld (expireProbeDue_up k a)
  expireProbeDeadline _ k := h.congr (fixed_expireProbeDeadline k).resetHeld (expireProbeDeadline_up k)
  expireRefresh _ _ _ := h.congr rfl rfl
  expireDrain _ := h.expireDrain hq

/-- Settles O53: the arbiter and the dispatchers choose in every taking that gives them work. -/
theorem stepKeepsTransmittersBusyWhileWorkWaits : Obligations.StepKeepsTransmittersBusyWhileWorkWaits := by
  refine ⟨fun s t hq h hstep => ?_, fun s t hstep => ⟨fun h => ?_, fun k h => ?_⟩⟩
  · have hqueue : ∀ rest, UpstreamRests { s with pending := rest } := fun _ => h.congr rfl rfl
    have hbounds : ∀ rest, QueueBounds { s with pending := rest } := fun _ => hq.congr rfl
    exact step_keeps hqueue (fun rest => UpstreamRests.keptBy (hbounds rest) (hqueue rest)) h hstep
  · rw [dispatchersRest_iff] at h ⊢
    have hqueue : ∀ rest, AllRest { s with pending := rest } := fun _ => h.congr rfl rfl rfl rfl
    exact step_keeps hqueue (fun rest => allRest_rules.keptBy (hqueue rest) (fun _ hr => by cases hr)
      fun _ => (hqueue rest).ends) h hstep
  · have hqueue : ∀ rest, ProbeSound { s with pending := rest } k := fun _ => h.congr rfl rfl rfl
    exact step_keeps hqueue (fun rest => (probeSound_rules k).keptBy (hqueue rest) (fun hr => by cases hr)
      fun _ => (hqueue rest).ends) h hstep

/-! ### Slots and stations (R73 to R77, R102) -/

theorem SlotPlaces.keptBy (h : s.resetHeld = false → SlotPlaces s) :
    KeptBy (fun t => t.resetHeld = false → SlotPlaces t) s := by
  have hp : s.resetHeld = false → PlacesBut s none [] := fun hr => (placesBut_iff s).mpr (h hr)
  constructor
  case hold => exact nofun
  case release =>
    exact fun addr s1En _ => (placesBut_iff _).mp
      ((PlacesBut.pinReset addr s1En s.pending).raiseNotice _).arbiterIfIdle
  case malformed => exact fun p hr => (h hr).setCounters _
  case checkError => exact fun p hr => (h hr).setCounters _
  case request =>
    exact fun hr dst src tag rest _ => (placesBut_iff _).mp (((hp hr).setCounters _).takeRequest _ _ _ _).arbiterIfIdle
  case mgmt => exact fun hr hd args _ => (placesBut_iff _).mp (((hp hr).setCounters _).takeMgmtByCode _ _).arbiterIfIdle
  case reply =>
    exact fun hr k src tag st n vs _ _ =>
      (placesBut_iff _).mp (((hp hr).setCounters _).takeReply _ _ _ _ _).arbiterIfIdle
  case change =>
    exact fun hr k src y v _ _ => (placesBut_iff _).mp (((hp hr).setCounters _).takeChange _ _ _).arbiterIfIdle
  case endSegment => exact fun hr k _ => (placesBut_iff _).mp (hp hr).endSegment
  case endUpstream => exact fun hr _ => (placesBut_iff _).mp (hp hr).endUpstream
  case expireSlot => exact fun hr i _ => (placesBut_iff _).mp (hp hr).expireSlot
  case expireProbeDue => exact fun hr k a _ => (placesBut_iff _).mp (hp hr).expireProbeDue
  case expireProbeDeadline => exact fun hr k _ => (placesBut_iff _).mp (hp hr).expireProbeDeadline
  case expireRefresh => exact fun hr st ix _ => (placesBut_iff _).mp ((hp hr).congr rfl rfl rfl rfl rfl)
  case expireDrain => exact fun hr _ => (placesBut_iff _).mp (hp hr).expireDrain

theorem SlotPlaces.setPending (h : SlotPlaces s) (rest : List Instr) : SlotPlaces { s with pending := rest } :=
  (placesBut_iff _).mp (((placesBut_iff s).mpr h).congr rfl rfl rfl rfl rfl)

/-- Settles O54: every taking leaves each slot in the collection of its state. -/
theorem stepKeepsSlotsInTheirPlaces : Obligations.StepKeepsSlotsInTheirPlaces := by
  intro s t h hstep
  have hqueue : ∀ rest, s.resetHeld = false → SlotPlaces { s with pending := rest } := fun rest hr =>
    (h hr).setPending rest
  exact step_keeps (P := fun t => t.resetHeld = false → SlotPlaces t) hqueue
    (fun rest => SlotPlaces.keptBy (hqueue rest)) h hstep

theorem slotSound_cleared (cur next : TxNumber) : SlotSound (Slot.cleared cur next) := by
  constructor <;> simp [Slot.cleared, Timer.isRunning]

/-- Settles O55: the moves of a slot and what an admission stores keep its fields sound; evidence keeps a station's. -/
theorem stepKeepsSlotsAndStationsSound : Obligations.StepKeepsSlotsAndStationsSound := by
  refine ⟨fun s t hp ha hb h hstep => ?_, fun s t hp ha h hstep => ?_⟩
  · refine step_keeps (P := fun t => t.resetHeld = false → AllSlots (fun _ x => SlotSound x) t) (fun _ => h)
      (fun rest => ?_) h hstep
    exact AllSlots.kept soundRules (fun _ => slotSound_cleared) h (fun hr => (hp hr).setPending rest)
      fun _ => sound_admits (hb.congr ⟨rfl, rfl⟩) (ha.congr rfl rfl)
  · have hqueue : ∀ rest, StationsSound { s with pending := rest } := fun _ => h
    exact step_keeps hqueue (fun rest => stationsSound_rules.keptBy (hqueue rest) (hqueue rest).holdReset
      fun hr => (hqueue rest).ends ((hp hr).setPending rest) ha.silentThreshold.2) h hstep

/-! ### Drains (R168 to R173) -/

theorem takeAlive_parked (k : Segment) (a : StationAddr) : (takeAlive k a s).parked = s.parked := by
  unfold takeAlive
  dsimp only
  split <;> simp

theorem takeFailure_parked (k : Segment) (a : StationAddr) : (takeFailure k a s).parked = s.parked := by
  unfold takeFailure silenceStation
  dsimp only
  split <;> simp

theorem completeSuccess_parked (k : Segment) (a : StationAddr) : (completeSuccess k a s).parked = s.parked := by
  rw [completeSuccess, releaseHeld_parked, clearActive_parked, takeAlive_parked]

theorem completeFailure_parked (k : Segment) (a : StationAddr) : (completeFailure k a s).parked = s.parked := by
  rw [completeFailure, releaseHeld_parked, takeFailure_parked, clearActive_parked]

theorem completeProbe_parked (k : Segment) (a : StationAddr) : (completeProbe k a s).parked = s.parked := by
  unfold completeProbe
  dsimp only
  split <;> simp [takeAlive_parked]

theorem bystander_completeProbe (k : Segment) (a : StationAddr) : Bystander s (completeProbe k a s) := by
  have hidle : Bystander s (s.setSeg k { s.seg k with probe := .idle }) :=
    ⟨by constructor <;> simp, by simp, by simp, by simp, by simp⟩
  unfold completeProbe
  dsimp only
  split
  · exact (hidle.trans (bystander_takeAlive k a)).trans (bystander_dispatchIfIdle k)
  · exact hidle.trans (bystander_dispatchIfIdle k)

theorem signOfLife_parked (k : Segment) (src : Byte) : (signOfLife k src s).parked = s.parked := by
  unfold signOfLife
  split
  · exact takeAlive_parked k _
  · rfl

theorem offerChange_parked (x : Telegram) (c : List CacheEntry) : (offerChange x c s).parked = s.parked := by
  unfold offerChange
  split <;> simp

theorem takeChange_parked (k : Segment) (src : Byte) (y v : Word) : (takeChange k src y v s).parked = s.parked := by
  unfold takeChange
  rw [← signOfLife_parked (s := s) k src]
  generalize signOfLife k src s = u
  unfold mapChange
  split
  · unfold editChange
    split
    · unfold applyPolicy
      split
      · rfl
      · exact offerChange_parked _ _
      · unfold decideDeadband
        dsimp only
        split
        · exact offerChange_parked _ _
        · split
          · rfl
          · exact offerChange_parked _ _
    · rfl
  · rfl

theorem DrainSound.takeChange (h : DrainSound s) (k : Segment) (src : Byte) (y v : Word) :
    DrainSound (takeChange k src y v s) := by
  have hst := change_store k src y v (s := s)
  exact h.move hst.2 hst.1 (fun _ => takeChange_parked k src y v) fun _ _ a => a.takeChange src y v

/-- With every slot FREE and the controller at its initial values no rule of a drain says anything. -/
theorem DrainSound.of_free (hc : s.commit = CommitControl.initial) (hp : s.parked = [])
    (hs : ∀ i, (s.slot i).state = .free) : DrainSound s :=
  DrainSound.ofIdle hc hp (fun i hi => by simp [hs i, isActive] at hi) fun i => by simp [hs i]

theorem restartEffect_slot (i : SlotIx) :
    (restartEffect s).slot i = Slot.cleared (s.slot i).cur (s.slot i).next := by
  rw [restartEffect, raiseNotice_slot, State.slot_of_map (s := s) (f := restartSlot) rfl]
  rfl

theorem DrainSound.restartEffect (s : State) : DrainSound (restartEffect s) :=
  DrainSound.of_free (by simp [Machine.restartEffect]) (by simp [Machine.restartEffect])
    fun i => by rw [restartEffect_slot]; rfl

theorem DrainSound.releaseReset (addr : BitVec 4) (s1En : Bool) : DrainSound (releaseReset addr s1En s) := by
  have hreset : DrainSound (State.pinReset addr s1En s.pending) :=
    DrainSound.of_free rfl rfl fun i => by rw [State.slot_of_replicate (x := Slot.cleared 0 0) rfl]; rfl
  have hraised := fun e => hreset.congr (t := raiseNotice e _) (raiseNotice_commit _ _) (raiseNotice_store _ _)
    (raiseNotice_parked _ _) (raiseNotice_slots _ _)
  exact (hraised _).arbiter ((PlacesBut.pinReset addr s1En s.pending).raiseNotice _)

section Drains

variable (h : DrainSound s) (p : PlacesBut s none [])
include h p

theorem DrainSound.takeReply (k : Segment) (src tag status count : Byte) (vs : List Word) :
    DrainSound (takeReply k src tag status count vs s) := by
  unfold Machine.takeReply
  split
  · split
    · next hm =>
      obtain ⟨hs, rfl, -, -⟩ := slotMatches_iff.mp hm
      have hb := bystander_answerSlot (s := s)
        (judgeReply s.store.activeBank (s.slot (tagIndex tag)) status count vs) (tagIndex tag)
      have hb := hb.trans (bystander_completeSuccess (s.slot (tagIndex tag)).seg (s.slot (tagIndex tag)).station)
      refine DrainPre.finish (h.pre.then hb.commit hb.store (fun _ => ?_) ?_) ?_
      · rw [completeSuccess_parked, answerSlot_parked]
      · exact h.pre.slots.matched (onTheWay_rules _) p hs _
      · exact ((p.fromSent (by simp) hs).answerSlot _).completeSuccess
    · exact h.congr rfl rfl rfl rfl
  · split
    · have hb := bystander_completeProbe (s := s) k
      exact h.move (hb _).commit (hb _).store (fun _ => completeProbe_parked k _) fun _ r a => a.probed r p
    · exact h.congr rfl rfl rfl rfl

theorem DrainSound.expireSlot (i : SlotIx) : DrainSound (expireSlot i s) := by
  unfold Machine.expireSlot
  dsimp only
  split
  · next hs =>
    split
    · exact h.move (by simp [Machine.retrySlot]) (by simp [Machine.retrySlot]) (fun _ => by simp [Machine.retrySlot])
        fun _ r a => a.retrySlot r p hs.1
    · have hb : Bystander s (completeFailure (s.slot i).seg (s.slot i).station
          (answerSlot ⟨.timeout, []⟩ (countFinalTimeout (s.slot i).seg s) i)) :=
        ((bystander_setCounters _).trans (bystander_answerSlot _ _)).trans (bystander_completeFailure _ _)
      have hpf := (((p.fromSent (by simp) hs.1).setCounters (countFinalTimeout (s.slot i).seg s).counters).answerSlot
        ⟨.timeout, []⟩).completeFailure
      refine DrainSound.arbiter (DrainPre.finish (h.pre.then hb.commit hb.store (fun _ => ?_) ?_) hpf) hpf.drainIfDone
      · rw [completeFailure_parked, answerSlot_parked]
        rfl
      · exact h.pre.slots.failed (onTheWay_rules _) p hs.1
  · exact h

theorem DrainSound.expireDrain : DrainSound (expireDrain s) := by
  unfold Machine.expireDrain
  split
  · exact (h.pre.fail p _).arbiter (p.failDrain _)
  · exact h

theorem DrainSound.endUpstream : DrainSound (endUpstream s) := by
  have hsent : ∀ u : State, DrainSound u → PlacesBut u none [] →
      DrainSound (arbiterChoice (u.setUp { u.up with sending := none })) := fun u hu pu =>
    hu.move (by simp) (by simp) (by simp) fun _ r a =>
      AllSlots.arbiterChoice r (a.congr rfl) (pu.congr rfl rfl rfl rfl rfl)
  unfold Machine.endUpstream
  split
  · exact h
  · dsimp only
    split
    · exact hsent _ (DrainSound.restartEffect _) PlacesBut.restartEffect
    · exact hsent _ (h.congr rfl rfl rfl rfl) (p.setCounters _)

end Drains

theorem endSegment_parked (k : Segment) : (endSegment k s).parked = s.parked := by
  rcases endSegment_cases (s := s) k with e | ⟨-, e⟩ <;> rw [e]
  rw [dispatchIfIdle_parked, clearRecord, State.setSeg_parked]
  unfold recordEnded
  split
  · rfl
  · unfold probeSent
    split <;> simp
  · rfl
  · rfl

theorem restartProbeDue_parked (k : Segment) (a : StationAddr) : (restartProbeDue k a s).parked = s.parked := by
  unfold restartProbeDue
  split <;> simp

theorem expireProbeDue_parked (k : Segment) (a : StationAddr) : (expireProbeDue k a s).parked = s.parked := by
  unfold expireProbeDue
  split <;> simp

theorem expireProbeDeadline_parked (k : Segment) : (expireProbeDeadline k s).parked = s.parked := by
  unfold expireProbeDeadline
  split
  · split
    · rw [dispatchIfIdle_parked, restartProbeDue_parked, State.setSeg_parked]
    · rfl
  · rfl
  · rfl

theorem bystander_expireProbeDue (k : Segment) (a : StationAddr) : Bystander s (expireProbeDue k a s) := by
  unfold expireProbeDue
  split
  · exact ⟨by constructor <;> simp, by simp, by simp, by simp, by simp⟩
  · exact Bystander.refl s

theorem bystander_expireProbeDeadline (k : Segment) : Bystander s (expireProbeDeadline k s) := by
  unfold expireProbeDeadline
  split
  · split
    · refine Bystander.trans ?_ (bystander_dispatchIfIdle k)
      unfold restartProbeDue
      split <;> exact ⟨by constructor <;> simp, by simp, by simp, by simp, by simp⟩
    · exact Bystander.refl s
  · exact Bystander.refl s
  · exact Bystander.refl s

theorem DrainSound.keptBy (hs : s.resetHeld = false → SlotPlaces s ∧ DrainSound s) :
    KeptBy (fun t => t.resetHeld = false → DrainSound t) s := by
  have hp : s.resetHeld = false → PlacesBut s none [] := fun hr => (placesBut_iff s).mpr (hs hr).1
  have h : s.resetHeld = false → DrainSound s := fun hr => (hs hr).2
  have hcounted : ∀ c, s.resetHeld = false → DrainSound (s.setCounters c) := fun c hr => (h hr).congr rfl rfl rfl rfl
  constructor
  case hold => exact nofun
  case release => exact fun addr s1En _ => DrainSound.releaseReset addr s1En
  case malformed => exact fun p hr => hcounted _ hr
  case checkError => exact fun p hr => hcounted _ hr
  case request =>
    exact fun hr dst src tag rest _ => ((hcounted _ hr).request ((hp hr).setCounters _) dst src tag rest).arbiter
      (((hp hr).setCounters _).takeRequest _ _ _ _)
  case mgmt =>
    exact fun hr hd args _ => ((hcounted _ hr).mgmt ((hp hr).setCounters _) hd args).arbiter
      (((hp hr).setCounters _).takeMgmtByCode _ _)
  case reply =>
    exact fun hr k src tag st n vs _ _ => ((hcounted _ hr).takeReply ((hp hr).setCounters _) k src tag st n vs).arbiter
      (((hp hr).setCounters _).takeReply _ _ _ _ _)
  case change =>
    exact fun hr k src y v _ _ => ((hcounted _ hr).takeChange k src y v).arbiter
      (((hp hr).setCounters _).takeChange _ _ _)
  case endSegment =>
    have hb := bystander_endSegment (s := s)
    exact fun hr k _ => (h hr).move (hb k).commit (hb k).store (fun _ => endSegment_parked k)
      fun _ r a => a.endSegment r (hp hr)
  case endUpstream => exact fun hr _ => (h hr).endUpstream (hp hr)
  case expireSlot => exact fun hr i _ => (h hr).expireSlot (hp hr) i
  case expireProbeDue =>
    have hb := bystander_expireProbeDue (s := s)
    exact fun hr k a _ => (h hr).move (hb k a).commit (hb k a).store (fun _ => expireProbeDue_parked k a)
      fun _ r al => al.expireProbeDue r (hp hr)
  case expireProbeDeadline =>
    have hb := bystander_expireProbeDeadline (s := s)
    exact fun hr k _ => (h hr).move (hb k).commit (hb k).store (fun _ => expireProbeDeadline_parked k)
      fun _ r al => al.expireProbeDeadline r (hp hr)
  case expireRefresh => exact fun hr st ix _ => (h hr).congr rfl rfl rfl rfl
  case expireDrain => exact fun hr _ => (h hr).expireDrain (hp hr)

/-- Settles O56: a taking moves the slots of the current generation, or ends the drain. -/
theorem stepKeepsDrainsSound : Obligations.StepKeepsDrainsSound := by
  intro s t h hstep
  have hqueue : ∀ rest, s.resetHeld = false → DrainSound { s with pending := rest } := fun rest hr =>
    (h hr).2.congr rfl rfl rfl rfl
  exact step_keeps (P := fun t => t.resetHeld = false → DrainSound t) hqueue
    (fun rest => DrainSound.keptBy fun hr => ⟨(h hr).1.setPending rest, hqueue rest hr⟩) (fun hr => (h hr).2) hstep

end Sys2Proof.Safety

/-! What every step keeps of the banks, the Report Cache, the agent's record and an absent segment 1 (R7, R22 to R33,
R70, R102, R126, R148, R160). -/

namespace Sys2Proof.Safety

open Sys2Proof.Machine

variable {s t : State} {P : State → Prop}

/-! ### The end of a transmission on port U: a restart, and what leaves the traffic state alone -/

theorem bystander_setUp (u : Upstream) : Bystander s (s.setUp u) := ⟨by constructor <;> rfl, rfl, rfl, rfl, rfl⟩

theorem bystander_arbiterChoice : Bystander s (arbiterChoice s) :=
  ⟨by constructor <;> simp, by simp, by simp, by simp, by simp⟩

/-- Past the restart it may have brought, the end of a transmission touches port U and its counter alone. -/
theorem bystander_endUpstream :
    Bystander s (endUpstream s) ∨ Bystander (restartEffect (countTransmitted .u s)) (endUpstream s) := by
  have hsent : ∀ u : State, Bystander u (arbiterChoice (u.setUp { u.up with sending := none })) := fun u =>
    (bystander_setUp _).trans bystander_arbiterChoice
  unfold endUpstream
  split
  · exact .inl (Bystander.refl s)
  · dsimp only
    split
    · exact .inr (hsent _)
    · exact .inl ((bystander_setCounters _).trans (hsent _))

/-- A property that settled takings keep needs, of the others, only its own argument. -/
theorem keptBy_of_settled (hs : ∀ {u v}, P u → Settled u v → P v) (h : P s) (hold : P (holdReset s))
    (release : ∀ addr s1En, P (releaseReset addr s1En s))
    (mgmt : ∀ {u}, P u → ∀ hd args, P (takeMgmtByCode hd args u))
    (change : ∀ c k src y v, P (takeChange k src y v (s.setCounters c)))
    (restart : ∀ {u}, P u → P (restartEffect u))
    (refresh : ∀ station index, P (expireRefresh station index s)) : KeptBy P s where
  hold := hold
  release := release
  malformed _ := hs h (bystander_setCounters _).settled
  checkError _ := hs h (bystander_setCounters _).settled
  request _ _ _ _ _ := hs h (((bystander_setCounters _).trans (bystander_takeRequest _ _ _ _)).trans
    bystander_arbiterIfIdle).settled
  mgmt _ _ _ := hs (mgmt (hs h (bystander_setCounters _).settled) _ _) bystander_arbiterIfIdle.settled
  reply _ _ _ _ _ _ _ _ := hs h
    (((bystander_setCounters _).then (settled_takeReply _ _ _ _ _ _)).then bystander_arbiterIfIdle)
  change _ _ _ _ _ _ := hs (change _ _ _ _ _) bystander_arbiterIfIdle.settled
  endSegment _ k := hs h (bystander_endSegment k).settled
  endUpstream _ := bystander_endUpstream.elim (fun b => hs h b.settled) fun b =>
    hs (restart (hs h (bystander_setCounters _).settled)) b.settled
  expireSlot _ i := hs h (settled_expireSlot i)
  expireProbeDue _ k a := hs h (settled_expireProbeDue k a)
  expireProbeDeadline _ k := hs h (settled_expireProbeDeadline k)
  expireRefresh _ := refresh
  expireDrain _ := hs h settled_expireDrain

/-! ### The release of RESET_N, field by field -/

/-- The arbiter chooses STARTED, the only telegram there is. -/
theorem releaseReset_eq (addr : BitVec 4) (s1En : Bool) : releaseReset addr s1En s =
    { State.pinReset addr s1En s.pending with
      up := { Upstream.initial with
        nextNotice := 1
        control := 1
        sending := some (.notice ⟨0, 240 + addr.setWidth 8, 0, 0, .started .pin 0 (240 + addr.setWidth 8) s1En⟩) } } :=
  rfl

theorem settled_releaseReset (addr : BitVec 4) (s1En : Bool) :
    Settled (State.pinReset addr s1En s.pending) (releaseReset addr s1En s) :=
  have hraised : ∀ e, Bystander (State.pinReset addr s1En s.pending)
      (raiseNotice e (State.pinReset addr s1En s.pending)) := fun e =>
    ⟨by constructor <;> simp, by simp, by simp, by simp, by simp⟩
  ((hraised _).trans bystander_arbiterIfIdle).settled

theorem AgentSound.releaseReset (addr : BitVec 4) (s1En : Bool) : AgentSound (releaseReset addr s1En s) :=
  (AgentSound.initial rfl).settled (settled_releaseReset addr s1En)

theorem BanksInRange.releaseReset (addr : BitVec 4) (s1En : Bool) : BanksInRange (releaseReset addr s1En s) :=
  BanksInRange.settled ⟨emptyBank_inRange, emptyBank_inRange⟩ (settled_releaseReset addr s1En)

theorem ActiveBankValid.releaseReset (addr : BitVec 4) (s1En : Bool) : ActiveBankValid (releaseReset addr s1En s) :=
  ActiveBankValid.settled (s := State.pinReset addr s1En s.pending) ⟨emptyBank_valid s1En, fun h => by cases h⟩
    (settled_releaseReset addr s1En)

theorem CacheSound.releaseReset (addr : BitVec 4) (s1En : Bool) : CacheSound (releaseReset addr s1En s) :=
  (CacheSound.nil rfl).settled (settled_releaseReset addr s1En)

/-! ### The banks (R22 to R33) -/

theorem restartEffect_store : (restartEffect s).store = s.store := by simp [restartEffect]

theorem BanksInRange.keptBy (h : BanksInRange s) : KeptBy BanksInRange s :=
  have hstore : ∀ {t : State}, t.store = s.store → BanksInRange t := fun e => h.congr (by rw [e]; exact ⟨rfl, rfl⟩)
  keptBy_of_settled (fun h g => h.settled g) h (hstore rfl) BanksInRange.releaseReset
    (fun h => h.mgmt) (fun _ k src y v => hstore (change_store k src y v).1)
    (fun h => h.congr (by rw [restartEffect_store]; exact ⟨rfl, rfl⟩)) fun _ _ => hstore rfl

theorem ActiveBankValid.keptBy (h : ActiveBankValid s) : KeptBy ActiveBankValid s := by
  refine keptBy_of_settled (fun h g => h.settled g) h (h.congr rfl rfl rfl) ActiveBankValid.releaseReset
    (fun h => h.mgmt) (fun c k src y v => ?_) (fun {u} h => ?_)
    fun _ _ => h.congr rfl rfl rfl
  · have hc := change_store k src y v (s := s.setCounters c)
    exact h.congr hc.1 (by rw [hc.2]; rfl) (fixed_takeChange k src y v).s1Present
  · refine ⟨?_, fun hd => ?_⟩
    · rw [restartEffect_store, fixed_restartEffect.s1Present]
      exact h.active
    · rw [show (restartEffect u).commit = CommitControl.initial by simp [restartEffect]] at hd
      cases hd

/-- Settles O57: only the agent's commands write a bank, and only a drain's end changes which one is active. -/
theorem stepKeepsTheActiveBankValid : Obligations.StepKeepsTheActiveBankValid := by
  refine fun s t hstep => ⟨fun h => ?_, fun h => ?_⟩
  · have hqueue : ∀ rest, BanksInRange { s with pending := rest } := fun _ => h
    exact step_keeps hqueue (fun rest => (hqueue rest).keptBy) h hstep
  · have hqueue : ∀ rest, ActiveBankValid { s with pending := rest } := fun _ => h.congr rfl rfl rfl
    exact step_keeps hqueue (fun rest => (hqueue rest).keptBy) h hstep

/-! ### The Report Cache (R126) -/

theorem CacheSound.keptBy (hb : BanksInRange s) (h : CacheSound s) : KeptBy CacheSound s := by
  refine keptBy_of_settled (fun h g => h.settled g) h ?_ CacheSound.releaseReset
    (fun h => h.mgmt) (fun c k src y v =>
      CacheSound.change (s := s.setCounters c) (hb.congr ⟨rfl, rfl⟩) (h.congr rfl rfl) k src y v)
    (fun _ => .nil (by simp [restartEffect])) fun station index => ?_
  · exact h.mapKeys haltEntry (fun _ => ⟨rfl, rfl⟩) rfl rfl
  · refine h.mapKeys (expireEntry station index) (fun c => ?_) rfl rfl
    unfold expireEntry
    split <;> exact ⟨rfl, rfl⟩

/-- Settles O58: a swap and a restart empty the cache, a CHANGE inserts the key its lookup found, timers keep keys. -/
theorem stepKeepsTheCacheSound : Obligations.StepKeepsTheCacheSound := by
  intro s t hb h hstep
  have hqueue : ∀ rest, CacheSound { s with pending := rest } := fun _ => h.congr rfl rfl
  exact step_keeps hqueue (fun rest => (hqueue rest).keptBy hb) h hstep

/-! ### The agent's record (R148, R160) -/

theorem AgentSound.restartEffect (h : AgentSound s) : AgentSound (restartEffect s) := by
  have hagent : (Machine.restartEffect s).agent = restartAgent s.agent := by simp [Machine.restartEffect]
  constructor <;> rw [hagent]
  · exact h.replyTimeout
  · exact h.retries
  · exact h.silentThreshold
  · exact h.probeInterval
  · exact h.drainLimit
  · exact nofun

theorem AgentSound.keptBy (h : AgentSound s) : KeptBy AgentSound s :=
  keptBy_of_settled (fun h g => h.settled g) h (h.congr rfl rfl) AgentSound.releaseReset
    (fun h => h.mgmt)
    (fun c k src y v => have hc := settled_change_agent k src y v (s := s.setCounters c); h.congr hc.1 hc.2)
    (fun h => h.restartEffect) fun _ _ => h.congr rfl rfl

/-! ### Segment 1 absent (R7, R70, R102) -/

theorem haltSegment_initial : haltSegment SegState.initial = SegState.initial := by
  simp [haltSegment, SegState.initial, Station.initial, haltProbe]

theorem restartSegment_initial : restartSegment SegState.initial = SegState.initial := rfl

/-- What a segment at its initial values has: no telegram on the wire, no probe out, and no timer. -/
theorem station_initial {k : Segment} (h : s.seg k = SegState.initial) (a : StationAddr) :
    s.station k a = Station.initial := by
  rw [State.station, h]
  simp [SegState.initial]

theorem endSegment_initial {k : Segment} (h : s.seg k = SegState.initial) : endSegment k s = s := by
  unfold endSegment
  rw [h]
  rfl

theorem expireProbeDue_initial {k : Segment} (h : s.seg k = SegState.initial) (a : StationAddr) :
    expireProbeDue k a s = s := by
  unfold expireProbeDue
  rw [station_initial h]
  rfl

theorem expireProbeDeadline_initial {k : Segment} (h : s.seg k = SegState.initial) : expireProbeDeadline k s = s := by
  unfold expireProbeDeadline
  rw [h]
  rfl

theorem segment_of_absent {k : Segment} (h1 : s.s1Present = false) (hk : s.inService k = true) : k = .s0 := by
  cases k
  · rfl
  · exact absurd (h1.symm.trans hk) (by decide)

/-- Past its sign of life a CHANGE touches the Traffic Queue, the Report Cache and the counters alone. -/
theorem mapChange_form (k : Segment) (src : Byte) (y v : Word) (s : State) : ∃ traffic cache counters,
    mapChange k src y v s =
      { s with up := { s.up with traffic := traffic }, cache := cache, counters := counters } := by
  have hoffer : ∀ x l, ∃ traffic cache counters, offerChange x l s =
      { s with up := { s.up with traffic := traffic }, cache := cache, counters := counters } := fun x l => by
    unfold offerChange
    split <;> exact ⟨_, _, _, rfl⟩
  have hcount : ∀ c, ∃ traffic cache counters, s.setCounters c =
      { s with up := { s.up with traffic := traffic }, cache := cache, counters := counters } := fun c =>
    ⟨s.up.traffic, s.cache, c, rfl⟩
  unfold mapChange
  split
  · unfold editChange
    split
    · unfold applyPolicy
      split
      · exact hcount _
      · exact hoffer _ _
      · unfold decideDeadband
        dsimp only
        split
        · exact hoffer _ _
        · split
          · exact ⟨s.up.traffic, _, _, rfl⟩
          · exact hoffer _ _
    · exact hcount _
  · exact hcount _

section Absent

variable (h1 : s.s1Present = false) (hseg : s.seg1 = SegState.initial)
  (hslots : ∀ i, (s.slot i).state ≠ .free → (s.slot i).seg = .s0)

theorem takeAlive_seg1 (a : StationAddr) : (takeAlive .s0 a s).seg1 = s.seg1 := by
  unfold takeAlive
  dsimp only
  split <;> simp

theorem takeChange_seg1 (src : Byte) (y v : Word) : (takeChange .s0 src y v s).seg1 = s.seg1 := by
  have hsign : (signOfLife .s0 src s).seg1 = s.seg1 := by
    unfold signOfLife
    split
    · exact takeAlive_seg1 _
    · rfl
  obtain ⟨traffic, cache, counters, hmap⟩ := mapChange_form .s0 src y v (signOfLife .s0 src s)
  rw [takeChange, hmap, ← hsign]

theorem completeProbe_seg1 (a : StationAddr) : (completeProbe .s0 a s).seg1 = s.seg1 := by
  unfold completeProbe
  dsimp only
  rw [dispatch_seg1]
  split
  · rw [takeAlive_seg1, setSeg_s0_seg1]
  · rfl

theorem endSegment_seg1 : (endSegment .s0 s).seg1 = s.seg1 := by
  rcases endSegment_cases (s := s) .s0 with e | ⟨-, e⟩ <;> rw [e]
  rw [dispatch_seg1, clearRecord, setSeg_s0_seg1]
  exact recordEnded_seg_of_ne (j := .s1) (by decide)

theorem expireProbeDue_seg1 (a : StationAddr) : (expireProbeDue .s0 a s).seg1 = s.seg1 := by
  unfold expireProbeDue
  split
  · rw [dispatch_seg1, setStation_s0_seg1]
  · rfl

theorem expireProbeDeadline_seg1 : (expireProbeDeadline .s0 s).seg1 = s.seg1 := by
  unfold expireProbeDeadline
  split
  · split
    · rw [dispatch_seg1]
      unfold restartProbeDue
      split <;> rfl
    · rfl
  · rfl
  · rfl

theorem expireDrain_seg1 : (expireDrain s).seg1 = s.seg1 := by
  unfold expireDrain
  split
  · simp [failDrain]
  · rfl

include hseg in
theorem endUpstream_seg1 : (endUpstream s).seg1 = SegState.initial := by
  unfold endUpstream
  split
  · exact hseg
  · dsimp only
    split
    · simp [restartEffect, hseg, restartSegment_initial]
    · simpa using hseg

include hslots in
theorem expireSlot_seg1 (p : PlacesBut s none []) (i : SlotIx) : (expireSlot i s).seg1 = s.seg1 := by
  unfold expireSlot
  dsimp only
  split
  · next hs =>
    have hi : (s.slot i).seg = .s0 := hslots i (by rw [hs.1]; decide)
    split
    · unfold retrySlot
      dsimp only
      rw [countRetry_eq, State.setCounters_seg1, queue_seg1 (by simpa using hi), State.setSlot_seg1]
    · rw [arbiterIfIdle_seg1]
      exact fail_seg1 p hs.1 hi hslots
  · rfl

include hslots in
theorem takeReply_seg1 (p : PlacesBut s none []) (src tag status count : Byte) (vs : List Word) :
    (takeReply .s0 src tag status count vs s).seg1 = s.seg1 := by
  unfold takeReply
  split
  · split
    · next hm =>
      obtain ⟨hs, hk, -, -⟩ := slotMatches_iff.mp hm
      exact match_seg1 p hs hk hslots
    · rfl
  · split
    · exact completeProbe_seg1 _
    · rfl

include h1 in
/-- An admission names a segment that is there (R31, R70). -/
theorem takeRequest_seg1 (hv : ActiveBankValid s) (dst src tag : Byte) (rest : List Byte) :
    (takeRequest dst src tag rest s).seg1 = s.seg1 := by
  unfold takeRequest
  split
  · unfold offerRefusal
    split <;> simp
  · next i x e =>
    have had := quiet_admits hv dst src tag rest i x e
    unfold placeAdmitted
    split
    · rfl
    · next hc =>
      have hx : x.seg = .s0 := (had.1 hc).1 h1 (by simp)
      dsimp only
      split
      · rw [queue_seg1 (by simpa using hx), hx]
        rfl
      · rw [hx]
        rfl

end Absent

/-- What a taking that is not a pin's owes: the slots by the moves' rules, segment 1 by itself. -/
theorem SegmentOneQuiet.of_taking (f : Fixed s t) (hr : s.resetHeld = false)
    (hslots : t.resetHeld = false → AllSlots (fun _ x => s.s1Present = false → x.state ≠ .free → x.seg = .s0) t)
    (hseg : s.s1Present = false → t.seg1 = SegState.initial) : SegmentOneQuiet t := fun h =>
  have h1 : s.s1Present = false := f.s1Present ▸ h
  ⟨hseg h1, fun i hi => hslots (f.resetHeld.trans hr) i h1 hi⟩

theorem SegmentOneQuiet.holdReset (h : SegmentOneQuiet s) : SegmentOneQuiet (holdReset s) := fun h1 => by
  obtain ⟨hseg, hslots⟩ := h h1
  refine ⟨?_, fun i => ?_⟩
  · show haltSegment s.seg1 = _
    rw [hseg, haltSegment_initial]
  · rw [State.slot_of_map (s := s) (f := haltSlot) rfl]
    exact hslots i

theorem SegmentOneQuiet.releaseReset (addr : BitVec 4) (s1En : Bool) : SegmentOneQuiet (releaseReset addr s1En s) := by
  rw [releaseReset_eq]
  refine fun _ => ⟨rfl, fun i hi => absurd ?_ hi⟩
  rw [State.slot_of_replicate (x := Slot.cleared 0 0) rfl]
  rfl

theorem SegmentOneQuiet.keptBy (hp : s.resetHeld = false → SlotPlaces s) (hv : ActiveBankValid s)
    (h : SegmentOneQuiet s) : KeptBy SegmentOneQuiet s := by
  have hslots : KeptBy (fun t => t.resetHeld = false →
      AllSlots (fun _ x => s.s1Present = false → x.state ≠ .free → x.seg = .s0) t) s :=
    AllSlots.kept (quietRules s.s1Present) (fun _ _ _ _ hf => absurd rfl hf) (fun _ i h1 => (h h1).2 i) hp
      fun _ => quiet_admits (hv.congr rfl rfl rfl : ActiveBankValid (countReceived .u s))
  have hpc : ∀ c, s.resetHeld = false → PlacesBut (s.setCounters c) none [] := fun c hr =>
    ((placesBut_iff s).mpr (hp hr)).setCounters c
  have fcount : ∀ {c u}, Fixed (s.setCounters c) u → Fixed s (arbiterIfIdle u) := fun f =>
    ((bystander_setCounters _).fixed.trans f).trans fixed_arbiterIfIdle
  have hcounted : ∀ c, SegmentOneQuiet (s.setCounters c) := fun _ => h
  constructor
  case hold => exact h.holdReset
  case release => exact SegmentOneQuiet.releaseReset
  case malformed => exact fun _ => hcounted _
  case checkError => exact fun _ => hcounted _
  case request =>
    refine fun hr dst src tag rest => .of_taking (fcount (fixed_takeRequest _ _ _ _)) hr
      (hslots.request hr dst src tag rest) fun h1 => ?_
    rw [arbiterIfIdle_seg1]
    exact (takeRequest_seg1 (s := countReceived .u s) h1 (hv.congr rfl rfl rfl) dst src tag rest).trans (h h1).1
  case mgmt =>
    refine fun hr hd args => .of_taking (fcount (fixed_takeMgmtByCode _ _)) hr (hslots.mgmt hr hd args) fun h1 => ?_
    rw [arbiterIfIdle_seg1]
    exact mgmt_seg1 (hpc _ hr) (h h1).1 (h h1).2
  case reply =>
    refine fun hr k src tag st n vs hk => .of_taking (fcount (fixed_takeReply _ _ _ _ _ _)) hr
      (hslots.reply hr k src tag st n vs hk) fun h1 => ?_
    obtain rfl := segment_of_absent h1 hk
    rw [arbiterIfIdle_seg1]
    exact (takeReply_seg1 (s := countReceived Segment.s0.port s) (h h1).2 (hpc _ hr) src tag st n vs).trans (h h1).1
  case change =>
    refine fun hr k src y v hk => .of_taking (fcount (fixed_takeChange _ _ _ _)) hr
      (hslots.change hr k src y v hk) fun h1 => ?_
    obtain rfl := segment_of_absent h1 hk
    rw [arbiterIfIdle_seg1, takeChange_seg1]
    exact (h h1).1
  case endSegment =>
    refine fun hr k => .of_taking (fixed_endSegment k) hr (hslots.endSegment hr k) fun h1 => ?_
    cases k
    · rw [endSegment_seg1]; exact (h h1).1
    · rw [endSegment_initial (k := .s1) (h h1).1]; exact (h h1).1
  case endUpstream =>
    exact fun hr => .of_taking fixed_endUpstream hr (hslots.endUpstream hr) fun h1 => endUpstream_seg1 (h h1).1
  case expireSlot =>
    exact fun hr i => .of_taking (fixed_expireSlot i) hr (hslots.expireSlot hr i) fun h1 =>
      (expireSlot_seg1 (h h1).2 (hpc s.counters hr) i).trans (h h1).1
  case expireProbeDue =>
    refine fun hr k a => .of_taking (fixed_expireProbeDue k a) hr (hslots.expireProbeDue hr k a) fun h1 => ?_
    cases k
    · rw [expireProbeDue_seg1]; exact (h h1).1
    · rw [expireProbeDue_initial (k := .s1) (h h1).1]; exact (h h1).1
  case expireProbeDeadline =>
    refine fun hr k => .of_taking (fixed_expireProbeDeadline k) hr (hslots.expireProbeDeadline hr k) fun h1 => ?_
    cases k
    · rw [expireProbeDeadline_seg1]; exact (h h1).1
    · rw [expireProbeDeadline_initial (k := .s1) (h h1).1]; exact (h h1).1
  case expireRefresh => exact fun _ _ _ => h
  case expireDrain =>
    exact fun hr => .of_taking fixed_expireDrain hr (hslots.expireDrain hr) fun h1 => expireDrain_seg1.trans (h h1).1

/-- Settles O59: the agent's record through every taking, and segment 1 through those that can name a segment. -/
theorem stepKeepsTheAgentAndAnAbsentSegment : Obligations.StepKeepsTheAgentAndAnAbsentSegment := by
  refine ⟨fun s t h hstep => ?_, fun s t hp hv h hstep => ?_⟩
  · have hqueue : ∀ rest, AgentSound { s with pending := rest } := fun _ => h.congr rfl rfl
    exact step_keeps hqueue (fun rest => (hqueue rest).keptBy) h hstep
  · have hqueue : ∀ rest, SegmentOneQuiet { s with pending := rest } := fun _ => h
    exact step_keeps hqueue (fun rest => (hqueue rest).keptBy (fun hr => (hp hr).setPending rest)
      (hv.congr rfl rfl rfl)) h hstep

end Sys2Proof.Safety

/-! Right after the release of RESET_N every invariant holds (R182, log entries 4 and 5). -/

namespace Sys2Proof.Safety

open Sys2Proof.Machine

/-- Every invariant of the part. -/
structure Sound (t : State) : Prop where
  queues : QueueBounds t
  rests : UpstreamRests t
  dispatchers : DispatchersRest t
  probes : ∀ k, ProbeSound t k
  places : SlotPlaces t
  slots : ∀ i, SlotSound (t.slot i)
  stations : ∀ k a, StationSound (t.station k a)
  drain : DrainSound t
  banks : BanksInRange t
  bank : ActiveBankValid t
  cache : CacheSound t
  agent : AgentSound t
  quiet : SegmentOneQuiet t

theorem releaseReset_seg (addr : BitVec 4) (s1En : Bool) (s : State) (k : Segment) :
    (releaseReset addr s1En s).seg k = SegState.initial := by
  rw [releaseReset_eq]
  cases k <;> rfl

theorem stationSound_initial : StationSound Station.initial := by
  constructor <;> simp [Station.initial, Timer.isRunning]

theorem sound_releaseReset (addr : BitVec 4) (s1En : Bool) (s : State) : Sound (releaseReset addr s1En s) where
  queues := QueueBounds.releaseReset addr s1En
  rests _ h := by rw [releaseReset_eq] at h; cases h
  dispatchers := dispatchersRest_iff.mpr <| AllRest.initial fun k =>
    ⟨by rw [releaseReset_seg]; rfl, fun a => by rw [station_initial (releaseReset_seg addr s1En s k)]; rfl⟩
  probes k := ProbeSound.idle (by rw [releaseReset_seg]; exact nofun) (by rw [releaseReset_seg]; rfl)
  places := (placesBut_iff _).mp ((PlacesBut.pinReset addr s1En s.pending).raiseNotice _).arbiterIfIdle
  slots i := by
    rw [releaseReset_eq, State.slot_of_replicate (x := Slot.cleared 0 0) rfl]
    exact slotSound_cleared 0 0
  stations k a := by rw [station_initial (releaseReset_seg addr s1En s k)]; exact stationSound_initial
  drain := DrainSound.releaseReset addr s1En
  banks := BanksInRange.releaseReset addr s1En
  bank := ActiveBankValid.releaseReset addr s1En
  cache := CacheSound.releaseReset addr s1En
  agent := AgentSound.releaseReset addr s1En
  quiet := SegmentOneQuiet.releaseReset addr s1En

/-- The reset state is what a release with ADDR 0 and S1 present leaves, with no command waiting. -/
theorem releaseReset_reset {s : State} (h : s.pending = []) : releaseReset 0 true s = State.reset := by
  rw [releaseReset_eq, h]
  rfl

/-- Settles O60: the release gives every block its reset value, and the reset state is such a release. -/
theorem resetHasEveryInvariant : Obligations.ResetHasEveryInvariant := by
  unfold Obligations.ResetHasEveryInvariant
  intro allHold
  have hall : ∀ {t}, Sound t → allHold t := fun h => ⟨h.queues, h.rests, h.dispatchers, h.probes, h.places, h.slots,
    h.stations, h.drain, h.banks, h.bank, h.cache, h.agent, h.quiet⟩
  refine ⟨fun addr s1En s => ⟨_, rfl, hall (sound_releaseReset addr s1En s)⟩, ?_⟩
  rw [← releaseReset_reset (s := State.reset) rfl]
  exact hall (sound_releaseReset 0 true _)

end Sys2Proof.Safety

/-! The queue of commands and the pins (R10, R180 to R182). -/

namespace Sys2Proof.Machine

open Sys2Proof.Safety

/-- Settles O1: a step is its front command's taking. -/
theorem stepTakesTheFrontCommand : Obligations.StepTakesTheFrontCommand := by
  refine ⟨fun c rest s h => ?_, fun s h => ?_⟩ <;> rw [step, h]

/-- No taking touches the queue of commands. -/
theorem Taken.pending {s t : State} {c : Instr} (h : Taken s c t) : t.pending = s.pending := by
  cases h with
  | held => rfl
  | hold => rfl
  | release => rw [releaseReset_eq]; rfl
  | malformed => rfl
  | checkError => rfl
  | request => rw [arbiterIfIdle_pending, (fixed_takeRequest _ _ _ _).pending]; rfl
  | mgmt => rw [arbiterIfIdle_pending, (fixed_takeMgmtByCode _ _).pending]; rfl
  | reply => rw [arbiterIfIdle_pending, (fixed_takeReply _ _ _ _ _ _).pending]; rfl
  | change => rw [arbiterIfIdle_pending, (fixed_takeChange _ _ _ _).pending]; rfl
  | endSegment hr k => exact (fixed_endSegment k).pending
  | endUpstream => exact fixed_endUpstream.pending
  | expireSlot hr i => exact (fixed_expireSlot i).pending
  | expireProbeDue hr k a => exact (fixed_expireProbeDue k a).pending
  | expireProbeDeadline hr k => exact (fixed_expireProbeDeadline k).pending
  | expireRefresh => rfl
  | expireDrain => exact fixed_expireDrain.pending

/-- Settles O2: every command is one taking. -/
theorem everyCommandAnswersNext : Obligations.EveryCommandAnswersNext := fun c s =>
  have ⟨t, he, ht⟩ := exec_taken c s
  ⟨t, he, ht.pending⟩

/-- Settles O3: what the release leaves, and that the reset state is it. -/
theorem pinResetReleaseGivesTheResetValues : Obligations.PinResetReleaseGivesTheResetValues :=
  ⟨fun _ _ _ => rfl, fun _ h => congrArg _ (releaseReset_reset h)⟩

theorem holdReset_seg (s : State) (k : Segment) : (holdReset s).seg k = haltSegment (s.seg k) := by cases k <;> rfl

theorem haltSegment_stations (g : SegState) (a : StationAddr) :
    (haltSegment g).stations[(a : Nat)] = { g.stations[(a : Nat)] with dueTimer := .stopped } := by
  simp [haltSegment]

/-- Settles O4: what stops, and that nothing else moves. -/
theorem pinResetAssertStopsTransmittersAndTimers : Obligations.PinResetAssertStopsTransmittersAndTimers := by
  refine fun s => ⟨holdReset s, rfl, rfl, rfl, fun k => ?_, fun k => ?_, fun k a => ?_,
    fun i => State.slot_of_map (f := haltSlot) rfl i, rfl, rfl, rfl, rfl, rfl, rfl, rfl, rfl, rfl⟩
  · rw [holdReset_seg]
    exact ⟨rfl, rfl⟩
  · rw [holdReset_seg]
    unfold haltSegment haltProbe
    cases (s.seg k).probe <;> rfl
  · rw [← State.seg_stations, holdReset_seg, haltSegment_stations, State.seg_stations]

/-! ### An absent segment's blocks (R7) -/

theorem deliverBlock_absent {s : State} (h1 : s.s1Present = false) (block : List Byte) :
    deliverBlock .s1 block s = countMalformed .s1 s := by
  have hrec : receive s.ownAddress s.s1Present .s1 block = .malformed := if_pos ⟨rfl, h1⟩
  rw [deliverBlock, hrec]

theorem dispatchIfIdle_out_of_service {k : Segment} {s : State} (h : s.inService k = false) :
    dispatchIfIdle k s = s := by
  unfold dispatchIfIdle
  split
  · exact if_neg (by rw [h]; decide)
  · rfl

/-- Settles O8: the framer does not test a block of an absent segment. -/
theorem absentSegmentDiscardsEveryBlock : Obligations.AbsentSegmentDiscardsEveryBlock := by
  intro s hr h1
  have hexec : ∀ f : State → State, whenRunning f s = .next (f s) := fun f => by rw [whenRunning_next, hr]; rfl
  exact ⟨fun block => ⟨(hexec _).trans (congrArg _ (deliverBlock_absent h1 block)),
    (hexec _).trans (congrArg _ (deliverBlock_absent h1 block))⟩, dispatchIfIdle_out_of_service h1⟩

/-! ### Notices (R139) -/

theorem bumpLost_eq (b : Byte) : bumpLost b = if b = 255 then 255 else b + 1 := by
  unfold bumpLost
  split
  · assumption
  · rfl

/-- Settles O34: the Notice Queue has room for 16. -/
theorem noticesAreNumberedOrCountedLost : Obligations.NoticesAreNumberedOrCountedLost := by
  refine fun e s => ⟨fun h => if_pos (show s.up.notices.length < Config.noticeCapacity from h), fun h => ?_⟩
  rw [raiseNotice, if_neg (show ¬ s.up.notices.length < Config.noticeCapacity from Nat.not_lt.mpr h), bumpLost_eq]
  rfl

end Sys2Proof.Machine

/-! The argument layouts (R14, R23, R26, R28, R56): what each reader accepts, and the bytes that spell it. -/

namespace Sys2Proof.Machine

open Sys2Proof.Safety

/-! ### Selectors and ids -/

theorem finOf_eq_some_iff {n : Nat} (hn : n ≤ 256) {b : Byte} {i : Fin n} : finOf n b = some i ↔ b = byteOf i.val :=
  ⟨finOf_some, fun h => h ▸ finOf_byteOf hn i⟩

theorem segmentOf_eq_some_iff {b : Byte} {k : Segment} : segmentOf b = some k ↔ b = segmentCode k :=
  ⟨segmentOf_some, fun h => h ▸ segmentOf_code k⟩

theorem addrOf_eq_some_iff {b : Byte} {a : StationAddr} : addrOf b = some a ↔ b = addrByte a :=
  ⟨addrOf_some, fun h => h ▸ addrOf_addrByte a⟩

theorem policyOf_eq_some_iff {b : Byte} {limit refresh : Word} {p : ChangePolicy} :
    policyOf b limit refresh = some p ↔ b = policyCode p ∧
      ∀ l r, p = .deadband l r → limit = l ∧ refresh = r ∧ r.toNat ≤ 600 := by
  unfold policyOf policyCode
  cases p <;> grind

theorem mapRangesOk_iff {station : Byte} {first last base : Word} : mapRangesOk station first last base = true ↔
    station.toNat ≤ 239 ∧ first.toNat ≤ last.toNat ∧ base.toNat + (last.toNat - first.toNat) ≤ 65535 := by
  unfold mapRangesOk
  exact decide_eq_true_iff

theorem pageTarget_eq_some_iff {first w : Byte} {t : PageTarget} : pageTarget first w = some t ↔
    t = .dflt ∧ first = 255 ∧ w = 1 ∨
      t = .words first.toNat ∧ 1 ≤ w.toNat ∧ w.toNat ≤ 8 ∧ first.toNat + w.toNat ≤ 64 := by
  have h255 : first = 255 ↔ first.toNat = 255 := ⟨fun h => h ▸ rfl, fun h => BitVec.eq_of_toNat_eq h⟩
  have h1 : w = 1 ↔ w.toNat = 1 := ⟨fun h => h ▸ rfl, fun h => BitVec.eq_of_toNat_eq h⟩
  unfold pageTarget
  grind

/-! ### The reading commands -/

theorem bind_pair_eq_some_iff {α β : Type} {o : Option α} {p : Option β} {a : α} {b : β} :
    (o.bind fun x => p.bind fun y => some (x, y)) = some (a, b) ↔ o = some a ∧ p = some b := by
  cases o <;> cases p <;> simp

theorem parseIndex_eq_some_iff {n : Nat} (hn : n ≤ 256) {args : List Byte} {i : Fin n} :
    parseIndex n args = some i ↔ args = [byteOf i.val] := by
  unfold parseIndex
  split
  · rw [finOf_eq_some_iff hn, List.cons.injEq]
    exact (and_iff_left rfl).symm
  · next hne => exact ⟨nofun, fun h => absurd h (hne _)⟩

theorem parseStation_eq_some_iff {args : List Byte} {k : Segment} {a : StationAddr} :
    parseStation args = some (k, a) ↔ args = [segmentCode k, addrByte a] := by
  unfold parseStation
  split
  · simp only [Option.bind_eq_bind, bind_pair_eq_some_iff, segmentOf_eq_some_iff, addrOf_eq_some_iff,
      List.cons.injEq, and_true]
  · next hne => exact ⟨nofun, fun h => absurd h (hne _ _)⟩

theorem parseCounters_eq_some_iff {args : List Byte} {g : CounterGroup} {c : Bool} :
    parseCounters args = some (g, c) ↔
      ∃ gb cb, counterGroupOf gb = some g ∧ flagOf cb = some c ∧ args = [gb, cb] := by
  unfold parseCounters
  split
  · simp only [Option.bind_eq_bind, bind_pair_eq_some_iff]
    exact ⟨fun h => ⟨_, _, h.1, h.2, rfl⟩, fun ⟨_, _, hg, hc, h⟩ => by cases h; exact ⟨hg, hc⟩⟩
  · next hne => exact ⟨nofun, fun ⟨_, _, _, _, h⟩ => absurd h (hne _ _)⟩

theorem parseReadMap_eq_some_iff {args : List Byte} {role : BankRole} {ix : MapIx} :
    parseReadMap args = some (role, ix) ↔ ∃ sel, roleOf sel = some role ∧ args = [sel, byteOf ix.val] := by
  unfold parseReadMap
  split
  · simp only [Option.bind_eq_bind, bind_pair_eq_some_iff, finOf_eq_some_iff (by decide : 128 ≤ 256)]
    exact ⟨fun h => ⟨_, h.1, by rw [h.2]⟩, fun ⟨_, hr, h⟩ => by cases h; exact ⟨hr, rfl⟩⟩
  · next hne => exact ⟨nofun, fun ⟨_, _, h⟩ => absurd h (hne _ _)⟩

theorem parseReadEdit_eq_some_iff {args : List Byte} {role : BankRole} {ix : EditIx} :
    parseReadEdit args = some (role, ix) ↔ ∃ sel, roleOf sel = some role ∧ args = [sel, byteOf ix.val] := by
  unfold parseReadEdit
  split
  · simp only [Option.bind_eq_bind, bind_pair_eq_some_iff, finOf_eq_some_iff (by decide : 64 ≤ 256)]
    exact ⟨fun h => ⟨_, h.1, by rw [h.2]⟩, fun ⟨_, hr, h⟩ => by cases h; exact ⟨hr, rfl⟩⟩
  · next hne => exact ⟨nofun, fun ⟨_, _, h⟩ => absurd h (hne _ _)⟩

theorem parseReadPage_eq_some_iff {args : List Byte} {role : BankRole} {ix : PageIx} {t : PageTarget} {first w : Byte} :
    parseReadPage args = some (role, ix, t, first, w) ↔
      ∃ sel, roleOf sel = some role ∧ pageTarget first w = some t ∧ args = [sel, byteOf ix.val, first, w] := by
  unfold parseReadPage
  split
  · simp only [Option.bind_eq_bind, Option.bind_eq_some_iff, finOf_eq_some_iff (by decide : 8 ≤ 256)]
    constructor
    · rintro ⟨role', hrole, ix', hix, t', ht, h⟩
      cases h
      exact ⟨_, hrole, ht, by rw [hix]⟩
    · rintro ⟨sel, hrole, ht, h⟩
      cases h
      exact ⟨role, hrole, ix, rfl, t, ht, rfl⟩
  · next hne => exact ⟨nofun, fun ⟨_, _, _, h⟩ => absurd h (hne _ _ _ _)⟩

theorem parseTiming_eq_some_iff {args : List Byte} {p : TimingParam} {v : Nat} :
    parseTiming args = some (p, v) ↔ ∃ id w, timingParamOf id = some p ∧ timingInRange p w.toNat = true ∧
      v = w.toNat ∧ args = [id] ++ wordBytes w := by
  unfold parseTiming
  split
  · next id v1 v0 =>
    simp only [Option.bind_eq_bind, Option.bind_eq_some_iff]
    constructor
    · rintro ⟨q, hq, h⟩
      split at h
      · next hr =>
        cases h
        exact ⟨id, wordOf v1 v0, hq, hr, rfl, by rw [bytes_wordOf]; rfl⟩
      · cases h
    · rintro ⟨id', w, hq, hr, rfl, h⟩
      have hw : wordOf v1 v0 = w := by cases h; exact wordOf_bytes w
      cases h
      exact ⟨p, hq, by rw [hw, if_pos hr]⟩
  · next hne => exact ⟨nofun, fun ⟨_, _, _, _, _, h⟩ => absurd h (hne _ _ _)⟩

/-! ### WRITE_MAP (R23) -/

theorem parseMap_eq_some_iff {args : List Byte} {ix : MapIx} {e : MapEntry} :
    parseMap args = some (ix, e) ↔ MapArgs args ix e := by
  constructor
  · intro h
    refine ⟨parseMap_inRange h, ?_⟩
    unfold parseMap at h
    split at h
    · next b ls f1 f0 l1 l0 sg ps b1 b0 ac de ue cp d1 d0 r1 r0 =>
      simp only [Option.bind_eq_bind, Option.bind_eq_some_iff] at h
      obtain ⟨i, hi, seg, hseg, phys, hphys, acc, hacc, down, hdown, up, hup, pol, hpol, h⟩ := h
      split at h
      · cases h
        obtain ⟨hcp, hlimits⟩ := policyOf_eq_some_iff.mp hpol
        refine ⟨wordOf d1 d0, wordOf r1 r0, fun l r hp => ⟨(hlimits l r hp).1, (hlimits l r hp).2.1⟩, ?_⟩
        simp only [bytes_wordOf, finOf_some hi, segmentOf_some hseg, addrOf_some hphys, accessOf_some hacc,
          refOf_some hdown, refOf_some hup, hcp]
        rfl
      · cases h
    · cases h
  · rintro ⟨hin, limit, refresh, hlimits, rfl⟩
    have hpol : policyOf (policyCode e.policy) limit refresh = some e.policy :=
      policyOf_eq_some_iff.mpr ⟨rfl, fun l r hp => ⟨(hlimits l r hp).1, (hlimits l r hp).2, hin.refresh l r hp⟩⟩
    have hranges := mapRangesOk_iff.mpr ⟨hin.station, hin.order, hin.physical⟩
    simp only [wordBytes, List.cons_append, List.nil_append, parseMap, wordOf_bytes, finOf_byteOf (by decide : 128 ≤ 256),
      segmentOf_code, addrOf_addrByte, accessOf_code, refOf_code, hpol, Option.bind_eq_bind, Option.bind_some, hranges]
    rfl

/-! ### WRITE_EDIT (R26) -/

theorem parseSteps_bytes : ∀ (n : Nat) (bs : List Byte) {steps : List EditStep}, parseSteps n bs = some steps →
    bs = steps.flatMap stepBytes
  | 0, [], _, h => by cases h; rfl
  | 0, _ :: _, _, h => by cases h
  | n + 1, [], _, h => by cases h
  | n + 1, [_], _, h => by cases h
  | n + 1, [_, _], _, h => by cases h
  | n + 1, [_, _, _], _, h => by cases h
  | n + 1, [_, _, _, _], _, h => by cases h
  | n + 1, [_, _, _, _, _], _, h => by cases h
  | n + 1, o :: g :: a1 :: a0 :: b1 :: b0 :: rest, _, h => by
    unfold parseSteps at h
    simp only [Option.bind_eq_bind, Option.bind_eq_some_iff] at h
    obtain ⟨op, hop, gd, hgd, ss, hss, h⟩ := h
    split at h
    · cases h
      rw [List.flatMap_cons, ← parseSteps_bytes n rest hss]
      simp only [stepBytes, bytes_wordOf, stepOpOf_some hop, guardOf_some hgd]
      rfl
    · cases h

theorem parseSteps_of_bytes : ∀ (steps : List EditStep), (∀ st ∈ steps, stepOk st.op st.a st.b = true) →
    parseSteps steps.length (steps.flatMap stepBytes) = some steps
  | [], _ => rfl
  | st :: steps, h => by
    have hrest := parseSteps_of_bytes steps fun x hx => h x (List.mem_cons_of_mem _ hx)
    have hst := h st List.mem_cons_self
    simp only [List.flatMap_cons, stepBytes, wordBytes, List.cons_append, List.nil_append, List.length_cons, parseSteps,
      stepOpOf_code, guardOf_code, wordOf_bytes, Option.bind_eq_bind, Option.bind_some, hrest, hst]
    rfl

theorem parseEdit_eq_some_iff {args : List Byte} {ix : EditIx} {r : EditRecord} :
    parseEdit args = some (ix, r) ↔ EditArgs args ix r := by
  constructor
  · intro h
    refine ⟨parseEdit_inRange h, ?_⟩
    unfold parseEdit at h
    split at h
    · next ri it ot ov ms k rest =>
      simp only [Option.bind_eq_bind, Option.bind_eq_some_iff] at h
      obtain ⟨i, hi, inType, hin, outType, hout, overflow, hov, miss, hms, h⟩ := h
      split at h
      · simp only [Option.bind_eq_some_iff] at h
        obtain ⟨steps, hsteps, h⟩ := h
        cases h
        have hlen := (parseSteps_ok _ _ hsteps).1
        simp only [← parseSteps_bytes _ _ hsteps, hlen, byteOf_self, finOf_some hi, typeOf_some hin, typeOf_some hout,
          overflowOf_some hov, missOf_some hms]
        rfl
      · cases h
    · cases h
  · rintro ⟨hin, rfl⟩
    obtain ⟨hcount, hok⟩ := recordInRange_iff.mp hin
    have hk : (byteOf r.steps.length).toNat = r.steps.length := byteOf_toNat (by omega)
    simp only [List.cons_append, List.nil_append, parseEdit, finOf_byteOf (by decide : 64 ≤ 256), typeOf_code,
      overflowOf_code, missOf_code, Option.bind_eq_bind, Option.bind_some, hk, if_pos hcount, parseSteps_of_bytes _ hok]

/-! ### WRITE_PAGE (R28) -/

theorem parsePage_eq_some_iff {args : List Byte} {ix : PageIx} {t : PageTarget} {ws : List Word} :
    parsePage args = some (ix, t, ws) ↔ ∃ first w, pageTarget first w = some t ∧ ws.length = w.toNat ∧
      args = [byteOf ix.val, first, w] ++ wordsBytes ws := by
  constructor
  · intro h
    unfold parsePage at h
    split at h
    · next pg first w rest =>
      simp only [Option.bind_eq_bind, Option.bind_eq_some_iff] at h
      obtain ⟨i, hi, target, ht, vs, hvs, h⟩ := h
      split at h
      · next hlen =>
        cases h
        exact ⟨first, w, ht, hlen, by rw [finOf_some hi, wordsBytes_wordsOf _ hvs]; rfl⟩
      · cases h
    · cases h
  · rintro ⟨first, w, ht, hlen, rfl⟩
    simp only [List.cons_append, List.nil_append, parsePage, finOf_byteOf (by decide : 8 ≤ 256), ht, wordsOf_wordsBytes,
      Option.bind_eq_bind, Option.bind_some, if_pos hlen]

theorem parsePage_words_iff {args : List Byte} {ix : PageIx} {first : Nat} {ws : List Word} :
    parsePage args = some (ix, .words first, ws) ↔ PageArgs args ix first ws := by
  rw [parsePage_eq_some_iff]
  constructor
  · rintro ⟨fb, w, ht, hlen, rfl⟩
    rcases pageTarget_eq_some_iff.mp ht with ⟨h, -⟩ | ⟨h, h1, h8, hroom⟩
    · cases h
    · cases h
      exact ⟨⟨by omega, by omega⟩, by omega, by rw [hlen, byteOf_self, byteOf_self]⟩
  · rintro ⟨⟨h1, h8⟩, hroom, rfl⟩
    have hf : (byteOf first).toNat = first := byteOf_toNat (by omega)
    have hw : (byteOf ws.length).toNat = ws.length := byteOf_toNat (by omega)
    exact ⟨byteOf first, byteOf ws.length, pageTarget_eq_some_iff.mpr (.inr ⟨by rw [hf], by omega, by omega, by omega⟩),
      hw.symm, rfl⟩

theorem parsePage_dflt_iff {args : List Byte} {ix : PageIx} {ws : List Word} :
    parsePage args = some (ix, .dflt, ws) ↔ ∃ w, ws = [w] ∧ PageDefaultArgs args ix w := by
  rw [parsePage_eq_some_iff]
  constructor
  · rintro ⟨fb, n, ht, hlen, rfl⟩
    rcases pageTarget_eq_some_iff.mp ht with ⟨-, rfl, rfl⟩ | ⟨h, -⟩
    · obtain ⟨w, rfl⟩ := List.length_eq_one_iff.mp hlen
      exact ⟨w, rfl, rfl⟩
    · cases h
  · rintro ⟨w, rfl, rfl⟩
    exact ⟨255, 1, rfl, rfl, rfl⟩

/-! ### REQUEST (R56) -/

theorem parseRequest_eq_some_iff {rest : List Byte} {f : RequestForm} :
    parseRequest rest = some f ↔ RequestBytes rest f.op f.index f.count f.values := by
  constructor
  · intro h
    obtain ⟨h1, h8, hread, hwrite⟩ := parseRequest_some h
    refine ⟨⟨h1, h8⟩, ?_, ?_⟩
    · cases hop : f.op with
      | read => simp [hread hop]
      | write => exact hwrite hop
    · unfold parseRequest at h
      split at h
      · next o i1 i0 c vs =>
        simp only [Option.bind_eq_bind, Option.bind_eq_some_iff] at h
        obtain ⟨op, hop, values, hvs, h⟩ := h
        have hvs := wordsBytes_wordsOf _ hvs
        split at h
        · split at h <;> (split at h <;> cases h)
          · next hnil => rw [hvs, hnil, opOf_some hop, bytes_wordOf]; rfl
          · rw [hvs, opOf_some hop, bytes_wordOf]; rfl
        · cases h
      · cases h
  · rintro ⟨hrange, hcarried, rfl⟩
    obtain ⟨op, index, count, values⟩ := f
    simp only [wordBytes, List.cons_append, List.nil_append, parseRequest, opOf_code, wordsOf_wordsBytes, wordOf_bytes,
      Option.bind_eq_bind, Option.bind_some, if_pos hrange]
    cases op with
    | read => obtain rfl := List.eq_nil_of_length_eq_zero hcarried; rfl
    | write => exact if_pos hcarried

end Sys2Proof.Machine

/-! The dialogue (R149 to R156): what a telegram that executes nothing is answered, and what a command's
refusals leave. -/

namespace Sys2Proof.Safety

open Sys2Proof.Machine

variable {s t : State} {code src seq : Byte} {args data : List Byte} {hd : MgmtHead} {status : MgmtStatus}

/-! ### Selectors and ids (section 1.8) -/

def roleCode : BankRole → Byte
  | .active => 0
  | .shadow => 1

theorem roleOf_eq_some_iff {b : Byte} {r : BankRole} : roleOf b = some r ↔ b = roleCode r := by
  revert b
  cases r <;> decide

def groupCode : CounterGroup → Byte
  | .port => 1
  | .traffic => 2
  | .segment => 3

theorem counterGroupOf_eq_some_iff {b : Byte} {g : CounterGroup} : counterGroupOf b = some g ↔ b = groupCode g := by
  revert b
  cases g <;> decide

theorem flagOf_eq_some_iff {b : Byte} {f : Bool} : flagOf b = some f ↔ b = boolCode f := by
  revert b
  cases f <;> decide

def timingCode : TimingParam → Byte
  | .replyTimeout => 1
  | .retries => 2
  | .silentThreshold => 3
  | .probeInterval => 4
  | .drainLimit => 5

theorem timingParamOf_eq_some_iff {b : Byte} {p : TimingParam} : timingParamOf b = some p ↔ b = timingCode p := by
  revert b
  cases p <;> decide

/-! ### The acts of R149 -/

theorem outboxFull_iff : s.outboxFull = true ↔ 4 ≤ s.up.outbox.length := decide_eq_true_iff

theorem byte_ne_add_one (b : Byte) : b ≠ b + 1 := by
  bv_omega

/-- Every MGMT row while RESET_N is high: received, taken by its code, and the arbiter's choice. -/
theorem exec_mgmt_running (hr : s.resetHeld = false) (hl : args.length ≤ 32) (code src seq : Byte) :
    exec (mgmtCommand code src seq args) s =
      .next (arbiterIfIdle (takeMgmtByCode ⟨src, seq, code⟩ args (countReceived .u s))) := by
  rw [exec_mgmtCommand, whenRunning_deliver hr hl]

theorem takeMgmtByCode_of_full (h : 4 ≤ s.up.outbox.length) (hd : MgmtHead) (args : List Byte) :
    takeMgmtByCode hd args s = countMgmtDiscarded s := by
  have hfull := outboxFull_iff.mpr h
  unfold takeMgmtByCode
  split
  · unfold takeSync
    exact if_pos hfull
  · rw [takeMgmt, if_pos hfull]

section Room

variable (hroom : s.up.outbox.length < 4)
include hroom

theorem not_outboxFull : ¬ s.outboxFull = true := fun h => absurd (outboxFull_iff.mp h) (by omega)

theorem takeMgmtByCode_of_unsynced (hc : hd.code ≠ 1) (hs : s.agent.sync = .unsynced) :
    takeMgmtByCode hd args s = answerOnly hd .notSynced [] s := by
  rw [takeMgmtByCode, if_neg hc, takeMgmt, if_neg (not_outboxFull hroom), if_pos hs]

variable (hc : hd.code ≠ 1) (hs : s.agent.sync = .synced)
include hc hs

theorem takeMgmtByCode_of_repeat (hseq : hd.seq = s.agent.lastSeq) {r : MgmtReply} (hr : s.agent.stored = some r) :
    takeMgmtByCode hd args s = placeReply r s := by
  rw [takeMgmtByCode, if_neg hc, takeMgmt, if_neg (not_outboxFull hroom), if_neg (by rw [hs]; decide), if_pos hseq,
    repeatStored, hr]

theorem takeMgmtByCode_of_other (hseq : hd.seq ≠ s.agent.lastSeq) (hnext : hd.seq ≠ s.agent.lastSeq + 1) :
    takeMgmtByCode hd args s = answerOnly hd .sequenceError [s.agent.lastSeq + 1] s := by
  rw [takeMgmtByCode, if_neg hc, takeMgmt, if_neg (not_outboxFull hroom), if_neg (by rw [hs]; decide), if_neg hseq,
    if_neg (show hd.seq ≠ s.expectedSeq from hnext)]
  rfl

theorem takeMgmtByCode_of_restarting (hnext : hd.seq = s.agent.lastSeq + 1) (hp : s.agent.restartPending = true) :
    takeMgmtByCode hd args s = answerStored hd .restartPending [] s := by
  rw [takeMgmtByCode, if_neg hc, takeMgmt, if_neg (not_outboxFull hroom), if_neg (by rw [hs]; decide),
    if_neg (by rw [hnext]; exact (byte_ne_add_one _).symm), if_pos (show hd.seq = s.expectedSeq from hnext), if_pos hp]

end Room

/-- Settles O37: acts 1, 3, 4 and 6 of R149 place at most one reply. -/
theorem turnedAwayTelegramsExecuteNothing : Obligations.TurnedAwayTelegramsExecuteNothing := by
  intro code src seq args s hr hu hl
  refine ⟨fun hfull => ?_, fun hroom hc => ⟨fun hs => ?_, fun hs => ⟨fun hseq r hstored => ?_, fun hseq hnext => ?_⟩⟩⟩
  · rw [exec_mgmt_running hr hl, takeMgmtByCode_of_full (s := countReceived .u s) hfull,
      arbiterIfIdle_of_rests (s := countMgmtDiscarded (countReceived .u s)) hr (hu.congr rfl rfl)]
  · rw [exec_mgmt_running hr hl, takeMgmtByCode_of_unsynced (s := countReceived .u s) hroom hc hs,
      arbiterIfIdle_turnedAway hu hr]
  · rw [exec_mgmt_running hr hl, takeMgmtByCode_of_repeat (s := countReceived .u s) hroom hc hs hseq hstored,
      arbiterIfIdle_placed (s := countReceived .u s) fun h => ⟨(hu hr h).1, (hu hr h).2.1⟩]
    rfl
  · rw [exec_mgmt_running hr hl, takeMgmtByCode_of_other (s := countReceived .u s) hroom hc hs hseq hnext,
      arbiterIfIdle_turnedAway hu hr]
    rfl

/-! ### SYNC (R152) -/

theorem commitStateCode_eq (c : CommitState) : commitStateCode c = if c = .draining then 1 else 0 := by
  cases c <;> rfl

/-- Settles O36: act 2 of R149 reads neither the sequence nor the agent's record. -/
theorem syncOpensTheDialogue : Obligations.SyncOpensTheDialogue := by
  intro src seq args s hr hu hroom hl
  have htaken : exec (.sync src seq args) s =
      .next (arbiterIfIdle (takeSync ⟨src, seq, 1⟩ args (countReceived .u s))) :=
    whenRunning_deliver hr hl
  rw [htaken]
  unfold takeSync
  rw [if_neg (not_outboxFull (s := countReceived .u s) hroom)]
  refine ⟨?_, fun h => ?_⟩
  · rintro rfl
    refine congrArg _ ((arbiterIfIdle_answered (t := s.setAgent { s.agent with sync := .synced, ctrlAddr := src })
      hu hr rfl _ _ _).trans ?_)
    rw [← commitStateCode_eq]
    rfl
  · cases args with
    | nil => exact absurd rfl h
    | cons b bs => exact congrArg _ (arbiterIfIdle_turnedAway hu hr _ _ _)

/-! ### A command that only answers (R155) -/

/-- A command with the next sequence whose run comes to one stored answer over a state with port U untouched. -/
theorem MgmtReady.answers (h : MgmtReady s seq) (hl : args.length ≤ 32) (hc : code ≠ 1) (hu : t.up = s.up)
    (hrun : runByCode ⟨src, seq, code⟩ args (countReceived .u s) =
      answerStored ⟨src, seq, code⟩ status data (countReceived .u t)) :
    exec (mgmtCommand code src seq args) s = .next (answered ⟨src, seq, code⟩ status data t) := by
  rw [exec_ready h hl hc, hrun, arbiterIfIdle_answered h.rests h.running hu]

theorem runByCode_of_unknown (h : hd.code = 0 ∨ 19 < hd.code.toNat) :
    runByCode hd args s = answerStored hd .badCommand [] s := by
  have hcode : hd.code.toNat = 0 ∨ 19 < hd.code.toNat := h.imp_left fun h => by rw [h]; rfl
  unfold runByCode
  split
  all_goals first | rfl | omega

theorem unlessDraining_of_draining (h : s.commit.state = .draining) (run : State → State) :
    unlessDraining hd run s = answerStored hd .commitPending [] s := by
  rw [unlessDraining, h]

theorem unlessDraining_of_idle (h : s.commit.state = .idle) (run : State → State) :
    unlessDraining hd run s = run s := by
  rw [unlessDraining, h]

/-- The commands that write the shadow bank or commit it wait for no drain (R155, step 3). -/
theorem runByCode_of_draining (h : s.commit.state = .draining) (hc : hd.code ∈ ([4, 5, 6, 7, 8, 12, 13] : List Byte)) :
    runByCode hd args s = answerStored hd .commitPending [] s := by
  obtain ⟨src, seq, code⟩ := hd
  simp only [List.mem_cons, List.not_mem_nil, or_false] at hc
  rcases hc with rfl | rfl | rfl | rfl | rfl | rfl | rfl <;>
    simp [runByCode, runWriteMap, runClearMap, runWriteEdit, runClearEdit, runWritePage, runCopyBank, runCommit,
      unlessDraining_of_draining h]

/-- Settles O38: steps 1 to 3 of R155, before any argument is read. -/
theorem earlyRefusalsConsumeTheSequence : Obligations.EarlyRefusalsConsumeTheSequence := by
  refine fun src seq args s hl => ⟨fun code hc h hp => ?_, fun h => ⟨fun code hcode => ?_, fun hdrain code hcode => ?_,
    fun hidle => ?_⟩⟩
  · have hu : UpstreamRests s := h.rests.congr rfl rfl
    have hr : s.resetHeld = false := h.running
    rw [exec_mgmt_running hr hl, takeMgmtByCode_of_restarting (s := countReceived .u s) h.room hc h.synced h.next hp,
      arbiterIfIdle_answered hu hr rfl]
  · have hne : code ≠ 1 := by
      rintro rfl
      exact absurd hcode (by decide)
    exact (exec_mgmtCommand code src seq args s).symm.trans (h.answers hl hne rfl (runByCode_of_unknown hcode))
  · have hdrain : (countReceived .u s).commit.state = .draining := hdrain
    have hne : code ≠ 1 := by
      rintro rfl
      exact absurd hcode (by decide)
    exact h.answers hl hne rfl (runByCode_of_draining hdrain hcode)
  · have hrun : ∀ hd, runAbortCommit hd args (countReceived .u s) =
        answerStored hd .nothingPending [] (countReceived .u s) := fun hd => by
      unfold runAbortCommit
      rw [show (countReceived .u s).commit.state = .idle from hidle]
    exact h.answers (code := 14) hl (by decide) rfl (hrun _)

/-! ### A resent command (R154) -/

theorem answerSlot_outbox (b : BuiltReply) (i : SlotIx) : (answerSlot b s i).up.outbox = s.up.outbox := by
  unfold answerSlot offerReply sendUp
  split
  · simp [enterTraffic]
  · simp [joinWaitList]

theorem placeParked_outbox (i : SlotIx) : (placeParked s i).up.outbox = s.up.outbox := by
  unfold placeParked
  dsimp only
  split
  · exact answerSlot_outbox _ i
  · split <;> simp

theorem foldl_outbox {f : State → SlotIx → State} (h : ∀ s i, (f s i).up.outbox = s.up.outbox) :
    ∀ (l : List SlotIx) (s : State), (l.foldl f s).up.outbox = s.up.outbox
  | [], _ => rfl
  | i :: l, s => (foldl_outbox h l (f s i)).trans (h s i)

theorem drainIfDone_outbox : (drainIfDone s).up.outbox = s.up.outbox := by
  unfold drainIfDone
  split
  · unfold completeDrain
    dsimp only
    rw [raiseNotice_up_outbox, foldl_outbox fun _ i => placeParked_outbox i]
  · rfl

theorem failDrain_outbox (r : FailReason) : (failDrain r s).up.outbox = s.up.outbox := by
  unfold failDrain answerAll
  dsimp only
  rw [raiseNotice_up_outbox, foldl_outbox fun _ i => answerSlot_outbox _ i]

/-- A taking that has placed its reply, stored it and accepted its sequence. -/
structure Stored (hd : MgmtHead) (own : Byte) (t : State) : Prop where
  running : t.resetHeld = false
  synced : t.agent.sync = .synced
  stored : ∃ status data, t.agent.stored = some (buildReply own hd status data)
  lastSeq : t.agent.lastSeq = hd.seq
  placed : t.up.outbox ≠ []

theorem Stored.congr {own : Byte} (h : Stored hd own s) (hr : t.resetHeld = s.resetHeld) (ha : t.agent = s.agent)
    (ho : t.up.outbox = s.up.outbox) : Stored hd own t := by
  constructor <;> simp only [hr, ha, ho]
  · exact h.running
  · exact h.synced
  · exact h.stored
  · exact h.lastSeq
  · exact h.placed

theorem stored_answerStored (hr : s.resetHeld = false) (hs : s.agent.sync = .synced) :
    Stored hd s.ownAddress (answerStored hd status data s) where
  running := hr
  synced := hs
  stored := ⟨status, data, rfl⟩
  lastSeq := rfl
  placed := by simp [answerStored, answerOnly, placeReply]

/-- Every command's run stores its reply (R155). -/
theorem stored_runByCode (hr : s.resetHeld = false) (hs : s.agent.sync = .synced) (args : List Byte) :
    Stored hd s.ownAddress (runByCode hd args s) := by
  apply runByCode_keeps
  constructor
  case answer => exact fun _ _ => stored_answerStored hr hs
  case timing =>
    exact fun p v _ =>
      stored_answerStored (s := s.setAgent (setTimingParam p v s.agent)) hr (by cases p <;> exact hs)
  case restart => exact stored_answerStored (s := s.setAgent { s.agent with restartPending := true }) hr hs
  case shadow => exact fun _ b _ => stored_answerStored (s := updateShadow (fun _ => b) s) hr hs
  case station =>
    intro k a
    have ho : (resetStation k a s).ownAddress = s.ownAddress := by simp [resetStation]
    rw [← ho]
    exact stored_answerStored (by simpa [resetStation] using hr) (by simpa [resetStation] using hs)
  case counters => exact fun d g => (stored_answerStored (data := d) hr hs).congr rfl rfl rfl
  case commit =>
    refine fun _ _ => Stored.congr ?_ fixed_drainIfDone.resetHeld settled_drainIfDone.agent drainIfDone_outbox
    exact (stored_answerStored hr hs).congr rfl rfl rfl
  case abort =>
    exact fun _ => (stored_answerStored hr hs).congr (fixed_failDrain _).resetHeld (by simp [failDrain])
      (failDrain_outbox _)

/-- With a reply waiting the arbiter leaves no transmitter idle (R140). -/
theorem arbiterIfIdle_busy (h : s.up.outbox ≠ []) : (arbiterIfIdle s).up.sending ≠ none := by
  unfold arbiterIfIdle
  split
  · exact fun hn => h (arbiterChoice_none hn).2.1
  · next u hu => rw [hu]; exact nofun

/-- Settles O39: the sequence a command accepted is the last one, and its reply is the stored one. -/
theorem resentCommandIsNotExecutedAgain : Obligations.ResentCommandIsNotExecutedAgain := by
  intro code src seq args s h hl hc
  have hstored : Stored ⟨src, seq, code⟩ s.ownAddress (runByCode ⟨src, seq, code⟩ args (countReceived .u s)) :=
    stored_runByCode (s := countReceived .u s) h.running h.synced args
  obtain ⟨status, data, hr⟩ := hstored.stored
  generalize hu : runByCode ⟨src, seq, code⟩ args (countReceived .u s) = u at hstored hr
  refine ⟨arbiterIfIdle u, buildReply s.ownAddress ⟨src, seq, code⟩ status data,
    by rw [exec_ready h hl hc, hu], by rw [arbiterIfIdle_agent]; exact hr,
    by rw [arbiterIfIdle_agent]; exact hstored.lastSeq, rfl, rfl, fun code' src' args' hroom hl' hc' => ?_⟩
  have hrun : (arbiterIfIdle u).resetHeld = false := arbiterIfIdle_resetHeld.trans hstored.running
  have hrests : UpstreamRests (arbiterIfIdle u) := fun _ hidle =>
    absurd hidle (arbiterIfIdle_busy hstored.placed)
  refine ((turnedAwayTelegramsExecuteNothing code' src' seq args' _ hrun hrests hl').2 hroom hc').2 ?_ |>.1 ?_ _ ?_
  · rw [arbiterIfIdle_agent]; exact hstored.synced
  · rw [arbiterIfIdle_agent]; exact hstored.lastSeq.symm
  · rw [arbiterIfIdle_agent]; exact hr

end Sys2Proof.Safety

/-! The management commands' own checks and effects (R19, R23 to R30, R114, R116, R155, R157 to R163, R186). -/

namespace Sys2Proof.Safety

open Sys2Proof.Machine

variable {s t : State} {code src seq : Byte} {args data : List Byte} {hd : MgmtHead} {status : MgmtStatus}

/-! ### Arguments that fail their checks -/

theorem parseIndex_eq_none {n : Nat} (hn : n ≤ 255) (h : ∀ b : Byte, b.toNat ≤ n → args ≠ [b]) :
    parseIndex (n + 1) args = none :=
  Option.eq_none_iff_forall_ne_some.mpr fun i hi =>
    h _ (by rw [byteOf_toNat (by omega)]; omega) ((parseIndex_eq_some_iff (by omega)).mp hi)

theorem segmentCode_le (k : Segment) : (segmentCode k).toNat ≤ 1 := by cases k <;> decide

theorem parseStation_eq_none (h : ∀ k a : Byte, k.toNat ≤ 1 → 1 ≤ a.toNat → a.toNat ≤ 31 → args ≠ [k, a]) :
    parseStation args = none := by
  refine Option.eq_none_iff_forall_ne_some.mpr fun ⟨k, a⟩ hp => ?_
  have ha := addrByte_toNat a
  exact h _ _ (segmentCode_le k) (by omega) (by omega) (parseStation_eq_some_iff.mp hp)

theorem parseCounters_eq_none (h : ∀ g c : Byte, 1 ≤ g.toNat → g.toNat ≤ 3 → c.toNat ≤ 1 → args ≠ [g, c]) :
    parseCounters args = none := by
  refine Option.eq_none_iff_forall_ne_some.mpr fun ⟨g, c⟩ hp => ?_
  obtain ⟨gb, cb, hg, hc, he⟩ := parseCounters_eq_some_iff.mp hp
  rw [counterGroupOf_eq_some_iff] at hg
  rw [flagOf_eq_some_iff] at hc
  have hg' : 1 ≤ (groupCode g).toNat ∧ (groupCode g).toNat ≤ 3 := by cases g <;> decide
  have hc' : (boolCode c).toNat ≤ 1 := by cases c <;> decide
  exact h gb cb (by rw [hg]; exact hg'.1) (by rw [hg]; exact hg'.2) (by rw [hc]; exact hc') he

theorem roleOf_le {b : Byte} {r : BankRole} (h : roleOf b = some r) : b.toNat ≤ 1 := by
  rw [roleOf_eq_some_iff.mp h]
  cases r <;> decide

theorem parseReadMap_eq_none (h : ∀ sel ix : Byte, sel.toNat ≤ 1 → ix.toNat ≤ 127 → args ≠ [sel, ix]) :
    parseReadMap args = none := by
  refine Option.eq_none_iff_forall_ne_some.mpr fun ⟨role, ix⟩ hp => ?_
  obtain ⟨sel, hs, he⟩ := parseReadMap_eq_some_iff.mp hp
  exact h sel _ (roleOf_le hs) (by rw [byteOf_toNat (by omega)]; omega) he

theorem parseReadEdit_eq_none (h : ∀ sel ix : Byte, sel.toNat ≤ 1 → ix.toNat ≤ 63 → args ≠ [sel, ix]) :
    parseReadEdit args = none := by
  refine Option.eq_none_iff_forall_ne_some.mpr fun ⟨role, ix⟩ hp => ?_
  obtain ⟨sel, hs, he⟩ := parseReadEdit_eq_some_iff.mp hp
  exact h sel _ (roleOf_le hs) (by rw [byteOf_toNat (by omega)]; omega) he

theorem parseReadPage_eq_none (h : ∀ sel pg first w : Byte, sel.toNat ≤ 1 → pg.toNat ≤ 7 →
    (first = 255 ∧ w = 1 ∨ 1 ≤ w.toNat ∧ w.toNat ≤ 8 ∧ first.toNat + w.toNat ≤ 64) → args ≠ [sel, pg, first, w]) :
    parseReadPage args = none := by
  refine Option.eq_none_iff_forall_ne_some.mpr fun ⟨role, ix, t, first, w⟩ hp => ?_
  obtain ⟨sel, hs, ht, he⟩ := parseReadPage_eq_some_iff.mp hp
  exact h sel _ first w (roleOf_le hs) (by rw [byteOf_toNat (by omega)]; omega)
    ((pageTarget_eq_some_iff.mp ht).imp (fun h => h.2) fun h => h.2) he

theorem timingInRange_cases {id : Byte} {p : TimingParam} {v : Nat} (hid : timingParamOf id = some p)
    (hv : timingInRange p v = true) : id = 1 ∧ 1 ≤ v ∧ v ≤ 250 ∨ id = 2 ∧ v ≤ 3 ∨ id = 3 ∧ 1 ≤ v ∧ v ≤ 15 ∨
      id = 4 ∧ 1 ≤ v ∧ v ≤ 600 ∨ id = 5 ∧ 10 ≤ v ∧ v ≤ 5000 := by
  rw [timingParamOf_eq_some_iff.mp hid]
  cases p <;> simpa [timingInRange, timingCode] using hv

theorem parseTiming_eq_none (h : ∀ (p : Byte) (v : Word), (p = 1 ∧ 1 ≤ v.toNat ∧ v.toNat ≤ 250 ∨ p = 2 ∧ v.toNat ≤ 3 ∨
    p = 3 ∧ 1 ≤ v.toNat ∧ v.toNat ≤ 15 ∨ p = 4 ∧ 1 ≤ v.toNat ∧ v.toNat ≤ 600 ∨
      p = 5 ∧ 10 ≤ v.toNat ∧ v.toNat ≤ 5000) → args ≠ [p] ++ wordBytes v) : parseTiming args = none := by
  refine Option.eq_none_iff_forall_ne_some.mpr fun ⟨p, v⟩ hp => ?_
  obtain ⟨id, w, hid, hr, -, he⟩ := parseTiming_eq_some_iff.mp hp
  exact h id w (timingInRange_cases hid hr) he

/-! ### What a command whose check fails runs to -/

section Refused

variable (hd) (s)

theorem runClearMap_of_none (hi : s.commit.state = .idle) (h : parseIndex 128 args = none) :
    runClearMap hd args s = answerStored hd .badArgument [] s := by
  rw [runClearMap, unlessDraining_of_idle hi, h]

theorem runClearEdit_of_none (hi : s.commit.state = .idle) (h : parseIndex 64 args = none) :
    runClearEdit hd args s = answerStored hd .badArgument [] s := by
  rw [runClearEdit, unlessDraining_of_idle hi, h]

theorem runReadSlot_of_none (h : parseIndex 32 args = none) :
    runReadSlot hd args s = answerStored hd .badArgument [] s := by
  rw [runReadSlot, h]

theorem runReadStation_of_none (h : parseStation args = none) :
    runReadStation hd args s = answerStored hd .badArgument [] s := by
  rw [runReadStation, h]

theorem runResetStation_of_none (h : parseStation args = none) :
    runResetStation hd args s = answerStored hd .badArgument [] s := by
  rw [runResetStation, h]

theorem runReadCounters_of_none (h : parseCounters args = none) :
    runReadCounters hd args s = answerStored hd .badArgument [] s := by
  rw [runReadCounters, h]

theorem runReadMap_of_none (h : parseReadMap args = none) :
    runReadMap hd args s = answerStored hd .badArgument [] s := by
  rw [runReadMap, h]

theorem runReadEdit_of_none (h : parseReadEdit args = none) :
    runReadEdit hd args s = answerStored hd .badArgument [] s := by
  rw [runReadEdit, h]

theorem runReadPage_of_none (h : parseReadPage args = none) :
    runReadPage hd args s = answerStored hd .badArgument [] s := by
  rw [runReadPage, h]

theorem runSetTiming_of_none (h : parseTiming args = none) :
    runSetTiming hd args s = answerStored hd .badArgument [] s := by
  rw [runSetTiming, h]

/-- The commands that take no arguments (R30, R155, R161 to R163). -/
theorem runReadInfo_of_args (h : args ≠ []) : runReadInfo hd args s = answerStored hd .badArgument [] s := by
  obtain ⟨b, bs, rfl⟩ := List.exists_cons_of_ne_nil h
  rfl

theorem runRestart_of_args (h : args ≠ []) : runRestart hd args s = answerStored hd .badArgument [] s := by
  obtain ⟨b, bs, rfl⟩ := List.exists_cons_of_ne_nil h
  rfl

theorem runCopyBank_of_args (hi : s.commit.state = .idle) (h : args ≠ []) :
    runCopyBank hd args s = answerStored hd .badArgument [] s := by
  obtain ⟨b, bs, rfl⟩ := List.exists_cons_of_ne_nil h
  rw [runCopyBank, unlessDraining_of_idle hi]

theorem runCommit_of_args (hi : s.commit.state = .idle) (h : args ≠ []) :
    runCommit hd args s = answerStored hd .badArgument [] s := by
  obtain ⟨b, bs, rfl⟩ := List.exists_cons_of_ne_nil h
  rw [runCommit, unlessDraining_of_idle hi]

theorem runAbortCommit_of_args (hdrain : s.commit.state = .draining) (h : args ≠ []) :
    runAbortCommit hd args s = answerStored hd .badArgument [] s := by
  obtain ⟨b, bs, rfl⟩ := List.exists_cons_of_ne_nil h
  unfold runAbortCommit
  rw [hdrain]

end Refused

/-- Settles O40: each reader of arguments accepts only the bytes its command describes. -/
theorem badArgumentsAreRefused : Obligations.BadArgumentsAreRefused := by
  intro src seq args s h hl ends
  have bad : ∀ code : Byte, code ≠ 1 → runByCode ⟨src, seq, code⟩ args (countReceived .u s) =
      answerStored ⟨src, seq, code⟩ .badArgument [] (countReceived .u s) → ends code := fun code hc hrun =>
    h.answers hl hc rfl hrun
  refine ⟨fun ha => ⟨?_, ?_, fun hi => ⟨?_, ?_⟩, fun hdrain => ?_⟩, fun hi ha => ?_, fun hi ha => ?_, fun ha => ?_,
    fun ha => ⟨?_, ?_⟩, fun ha => ?_, fun ha => ?_, fun ha => ?_, fun ha => ?_, fun ha => ?_⟩
  · exact bad 2 (by decide) (runReadInfo_of_args _ _ ha)
  · exact bad 19 (by decide) (runRestart_of_args _ _ ha)
  · exact bad 12 (by decide) (runCopyBank_of_args _ _ hi ha)
  · exact bad 13 (by decide) (runCommit_of_args _ _ hi ha)
  · exact bad 14 (by decide) (runAbortCommit_of_args _ _ hdrain ha)
  · exact bad 5 (by decide) (runClearMap_of_none _ _ hi (parseIndex_eq_none (by decide) ha))
  · exact bad 7 (by decide) (runClearEdit_of_none _ _ hi (parseIndex_eq_none (by decide) ha))
  · exact bad 17 (by decide) (runReadSlot_of_none _ _ (parseIndex_eq_none (by decide) ha))
  · exact bad 15 (by decide) (runReadStation_of_none _ _ (parseStation_eq_none ha))
  · exact bad 16 (by decide) (runResetStation_of_none _ _ (parseStation_eq_none ha))
  · exact bad 18 (by decide) (runReadCounters_of_none _ _ (parseCounters_eq_none ha))
  · exact bad 9 (by decide) (runReadMap_of_none _ _ (parseReadMap_eq_none ha))
  · exact bad 10 (by decide) (runReadEdit_of_none _ _ (parseReadEdit_eq_none ha))
  · exact bad 11 (by decide) (runReadPage_of_none _ _ (parseReadPage_eq_none ha))
  · exact bad 3 (by decide) (runSetTiming_of_none _ _ (parseTiming_eq_none ha))

/-! ### Writing the shadow bank (R19, R23 to R28, R30) -/

/-- A configuration command's success: the shadow rewritten, and DONE. -/
theorem MgmtReady.wrote (h : MgmtReady s seq) (hl : args.length ≤ 32) (hc : code ≠ 1) {f : Bank → Bank}
    (hrun : runByCode ⟨src, seq, code⟩ args (countReceived .u s) =
      answerStored ⟨src, seq, code⟩ .done [] (updateShadow f (countReceived .u s))) :
    exec (mgmtCommand code src seq args) s = .next (answered ⟨src, seq, code⟩ .done []
      { s with store := s.store.setShadow (f s.store.shadowBank) }) :=
  h.answers hl hc rfl hrun

/-- Settles O41: a WRITE_MAP's arguments spell at most one entry. -/
theorem mapWritesStoreTheirEntry : Obligations.MapWritesStoreTheirEntry := by
  intro src seq args s h hi hl shadow
  have hi' : (countReceived .u s).commit.state = .idle := hi
  refine ⟨fun ix e ha => ?_, fun ha => ?_, fun ix ha => ?_⟩
  · refine h.wrote (code := 4) hl (by decide) (f := (·.setEntry ix (some e))) ?_
    show runWriteMap _ _ _ = _
    rw [runWriteMap, unlessDraining_of_idle hi', parseMap_eq_some_iff.mpr ha]
  · refine h.answers (code := 4) hl (by decide) rfl ?_
    show runWriteMap _ _ _ = _
    have hnone : parseMap args = none :=
      Option.eq_none_iff_forall_ne_some.mpr fun p hp => ha ⟨p.1, p.2, parseMap_eq_some_iff.mp hp⟩
    rw [runWriteMap, unlessDraining_of_idle hi', hnone]
  · refine h.wrote (code := 5) hl (by decide) (f := (·.setEntry ix none)) ?_
    show runClearMap _ _ _ = _
    rw [runClearMap, unlessDraining_of_idle hi', (parseIndex_eq_some_iff (by decide)).mpr ha]

/-- Settles O42: a WRITE_EDIT's arguments spell at most one record. -/
theorem editWritesStoreTheirRecord : Obligations.EditWritesStoreTheirRecord := by
  intro src seq args s h hi hl shadow
  have hi' : (countReceived .u s).commit.state = .idle := hi
  refine ⟨fun ix r ha => ?_, fun ha => ?_, fun ix ha => ?_⟩
  · refine h.wrote (code := 6) hl (by decide) (f := (·.setRecord ix (some r))) ?_
    show runWriteEdit _ _ _ = _
    rw [runWriteEdit, unlessDraining_of_idle hi', parseEdit_eq_some_iff.mpr ha]
  · refine h.answers (code := 6) hl (by decide) rfl ?_
    show runWriteEdit _ _ _ = _
    have hnone : parseEdit args = none :=
      Option.eq_none_iff_forall_ne_some.mpr fun p hp => ha ⟨p.1, p.2, parseEdit_eq_some_iff.mp hp⟩
    rw [runWriteEdit, unlessDraining_of_idle hi', hnone]
  · refine h.wrote (code := 7) hl (by decide) (f := (·.setRecord ix none)) ?_
    show runClearEdit _ _ _ = _
    rw [runClearEdit, unlessDraining_of_idle hi', (parseIndex_eq_some_iff (by decide)).mpr ha]

theorem writeWords_dflt : ∀ (ws : List Word) (first : Nat) (p : Page), (p.writeWords first ws).dflt = p.dflt
  | [], _, _ => rfl
  | _ :: ws, first, _ => writeWords_dflt ws (first + 1) _

/-- The words go to consecutive inputs, and no other input changes (R28). -/
theorem writeWords_words : ∀ (ws : List Word) (first : Nat) (p : Page), first + ws.length ≤ 64 → ∀ n : Fin 64,
    (p.writeWords first ws).words[n] =
      if first ≤ n.val ∧ n.val < first + ws.length then ws.getD (n.val - first) 0 else p.words[n]
  | [], first, p, _, n => by
    rw [if_neg (by simp)]
    rfl
  | w :: ws, first, p, hroom, n => by
    rw [List.length_cons] at hroom
    rw [Page.writeWords, writeWords_words ws (first + 1) _ (by omega) n, List.length_cons]
    by_cases hn : n.val = first
    · subst hn
      rw [if_neg (by omega), if_pos (by omega), Nat.sub_self]
      simp
    · have hkept : (p.words.setIfInBounds first w)[n] = p.words[n] :=
        Vector.getElem_setIfInBounds_ne _ (fun h => hn h.symm)
      rw [hkept]
      by_cases hin : first + 1 ≤ n.val ∧ n.val < first + 1 + ws.length
      · rw [if_pos hin, if_pos (by omega), show n.val - first = n.val - (first + 1) + 1 by omega, List.getD_cons_succ]
      · rw [if_neg hin, if_neg (by omega)]

/-- Settles O43: what the words go to, and that other arguments spell no write. -/
theorem pageWritesStoreTheirWords : Obligations.PageWritesStoreTheirWords := by
  intro src seq args s h hi hl shadow stored
  have hi' : (countReceived .u s).commit.state = .idle := hi
  have hwrote : ∀ {ix target ws}, parsePage args = some (ix, target, ws) →
      stored ix ((shadow.page ix).write target ws) := fun {ix target ws} hp => by
    refine h.wrote (code := 8) hl (by decide) (f := fun b => b.setPage ix ((b.page ix).write target ws)) ?_
    show runWritePage _ _ _ = _
    rw [runWritePage, unlessDraining_of_idle hi', hp]
  refine ⟨fun ix first ws ha => ?_, fun ix w ha => ?_, fun hw hdef => ?_⟩
  · exact ⟨_, hwrote (parsePage_words_iff.mpr ha), writeWords_dflt ws first _, writeWords_words ws first _ ha.room⟩
  · exact hwrote (parsePage_dflt_iff.mpr ⟨w, rfl, ha⟩)
  · have hnone : parsePage args = none := by
      refine Option.eq_none_iff_forall_ne_some.mpr fun ⟨ix, target, ws⟩ hp => ?_
      cases target with
      | words first => exact hw ⟨ix, first, ws, parsePage_words_iff.mp hp⟩
      | dflt =>
        obtain ⟨w, -, ha⟩ := parsePage_dflt_iff.mp hp
        exact hdef ⟨ix, w, ha⟩
    refine h.answers (code := 8) hl (by decide) rfl ?_
    show runWritePage _ _ _ = _
    rw [runWritePage, unlessDraining_of_idle hi', hnone]

theorem setShadow_marks (st : BankStore) (b : Bank) :
    (st.setShadow b).active = st.active ∧ (st.setShadow b).generation = st.generation := by
  unfold BankStore.setShadow
  split <;> exact ⟨rfl, rfl⟩

/-- Settles O44: a copy is a write of the shadow, and a write of the shadow is nothing else. -/
theorem copyBankCopiesTheActiveBank : Obligations.CopyBankCopiesTheActiveBank := by
  refine ⟨fun src seq s h hi => ?_, fun st b => ?_⟩
  · have hi' : (countReceived .u s).commit.state = .idle := hi
    refine h.wrote (code := 12) (by decide) (by decide) (f := fun _ => s.store.activeBank) ?_
    show runCopyBank ⟨src, seq, 12⟩ [] (countReceived .u s) = _
    rw [runCopyBank, unlessDraining_of_idle hi']
    rfl
  · exact ⟨(setShadow_facts st b).1, (setShadow_facts st b).2, (setShadow_marks st b).1, (setShadow_marks st b).2⟩

end Sys2Proof.Safety

/-! The reading and the setting commands (R14, R29, R114, R116, R157 to R160, R163, R185, R186). -/

namespace Sys2Proof.Safety

open Sys2Proof.Machine

variable {s : State} {seq : Byte}

/-! ### Banks (R29) -/

/-- Consecutive inputs of a page, read one by one. -/
theorem take_drop_eq_map_getD {l : List Word} {first n : Nat} (h : first + n ≤ l.length) :
    (l.drop first).take n = (List.range n).map fun j => l.getD (first + j) 0 := by
  refine List.ext_getElem (by simp; omega) fun j h1 h2 => ?_
  have hj : first + j < l.length := by simp at h1; omega
  simp [hj]

/-- Settles O45: each read's data is the item's layout, whatever the commit state. -/
theorem bankReadsAnswerTheItem : Obligations.BankReadsAnswerTheItem := by
  intro src seq sel bank s h hsel
  obtain ⟨role, hrole, rfl⟩ : ∃ role, roleOf sel = some role ∧ s.store.ofRole role = bank := by
    rcases hsel with ⟨rfl, rfl⟩ | ⟨rfl, rfl⟩
    · exact ⟨.active, rfl, rfl⟩
    · exact ⟨.shadow, rfl, rfl⟩
  have hpage : ∀ {ix : PageIx} {target : PageTarget} {first w : Byte}, pageTarget first w = some target →
      exec (.readPage src seq [sel, byteOf ix.val, first, w]) s = .next (answered ⟨src, seq, 11⟩ .done
        (pageData ix first w (((s.store.ofRole role).page ix).read target w.toNat)) s) :=
    fun {ix target first w} ht => by
      refine h.answers (code := 11) (by simp) (by decide) rfl ?_
      show runReadPage ⟨src, seq, 11⟩ [sel, byteOf ix.val, first, w] (countReceived .u s) = _
      rw [runReadPage, parseReadPage_eq_some_iff.mpr ⟨sel, hrole, ht, rfl⟩]
      rfl
  refine ⟨fun ix data hdata => ?_, fun ix data hdata => ?_, fun ix first n h1 h8 hroom => ?_, fun ix => ?_⟩
  · have hd : byteOf ix.val :: data = mapData ix ((s.store.ofRole role).entry ix) := by
      rcases hdata with ⟨e, he, rfl⟩ | ⟨he, rfl⟩
      · rw [Bank.entry, he]; rfl
      · rw [Bank.entry, he]; rfl
    refine h.answers (code := 9) (by simp) (by decide) rfl ?_
    show runReadMap ⟨src, seq, 9⟩ [sel, byteOf ix.val] (countReceived .u s) = _
    rw [runReadMap, parseReadMap_eq_some_iff.mpr ⟨sel, hrole, rfl⟩, hd]
    rfl
  · have hd : byteOf ix.val :: data = editData ix (s.store.ofRole role).edits[ix] := by
      rcases hdata with ⟨r, hr, rfl⟩ | ⟨hr, rfl⟩
      · rw [hr]; rfl
      · rw [hr]; rfl
    refine h.answers (code := 10) (by simp) (by decide) rfl ?_
    show runReadEdit ⟨src, seq, 10⟩ [sel, byteOf ix.val] (countReceived .u s) = _
    rw [runReadEdit, parseReadEdit_eq_some_iff.mpr ⟨sel, hrole, rfl⟩, hd]
    rfl
  · have hf : (byteOf first).toNat = first := byteOf_toNat (by omega)
    have hn : (byteOf n).toNat = n := byteOf_toNat (by omega)
    rw [hpage (pageTarget_eq_some_iff.mpr (.inr ⟨rfl, by omega, by omega, by omega⟩)), hf, hn]
    rw [Page.read, take_drop_eq_map_getD (by rw [Vector.length_toList]; exact hroom)]
    rfl
  · rw [hpage (target := .dflt) rfl]
    simp [pageData, Page.read, wordsBytes, Bank.page]

/-! ### Snapshots (R114, R157, R158) -/

theorem slots_toList (s : State) : s.slots.toList = (List.finRange 32).map s.slot :=
  List.ext_getElem (by simp) fun i h1 h2 => by simp [State.slot]

theorem slotsInUse_eq (s : State) :
    s.slotsInUse = (List.finRange 32).countP fun i => decide ((s.slot i).state ≠ .free) := by
  rw [State.slotsInUse, slots_toList, List.countP_map]
  rfl

theorem bankCode_eq (id : BankId) : bankCode id = if id = .b then 1 else 0 := by cases id <;> rfl

theorem boolCode_stopped (t : Timer) : boolCode (decide (t ≠ .stopped)) = if t = .stopped then 0 else 1 := by
  cases t <;> simp [boolCode]

theorem infoData_eq (s : State) : infoData s =
    [240, 3, s.ownAddress, if s.s1Present = true then 1 else 0] ++ wordBytes s.store.generation ++
      [if s.commit.state = .draining then 1 else 0, if s.store.active = .b then 1 else 0,
        byteOf ((List.finRange 32).countP (fun i => decide ((s.slot i).state ≠ .free))),
        byteOf s.agent.replyTimeout, byteOf s.agent.retries, byteOf s.agent.silentThreshold] ++
      wordBytes (BitVec.ofNat 16 s.agent.probeInterval) ++ wordBytes (BitVec.ofNat 16 s.agent.drainLimit) := by
  rw [infoData, commitStateCode_eq, bankCode_eq, slotsInUse_eq]
  rfl

theorem stationData_eq (k : Segment) (a : StationAddr) (r : Station) : stationData k a r =
    [segmentCode k, byteOf (a.val + 1), healthCode r.health, byteOf r.failures,
      (r.activeSlot.map (fun i => byteOf i.val)).getD 255, byteOf r.held.length,
      if r.dueTimer = .stopped then 0 else 1, if r.due = true then 1 else 0] := by
  rw [stationData, boolCode_stopped]
  cases r.activeSlot <;> rfl

theorem slotData_eq (i : SlotIx) (x : Slot) : slotData i x =
    [byteOf i.val, slotStateCode x.state] ++
      (if x.state = .free then List.replicate 15 0
        else [x.ctrlAddr, x.ctrlTag, x.logStation] ++ wordBytes x.logIndex ++
          [x.count, opCode x.op, segmentCode x.seg, byteOf (x.station.val + 1)] ++ wordBytes x.physIndex ++
          [refCode x.upEdit] ++ wordBytes x.generation ++ [byteOf x.retriesLeft]) ++
      [byteOf x.cur.val, byteOf x.next.val,
        if x.state = .replyReady then (x.built.map (fun b => replyStatusCode b.status)).getD 255 else 255] := by
  have hlast : (match x.state, x.built with
      | .replyReady, some b => replyStatusCode b.status
      | _, _ => 255) =
        if x.state = .replyReady then (x.built.map (fun b => replyStatusCode b.status)).getD 255 else 255 := by
    cases x.state <;> cases x.built <;> rfl
  rw [← hlast, slotData, List.append_assoc]
  rfl

/-- Settles O46: three data layouts, and no effect. -/
theorem snapshotsAnswerTheFieldsAsTheyStand : Obligations.SnapshotsAnswerTheFieldsAsTheyStand := by
  refine fun src seq s h => ⟨?_, fun k a => ?_, fun i => ?_⟩
  · rw [← infoData_eq]
    exact h.answers (code := 2) (args := []) (by decide) (by decide) rfl rfl
  · dsimp only
    rw [← stationData_eq]
    refine h.answers (code := 15) (args := [segmentCode k, addrByte a]) (by simp) (by decide) rfl ?_
    show runReadStation ⟨src, seq, 15⟩ [segmentCode k, addrByte a] (countReceived .u s) = _
    rw [runReadStation, parseStation_eq_some_iff.mpr rfl]
    rfl
  · dsimp only
    rw [← slotData_eq]
    refine h.answers (code := 17) (args := [byteOf i.val]) (by simp) (by decide) rfl ?_
    show runReadSlot ⟨src, seq, 17⟩ [byteOf i.val] (countReceived .u s) = _
    rw [runReadSlot, (parseIndex_eq_some_iff (by decide)).mpr rfl]
    rfl

/-! ### Counters (R159, R185, R186) -/

/-- The arbiter's choice does not read the counters. -/
theorem arbiterIfIdle_setCounters (c : Counters) (s : State) :
    arbiterIfIdle (s.setCounters c) = (arbiterIfIdle s).setCounters c := by
  unfold arbiterIfIdle
  rw [State.setCounters_up]
  cases s.up.sending with
  | some u => rfl
  | none =>
    unfold arbiterChoice
    rw [show (s.setCounters c).controlMayGo = s.controlMayGo from rfl, State.setCounters_up]
    dsimp only
    split
    · rfl
    · rfl
    · unfold moveWaitList
      simp only [State.setUp_up]
      split <;> rfl
    · rfl

theorem exec_readCounters (h : MgmtReady s seq) {src gb cb : Byte} {group : CounterGroup} {clear : Bool}
    (hg : counterGroupOf gb = some group) (hc : flagOf cb = some clear) :
    exec (.readCounters src seq [gb, cb]) s = .next
      { answered ⟨src, seq, 18⟩ .done (counterData (countReceived .u s).counters group) s with
        counters := if clear then (countReceived .u s).counters.clearGroup group
          else (countReceived .u s).counters } := by
  have hrun : ∀ hd, runReadCounters hd [gb, cb] (countReceived .u s) = clearCounters group clear
      (answerStored hd .done (counterData (countReceived .u s).counters group) (countReceived .u s)) := fun hd => by
    rw [runReadCounters, parseCounters_eq_some_iff.mpr ⟨gb, cb, hg, hc, rfl⟩]
  refine (exec_ready (code := 18) (args := [gb, cb]) h (by simp) (by decide)).trans (congrArg _ ?_)
  refine (congrArg arbiterIfIdle (hrun _)).trans ?_
  cases clear with
  | false => exact arbiterIfIdle_answered h.rests h.running rfl _ _ _
  | true =>
    refine (arbiterIfIdle_setCounters _ _).trans ?_
    rw [arbiterIfIdle_answered h.rests h.running rfl]
    rfl

theorem bump_toNat (c : Count) : (bump c).toNat = if c.toNat = 4294967295 then 4294967295 else c.toNat + 1 := by
  have htop : c = BitVec.allOnes 32 ↔ c.toNat = 4294967295 :=
    ⟨fun h => h ▸ rfl, fun h => BitVec.eq_of_toNat_eq h⟩
  unfold bump
  by_cases h : c.toNat = 4294967295
  · rw [if_pos (htop.mpr h), if_pos h, h]
  · rw [if_neg (fun e => h (htop.mp e)), if_neg h, BitVec.toNat_add]
    have := c.isLt
    exact Nat.mod_eq_of_lt (by simp; omega)

/-- Settles O47: the reading, the clearing, and the 26 counts. -/
theorem countersAreReadThenCleared : Obligations.CountersAreReadThenCleared := by
  refine ⟨fun src seq clear s h hc => ?_, fun c => bump_toNat c, fun s => ⟨fun p => ?_, rfl, rfl, rfl, rfl, rfl, rfl, rfl,
    rfl, fun k => ?_⟩⟩
  · have hread : ∀ {gb : Byte} {group : CounterGroup}, counterGroupOf gb = some group →
        exec (.readCounters src seq [gb, clear]) s = .next
          { answered ⟨src, seq, 18⟩ .done (counterData (countReceived .u s).counters group) s with
            counters := if clear = 1 then (countReceived .u s).counters.clearGroup group
              else (countReceived .u s).counters } := fun hg => by
      rcases hc with rfl | rfl
      · exact exec_readCounters h hg (clear := false) rfl
      · exact exec_readCounters h hg (clear := true) rfl
    intro c four three ends
    have hends : ∀ {gb : Byte} {group : CounterGroup} {read : List Count}, counterGroupOf gb = some group →
        counterData c group = read.flatMap countBytes → ends gb read (c.clearGroup group) := fun hg hd => by
      show exec _ s = _
      rw [← hd]
      exact hread hg
    refine ⟨hends (group := .port) rfl ?_, hends (group := .traffic) rfl ?_, hends (group := .segment) rfl ?_⟩ <;>
      simp [counterData, portCounterBytes, trafficCounterBytes, segmentCounterBytes, four, three]
  · cases p <;> exact ⟨rfl, rfl, rfl, rfl⟩
  · cases k <;> exact ⟨rfl, rfl, rfl⟩

/-! ### Setting, RESET_STATION and RESTART (R116, R160, R163) -/

theorem exec_setTiming (h : MgmtReady s seq) {src id : Byte} {p : TimingParam} {v : Word}
    (hid : timingParamOf id = some p) (hv : timingInRange p v.toNat = true) :
    exec (.setTiming src seq ([id] ++ wordBytes v)) s =
      .next (answered ⟨src, seq, 3⟩ .done [] (s.setAgent (setTimingParam p v.toNat s.agent))) := by
  refine h.answers (code := 3) (args := [id] ++ wordBytes v) (by simp [wordBytes]) (by decide) rfl ?_
  show runSetTiming ⟨src, seq, 3⟩ ([id] ++ wordBytes v) (countReceived .u s) = _
  rw [runSetTiming, parseTiming_eq_some_iff.mpr ⟨id, v, hid, hv, rfl, rfl⟩]
  rfl

/-- Settles O48: each of the three changes one record. -/
theorem settingCommandsActOnOneRecord : Obligations.SettingCommandsActOnOneRecord := by
  refine ⟨fun src seq v s h => ?_, fun src seq s h => ⟨fun k a => ?_, ?_⟩⟩
  · have hset := fun {id} p => exec_setTiming h (src := src) (id := id) (p := p) (v := v)
    exact ⟨fun h1 h2 => hset .replyTimeout rfl (decide_eq_true ⟨h1, h2⟩), fun h2 => hset .retries rfl (decide_eq_true h2),
      fun h1 h2 => hset .silentThreshold rfl (decide_eq_true ⟨h1, h2⟩),
      fun h1 h2 => hset .probeInterval rfl (decide_eq_true ⟨h1, h2⟩),
      fun h1 h2 => hset .drainLimit rfl (decide_eq_true ⟨h1, h2⟩)⟩
  · refine h.answers (code := 16) (args := [segmentCode k, addrByte a]) (t := resetStation k a s) (by simp) (by decide)
      (by simp [resetStation]) ?_
    show runResetStation ⟨src, seq, 16⟩ [segmentCode k, addrByte a] (countReceived .u s) = _
    rw [runResetStation, parseStation_eq_some_iff.mpr rfl]
    cases k <;> rfl
  · exact h.answers (code := 19) (args := []) (by decide) (by decide) rfl rfl

end Sys2Proof.Safety

/-! Events that do not occur (R9, R180, R181), and blocks at the ports (R1 to R6, R13, R18). -/

namespace Sys2Proof.Machine

open Sys2Proof.Safety

variable {s : State} {p : Port} {k : Segment} {block body : List Byte}

/-! ### Events that do not occur -/

theorem whenRunning_of_held (h : s.resetHeld = true) (f : State → State) : whenRunning f s = .next s := by
  rw [whenRunning_next, if_pos h]

/-- An event that does not occur changes nothing, RESET_N low or high. -/
theorem whenRunning_of_idle {f : State → State} (h : f s = s) : whenRunning f s = .next s := by
  rw [whenRunning_next, h, ite_self]

theorem exec_of_held {c : Instr} (h : s.resetHeld = true) (ha : c ≠ .pinResetAssert)
    (hr : ∀ addr s1En, c ≠ .pinResetRelease addr s1En) : exec c s = .next s := by
  cases c with
  | pinResetAssert => exact absurd rfl ha
  | pinResetRelease addr s1En => exact absurd rfl (hr addr s1En)
  | _ => exact whenRunning_of_held h _

theorem expireSlot_of_not_due {i : SlotIx} (h : (s.slot i).state ≠ .sent ∨ (s.slot i).deadline = .stopped) :
    expireSlot i s = s := by
  refine if_neg fun ⟨hs, hd⟩ => ?_
  rcases h with h | h
  · exact h hs
  · rw [h] at hd; cases hd

theorem expireProbeDue_of_stopped {a : StationAddr} (h : (s.station k a).dueTimer = .stopped) :
    expireProbeDue k a s = s :=
  if_neg (by rw [h]; decide)

theorem expireProbeDeadline_of_not_awaited (h : ∀ a d, (s.seg k).probe ≠ .awaiting a (.running d)) :
    expireProbeDeadline k s = s := by
  unfold expireProbeDeadline
  split
  · next a t ht =>
    cases t with
    | stopped => rfl
    | running d => exact absurd ht (h a d)
  · rfl
  · rfl

theorem expireRefresh_of_stopped {station : Byte} {index : Word}
    (h : ∀ c ∈ s.cache, c.station = station → c.index = index → c.countdown = .stopped) :
    expireRefresh station index s = s := by
  have hmap : s.cache.map (expireEntry station index) = s.cache := by
    refine (List.map_congr_left fun c hc => ?_).trans (List.map_id _)
    refine if_neg fun he => ?_
    rw [Bool.and_eq_true, CacheEntry.hasKey_iff] at he
    rw [h c hc he.1.1 he.1.2] at he
    exact absurd he.2 (by decide)
  rw [expireRefresh, hmap]

theorem expireDrain_of_not_due (h : s.commit.state = .idle ∨ s.commit.drainTimer = .stopped) : expireDrain s = s := by
  refine if_neg fun ⟨hs, hd⟩ => ?_
  rcases h with h | h
  · rw [h] at hs; cases hs
  · rw [h] at hd; cases hd

theorem endSegment_of_none (h : (s.seg k).record = .none) : endSegment k s = s := by rw [endSegment, h]

theorem endUpstream_of_none (h : s.up.sending = none) : endUpstream s = s := by rw [endUpstream, h]

/-- Settles O5: RESET_N held low, and the seven events whose timer or transmission is not there. -/
theorem eventsThatDoNotOccurChangeNothing : Obligations.EventsThatDoNotOccurChangeNothing :=
  ⟨fun _ _ h ha hr => exec_of_held h ha hr, fun _ =>
    ⟨fun _ h => whenRunning_of_idle (expireSlot_of_not_due h),
      fun _ _ h => whenRunning_of_idle (expireProbeDue_of_stopped h),
      fun _ h => whenRunning_of_idle (expireProbeDeadline_of_not_awaited h),
      fun _ _ h => whenRunning_of_idle (expireRefresh_of_stopped h),
      fun h => whenRunning_of_idle (expireDrain_of_not_due h),
      fun _ h => whenRunning_of_idle (endSegment_of_none h),
      fun h => whenRunning_of_idle (endUpstream_of_none h)⟩⟩

/-! ### The framer's tests (R1, R2, R18) -/

theorem deliverBlock_of_malformed (h : receive s.ownAddress s.s1Present p block = .malformed) :
    deliverBlock p block s = countMalformed p s := by
  rw [deliverBlock, h]

theorem deliverBlock_of_checkError (h : receive s.ownAddress s.s1Present p block = .checkError) :
    deliverBlock p block s = countCheckError p s := by
  rw [deliverBlock, h]

theorem kindAccepted_eq_false {kind : Byte} (hu : p = .u → kind ≠ 1 ∧ kind ≠ 4) (hs : p ≠ .u → kind ≠ 2 ∧ kind ≠ 3) :
    kindAccepted p kind = false := by
  have hneither : ∀ {a b : Byte}, kind ≠ a ∧ kind ≠ b → decide (kind = a ∨ kind = b) = false := fun h =>
    decide_eq_false (not_or.mpr h)
  cases p with
  | u => exact hneither (hu rfl)
  | s0 => exact hneither (hs nofun)
  | s1 => exact hneither (hs nofun)

/-- Settles O6: the tests of R2 in their order, and the manual's example of R1. -/
theorem framingTestsCountTheFirstFailure : Obligations.FramingTestsCountTheFirstFailure := by
  refine ⟨fun p s hr h1 => ⟨fun block hlen => ?_, fun body c1 c0 h6 h62 hc => ?_, fun kind body h5 h61 hu hs => ?_⟩,
    by decide +kernel, by decide +kernel⟩
  · rw [exec_block hr, deliverBlock_of_malformed]
    rw [receive_service h1, examine_length hlen]
  · rw [exec_block hr, deliverBlock_of_checkError]
    rw [receive_service h1, examine_body rfl h6 h62, if_neg hc]
  · rw [exec_block hr, deliverBlock_of_malformed]
    have hlen : (kind :: body).length = body.length + 1 := rfl
    rw [receive_service h1, examine_withCheck (by omega) (by omega),
      if_neg (by rw [List.headD_cons, kindAccepted_eq_false hu hs]; decide)]

/-! ### The forms (R5, R6) -/

theorem replyFormOk_iff {status count : Byte} {values : List Word} : replyFormOk status count values = true ↔
    status = 0 ∧ (1 ≤ count.toNat ∧ count.toNat ≤ 8) ∧ (values = [] ∨ values.length = count.toNat) ∨
      status ≠ 0 ∧ count = 0 ∧ values = [] := by
  unfold replyFormOk
  split
  · next h => simp [h]
  · next h => simp [show ¬ status = 0#8 from h]

theorem formS_of_short (h : body.length < 8) : formS k body = .malformed := by
  unfold formS
  split
  · simp at h
    omega
  · rfl

theorem formCheck_port (own : Byte) (k : Segment) (body : List Byte) : formCheck own k.port body = formS k body := by
  cases k <;> rfl

theorem port_service (h : s.inService k = true) : k.port = .s1 → s.s1Present = true := by
  cases k with
  | s0 => exact nofun
  | s1 => exact fun _ => h

theorem kindAccepted_port {kind : Byte} (h : kind = 2 ∨ kind = 3) : kindAccepted k.port kind = true := by
  cases k <;> exact decide_eq_true h

/-- A framed body that fails its port's form. -/
theorem exec_of_bad_form (hr : s.resetHeld = false) (h1 : p = .s1 → s.s1Present = true) (h6 : 6 ≤ body.length)
    (h62 : body.length ≤ 62) (hk : kindAccepted p (body.headD 0) = true)
    (hf : formCheck s.ownAddress p body = .malformed) :
    exec (.framingDiscard p (withCheck body)) s = .next (countMalformed p s) := by
  rw [exec_block hr, deliverBlock_of_malformed]
  rw [receive_withCheck h1 h6 h62 hk, hf]

/-- Settles O7: the conditions of R5 and R6, each by itself. -/
theorem formFailuresCountMalformed : Obligations.FormFailuresCountMalformed := by
  refine ⟨fun dst src seq code n args s hr hl hbad => ?_,
    fun k dst src tag status index count vs s hr hk hl hbad => ?_,
    fun k dst src tag status index count vs s hr hk hl hbad => ?_, fun k kind rest s hr hk hkind hlen => ?_⟩
  · refine exec_of_bad_form hr nofun (by simp) (by simp; omega) rfl ?_
    refine (formCheck_mgmt s.ownAddress dst src seq code n args).trans (if_neg fun ⟨h1, h2, h3⟩ => ?_)
    rcases hbad with h | h | h
    · exact absurd h2 (by show ¬ n.toNat ≤ 32; omega)
    · exact h h1
    · exact h h3
  · refine exec_of_bad_form hr (port_service hk) (by simp [wordBytes]) (by simp [wordBytes]; omega)
      (kindAccepted_port (.inl rfl)) ?_
    refine (formCheck_reply s.ownAddress k dst src tag status index count vs).trans ?_
    split
    · next values hv =>
      have hvs := wordsBytes_wordsOf vs hv
      refine if_neg fun hok => ?_
      rcases replyFormOk_iff.mp hok with ⟨hst, ⟨h1, h8⟩, hn⟩ | ⟨hst, hc, hn⟩
      · have hne : values ≠ [] → vs.length = 2 * count.toNat := fun hv => by
          rw [hvs, wordsBytes_length, hn.resolve_left hv]
        rcases hbad with ⟨-, rfl | h | ⟨h, hlen⟩⟩ | ⟨h, -⟩
        · exact absurd h1 (by decide)
        · omega
        · exact hlen (hne fun hnil => h (by rw [hvs, hnil]; rfl))
        · exact h hst
      · rcases hbad with ⟨h, -⟩ | ⟨-, h | h⟩
        · exact hst h
        · exact h hc
        · exact h (by rw [hvs, hn]; rfl)
    · rfl
  · refine exec_of_bad_form hr (port_service hk) (by simp [wordBytes]) (by simp [wordBytes]; omega)
      (kindAccepted_port (.inr rfl)) ?_
    refine (formCheck_change s.ownAddress k dst src tag status index count vs).trans ?_
    split
    · refine if_neg fun ⟨hst, hc⟩ => ?_
      rcases hbad with h | h | h
      · exact h hst
      · exact h hc
      · exact h rfl
    · rfl
  · have hb : (kind :: rest).length = rest.length + 1 := rfl
    refine exec_of_bad_form hr (port_service hk) (by omega) (by omega) (kindAccepted_port hkind) ?_
    rw [formCheck_port, formS_of_short (by omega)]

/-! ### A telegram's own bytes (R13, R14) -/

theorem mgmtCommand_wellFormed {code src seq : Byte} {args : List Byte}
    (h : (mgmtCommand code src seq args).wellFormed = true) : args.length ≤ 32 := by
  have hargs : argsOk args = true := by
    unfold mgmtCommand at h
    split at h
    all_goals first | exact h | exact (Bool.and_eq_true_iff.mp h).2
  exact of_decide_eq_true hargs

/-- The block a telegram's bytes make is handed to the telegram's own taker. -/
theorem exec_framed {c : Instr} (h : TelegramOf s.ownAddress c p body) (hw : c.wellFormed = true)
    (h1 : p = .s1 → s.s1Present = true) : whenRunning (deliverBlock p (withCheck body)) s = exec c s := by
  have hd : ∀ {f : State → State}, exec c s = whenRunning f s → deliverBlock p (withCheck body) s = f s →
      whenRunning (deliverBlock p (withCheck body)) s = exec c s := fun he hf => by
    rw [he, whenRunning_next, whenRunning_next, hf]
  cases h with
  | request dst src tag rest =>
    have hlen := of_decide_eq_true hw
    refine hd (f := deliverRequest dst src tag rest) rfl ?_
    rw [deliverBlock, receive_withCheck h1 (by simp; omega) (by simp; omega) rfl]
    rfl
  | mgmt code src seq args =>
    have hlen := mgmtCommand_wellFormed hw
    have hn : (byteOf args.length).toNat = args.length := byteOf_toNat (by omega)
    refine hd (exec_mgmtCommand code src seq args s) ?_
    rw [deliverBlock, receive_withCheck h1 (by simp) (by simp; omega) rfl]
    rw [show formCheck s.ownAddress .u ([4, s.ownAddress, src, seq, code, byteOf args.length] ++ args) =
      .mgmt src seq code args from (formCheck_mgmt _ _ _ _ _ _ _).trans (if_pos ⟨hn.symm, by rw [hn]; exact hlen, rfl⟩)]
  | reply k dst src tag status index count values =>
    have hlen : values.length ≤ 8 := by
      rcases replyFormOk_iff.mp hw with ⟨-, ⟨-, h8⟩, h | h⟩ | ⟨-, -, h⟩
      · simp [h]
      · omega
      · simp [h]
    refine hd (f := deliverReply k src tag status count values) rfl ?_
    rw [deliverBlock, receive_withCheck h1 (by simp [wordBytes]) (by simp [wordBytes, wordsBytes_length]; omega)
      (kindAccepted_port (.inl rfl))]
    rw [show formCheck s.ownAddress k.port ([2, dst, src, tag, status] ++ wordBytes index ++ [count] ++
      wordsBytes values) = .reply k dst src tag status index count values from
        (formCheck_reply _ _ _ _ _ _ _ _ _).trans (by rw [wordsOf_wordsBytes]; exact if_pos hw)]
  | change k dst src tag index value =>
    refine hd (f := deliverChange k src index value) rfl ?_
    rw [deliverBlock, receive_withCheck h1 (by simp [wordBytes]) (by simp [wordBytes]) (kindAccepted_port (.inr rfl))]
    rw [show formCheck s.ownAddress k.port ([3, dst, src, tag, 0] ++ wordBytes index ++ [1] ++ wordBytes value) =
      .change k dst src tag index value from
        (formCheck_change _ _ _ _ _ _ _ _ _).trans ((if_pos ⟨rfl, rfl⟩).trans (by rw [wordOf_bytes]))]

/-- Settles O9: the framer, the form check and the readers give back every field. -/
theorem framedTelegramIsItsCommand : Obligations.FramedTelegramIsItsCommand := by
  refine fun s c p body h hw h1 => ⟨exec_framed h hw h1, ?_⟩
  rintro rfl
  exact exec_framed h hw h1

end Sys2Proof.Machine

/-! REQUEST (chapter 4): the checks of R55 in order, a refusal's way up, and an admission's place. -/

namespace Sys2Proof.Safety

open Sys2Proof.Machine

variable {s : State} {dst src tag : Byte} {rest : List Byte} {op : Op} {index : Word} {count : Byte}
  {values written : List Word} {e : MapEntry} {i : SlotIx}

/-! ### The arbiter after a taking that enters at most one telegram (R135, R140, R141) -/

theorem arbiterIfIdle_of_sending {u : UpTelegram} (h : s.up.sending = some u) : arbiterIfIdle s = s := by
  rw [arbiterIfIdle, h]

theorem arbiterIfIdle_of_none (h : s.up.sending = none) : arbiterIfIdle s = arbiterChoice s := by
  rw [arbiterIfIdle, h]

theorem arbiterIfIdle_entered (hu : UpstreamRests s) (hr : s.resetHeld = false) (t : Telegram) :
    arbiterIfIdle (enterTraffic t s) = s.setUp (trafficEntered t s.up) := by
  cases hs : s.up.sending with
  | some u => 
    rw [arbiterIfIdle_of_sending (s := enterTraffic t s) hs]
    simp [trafficEntered, hs, enterTraffic, State.setUp]
  | none =>
    obtain ⟨ht, ho, hn, hw⟩ := hu hr hs
    have hone : (enterTraffic t s).up.traffic = [t] := congrArg (· ++ [t]) ht
    rw [arbiterIfIdle_of_none (s := enterTraffic t s) hs,
      arbiterChoice_of_traffic (s := enterTraffic t s) (.inr ⟨ho, hn⟩) hone,
      moveWaitList_of_nil, trafficEntered, hs, ht]
    · rfl
    · exact hw

/-! ### Form (R56, R64) -/

theorem RequestBytes.parse (h : RequestBytes rest op index count values) :
    parseRequest rest = some ⟨op, index, count, values⟩ :=
  parseRequest_eq_some_iff.mpr h

theorem RequestBytes.refusalIndex (h : RequestBytes rest op index count values) : refusalIndex rest = index := by
  rw [h.bytes]
  exact wordOf_bytes index

theorem RequestBytes.lengthOk (h : RequestBytes rest op index count values) : requestLengthOk rest = true := by
  have hcarried : values.length ≤ 8 := by
    rw [h.carried]
    cases op
    · exact Nat.zero_le 8
    · exact h.range.2
  have hlen : rest.length = 4 + 2 * values.length := by
    rw [h.bytes]
    simp [wordBytes, wordsBytes_length]
    omega
  exact decide_eq_true (by omega)

theorem parseRequest_eq_none (h : ¬ ∃ o ix n vs, RequestBytes rest o ix n vs) : parseRequest rest = none :=
  Option.eq_none_iff_forall_ne_some.mpr fun f hf => h ⟨f.op, f.index, f.count, f.values, parseRequest_eq_some_iff.mp hf⟩

/-- A block without room for op, index and count spells no REQUEST. -/
theorem parseRequest_of_short (h : rest.length ≤ 3) : parseRequest rest = none := by
  unfold parseRequest
  split
  · simp at h
    omega
  · rfl

theorem refusalIndex_of_short (h : rest.length ≤ 3) : refusalIndex rest = 0 := by
  unfold refusalIndex
  split
  · simp at h
    omega
  · rfl

theorem refusalIndex_of_long (h : 4 ≤ rest.length) : refusalIndex rest = wordOf (rest.getD 1 0) (rest.getD 2 0) := by
  match rest, h with
  | o :: i1 :: i0 :: c :: vs, _ => rfl

/-! ### The checks after form (R57 to R63) -/

theorem accessAllows_iff {a : Access} : accessAllows a op = true ↔
    a = .readWrite ∨ (a = .readOnly ∧ op = .read) ∨ (a = .writeOnly ∧ op = .write) := by
  cases a <;> cases op <;> decide

section Judged

variable (h : RequestBytes rest op index count values) (hd : dst ≠ s.ownAddress)
include h hd

theorem judgeRequest_unmapped (hmap : s.judgingBank.forward dst index count.toNat = none) :
    judgeRequest s dst src tag rest = .refuse .notMapped := by
  rw [judgeRequest, h.parse]
  dsimp only
  rw [if_neg hd, hmap]

theorem judgeRequest_mapped (hmap : s.judgingBank.forward dst index count.toNat = some e) :
    judgeRequest s dst src tag rest = judgeEntry s dst src tag ⟨op, index, count, values⟩ e := by
  rw [judgeRequest, h.parse]
  dsimp only
  rw [if_neg hd, hmap]

end Judged

theorem Mapped.judged (h : Mapped s dst rest op index count values e) :
    judgeRequest s dst src tag rest = judgeEntry s dst src tag ⟨op, index, count, values⟩ e :=
  judgeRequest_mapped h.form h.address h.map

section Entry

variable {f : RequestForm} (hacc : accessAllows e.access f.op = true)
include hacc

theorem judgeEntry_silent (hs : (s.station e.seg e.phys).health = .silent) :
    judgeEntry s dst src tag f e = .refuse .stationSilent := by
  rw [judgeEntry, if_pos hacc, if_pos hs]

variable (hs : (s.station e.seg e.phys).health ≠ .silent)
include hs

theorem judgeEntry_rejected (hdown : downEdited s.judgingBank e f = none) :
    judgeEntry s dst src tag f e = .refuse .editReject := by
  rw [judgeEntry, if_pos hacc, if_neg hs, hdown]

variable (hdown : downEdited s.judgingBank e f = some written)
include hdown

theorem judgeEntry_full (hfree : s.freeSlot? = none) : judgeEntry s dst src tag f e = .refuse .noSlot := by
  rw [judgeEntry, if_pos hacc, if_neg hs, hdown]
  dsimp only
  rw [hfree]

theorem judgeEntry_allots (hfree : s.freeSlot? = some i) :
    judgeEntry s dst src tag f e = .allot i (admittedSlot s (s.slot i) dst src tag f e written) := by
  rw [judgeEntry, if_pos hacc, if_neg hs, hdown]
  dsimp only
  rw [hfree]

end Entry

theorem freeSlot?_eq_none (h : ∀ j : SlotIx, (s.slot j).state ≠ .free) : s.freeSlot? = none :=
  Option.eq_none_iff_forall_ne_some.mpr fun i hi => h i (freeSlot?_some hi).1

theorem freeSlot?_eq_some (hf : (s.slot i).state = .free) (hlow : ∀ j : SlotIx, j < i → (s.slot j).state ≠ .free) :
    s.freeSlot? = some i := by
  cases h : s.freeSlot? with
  | none => exact absurd hf (freeSlot?_none h i)
  | some j =>
    obtain ⟨hj, hlower⟩ := freeSlot?_some h
    rcases lt_trichotomy i j with hlt | rfl | hlt
    · exact absurd hf (hlower i hlt)
    · rfl
    · exact absurd hj (hlow j hlt)

theorem Admitted.judged (h : Admitted s dst rest op index count values e written i) :
    judgeRequest s dst src tag rest =
      .allot i (admittedSlot s (s.slot i) dst src tag ⟨op, index, count, values⟩ e written) := by
  have hdown : downEdited s.judgingBank e ⟨op, index, count, values⟩ = some written := by
    have hedit := h.edit
    cases op with
    | read => exact congrArg some hedit.symm
    | write => exact hedit
  rw [h.mapped.judged, judgeEntry_allots (accessAllows_iff.mpr h.mapped.access) h.station hdown
    (freeSlot?_eq_some h.slot h.lowest)]

/-! ### Refusals (R64, R65) -/

theorem exec_request (hr : s.resetHeld = false) (hl : requestLengthOk rest = true) (dst src tag : Byte) :
    exec (.request dst src tag rest) s =
      .next (arbiterIfIdle (takeRequest dst src tag rest (countReceived .u s))) := by
  have hexec : exec (.request dst src tag rest) s = whenRunning (deliverRequest dst src tag rest) s := rfl
  rw [hexec, whenRunning_next, hr, deliverRequest, if_pos hl]
  rfl

/-- A refused REQUEST: counted, and its REPLY upstream or discarded. -/
theorem exec_request_refused (hr : s.resetHeld = false) (hu : UpstreamRests s) (hl : requestLengthOk rest = true)
    {status : ReplyStatus} (hj : judgeRequest s dst src tag rest = .refuse status) :
    exec (.request dst src tag rest) s = .next (refused (refusalReply dst src tag rest status) s) := by
  have htake : takeRequest dst src tag rest (countReceived .u s) =
      offerRefusal (refusalReply dst src tag rest status) (countRefused (countReceived .u s)) := by
    rw [takeRequest, show judgeRequest (countReceived .u s) dst src tag rest = .refuse status from hj]
  have hrests : UpstreamRests (countRefused (countReceived .u s)) := hu.congr rfl rfl
  rw [exec_request hr hl, htake, offerRefusal, refused,
    show (countRefused (countReceived .u s)).trafficHasRoom = s.trafficHasRoom from rfl]
  split
  · rw [arbiterIfIdle_entered hrests hr]
    rfl
  · rw [arbiterIfIdle_of_rests (s := countDiscarded (countRefused (countReceived .u s))) hr (hu.congr rfl rfl)]

/-- Settles O10: the first check that fails names the status. -/
theorem refusedRequestGetsTheFirstFailedStatus : Obligations.RefusedRequestGetsTheFirstFailedStatus := by
  intro dst src tag rest op index count values e s hr hu ends
  have hend : ∀ {ix : Word} {status : ReplyStatus}, requestLengthOk rest = true → refusalIndex rest = ix →
      judgeRequest s dst src tag rest = .refuse status → ends ix (replyStatusCode status) := fun hl hix hj => by
    show exec _ s = _
    rw [exec_request_refused hr hu hl hj, ← hix]
    rfl
  have hform : ∀ {status : ReplyStatus}, RequestBytes rest op index count values →
      judgeRequest s dst src tag rest = .refuse status → ends index (replyStatusCode status) := fun h =>
    hend h.lengthOk h.refusalIndex
  refine ⟨fun h2 h3 => hend (status := .malformed) (decide_eq_true (by omega)) (refusalIndex_of_short h3) ?_,
    fun h4 h58 hno => hend (status := .malformed) (decide_eq_true (by omega)) (refusalIndex_of_long h4) ?_,
    fun h hd => hform (status := .badKind) h ?_, fun h hd hmap => hform (status := .notMapped) h ?_,
    fun h hd hmap hacc => hform (status := .accessDenied) h ?_,
    fun h hs => hform (status := .stationSilent) h.form ?_,
    fun h hs hop hedit => hform (status := .editReject) h.form ?_,
    fun h hs hedit hfree => hform (status := .noSlot) h.form ?_⟩
  · rw [judgeRequest, parseRequest_of_short h3]
  · rw [judgeRequest, parseRequest_eq_none hno]
  · rw [judgeRequest, h.parse]
    exact if_pos hd
  · exact judgeRequest_unmapped h hd hmap
  · rw [judgeRequest_mapped h hd hmap]
    refine if_neg fun hok => ?_
    rcases accessAllows_iff.mp hok with h1 | ⟨h1, h2⟩ | ⟨h1, h2⟩ <;> rcases hacc with ⟨ha, ho⟩ | ⟨ha, ho⟩ <;> simp_all
  · rw [h.judged, judgeEntry_silent (accessAllows_iff.mpr h.access) hs]
  · subst hop
    rw [h.judged, judgeEntry_rejected (f := ⟨.write, index, count, values⟩) (accessAllows_iff.mpr h.access) hs hedit]
  · obtain ⟨written, hdown⟩ : ∃ written, downEdited s.judgingBank e ⟨op, index, count, values⟩ = some written := by
      cases op with
      | read => exact ⟨[], rfl⟩
      | write => exact Option.ne_none_iff_exists'.mp (hedit rfl)
    rw [h.judged, judgeEntry_full (accessAllows_iff.mpr h.access) hs hdown (freeSlot?_eq_none hfree)]

/-! ### Admissions (R66 to R70) -/

theorem exec_request_admitted (hr : s.resetHeld = false) (hl : requestLengthOk rest = true) {x : Slot}
    (hj : judgeRequest s dst src tag rest = .allot i x) :
    exec (.request dst src tag rest) s =
      .next (arbiterIfIdle (placeAdmitted i x (countAdmitted (countReceived .u s)))) := by
  rw [exec_request hr hl, takeRequest, show judgeRequest (countReceived .u s) dst src tag rest = .allot i x from hj]

theorem placeAdmitted_queued {x : Slot} (hi : s.commit.state = .idle)
    (ha : (s.station x.seg x.station).activeSlot = none) : placeAdmitted i x s = queueSlot i ((s.setSlot i x).setStation
      x.seg x.station { s.station x.seg x.station with activeSlot := some i }) := by
  unfold placeAdmitted
  rw [hi]
  dsimp only
  rw [ha]

theorem placeAdmitted_held {x : Slot} {j : SlotIx} (hi : s.commit.state = .idle)
    (ha : (s.station x.seg x.station).activeSlot = some j) : placeAdmitted i x s =
      (s.setSlot i { x with state := .held }).setStation x.seg x.station
        { s.station x.seg x.station with held := (s.station x.seg x.station).held ++ [i] } := by
  unfold placeAdmitted
  rw [hi]
  dsimp only
  rw [ha]

theorem placeAdmitted_parked {x : Slot} (hd : s.commit.state = .draining) :
    placeAdmitted i x s = { s.setSlot i { x with state := .parked } with parked := s.parked ++ [i] } := by
  rw [placeAdmitted, hd]
  rfl

/-- A slot that stands as an admission leaves it is QUEUED already; the dispatcher at rest starts it or lets it wait. -/
theorem queueSlot_admitted {x : Slot} {k : Segment} {a : StationAddr} {r : Station} (hr : s.resetHeld = false)
    (hd : DispatcherRests s k) (hx : { x with state := .queued, deadline := .stopped } = x) (hk : x.seg = k)
    (hh : r.health = (s.station k a).health) (hdue : r.due = (s.station k a).due) :
    queueSlot i ((s.setSlot i x).setStation k a r) = queueJoined k i ((s.setSlot i x).setStation k a r) := by
  generalize hv : (s.setSlot i x).setStation k a r = v
  have hslot : v.slot i = x := by rw [← hv]; simp
  have hlow : v.lowestDue k = s.lowestDue k := lowestDue_congr fun c => by
    rw [← hv, State.station_setStation]
    split
    · next h => rw [← h.2]; exact ⟨hh, hdue⟩
    · simp
  have hrests : DispatcherRests v k := hd.congr (by simp [← hv]) (by simp [← hv]) (by simp [← hv]) (by simp [← hv])
    (by simp [← hv]) hlow
  have hself : v.setSlot i { v.slot i with state := .queued, deadline := .stopped } = v := by
    rw [hslot, hx]
    conv_lhs => rw [← hslot]
    exact State.setSlot_self v i
  have hjoin := queueSlot_joins (s := v) (i := i) (by simpa [← hv] using hr) (by rw [hslot, hk]; exact hrests)
  rw [hself, hslot, hk] at hjoin
  exact hjoin

/-- Settles O11: the checks allot the lowest FREE slot, and the commit state and the station's record place it. -/
theorem admittedRequestIsPlaced : Obligations.AdmittedRequestIsPlaced := by
  refine ⟨?_, fun dst src tag rest op index count values e written i s h hdrain hu hinc => ?_⟩
  · intro dst src tag rest op index count values e written i s h hidle hu hd x r counted
    have hr := h.mapped.running
    have hx : admittedSlot s (s.slot i) dst src tag ⟨op, index, count, values⟩ e written = x .queued := by
      rw [admittedSlot, State.admissionGeneration, hidle]
      rfl
    have hexec : exec (.request dst src tag rest) s = .next (arbiterIfIdle (placeAdmitted i (x .queued) counted)) := by
      rw [← hx]
      exact exec_request_admitted hr h.mapped.form.lengthOk h.judged
    have hrest : ∀ {t : State}, t.resetHeld = s.resetHeld → t.up = s.up → arbiterIfIdle t = t := fun h1 h2 =>
      arbiterIfIdle_of_rests (h1.trans hr) (hu.congr h1 h2)
    refine ⟨fun ha => ?_, fun j ha => ?_⟩
    · have hplace := placeAdmitted_queued (s := counted) (i := i) (x := x .queued) hidle ha
      rw [hexec, hplace, hrest (by simp [counted]) (by simp [counted])]
      exact congrArg _ (queueSlot_admitted (s := counted) hr (hd.congr rfl rfl rfl rfl rfl rfl) rfl rfl rfl rfl)
    · have hplace := placeAdmitted_held (s := counted) (i := i) (x := x .queued) hidle ha
      rw [hexec, hplace, hrest (by simp [counted]) (by simp [counted])]
      rfl
  · have hr := h.mapped.running
    refine ⟨by rw [State.judgingBank, hdrain], ?_⟩
    have hplace := placeAdmitted_parked (s := countAdmitted (countReceived .u s)) (i := i)
      (x := admittedSlot s (s.slot i) dst src tag ⟨op, index, count, values⟩ e written) hdrain
    have hrest : ∀ {t : State}, t.resetHeld = s.resetHeld → t.up = s.up → arbiterIfIdle t = t := fun h1 h2 =>
      arbiterIfIdle_of_rests (h1.trans hr) (hu.congr h1 h2)
    rw [exec_request_admitted hr h.mapped.form.lengthOk h.judged, hplace, hrest (by simp) (by simp), admittedSlot,
      State.admissionGeneration, hdrain, hinc]
    rfl

end Sys2Proof.Safety

/-! Lookups in a valid bank (R31 to R35), the values of a telegram (R51, R52) and the verdict on a matching REPLY (R89,
R90). -/

namespace Sys2Proof.Safety

open Sys2Proof.Machine

variable {b : Bank} {s1 : Bool} {ix jx : MapIx} {e f : MapEntry}

/-! ### At most one entry covers an address (R33) -/

theorem mem_entries : e ∈ b.entries ↔ ∃ ix, b.entry ix = some e := by
  simp only [Bank.entries, Bank.entry, List.mem_filterMap, id, exists_eq_right, Vector.mem_toList_iff,
    Vector.mem_iff_getElem]
  exact ⟨fun ⟨n, hn, he⟩ => ⟨⟨n, hn⟩, he⟩, fun ⟨ix, he⟩ => ⟨ix.val, ix.isLt, he⟩⟩

theorem MapEntry.containsLogical_iff {x : Nat} : e.containsLogical x = true ↔ e.first.toNat ≤ x ∧ x ≤ e.last.toNat :=
  decide_eq_true_iff

theorem MapEntry.containsPhysical_iff {y : Nat} : e.containsPhysical y = true ↔
    e.base.toNat ≤ y ∧ y ≤ e.base.toNat + (e.last.toNat - e.first.toNat) :=
  decide_eq_true_iff

/-- Both entries cover one address: a logical one of one station, or a physical one. -/
def CoverAlike (e f : MapEntry) (x : Nat) : Prop :=
  e.station = f.station ∧ e.containsLogical x = true ∧ f.containsLogical x = true ∨
    e.seg = f.seg ∧ e.phys = f.phys ∧ e.containsPhysical x = true ∧ f.containsPhysical x = true

theorem CoverAlike.symm {x : Nat} (h : CoverAlike e f x) : CoverAlike f e x := by
  rcases h with ⟨hst, he, hf⟩ | ⟨hseg, hph, he, hf⟩
  · exact .inl ⟨hst.symm, hf, he⟩
  · exact .inr ⟨hseg.symm, hph.symm, hf, he⟩

/-- Of two entries that cover one address, the higher breaks a condition of R31. -/
theorem CoverAlike.breaks {x : Nat} (h : CoverAlike e f x) (hf : b.entry jx = some f) (hlt : jx < ix) :
    ∃ r, Breaks b s1 ix e r := by
  rcases h with ⟨hst, he, hx⟩ | ⟨hseg, hph, he, hx⟩
  · rw [MapEntry.containsLogical_iff] at he hx
    exact ⟨.overlapLogical, jx, f, hlt, hf, hst.symm, he.1.trans hx.2, hx.1.trans he.2⟩
  · rw [MapEntry.containsPhysical_iff] at he hx
    exact ⟨.overlapPhysical, jx, f, hlt, hf, hseg.symm, hph.symm, he.1.trans hx.2, hx.1.trans he.2⟩

theorem valid_breaks_nothing (h : b.valid s1 = true) (he : b.entry ix = some e) (r : ValidityReason) :
    ¬ Breaks b s1 ix e r :=
  examine_eq_none_iff.mp (Option.isNone_iff_eq_none.mp h) ix e r he

theorem CoverAlike.same_index {x : Nat} (h : CoverAlike e f x) (hv : b.valid s1 = true) (he : b.entry ix = some e)
    (hf : b.entry jx = some f) : ix = jx := by
  rcases lt_trichotomy ix jx with hlt | heq | hlt
  · obtain ⟨r, hr⟩ := h.symm.breaks (s1 := s1) he hlt
    exact absurd hr (valid_breaks_nothing hv hf r)
  · exact heq
  · obtain ⟨r, hr⟩ := h.breaks (s1 := s1) hf hlt
    exact absurd hr (valid_breaks_nothing hv he r)

theorem CoverAlike.same_entry {x : Nat} (h : CoverAlike e f x) (hv : b.valid s1 = true) (he : e ∈ b.entries)
    (hf : f ∈ b.entries) : e = f := by
  obtain ⟨ix, hix⟩ := mem_entries.mp he
  obtain ⟨jx, hjx⟩ := mem_entries.mp hf
  obtain rfl := h.same_index hv hix hjx
  exact Option.some.inj (hix.symm.trans hjx)

/-! ### The lookups (R34, R35) -/

theorem find?_eq_some_iff_of_unique {α : Type} {p : α → Bool} {l : List α} {x : α}
    (hu : ∀ y ∈ l, ∀ z ∈ l, p y = true → p z = true → y = z) : l.find? p = some x ↔ x ∈ l ∧ p x = true := by
  constructor
  · exact fun h => ⟨List.mem_of_find?_eq_some h, List.find?_some h⟩
  · intro ⟨hx, hp⟩
    obtain ⟨y, hy⟩ := Option.isSome_iff_exists.mp (List.find?_isSome.mpr ⟨x, hx, hp⟩)
    rw [hy, hu y (List.mem_of_find?_eq_some hy) x hx (List.find?_some hy) hp]

theorem forward_eq_some_iff {st : Byte} {x : Word} {c : Nat} : b.forward st x c = some e ↔
    b.entries.find? (fun e => decide (e.station = st) && e.containsLogical x.toNat) = some e ∧
      x.toNat + c - 1 ≤ e.last.toNat := by
  rw [Bank.forward]
  split
  · next f hf =>
    rw [Option.ite_none_right_eq_some, hf]
    exact ⟨fun ⟨hc, hfe⟩ => ⟨hfe, Option.some.inj hfe ▸ hc⟩, fun ⟨hfe, hc⟩ => ⟨Option.some.inj hfe ▸ hc, hfe⟩⟩
  · next hf => simp [hf]

theorem forward_iff_of_valid (hv : b.valid s1 = true) {st : Byte} {x : Word} {c : Nat} : b.forward st x c = some e ↔
    ∃ ix, b.entry ix = some e ∧ e.station = st ∧ e.first.toNat ≤ x.toNat ∧ x.toNat ≤ e.last.toNat ∧
      x.toNat + c - 1 ≤ e.last.toNat := by
  rw [forward_eq_some_iff, find?_eq_some_iff_of_unique, mem_entries, Bool.and_eq_true, decide_eq_true_iff,
    MapEntry.containsLogical_iff]
  · exact ⟨fun ⟨⟨⟨ix, he⟩, hst, hlo, hhi⟩, hc⟩ => ⟨ix, he, hst, hlo, hhi, hc⟩,
      fun ⟨ix, he, hst, hlo, hhi, hc⟩ => ⟨⟨⟨ix, he⟩, hst, hlo, hhi⟩, hc⟩⟩
  · intro f hf g hg hpf hpg
    simp only [Bool.and_eq_true, decide_eq_true_iff] at hpf hpg
    exact CoverAlike.same_entry (.inl ⟨hpf.1.trans hpg.1.symm, hpf.2, hpg.2⟩) hv hf hg

theorem reverse_iff_of_valid (hv : b.valid s1 = true) {k : Segment} {a : StationAddr} {y : Word} :
    b.reverse k (addrByte a) y = some e ↔ ∃ ix, b.entry ix = some e ∧ e.seg = k ∧ e.phys = a ∧
      e.base.toNat ≤ y.toNat ∧ y.toNat ≤ e.base.toNat + (e.last.toNat - e.first.toNat) := by
  have hkey : ∀ {f : MapEntry},
      (decide (f.seg = k ∧ addrByte f.phys = addrByte a) && f.containsPhysical y.toNat) = true ↔ f.seg = k ∧ f.phys = a ∧ f.containsPhysical y.toNat = true := by
    intro f
    rw [Bool.and_eq_true, decide_eq_true_iff, and_assoc]
    exact ⟨fun ⟨hs, hp, hy⟩ => ⟨hs, addrByte_injective hp, hy⟩, fun ⟨hs, hp, hy⟩ => ⟨hs, congrArg addrByte hp, hy⟩⟩
  rw [Bank.reverse, find?_eq_some_iff_of_unique, mem_entries, hkey, MapEntry.containsPhysical_iff]
  · exact ⟨fun ⟨⟨ix, he⟩, h⟩ => ⟨ix, he, h⟩, fun ⟨ix, he, h⟩ => ⟨⟨ix, he⟩, h⟩⟩
  · intro f hf g hg hpf hpg
    obtain ⟨hsf, hpf, hyf⟩ := hkey.mp hpf
    obtain ⟨hsg, hpg, hyg⟩ := hkey.mp hpg
    exact CoverAlike.same_entry (.inr ⟨hsf.trans hsg.symm, hpf.trans hpg.symm, hyf, hyg⟩) hv hf hg

/-- Settles O12: two entries that cover one address would break R31, so the first found is the only one. -/
theorem lookupsFindTheOnlyEntry : Obligations.LookupsFindTheOnlyEntry := fun _ _ hv =>
  ⟨fun _ _ _ _ _ => forward_iff_of_valid hv, fun _ _ _ _ => reverse_iff_of_valid hv,
    fun _ _ _ _ _ he hf h => CoverAlike.same_index h hv he hf⟩

/-! ### The values of a telegram (R51, R52) -/

theorem mapM_eq_some_iff {α β : Type} {f : α → Option β} {l : List α} {out : List β} :
    l.mapM f = some out ↔ l.map f = out.map some := by
  induction l generalizing out with
  | nil => cases out <;> simp
  | cons a l ih =>
    simp only [List.mapM_cons, Option.bind_eq_bind, Option.bind_eq_some_iff, Option.pure_def, Option.some.injEq, ih]
    cases out with
    | nil => simp
    | cons c out => simp [and_comm]

theorem mapM_eq_none_iff {α β : Type} {f : α → Option β} {l : List α} :
    l.mapM f = none ↔ ∃ a ∈ l, f a = none := by
  induction l with
  | nil => simp
  | cons a l ih =>
    cases ha : f a with
    | none => simp [ha]
    | some c =>
      have hcons : (∃ d ∈ a :: l, f d = none) ↔ l.mapM f = none := by simp [ha, ih]
      rw [hcons, List.mapM_cons, ha]
      cases l.mapM f <;> simp

theorem Bank.record_of_defined {x : EditIx} {r : EditRecord} (h : b.edits[x] = some r) : b.record x = r := by
  rw [Bank.record, h, Option.getD_some]

/-- Settles O18. -/
theorem telegramValuesAreEditedOneByOne : Obligations.TelegramValuesAreEditedOneByOne := by
  refine fun b values => ⟨rfl, fun x r h => ?_⟩
  have hedit : editValues b (some x) values = values.mapM (applyRecord b r) := by
    rw [← Bank.record_of_defined h]
    rfl
  rw [hedit]
  exact ⟨mapM_eq_none_iff, fun _ => mapM_eq_some_iff⟩

/-! ### The verdict on a matching REPLY (R89, R90) -/

section Verdict

variable {x : Slot} {status count : Byte} {values : List Word}

theorem judgeReply_of_read (ho : x.op = .read) : judgeReply b x 0 count values =
    if count = x.count ∧ values.length = count.toNat then upEdited b x values else ⟨.stationFault, []⟩ := by
  rw [judgeReply, if_pos rfl, ho]

theorem judgeReply_of_write (ho : x.op = .write) : judgeReply b x 0 count values =
    if count = x.count ∧ values = [] then ⟨.ok, []⟩ else ⟨.stationFault, []⟩ := by
  rw [judgeReply, if_pos rfl, ho]

theorem judgeReply_of_status (h : status ≠ 0) : judgeReply b x status count values =
    if status.toNat ≤ 31 then ⟨.station status, []⟩ else ⟨.stationFault, []⟩ := by
  rw [judgeReply, if_neg h]

theorem upEdited_of_some {out : List Word} (h : editValues b x.upEdit values = some out) :
    upEdited b x values = ⟨.ok, out⟩ := by
  rw [upEdited, h]

theorem upEdited_of_none (h : editValues b x.upEdit values = none) : upEdited b x values = ⟨.editReject, []⟩ := by
  rw [upEdited, h]

/-- Settles O25. -/
theorem matchingReplyIsJudged : Obligations.MatchingReplyIsJudged := by
  intro b x status count values judged
  refine ⟨fun h1 h31 => ?_, fun h32 => ?_, ?_, ?_⟩
  · have hst : status ≠ 0 := by rintro rfl; simp at h1
    have hj : judged = ⟨.station status, []⟩ := (judgeReply_of_status hst).trans (if_pos h31)
    exact ⟨hj, by rw [hj]; rfl⟩
  · have hst : status ≠ 0 := by rintro rfl; simp at h32
    exact (judgeReply_of_status hst).trans (if_neg (by omega))
  · rintro rfl ho
    exact ⟨fun h => (judgeReply_of_write ho).trans (if_pos h), fun h => (judgeReply_of_write ho).trans (if_neg h)⟩
  · rintro rfl ho
    refine ⟨fun hc hl => ?_, fun h => (judgeReply_of_read ho).trans (if_neg fun ⟨hc, hl⟩ => ?_)⟩
    · have hj : judged = upEdited b x values := (judgeReply_of_read ho).trans (if_pos ⟨hc, hl⟩)
      exact ⟨fun out h => hj.trans (upEdited_of_some h), fun h => hj.trans (upEdited_of_none h)⟩
    · exact h.elim (· hc) (· hl)

end Verdict

end Sys2Proof.Safety

/-! The dispatchers' choice, the ends of their transmissions, and the expiries that only set a flag or send a slot back
to its queue (R78 to R83, R109, R111, R113, R131); a RESTART's effect (R183, R184). -/

namespace Sys2Proof.Safety

open Sys2Proof.Machine

variable {s : State} {k : Segment} {a : StationAddr} {i : SlotIx}

theorem whenRunning_of_running (h : s.resetHeld = false) (f : State → State) : whenRunning f s = .next (f s) := by
  rw [whenRunning_next, h]
  rfl

/-! ### The choice of a FREE dispatcher (R78, R79, R111) -/

/-- The station waits for its probe: SILENT, with its due flag set. -/
def ProbeWaits (s : State) (k : Segment) (a : StationAddr) : Prop :=
  (s.station k a).health = .silent ∧ (s.station k a).due = true

theorem probeWaits_decide :
    (decide ((s.station k a).health = .silent) && (s.station k a).due) = true ↔ ProbeWaits s k a := by
  rw [Bool.and_eq_true, decide_eq_true_iff, ProbeWaits]

theorem lowestDue_eq_some (h : ProbeWaits s k a) (hlow : ∀ b : StationAddr, b < a → ¬ ProbeWaits s k b) :
    s.lowestDue k = some a := by
  have hget : (List.finRange 31)[a.val]'(by simp) = a := by simp
  rw [State.lowestDue, List.find?_eq_some_iff_getElem]
  refine ⟨probeWaits_decide.mpr h, a.val, by simp, hget, fun j hj => ?_⟩
  rw [Bool.not_eq_true', ← Bool.not_eq_true, probeWaits_decide]
  exact hlow _ (by simpa [Fin.lt_def] using hj)

theorem lowestDue_eq_none (h : ∀ b : StationAddr, ¬ ProbeWaits s k b) : s.lowestDue k = none :=
  List.find?_eq_none.mpr fun b _ hb => h b (probeWaits_decide.mp hb)

theorem dispatcherChoice_of_due (hp : (s.seg k).probe = .idle) (hd : s.lowestDue k = some a) :
    dispatcherChoice k s = startProbe k a s := by
  rw [dispatcherChoice, hp, hd]

theorem dispatcherChoice_of_no_probe (h : (s.seg k).probe = .idle → s.lowestDue k = none) :
    dispatcherChoice k s = startQueueHead k s := by
  cases hp : (s.seg k).probe with
  | idle => rw [dispatcherChoice, hp, h hp]
  | sending b => rw [dispatcherChoice, hp]
  | awaiting b d => rw [dispatcherChoice, hp]

theorem startQueueHead_of_cons {rest : List SlotIx} (h : (s.seg k).queue = i :: rest) :
    startQueueHead k s = startSlot k i rest s := by rw [startQueueHead, h]

theorem startQueueHead_of_nil (h : (s.seg k).queue = []) : startQueueHead k s = s := by rw [startQueueHead, h]

/-- Settles O19: a due probe when none is outstanding, else the head of the send queue. -/
theorem dispatcherChoosesProbeThenQueueHead : Obligations.DispatcherChoosesProbeThenQueueHead := by
  refine fun k s => ⟨fun a hp hh hd hlow => ?_, fun hno => ?_⟩
  · rw [dispatcherChoice_of_due hp (lowestDue_eq_some ⟨hh, hd⟩ hlow)]
    cases k <;> rfl
  · have hchoice : dispatcherChoice k s = startQueueHead k s :=
      dispatcherChoice_of_no_probe fun hp => lowestDue_eq_none (hno hp)
    exact ⟨fun i rest hq => hchoice.trans (startQueueHead_of_cons hq),
      fun hq => hchoice.trans (startQueueHead_of_nil hq)⟩

/-! ### The end of a segment's transmission (R81) -/

theorem dispatchIfIdle_of_none (h : (s.seg k).record = .none) :
    dispatchIfIdle k s = if s.inService k = true then dispatcherChoice k s else s := by
  rw [dispatchIfIdle, h]

theorem dispatchIfIdle_of_busy (h : (s.seg k).record ≠ .none) : dispatchIfIdle k s = s := by
  unfold dispatchIfIdle
  split
  · next hn => exact absurd hn h
  · rfl

theorem endSegment_of_busy (h : (s.seg k).record ≠ .none) {t : State}
    (ht : clearRecord k (recordEnded k (countTransmitted k.port s)) = t) :
    endSegment k s = if t.inService k = true then dispatcherChoice k t else t := by
  subst ht
  unfold endSegment
  split
  · next hn => exact absurd hn h
  · exact dispatchIfIdle_of_none (by simp [clearRecord])

theorem recordEnded_of_slot {u : Telegram} (h : (s.seg k).record = .slot i u) : recordEnded k s = slotSent i s := by
  rw [recordEnded, h]

theorem recordEnded_of_probe {u : Telegram} (h : (s.seg k).record = .probe u) (hp : (s.seg k).probe = .sending a) :
    recordEnded k s = s.setSeg k { s.seg k with probe := .awaiting a (startTimer s.agent.replyTimeout) } := by
  rw [recordEnded, h]
  dsimp only
  rw [probeSent, hp]

theorem recordEnded_of_void {u : Telegram} (h : (s.seg k).record = .void u) : recordEnded k s = s := by
  rw [recordEnded, h]

/-- Settles O20: the record says what its end acts on, and the dispatcher chooses. -/
theorem segmentTransmissionEndActsOnItsRecord : Obligations.SegmentTransmissionEndActsOnItsRecord := by
  intro k s hr chosen counted
  have hexec : ∀ {t : State}, (s.seg k).record ≠ .none → clearRecord k (recordEnded k counted) = t →
      exec (.segmentTransmissionEnd k) s = .next (chosen t) := fun hbusy ht =>
    (whenRunning_of_running hr _).trans (congrArg _ (endSegment_of_busy hbusy ht))
  have hseg : counted.seg k = s.seg k := by simp [counted]
  refine ⟨fun i u h => hexec (by simp [h]) ?_, fun a u h hp => hexec (by simp [h]) ?_,
    fun u h => hexec (by simp [h]) ?_⟩
  · rw [recordEnded_of_slot (hseg ▸ h)]
    cases k <;> rfl
  · rw [recordEnded_of_probe (s := counted) (a := a) (hseg ▸ h) (hseg ▸ hp)]
    cases k <;> rfl
  · rw [recordEnded_of_void (s := counted) (hseg ▸ h)]
    cases k <;> rfl

/-! ### A deadline with retries left (R83) -/

theorem expireSlot_of_retries (h : (s.slot i).state = .sent) (hd : (s.slot i).deadline.isRunning = true)
    (hn : 0 < (s.slot i).retriesLeft) : expireSlot i s = retrySlot i s := by
  rw [expireSlot, if_pos ⟨h, hd⟩, if_pos hn]

theorem countRetry_queueJoined (k j : Segment) (i : SlotIx) (x : Slot) (s : State) :
    countRetry j (queueJoined k i (s.setSlot i x)) = queueJoined k i ((countRetry j s).setSlot i x) := by
  rw [queueJoined, apply_ite (countRetry j)]
  cases k <;> rfl

/-- Settles O21. -/
theorem expiryWithRetriesLeftRetransmits : Obligations.ExpiryWithRetriesLeftRetransmits := by
  intro i s hr hs hd hn hrest
  have hexec : exec (.slotDeadlineExpiry i) s = .next (retrySlot i s) :=
    (whenRunning_of_running hr _).trans (congrArg _ (expireSlot_of_retries hs hd hn))
  set x : Slot := { s.slot i with retriesLeft := (s.slot i).retriesLeft - 1 } with hx
  have hseg : ((s.setSlot i x).slot i).seg = (s.slot i).seg := by simp [hx]
  have hjoin := queueSlot_joins (s := s.setSlot i x) (i := i) hr
    (by rw [hseg]; exact hrest.congr rfl rfl (by simp) (by simp) (by simp) (lowestDue_congr fun b => by simp))
  rw [hexec, retrySlot, ← hx, hjoin, hseg, State.setSlot_setSlot, countRetry_queueJoined]
  simp [hx]

/-! ### Expiries that set a flag (R109, R113, R131) -/

theorem expireProbeDue_of_running (h : (s.station k a).dueTimer.isRunning = true) : expireProbeDue k a s =
    dispatchIfIdle k (s.setStation k a { s.station k a with dueTimer := .stopped, due := true }) := if_pos h

theorem expireProbeDeadline_of_awaited {d : Nat} (h : (s.seg k).probe = .awaiting a (.running d)) :
    expireProbeDeadline k s =
      dispatchIfIdle k (restartProbeDue k a (s.setSeg k { s.seg k with probe := .idle })) := by
  rw [expireProbeDeadline, h]
  rfl

theorem expireEntry_eq (station : Byte) (index : Word) (c : CacheEntry) : expireEntry station index c =
    if c.station = station ∧ c.index = index ∧ c.countdown ≠ .stopped then
      { c with countdown := .stopped, due := true } else c := by
  have hrun : c.countdown.isRunning = true ↔ c.countdown ≠ .stopped := by
    cases c.countdown <;> simp [Timer.isRunning]
  have hcond : (c.hasKey station index && c.countdown.isRunning) = true ↔
      c.station = station ∧ c.index = index ∧ c.countdown ≠ .stopped := by
    rw [Bool.and_eq_true, CacheEntry.hasKey_iff, hrun, and_assoc]
  exact if_congr hcond rfl rfl

/-- Settles O28. -/
theorem probeAndRefreshExpiriesSetTheirFlags : Obligations.ProbeAndRefreshExpiriesSetTheirFlags := by
  refine ⟨⟨?_, ?_⟩, fun station index s hr => ?_⟩
  · intro k a s hr hrun flagged
    have hexec : exec (.probeDueExpiry k a) s = .next (dispatchIfIdle k flagged) :=
      (whenRunning_of_running hr _).trans (congrArg _ (expireProbeDue_of_running hrun))
    have hrec : (flagged.seg k).record = (s.seg k).record := by simp [flagged]
    refine ⟨fun hnone hk => ?_, fun hbusy => ?_⟩
    · have hserve : flagged.inService k = true := by cases k <;> exact hk
      rw [hexec, dispatchIfIdle_of_none (hrec.trans hnone), if_pos hserve]
    · rw [hexec, dispatchIfIdle_of_busy (hrec ▸ hbusy)]
  · intro k a d s hr hp idle
    have hexec : exec (.probeDeadlineExpiry k) s = .next (dispatchIfIdle k (restartProbeDue k a idle)) :=
      (whenRunning_of_running hr _).trans (congrArg _ (expireProbeDeadline_of_awaited hp))
    have hstation : idle.station k a = s.station k a := by simp [idle]
    refine ⟨fun hs => ?_, fun hs => ?_⟩
    · have hagent : idle.agent = s.agent := by simp [idle]
      rw [hexec, restartProbeDue, if_pos (hstation ▸ hs), hstation, hagent, Nat.mul_comm 100]
      rfl
    · rw [hexec, restartProbeDue, if_neg (hstation ▸ hs)]
  · refine (whenRunning_of_running hr _).trans ?_
    rw [expireRefresh, funext (expireEntry_eq station index)]

/-! ### RESTART takes effect (R142, R183, R184) -/

/-- Settles O33: everything but what R184 names is cleared, and STARTED is the only telegram left to choose. -/
theorem restartTakesEffectWhenItsReplyHasLeft : Obligations.RestartTakesEffectWhenItsReplyHasLeft := by
  intro r s hr hs hcode hdone cleared
  have hends : endsRestart (.mgmt r) = true := decide_eq_true ⟨hcode, hdone⟩
  have hcleared : ∀ g : SegState, restartSegment g = cleared g := fun g => by
    unfold restartSegment
    cases hrec : g.record <;> simp only [cleared, hrec] <;> rfl
  refine (whenRunning_of_running hr _).trans ?_
  rw [endUpstream, hs]
  dsimp only
  rw [if_pos hends, ← hcleared, ← hcleared]
  rfl

end Sys2Proof.Safety

/-! The end of an exchange by a matching REPLY or a final failure: what is answered, what its station's record becomes,
and what the end of a drain adds (R82, R84, R87, R91 to R96, R104, R106, R108, R170, R173, R174). -/

namespace Sys2Proof.Safety

open Sys2Proof.Machine

variable {s : State} {i : SlotIx} {b : BuiltReply} {r : Station} {c : Counters}

/-! ### The takings (R82, R86, R87) -/

theorem expireSlot_of_no_retries (h : (s.slot i).state = .sent) (hd : (s.slot i).deadline.isRunning = true)
    (hn : (s.slot i).retriesLeft = 0) : expireSlot i s = arbiterIfIdle (failSlot i s) := by
  rw [expireSlot, if_pos ⟨h, hd⟩, if_neg (by omega)]

theorem exec_final_expiry (hr : s.resetHeld = false) (h : (s.slot i).state = .sent)
    (hd : (s.slot i).deadline.isRunning = true) (hn : (s.slot i).retriesLeft = 0) :
    exec (.slotDeadlineExpiry i) s = .next (arbiterIfIdle (failSlot i s)) :=
  (whenRunning_of_running hr _).trans (congrArg _ (expireSlot_of_no_retries h hd hn))

theorem byteOf_tag_toNat {n : Nat} (hn : n < 8) (i : SlotIx) : (byteOf (32 * n + i.val)).toNat = 32 * n + i.val :=
  byteOf_toNat (by omega)

theorem tagNumber_of_tag {n : Nat} (hn : n < 8) (i : SlotIx) : tagNumber (byteOf (32 * n + i.val)) = n := by
  rw [tagNumber, byteOf_tag_toNat hn]
  omega

theorem tagIndex_of_tag {n : Nat} (hn : n < 8) (i : SlotIx) : tagIndex (byteOf (32 * n + i.val)) = i := by
  apply Fin.ext
  rw [tagIndex]
  dsimp only
  rw [byteOf_tag_toNat hn]
  omega

/-- A REPLY with the tag and the source of a SENT slot's transmission matches that slot (R87). -/
theorem takeReply_of_match {k : Segment} (h : (s.slot i).state = .sent) (hk : (s.slot i).seg = k)
    (status count : Byte) (values : List Word) :
    takeReply k (byteOf ((s.slot i).station.val + 1)) (byteOf (32 * (s.slot i).cur.val + i.val)) status count values s =
      completeMatch k i (judgeReply s.store.activeBank (s.slot i) status count values) s := by
  have hcur : (s.slot i).cur.val < 7 := (s.slot i).cur.isLt
  have hmatch : slotMatches k (byteOf ((s.slot i).station.val + 1)) (byteOf (32 * (s.slot i).cur.val + i.val))
      (s.slot i) = true := slotMatches_iff.mpr ⟨h, hk, rfl, (tagNumber_of_tag (by omega) i).symm⟩
  rw [takeReply, if_pos (by rw [tagNumber_of_tag (by omega)]; exact hcur), tagIndex_of_tag (by omega) i,
    if_pos hmatch]

/-! ### The active slot answered and its station's held head released -/

/-- The counters are set, the slot is answered, its station's record is written, and the held head is released. -/
def exchangeEnded (b : BuiltReply) (i : SlotIx) (r : Station) (c : Counters) (s : State) : State :=
  releaseHeld (s.slot i).seg (s.slot i).station
    ((answerSlot b (s.setCounters c) i).setStation (s.slot i).seg (s.slot i).station r)

theorem completeMatch_ends (hn : (s.station (s.slot i).seg (s.slot i).station).health ≠ .silent) :
    completeMatch (s.slot i).seg i b (s.setCounters c) = drainIfDone (exchangeEnded b i
      { s.station (s.slot i).seg (s.slot i).station with health := .online, failures := 0, activeSlot := none } c s) :=
  completeMatch_form (s := s.setCounters c) (b := b) (i := i) hn

theorem failSlot_ends (hlt : (s.station (s.slot i).seg (s.slot i).station).failures + 1 < s.agent.silentThreshold) :
    failSlot i s = drainIfDone (exchangeEnded ⟨.timeout, []⟩ i
      { s.station (s.slot i).seg (s.slot i).station with
        activeSlot := none, health := .suspect,
        failures := (s.station (s.slot i).seg (s.slot i).station).failures + 1 }
      (countFinalTimeout (s.slot i).seg s).counters s) :=
  failSlot_suspect hlt

theorem SlotPlaces.sent_not_waiting (hp : SlotPlaces s) (hs : (s.slot i).state = .sent) : i ∉ s.up.waitList := by
  rw [hp.waiting, hs]
  decide

/-- An exchange's end that ends no drain: the answer, the record and the release, and nothing beside them. -/
theorem exchangeEnded_goes_on (hr : s.resetHeld = false) (hp : SlotPlaces s) (hu : UpstreamRests s)
    (hn : NoDrainEnds s (· = i)) (hs : (s.slot i).state = .sent)
    (hheld : r.held = (s.station (s.slot i).seg (s.slot i).station).held) (hact : r.activeSlot = none) :
    ∃ t, arbiterIfIdle (drainIfDone (exchangeEnded b i r c s)) = t ∧ Finished b i r s t ∧ t.counters = c ∧
      t.store = s.store ∧ t.cache = s.cache ∧ t.commit = s.commit ∧ t.parked = s.parked ∧ t.agent = s.agent := by
  have hopen : drainIfDone (exchangeEnded b i r c s) = exchangeEnded b i r c s := by
    refine hn.stays (by simp [exchangeEnded]) (by simp [exchangeEnded]) fun j hj hcount => ?_
    refine releaseHeld_counts _ _ ?_
    rw [State.setStation_slot, answerSlot_others b hj]
    exact hcount
  rw [hopen]
  refine ⟨_, rfl, finished (u := s.setCounters c) hr hp hu hs rfl (fun _ => rfl) (fun _ => rfl) hheld hact, ?_⟩
  simp [exchangeEnded, State.setCounters]

/-- Settles O22: the failure's answer and record, with no drain to end. -/
theorem finalFailureMakesTheStationSuspect : Obligations.FinalFailureMakesTheStationSuspect := by
  intro i s hr hp hu hn hs hd hret x r hlt
  obtain ⟨t, ht, F, hc, hst, hca, hco, hpk, hag⟩ := exchangeEnded_goes_on (b := ⟨.timeout, []⟩)
    (r := { r with activeSlot := none, health := .suspect, failures := r.failures + 1 })
    (c := (countFinalTimeout x.seg s).counters) hr hp hu hn hs rfl rfl
  refine ⟨t, ?_, hc, F.traffic, F.done, F.station, F.joined, F.others, F.replies, F.notices, hst, hca, hco, hpk, hag⟩
  rw [exec_final_expiry hr hs hd hret, failSlot_ends hlt, ← ht]

/-- A REPLY that matches a SENT slot ends its exchange. -/
theorem exec_reply_match {k : Segment} (hr : s.resetHeld = false) (hp : SlotPlaces s) (hk : s.inService k = true)
    {status count : Byte} {values : List Word} (hf : replyFormOk status count values = true)
    (hs : (s.slot i).state = .sent) (hseg : (s.slot i).seg = k) (dst : Byte) (index : Word) :
    exec (.reply k dst (byteOf ((s.slot i).station.val + 1)) (byteOf (32 * (s.slot i).cur.val + i.val)) status index
      count values) s = .next (arbiterIfIdle (drainIfDone (exchangeEnded
        (judgeReply s.store.activeBank (s.slot i) status count values) i
        { s.station (s.slot i).seg (s.slot i).station with health := .online, failures := 0, activeSlot := none }
        (countReceived k.port s).counters s))) := by
  subst hseg
  have htake := takeReply_of_match (s := countReceived (s.slot i).seg.port s) (i := i) hs rfl status count values
  rw [exec_reply_of_form hr hk hf, ← completeMatch_ends (hp.sent_not_silent hs)]
  exact congrArg (fun t => Host.Outcome.next (arbiterIfIdle t)) htake

/-- Settles O26: the success's answer and record, with no drain to end. -/
theorem matchingReplyCompletesTheExchange : Obligations.MatchingReplyCompletesTheExchange := by
  intro k dst src tag status index count values i s hr hp hu hn hk hf hs hseg hsrc htag x r b
  obtain ⟨t, ht, F, hc, hst, hca, hco, hpk, hag⟩ := exchangeEnded_goes_on (b := b)
    (r := { s.station x.seg x.station with health := .online, failures := 0, activeSlot := none })
    (c := (countReceived k.port s).counters) hr hp hu hn hs rfl rfl
  subst hseg hsrc htag
  refine ⟨t, ?_, hc, F.traffic, F.done, F.station, F.joined, F.others, F.replies, F.notices, hst, hca, hco, hpk, hag⟩
  rw [exec_reply_match hr hp hk hf hs rfl, ← ht]

/-! ### The station silenced, and its held slots answered (R95, R96, R108) -/

theorem raiseNotice_up_congr {t : State} (e : NoticeEvent) (hn : t.up.notices = s.up.notices)
    (hx : t.up.nextNotice = s.up.nextNotice) (hl : t.up.pendingLost = s.up.pendingLost)
    (hc : t.agent.ctrlAddr = s.agent.ctrlAddr) (ho : t.ownAddress = s.ownAddress) :
    (raiseNotice e t).up.notices = (raiseNotice e s).up.notices ∧
      (raiseNotice e t).up.nextNotice = (raiseNotice e s).up.nextNotice ∧
      (raiseNotice e t).up.pendingLost = (raiseNotice e s).up.pendingLost := by
  unfold raiseNotice
  rw [hn, hx, hl, hc, ho]
  split
  · simp
  · simp [hn, hx]

/-- The answers of a silencing: TIMEOUT for the slot, STATION_SILENT for those held behind it, and the notice raised. -/
structure SilencedExchange (i : SlotIx) (held : List SlotIx) (e : NoticeEvent) (s v : State) : Prop where
  traffic : trafficOwed v = trafficOwed s ++ slotAnswer (s.slot i) .timeout [] ::
    held.map (fun j => slotAnswer (s.slot j) .stationSilent [])
  replies : repliesOwed v = repliesOwed s
  notices : noticesOwed v = noticesWith e s
  done : slotDone (s.slot i) (v.slot i) .timeout []
  heldDone : ∀ j ∈ held, slotDone (s.slot j) (v.slot j) .stationSilent []
  others : ∀ j, ¬ (j = i ∨ j ∈ held) → v.slot j = s.slot j
  wait : ∀ j ∈ v.up.waitList, (j = i ∨ j ∈ held) ∨ j ∈ s.up.waitList
  waitOnce : v.up.waitList.Nodup
  sending : v.up.sending = s.up.sending
  noticeQueue : v.up.notices = (raiseNotice e s).up.notices
  nextNotice : v.up.nextNotice = (raiseNotice e s).up.nextNotice
  pendingLost : v.up.pendingLost = (raiseNotice e s).up.pendingLost

theorem silencedExchange (hp : SlotPlaces s) (hs : (s.slot i).state = .sent) (e : NoticeEvent) :
    SilencedExchange i (s.station (s.slot i).seg (s.slot i).station).held e s
      (answerAll .stationSilent (s.station (s.slot i).seg (s.slot i).station).held
        (raiseNotice e ((answerSlot ⟨.timeout, []⟩ (s.setCounters c) i).setStation (s.slot i).seg (s.slot i).station
          r))) := by
  have A := answerSlot_answered (s := s.setCounters c) ⟨.timeout, []⟩ (i := i) (hp.sent_not_waiting hs)
  have hagent : (answerSlot ⟨.timeout, []⟩ (s.setCounters c) i).agent = s.agent := by simp [State.setCounters]
  have hown : (answerSlot ⟨.timeout, []⟩ (s.setCounters c) i).ownAddress = s.ownAddress := by simp [State.setCounters]
  set held := (s.station (s.slot i).seg (s.slot i).station).held with hheld
  have hstate : ∀ j ∈ held, (s.slot j).state = .held := fun j hj => ((hp.held _ _ j).mp hj).1
  have hi : i ∉ held := fun hmem => by have := hstate i hmem; rw [hs] at this; cases this
  generalize answerSlot ⟨.timeout, []⟩ (s.setCounters c) i = y at A hagent hown ⊢
  set w := raiseNotice e (y.setStation (s.slot i).seg (s.slot i).station r) with hw
  have hslot : ∀ j, w.slot j = y.slot j := fun j => by simp [hw]
  have hwait : w.up.waitList = y.up.waitList := by simp [hw]
  have W := answerAll_answered .stationSilent held (s := w) (hp.heldOnce _ _) fun j hj hmem => by
    rcases A.wait j (hwait ▸ hmem) with rfl | hup
    · exact hi hj
    · have := (hp.waiting j).mp hup
      rw [hstate j hj] at this
      cases this
  have hkept : ∀ j ∈ held, w.slot j = s.slot j := fun j hj =>
    (hslot j).trans (A.others j fun hji => hi (hji ▸ hj))
  have hnotice := raiseNotice_up_congr (s := s) (t := y.setStation (s.slot i).seg (s.slot i).station r) e
    (by simpa using A.noticeQueue) (by simpa using A.nextNotice) (by simpa using A.pendingLost) (by simp [hagent])
    (by simp [hown])
  exact {
    traffic := by
      have htraffic : trafficOwed w = trafficOwed y := by
        rw [hw, raiseNotice_trafficOwed]
        exact trafficOwed_congr (by simp) fun j _ => by simp
      rw [W.traffic, htraffic, A.traffic, List.append_assoc]
      exact congrArg₂ _ rfl (congrArg₂ _ rfl (List.map_congr_left fun j hj => by rw [hkept j hj]))
    replies := by
      rw [W.replies, hw, raiseNotice_repliesOwed]
      exact (repliesOwed_congr (by simp)).trans A.replies
    notices := by
      rw [W.notices, hw, raiseNotice_noticesOwed]
      exact noticesWith_congr e (by simpa using A.noticeQueue) (by simpa using A.sending) (by simpa using A.nextNotice)
        (by simpa using A.pendingLost) (by simp [hagent]) (by simp [hown])
    done := by rw [W.others i hi, hslot]; exact A.slot
    heldDone := fun j hj => hkept j hj ▸ W.slot j hj
    others := fun j hj => by
      rw [not_or] at hj
      rw [W.others j hj.2, hslot, A.others j hj.1]
      rfl
    wait := fun j hj => by
      rcases W.wait j hj with hmem | hmem
      · exact .inl (.inr hmem)
      · exact (A.wait j (hwait ▸ hmem)).imp .inl id
    waitOnce := W.waitOnce (hwait ▸ A.waitOnce hp.waitingOnce)
    sending := by rw [W.sending, hw]; simpa using A.sending
    noticeQueue := W.noticeQueue.trans hnotice.1
    nextNotice := W.nextNotice.trans hnotice.2.1
    pendingLost := W.pendingLost.trans hnotice.2.2 }

/-- The station's last failure taken: the exchange answered TIMEOUT, the station SILENT, its held slots answered. -/
def stationSilenced (i : SlotIx) (s : State) : State :=
  answerAll .stationSilent (s.station (s.slot i).seg (s.slot i).station).held
    (raiseNotice (.stationSilent (s.slot i).seg (s.slot i).station)
      ((answerSlot ⟨.timeout, []⟩ (countFinalTimeout (s.slot i).seg s) i).setStation (s.slot i).seg (s.slot i).station
        ⟨.silent, (s.station (s.slot i).seg (s.slot i).station).failures + 1, none, [],
          startTimer (unitsMs s.agent.probeInterval), false⟩))

theorem stationSilenced_exchange (hp : SlotPlaces s) (hs : (s.slot i).state = .sent) :
    SilencedExchange i (s.station (s.slot i).seg (s.slot i).station).held
      (.stationSilent (s.slot i).seg (s.slot i).station) s (stationSilenced i s) :=
  silencedExchange (c := (countFinalTimeout (s.slot i).seg s).counters) hp hs _

theorem stationSilenced_station (i : SlotIx) (k : Segment) (a : StationAddr) :
    (stationSilenced i s).station k a = if (s.slot i).seg = k ∧ (s.slot i).station = a then
      ⟨.silent, (s.station (s.slot i).seg (s.slot i).station).failures + 1, none, [],
        .running (100 * s.agent.probeInterval), false⟩ else s.station k a := by
  rw [stationSilenced, answerAll_station, raiseNotice_station, State.station_setStation, answerSlot_station,
    Nat.mul_comm 100]
  rfl

/-- What the exchange's end writes besides the answers and the station. -/
theorem stationSilenced_aside (i : SlotIx) (s : State) :
    Aside (countFinalTimeout (s.slot i).seg s) (stationSilenced i s) ∧ (stationSilenced i s).commit = s.commit :=
  ⟨by constructor <;> simp [stationSilenced], by simp [stationSilenced]⟩

/-- The arbiter frees only the slots that the silencing has answered (R136). -/
theorem SilencedExchange.slot_chosen {held : List SlotIx} {e : NoticeEvent} {v : State}
    (h : SilencedExchange i held e s v) (hr : s.resetHeld = false) (hu : UpstreamRests s) {j : SlotIx}
    (hj : ¬ (j = i ∨ j ∈ held)) : (arbiterIfIdle v).slot j = s.slot j := by
  rcases (arbiterIfIdle_chosen h.waitOnce).slot j with hsame | ⟨hnone, hmem, -⟩
  · rw [hsame, h.others j hj]
  · rw [h.sending] at hnone
    rcases h.wait j hmem with hans | hwait
    · exact absurd hans hj
    · rw [(hu hr hnone).2.2.2] at hwait
      cases hwait

/-- Settles O23: the answers of the silencing in their order, with no drain to end. -/
theorem finalFailureAtTheThresholdSilencesTheStation :
    Obligations.FinalFailureAtTheThresholdSilencesTheStation := by
  intro i s hr hp hu hs hd hret x r hle hn
  have S := stationSilenced_exchange hp hs
  obtain ⟨A, hcommit⟩ := stationSilenced_aside i s
  have hopen : drainIfDone (stationSilenced i s) = stationSilenced i s :=
    hn.stays hcommit A.store fun j hj hcount => by rw [S.others j hj]; exact hcount
  have hexec : exec (.slotDeadlineExpiry i) s = .next (arbiterIfIdle (stationSilenced i s)) := by
    rw [exec_final_expiry hr hs hd hret, failSlot_silent hle, ← stationSilenced, hopen]
  have C := arbiterIfIdle_chosen S.waitOnce
  refine ⟨_, hexec, ?_, ?_, C.traffic.trans S.traffic, C.slotDone S.done, fun j hj => C.slotDone (S.heldDone j hj),
    fun j hj hheld => S.slot_chosen hr hu (not_or.mpr ⟨hj, hheld⟩), C.notices.trans S.notices,
    C.replies.trans S.replies, ?_, ?_, ?_, ?_, ?_⟩
  · rw [arbiterIfIdle_counters, A.counters]
  · rw [arbiterIfIdle_station, stationSilenced_station, if_pos ⟨rfl, rfl⟩]
  · rw [arbiterIfIdle_store, A.store]; rfl
  · rw [arbiterIfIdle_cache, A.cache]; rfl
  · rw [arbiterIfIdle_commit, hcommit]
  · rw [arbiterIfIdle_parked, A.parked]; rfl
  · rw [arbiterIfIdle_agent, A.agent]; rfl

/-! ### The last answer of a drain (R170, R173, R174) -/

/-- The station records as a taking that ends a drain leaves them, before the parked slots are placed. -/
def standsWith (k : Segment) (a : StationAddr) (r : Station) (s : State) (j : Segment) (c : StationAddr) : Station :=
  if k = j ∧ a = c then r else s.station j c

theorem exchangeEnded_closes (hr : s.resetHeld = false) (hp : SlotPlaces s) (hu : UpstreamRests s)
    (hd : DrainEnds s (· = i)) (hs : (s.slot i).state = .sent)
    (hheld : r.held = (s.station (s.slot i).seg (s.slot i).station).held) :
    ∃ t, arbiterIfIdle (drainIfDone (exchangeEnded b i { r with activeSlot := none } c s)) = t ∧
      DrainEnded s (· = i) [slotAnswer (s.slot i) b.status b.values]
        (standsWith (s.slot i).seg (s.slot i).station r s) t ∧
      slotDone (s.slot i) (t.slot i) b.status b.values ∧
      noticesOwed t = noticesWith (.commitDone (s.store.generation + 1)) s ∧ t.counters = c := by
  obtain ⟨v, hv, A, hdone, hcount, -, hnot, hnext, hlost⟩ := Answers.one (u := s.setCounters c) (b := b) hp hd hs rfl
    (fun _ => rfl) (fun _ => rfl) rfl rfl rfl rfl rfl hheld
  have K := A.closed hr hp hu hd fun j hj => .inl (hj ▸ hs)
  refine ⟨_, rfl, ?_, ?_, ?_, ?_⟩
  all_goals rw [exchangeEnded, hv]
  · exact K.ended
  · exact K.done i rfl hdone
  · rw [K.notices]
    exact noticesWith_congr _ hnot A.sending hnext hlost (congrArg _ A.agent) A.ownAddress
  · rw [K.counters, hcount]
    rfl

/-- A silencing that answers every open exchange has left no station an active slot. -/
theorem SilencedExchange.answers (hp : SlotPlaces s) (hs : (s.slot i).state = .sent)
    (hd : DrainEnds s (fun j => j = i ∨ j ∈ (s.station (s.slot i).seg (s.slot i).station).held)) :
    Answers (fun j => j = i ∨ j ∈ (s.station (s.slot i).seg (s.slot i).station).held)
      (slotAnswer (s.slot i) .timeout [] ::
        (s.station (s.slot i).seg (s.slot i).station).held.map (fun j => slotAnswer (s.slot j) .stationSilent []))
      (standsWith (s.slot i).seg (s.slot i).station
        ⟨.silent, (s.station (s.slot i).seg (s.slot i).station).failures + 1, none, [],
          .running (100 * s.agent.probeInterval), false⟩ s) s (stationSilenced i s) := by
  have S := stationSilenced_exchange hp hs
  obtain ⟨A, hcommit⟩ := stationSilenced_aside i s
  have hanswered : ∀ {j : SlotIx}, j = i ∨ j ∈ (s.station (s.slot i).seg (s.slot i).station).held →
      (s.slot i).seg = (s.slot j).seg ∧ (s.slot i).station = (s.slot j).station := by
    rintro j (rfl | hj)
    · exact ⟨rfl, rfl⟩
    · obtain ⟨-, hseg, hst⟩ := (hp.held _ _ j).mp hj
      exact ⟨hseg.symm, hst.symm⟩
  exact {
    commit := hcommit
    store := A.store
    parked := A.parked
    agent := A.agent
    ownAddress := A.ownAddress
    records := fun k a => by
      rw [stationSilenced_station, standsWith]
      split
      · rfl
      · next hother =>
        have hactive := hd.active_none hp k a fun j hj hans => by
          obtain ⟨-, rfl, rfl⟩ := (hp.active k a j).mp hj
          exact hother (hanswered hans)
        have hheld := hd.held_nil hp k a fun j hj hans => by
          obtain ⟨-, rfl, rfl⟩ := (hp.held k a j).mp hj
          exact hother (hanswered hans)
        rw [← hactive, ← hheld]
    queues := fun k => by simp [stationSilenced]
    others := S.others
    done := by
      have hended : ∀ {x y : Slot} {st : ReplyStatus}, slotDone x y st [] →
          y.state = .free ∨ y.state = .replyReady := by
        rintro x y st (rfl | rfl)
        · exact .inl rfl
        · exact .inr rfl
      rintro j (rfl | hj)
      · exact hended S.done
      · exact hended (S.heldDone j hj)
    traffic := S.traffic
    replies := S.replies
    sending := S.sending
    wait := S.wait
    waitOnce := S.waitOnce }

/-- Settles O51: each of the three takings gives the last answers, and the drain's completion follows them. -/
theorem lastReplyOfADrainSwapsTheBanks : Obligations.LastReplyOfADrainSwapsTheBanks := by
  refine ⟨?_, ?_⟩
  · intro k dst src tag status index count values i s hr hp hu hd hk hf hs hseg hsrc htag x b
    obtain ⟨t, ht, hended, hdone, hnotice, hcount⟩ := exchangeEnded_closes (b := b)
      (c := (countReceived k.port s).counters)
      (r := { s.station x.seg x.station with health := .online, failures := 0 }) hr hp hu hd hs rfl
    have hstands : standsWith x.seg x.station { s.station x.seg x.station with health := .online, failures := 0 } s =
        fun j a => if x.seg = j ∧ x.station = a then { s.station j a with health := .online, failures := 0 }
          else s.station j a := by
      funext j a
      rw [standsWith]
      split
      · next h => rw [h.1, h.2]
      · rfl
    subst hseg hsrc htag
    refine ⟨t, ?_, hstands ▸ hended, hdone, hnotice, hcount⟩
    rw [exec_reply_match hr hp hk hf hs rfl, ← ht]
  · intro i s hr hp hu hs hdl hret x r
    refine ⟨fun hlt hd => ?_, fun hle hd => ?_⟩
    · obtain ⟨t, ht, hended, hdone, hnotice, hcount⟩ := exchangeEnded_closes (b := ⟨.timeout, []⟩)
        (c := (countFinalTimeout x.seg s).counters)
        (r := { r with health := .suspect, failures := r.failures + 1 }) hr hp hu hd hs rfl
      refine ⟨t, ?_, hended, hdone, hnotice, hcount⟩
      rw [exec_final_expiry hr hs hdl hret, failSlot_ends hlt, ← ht]
    · have S := stationSilenced_exchange hp hs
      obtain ⟨A, -⟩ := stationSilenced_aside i s
      have hstate : ∀ j, j = i ∨ j ∈ r.held → (s.slot j).state = .sent ∨ (s.slot j).state = .held := by
        rintro j (rfl | hj)
        · exact .inl hs
        · exact .inr ((hp.held _ _ j).mp hj).1
      have K := (SilencedExchange.answers hp hs hd).closed hr hp hu hd hstate
      refine ⟨_, ?_, K.ended, K.done i (.inl rfl) S.done, fun j hj => K.done j (.inr hj) (S.heldDone j hj), ?_, ?_⟩
      · rw [exec_final_expiry hr hs hdl hret, failSlot_silent hle, ← stationSilenced]
      · rw [K.notices]
        exact noticesWith_congr _ S.noticeQueue (S.sending.trans (raiseNotice_up_sending _ s).symm) S.nextNotice
          S.pendingLost (by rw [A.agent, raiseNotice_agent]; rfl) (by rw [A.ownAddress, raiseNotice_ownAddress]; rfl)
      · rw [K.counters, A.counters]

end Sys2Proof.Safety

/-! A probe's REPLY (R107, R112), and what a CHANGE does as a sign of life and outside the Report Cache (R104, R105,
R107, R120 to R125). -/

namespace Sys2Proof.Safety

open Sys2Proof.Machine

variable {s t : State} {k : Segment} {a : StationAddr}

/-! ### The arbiter with no reply waiting writes port U alone (R140, R141) -/

theorem arbiterChoice_eq_setUp (hw : s.up.waitList = []) (hu : t.up = s.up) :
    arbiterChoice t = t.setUp (arbiterChoice s).up := by
  have hself : t = t.setUp s.up := by rw [← hu]; rfl
  unfold arbiterChoice
  rw [show t.controlMayGo = s.controlMayGo by rw [State.controlMayGo, State.controlMayGo, hu], hu]
  split
  · rfl
  · rfl
  · rw [moveWaitList_of_nil (by exact hw), moveWaitList_of_nil (by exact hw)]
    rfl
  · exact hself

/-- A state with port U as another has it is chosen for alike. -/
theorem arbiterIfIdle_eq_setUp (hw : s.up.sending = none → s.up.waitList = []) (hu : t.up = s.up) :
    arbiterIfIdle t = t.setUp (arbiterIfIdle s).up := by
  cases hs : s.up.sending with
  | some x =>
    rw [arbiterIfIdle_of_sending hs, arbiterIfIdle_of_sending (by rw [hu, hs]), ← hu]
    rfl
  | none => rw [arbiterIfIdle_of_none hs, arbiterIfIdle_of_none (by rw [hu, hs]), arbiterChoice_eq_setUp (hw hs) hu]

theorem arbiterIfIdle_chosen_of_idle (hw : s.up.sending = none → s.up.waitList = []) : Chosen s (arbiterIfIdle s) := by
  cases hs : s.up.sending with
  | some x => rw [arbiterIfIdle_of_sending hs]; exact Chosen.refl s
  | none => exact arbiterIfIdle_chosen (hw hs ▸ List.nodup_nil)

theorem dispatcherChoice_setUp (k : Segment) (u : Upstream) (s : State) :
    dispatcherChoice k (s.setUp u) = (dispatcherChoice k s).setUp u := by
  have hprobe : ((s.setUp u).seg k).probe = (s.seg k).probe := by simp
  have hdue : (s.setUp u).lowestDue k = s.lowestDue k := lowestDue_congr fun c => by simp
  have hqueue : startQueueHead k (s.setUp u) = (startQueueHead k s).setUp u := by
    unfold startQueueHead
    rw [State.setUp_seg]
    split
    · cases k <;> rfl
    · rfl
  unfold dispatcherChoice
  rw [hprobe, hdue]
  split
  · cases k <;> rfl
  · exact hqueue

theorem dispatchIfIdle_setUp (k : Segment) (u : Upstream) (s : State) :
    dispatchIfIdle k (s.setUp u) = (dispatchIfIdle k s).setUp u := by
  have hserve : (s.setUp u).inService k = s.inService k := by cases k <;> rfl
  unfold dispatchIfIdle
  rw [State.setUp_seg, hserve, dispatcherChoice_setUp]
  split
  · split <;> rfl
  · rfl

/-- A dispatcher's choice and the arbiter's do not see each other. -/
theorem arbiterIfIdle_dispatch (hw : s.up.sending = none → s.up.waitList = []) :
    arbiterIfIdle (dispatchIfIdle k s) = dispatchIfIdle k (arbiterIfIdle s) := by
  rw [arbiterIfIdle_eq_setUp hw (by simp), ← dispatchIfIdle_setUp, ← arbiterIfIdle_eq_setUp hw rfl]

/-! ### A success or a sign of life (R104, R107) -/

theorem takeAlive_of_silent (h : (s.station k a).health = .silent) : takeAlive k a s =
    raiseNotice (.stationOnline k a) (s.setStation k a
      { s.station k a with health := .online, failures := 0, dueTimer := .stopped, due := false }) := if_pos h

theorem takeAlive_of_not_silent (h : (s.station k a).health ≠ .silent) :
    takeAlive k a s = s.setStation k a { s.station k a with health := .online, failures := 0 } := if_neg h

/-! ### The REPLY of a probe (R112) -/

theorem takeReply_of_probe {d : Timer} (h : (s.seg k).probe = .awaiting a d) (status count : Byte)
    (values : List Word) :
    takeReply k (byteOf (a.val + 1)) (byteOf (224 + (a.val + 1))) status count values s = completeProbe k a s := by
  let low : SlotIx := ⟨a.val + 1, by omega⟩
  have hnumber : tagNumber (byteOf (224 + (a.val + 1))) = 7 := tagNumber_of_tag (n := 7) (by omega) low
  have hindex : tagIndex (byteOf (224 + (a.val + 1))) = low := tagIndex_of_tag (n := 7) (by omega) low
  have hanswer : probeAnswered (s.seg k).probe (byteOf (a.val + 1)) (byteOf (224 + (a.val + 1))) = some a :=
    probeAnswered_eq_some_iff.mpr ⟨⟨d, h⟩, by rw [hindex], rfl⟩
  rw [takeReply, if_neg (by omega), hanswer]

/-- Settles O27: the probe record's end and the station's return come before the dispatcher's choice. -/
theorem probeReplyBringsTheStationBack : Obligations.ProbeReplyBringsTheStationBack := by
  intro k dst src tag status index count values a d s hr hu hk hf hp hsrc htag r ended
  subst hsrc htag
  have hstation : ended.station k a = r := by simp [ended, r]
  have hended : (countReceived k.port s).setSeg k { (countReceived k.port s).seg k with probe := .idle } = ended := rfl
  have hexec : exec (.reply k dst (byteOf (a.val + 1)) (byteOf (224 + (a.val + 1))) status index count values) s =
      .next (arbiterIfIdle (dispatchIfIdle k (if r.health = .silent then takeAlive k a ended else ended))) := by
    rw [exec_reply_of_form hr hk hf, takeReply_of_probe (s := countReceived k.port s) (d := d) (by simpa using hp),
      completeProbe]
    dsimp only
    rw [hended, hstation]
  have hidle : ∀ {t : State}, t.up.sending = s.up.sending → t.up.waitList = s.up.waitList →
      t.up.sending = none → t.up.waitList = [] := fun h1 h2 hnone => h2.trans (hu hr (h1 ▸ hnone)).2.2.2
  refine ⟨fun hh => ?_, fun hh => ?_⟩
  · have hrest : arbiterIfIdle ended = ended :=
      arbiterIfIdle_of_rests (by simpa [ended] using hr) (hu.congr (by simp [ended]) (by simp [ended]))
    rw [hexec, if_neg hh, arbiterIfIdle_dispatch (hidle (by simp [ended]) (by simp [ended])), hrest]
  · rw [hexec, if_pos hh, takeAlive_of_silent (hstation ▸ hh), hstation,
      arbiterIfIdle_dispatch (hidle (by simp [ended]) (by simp [ended]))]
    rfl

/-! ### A CHANGE as a sign of life (R104, R105, R107, R120) -/

theorem signOfLife_of_station (src : Byte) (h : src = byteOf (a.val + 1)) : signOfLife k src s = takeAlive k a s := by
  have haddr : addrOf src = some a := h ▸ addrOf_addrByte a
  rw [signOfLife, haddr]

theorem signOfLife_of_other {src : Byte} (h : ∀ a : StationAddr, src ≠ byteOf (a.val + 1)) :
    signOfLife k src s = s := by
  have haddr : addrOf src = none := Option.eq_none_iff_forall_ne_some.mpr fun a ha => h a (addrOf_some ha)
  rw [signOfLife, haddr]

/-- What a sign of life leaves alone, beside what the rest of the taking reads. -/
structure KeepsForLife (k : Segment) (src : Byte) (s t : State) : Prop where
  seg : ∀ j, (t.seg j).queue = (s.seg j).queue ∧ (t.seg j).record = (s.seg j).record ∧
    (t.seg j).probe = (s.seg j).probe
  station : ∀ j a, ¬ (j = k ∧ src = byteOf (a.val + 1)) → t.station j a = s.station j a
  replies : repliesOwed t = repliesOwed s
  commit : t.commit = s.commit
  parked : t.parked = s.parked

theorem takeAlive_keepsForLife (k : Segment) (a : StationAddr) (s : State) :
    KeepsForLife k (byteOf (a.val + 1)) s (takeAlive k a s) := by
  have hother : ∀ {x : Station} {j : Segment} {c : StationAddr}, ¬ (j = k ∧ byteOf (a.val + 1) = byteOf (c.val + 1)) →
      (s.setStation k a x).station j c = s.station j c := fun h => by
    rw [State.station_setStation, if_neg]
    rintro ⟨rfl, rfl⟩
    exact h ⟨rfl, rfl⟩
  have howed : ∀ x, repliesOwed (s.setStation k a x) = repliesOwed s := fun x => repliesOwed_congr (by simp)
  by_cases h : (s.station k a).health = .silent
  · rw [takeAlive_of_silent h]
    exact ⟨fun j => by simp, fun j c hne => by rw [raiseNotice_station, hother hne],
      by rw [raiseNotice_repliesOwed, howed], by simp, by simp⟩
  · rw [takeAlive_of_not_silent h]
    exact ⟨fun j => by simp, fun j c hne => hother hne, howed _, by simp, by simp⟩

theorem signOfLife_keepsForLife (k : Segment) (src : Byte) (s : State) :
    KeepsForLife k src s (signOfLife k src s) := by
  by_cases h : ∃ a : StationAddr, src = byteOf (a.val + 1)
  · obtain ⟨a, rfl⟩ := h
    rw [signOfLife_of_station _ rfl]
    exact takeAlive_keepsForLife k a s
  · rw [signOfLife_of_other (not_exists.mp h)]
    exact ⟨fun _ => ⟨rfl, rfl, rfl⟩, fun _ _ _ => rfl, rfl, rfl, rfl⟩

theorem exec_change (hr : s.resetHeld = false) (hk : s.inService k = true) (dst src tag : Byte) (y value : Word) :
    exec (.change k dst src tag y value) s =
      .next (arbiterIfIdle (takeChange k src y value (countReceived k.port s))) := by
  refine (whenRunning_of_running hr _).trans ?_
  rw [deliverChange, if_pos hk]

/-- After its sign of life a CHANGE adds to the Traffic Queue, the cache and the counters; the arbiter writes port U. -/
theorem exec_change_form (hr : s.resetHeld = false) (hu : UpstreamRests s) (hk : s.inService k = true)
    (dst src tag : Byte) (y value : Word) {v : State} (hv : signOfLife k src (countReceived k.port s) = v) :
    ∃ t, exec (.change k dst src tag y value) s = .next t ∧
      t = { v with up := t.up, cache := t.cache, counters := t.counters } ∧
      noticesOwed t = noticesOwed v ∧ repliesOwed t = repliesOwed v := by
  have K := signOfLife_keepsForChange k src (countReceived k.port s)
  rw [exec_change hr hk, takeChange, hv]
  rw [hv] at K
  obtain ⟨traffic, cache, counters, hform⟩ := mapChange_form k src y value v
  have hidle : v.up.sending = none → v.up.waitList = [] := K.idle fun hnone => (hu hr hnone).2.2.2
  rw [hform]
  let w : State := { v with up := { v.up with traffic := traffic }, cache := cache, counters := counters }
  have C := arbiterIfIdle_chosen_of_idle (s := w) hidle
  have hup : arbiterIfIdle w = w.setUp (arbiterIfIdle w).up := arbiterIfIdle_eq_setUp hidle rfl
  exact ⟨arbiterIfIdle w, rfl, by rw [hup]; rfl, C.notices, C.replies⟩

/-- Settles O29: the sign of life writes the source's record, and nothing after it writes a record. -/
theorem changeIsASignOfLife : Obligations.ChangeIsASignOfLife := by
  intro k dst src tag y value s hr hu hk
  set u := countReceived k.port s with hu'
  have K := signOfLife_keepsForChange k src u
  have L := signOfLife_keepsForLife k src u
  obtain ⟨t, hexec, hform, hnotices, hreplies⟩ := exec_change_form hr hu hk dst src tag y value rfl
  have hseg : ∀ j, t.seg j = (signOfLife k src u).seg j := fun j => by rw [hform]; cases j <;> rfl
  have hstation : ∀ j c, t.station j c = (signOfLife k src u).station j c := fun j c => by rw [hform]; cases j <;> rfl
  have hown : ∀ c, u.station k c = s.station k c := fun c => by simp [hu']
  refine ⟨t, hexec, ?_, fun j c => ⟨?_, ?_, ?_, fun hne => ?_⟩, fun c hsrc hh => ⟨?_, ?_⟩, fun c hsrc hh => ⟨?_, ?_⟩,
    hreplies.trans L.replies, ?_, ?_, ?_, ?_⟩
  · rw [hform]; exact K.slots
  · rw [hseg, (L.seg j).1]; simp [hu']
  · rw [hseg, (L.seg j).2.1]; simp [hu']
  · rw [hseg, (L.seg j).2.2]; simp [hu']
  · rw [hstation, L.station j c hne]; simp [hu']
  · rw [hstation, signOfLife_of_station src hsrc, takeAlive_of_not_silent (hown c ▸ hh), hown]
    simp
  · rw [hnotices, signOfLife_of_station src hsrc, takeAlive_of_not_silent (hown c ▸ hh)]
    exact noticesOwed_congr (by simp)
  · rw [hstation, signOfLife_of_station src hsrc, takeAlive_of_silent (hown c ▸ hh), hown]
    simp
  · rw [hnotices, signOfLife_of_station src hsrc, takeAlive_of_silent (hown c ▸ hh), raiseNotice_noticesOwed]
    exact noticesWith_congr _ (by simp) (by simp) (by simp) (by simp) (by simp) (by simp)
  · rw [hform]; exact K.store
  · rw [hform]; exact L.commit
  · rw [hform]; exact L.parked
  · rw [hform]; exact K.agent

/-! ### The outcomes of a CHANGE outside the Report Cache (R121 to R125) -/

section Outcomes

variable {src : Byte} {y value w : Word} {e : MapEntry}

theorem takeChange_of_unmapped (h : s.store.activeBank.reverse k src y = none) :
    takeChange k src y value s = countChangeUnmapped (signOfLife k src s) := by
  rw [takeChange, mapChange, (signOfLife_keepsForChange k src s).store, h]

theorem takeChange_of_rejected (h : s.store.activeBank.reverse k src y = some e)
    (hw : editValues s.store.activeBank e.upEdit [value] = none) :
    takeChange k src y value s = countChangeUnmapped (signOfLife k src s) := by
  have hstore := (signOfLife_keepsForChange k src s).store
  rw [takeChange, mapChange, hstore, h]
  dsimp only
  rw [editChange, hstore, hw]

theorem takeChange_of_edited (h : s.store.activeBank.reverse k src y = some e)
    (hw : editValues s.store.activeBank e.upEdit [value] = some [w]) :
    takeChange k src y value s = applyPolicy e y w (signOfLife k src s) := by
  have hstore := (signOfLife_keepsForChange k src s).store
  rw [takeChange, mapChange, hstore, h]
  dsimp only
  rw [editChange, hstore, hw]

theorem applyPolicy_of_drop (h : e.policy = .drop) : applyPolicy e y w s = countChangeSuppressed s := by
  rw [applyPolicy, h]

theorem applyPolicy_of_forward (h : e.policy = .forward) :
    applyPolicy e y w s = offerChange (forwardedChange s e y w) s.cache s := by
  rw [applyPolicy, h]

end Outcomes

theorem countChangeUnmapped_changeLeaves {u : State} (K : KeepsForChange s u)
    (hidle : s.up.sending = none → s.up.waitList = []) :
    ChangeLeaves s (countChangeUnmapped s).counters [] s.cache (countChangeUnmapped u) :=
  ⟨by simp [K.counters], K.trafficOwed_eq.trans (List.append_nil _).symm, K.cache, K.idle hidle⟩

/-- Settles O30: the outcome that the bank, the edit and the policy name. -/
theorem changeOutcomesOutsideTheCache : Obligations.ChangeOutcomesOutsideTheCache := by
  intro k dst src tag y value s hr hu hk ends received
  have K : KeepsForChange received (signOfLife k src received) := signOfLife_keepsForChange k src received
  have hidle : received.up.sending = none → received.up.waitList = [] := fun hnone => (hu hr hnone).2.2.2
  have hunmapped : takeChange k src y value received = countChangeUnmapped (signOfLife k src received) →
      ends (countChangeUnmapped received) [] := fun htake =>
    exec_change_of_changeLeaves hr hk (htake ▸ countChangeUnmapped_changeLeaves K hidle) dst tag
  refine ⟨fun h => hunmapped (takeChange_of_unmapped h), fun e h => ⟨fun hw => hunmapped (takeChange_of_rejected h hw),
    fun w hw => ?_⟩⟩
  have htake := takeChange_of_edited (s := received) h hw
  refine ⟨fun hp => exec_change_of_changeLeaves hr hk ?_ dst tag,
    fun hp hroom hwait => exec_change_of_changeLeaves hr hk ?_ dst tag,
    fun hp hfull => exec_change_of_changeLeaves hr hk ?_ dst tag⟩
  · rw [htake, applyPolicy_of_drop hp]
    have L := countChangeSuppressed_changeLeaves K hidle received.cache
    rw [← K.cache] at L
    exact K.cache ▸ L
  · rw [htake, applyPolicy_of_forward hp, K.cache, forwardedChange, K.agent]
    exact offerChange_changeLeaves_of_room K hidle hroom hwait _ _
  · rw [htake, applyPolicy_of_forward hp]
    exact offerChange_changeLeaves_of_full K hidle hfull _ _

end Sys2Proof.Safety

/-! COMMIT, ABORT_COMMIT and the drain timer (R37, R161, R162, R168, R169, R173, R175, R176). -/

namespace Sys2Proof.Safety

open Sys2Proof.Machine

variable {s v t : State} {hd : MgmtHead} {status : MgmtStatus} {data : List Byte}

/-! ### The swap (R20, R37) -/

theorem swap_banks (st : BankStore) : st.swap.activeBank = st.shadowBank ∧ st.swap.shadowBank = st.activeBank ∧
    st.swap.bankA = st.bankA ∧ st.swap.bankB = st.bankB ∧ st.swap.active ≠ st.active := by
  obtain ⟨bankA, bankB, active, generation⟩ := st
  cases active
  · exact ⟨rfl, rfl, rfl, rfl, nofun⟩
  · exact ⟨rfl, rfl, rfl, rfl, nofun⟩

theorem swap_generation_toNat (st : BankStore) :
    st.swap.generation.toNat = (st.generation.toNat + 1) % 65536 := by
  rw [swap_gen, BitVec.toNat_add]
  rfl

/-! ### An exchange is open (R168) -/

/-- An exchange of the current generation has been placed and not yet answered. -/
def ExchangeOpen (s : State) : Prop :=
  ∃ i, (s.slot i).generation = s.store.generation ∧
    ((s.slot i).state = .held ∨ (s.slot i).state = .queued ∨ (s.slot i).state = .sending ∨ (s.slot i).state = .sent)

theorem exchangeOpen_iff : ExchangeOpen s ↔ ∃ i, (s.slot i).countsAsOld s.store.generation = true :=
  exists_congr fun _ => countsAsOld_iff.symm

theorem drainIfDone_of_draining (h : s.commit.state = .draining) (ho : ¬ ExchangeOpen s) :
    drainIfDone s = completeDrain s := by
  have hzero : s.oldGenCount = 0 :=
    Nat.eq_zero_of_not_pos fun hpos => ho (exchangeOpen_iff.mpr (oldGenCount_pos.mp hpos))
  exact if_pos ⟨h, hzero⟩

/-- A drain completed with nothing parked swaps the banks, empties the cache and raises COMMIT_DONE (R173). -/
theorem completeDrain_of_none_parked (h : s.parked = []) : completeDrain s =
    raiseNotice (.commitDone (s.store.generation + 1))
      { s with commit := ⟨.idle, none, .stopped⟩, store := s.store.swap, cache := [], parked := [] } := by
  rw [completeDrain, h]
  dsimp only [List.foldl_nil]
  unfold raiseNotice
  split <;> rfl

theorem beginDrain_of_open (h : ExchangeOpen s) : beginDrain s =
    { s with commit := ⟨.draining, some (s.store.generation + 1), .running s.agent.drainLimit⟩ } :=
  drainIfDone_open (.inr (exchangeOpen_iff.mp h))

theorem beginDrain_of_closed (hc : s.commit = ⟨.idle, none, .stopped⟩) (hp : s.parked = []) (h : ¬ ExchangeOpen s) :
    beginDrain s =
      raiseNotice (.commitDone (s.store.generation + 1)) { s with store := s.store.swap, cache := [] } := by
  have hstate : { s with commit := ⟨.idle, none, .stopped⟩, store := s.store.swap, cache := [], parked := [] } =
      { s with store := s.store.swap, cache := [] } := by rw [← hc, ← hp]
  let draining : State :=
    { s with commit := ⟨.draining, some s.store.nextGeneration, startTimer s.agent.drainLimit⟩ }
  have hdone : beginDrain s = completeDrain draining := drainIfDone_of_draining (s := draining) rfl h
  rw [← hstate, hdone]
  exact completeDrain_of_none_parked (s := draining) hp

/-! ### COMMIT (R161, R169) -/

theorem runCommit_of_fault (hi : s.commit.state = .idle) {reason : ValidityReason} {ix : MapIx}
    (h : s.store.shadowBank.examine s.s1Present = some (reason, ix)) :
    runCommit hd [] s = answerStored hd .invalidBank [validityReasonCode reason, byteOf ix.val] s := by
  rw [runCommit, unlessDraining_of_idle hi]
  dsimp only
  rw [h]

theorem runCommit_of_valid (hi : s.commit.state = .idle) (h : s.store.shadowBank.examine s.s1Present = none) :
    runCommit hd [] s = beginDrain (answerStored hd .accepted (wordBytes (s.store.generation + 1)) s) := by
  rw [runCommit, unlessDraining_of_idle hi]
  dsimp only
  rw [h]
  rfl

/-- A notice raised while a reply waits in the Outbox is not the one an idle transmitter starts (R141). -/
theorem arbiterIfIdle_raiseNotice (e : NoticeEvent) (ho : s.up.outbox ≠ [])
    (ht : s.up.sending = none → s.up.traffic = []) :
    arbiterIfIdle (raiseNotice e s) = raiseNotice e (arbiterIfIdle s) := by
  cases hs : s.up.sending with
  | some u => rw [arbiterIfIdle_of_sending (s := s) hs, arbiterIfIdle_of_sending (by rw [raiseNotice_up_sending, hs])]
  | none =>
    obtain ⟨r, rest, hcons⟩ := List.exists_cons_of_ne_nil ho
    rw [arbiterIfIdle_of_none (s := s) hs, arbiterIfIdle_of_none (by rw [raiseNotice_up_sending, hs]),
      arbiterChoice_of_outbox (s := s) (controlMayGo_iff.mpr (.inr (ht hs))) hcons,
      arbiterChoice_of_outbox (controlMayGo_iff.mpr (.inr (by rw [raiseNotice_up_traffic, ht hs])))
        (by rw [raiseNotice_up_outbox, hcons])]
    unfold raiseNotice
    rw [State.setUp_up]
    split <;> rfl

theorem answerStored_outbox : (answerStored hd status data s).up.outbox ≠ [] := by
  simp [answerStored, answerOnly, placeReply]

/-- A stored answer with a notice raised behind it. -/
theorem arbiterIfIdle_answered_notice (hu : UpstreamRests s) (hr : s.resetHeld = false) (hup : t.up = s.up)
    (e : NoticeEvent) : arbiterIfIdle (raiseNotice e (answerStored hd status data (countReceived .u t))) =
      raiseNotice e (answered hd status data t) := by
  rw [arbiterIfIdle_raiseNotice e answerStored_outbox, arbiterIfIdle_answered hu hr hup]
  intro hnone
  have hs : t.up.sending = none := hnone
  have ht : t.up.traffic = [] := hup ▸ (hu hr (hup ▸ hs)).1
  exact ht

/-- Settles O49: the three outcomes of a COMMIT, and the swap. -/
theorem commitIsRefusedDrainsOrCompletes : Obligations.CommitIsRefusedDrainsOrCompletes := by
  refine ⟨?_, fun st => ?_⟩
  · intro src seq s h hcommit hparked next open' accepted
    have hidle : (countReceived .u s).commit.state = .idle := congrArg CommitControl.state hcommit
    have hexec : exec (.commit src seq []) s =
        .next (arbiterIfIdle (runCommit ⟨src, seq, 13⟩ [] (countReceived .u s))) :=
      exec_ready (code := 13) h (by simp) (by decide)
    refine ⟨fun reason ix hfault => ?_, fun hvalid hopen => ?_, fun hvalid hclosed => ?_⟩
    · rw [hexec, runCommit_of_fault hidle hfault, arbiterIfIdle_answered h.rests h.running rfl]
    · let draining : State := { s with commit := ⟨.draining, some next, .running s.agent.drainLimit⟩ }
      have hbegin : beginDrain (answerStored ⟨src, seq, 13⟩ .accepted (wordBytes next) (countReceived .u s)) =
          answerStored ⟨src, seq, 13⟩ .accepted (wordBytes next) (countReceived .u draining) := beginDrain_of_open hopen
      have hchoice := arbiterIfIdle_answered (t := draining) h.rests h.running rfl
      rw [hexec, runCommit_of_valid hidle hvalid]
      exact congrArg _ ((congrArg arbiterIfIdle hbegin).trans (hchoice _ _ _))
    · let swapped : State := { s with store := s.store.swap, cache := [] }
      have hbegin : beginDrain (answerStored ⟨src, seq, 13⟩ .accepted (wordBytes next) (countReceived .u s)) =
          raiseNotice (.commitDone next)
            (answerStored ⟨src, seq, 13⟩ .accepted (wordBytes next) (countReceived .u swapped)) :=
        beginDrain_of_closed hcommit hparked hclosed
      have hchoice := arbiterIfIdle_answered_notice (t := swapped) (hd := ⟨src, seq, 13⟩) (status := .accepted)
        (data := wordBytes next) h.rests h.running rfl
      rw [hexec, runCommit_of_valid hidle hvalid]
      exact congrArg _ ((congrArg arbiterIfIdle hbegin).trans (hchoice _))
  · obtain ⟨hactive, hshadow, hA, hB, hother⟩ := swap_banks st
    exact ⟨hactive, hshadow, hA, hB, hother, swap_generation_toNat st⟩

/-! ### A drain that fails (R162, R175, R176) -/

/-- What the failure of a drain leaves, for a taking that reached it at `v` with the slots of `s`: each parked slot
answered RECONFIG, COMMIT_FAILED raised, and nothing swapped. -/
structure DrainFailed (reason : FailReason) (s v t : State) : Prop where
  commit : t.commit = ⟨.idle, none, .stopped⟩
  parked : t.parked = []
  replies : repliesOwed t = repliesOwed v
  traffic : trafficOwed t = trafficOwed v ++ s.parked.map (fun i => slotAnswer (s.slot i) .reconfig [])
  notices : noticesOwed t = noticesWith (.commitFailed reason v.store.generation s.parked.length) v
  done : ∀ i ∈ s.parked, slotDone (s.slot i) (t.slot i) .reconfig []
  others : ∀ i, i ∉ s.parked → t.slot i = s.slot i
  agent : t.agent = v.agent
  counters : t.counters = v.counters
  store : t.store = v.store
  cache : t.cache = v.cache
  seg0 : t.seg0 = v.seg0
  seg1 : t.seg1 = v.seg1

theorem drainFailed (reason : FailReason) (hp : SlotPlaces s) (hr : s.resetHeld = false) (hu : UpstreamRests s)
    (hslots : v.slots = s.slots) (hparked : v.parked = s.parked) (hsending : v.up.sending = s.up.sending)
    (hwait : v.up.waitList = s.up.waitList) : DrainFailed reason s v (arbiterIfIdle (failDrain reason v)) := by
  have hslot : ∀ i, v.slot i = s.slot i := fun i => by rw [State.slot, State.slot, hslots]
  set u : State := { v with commit := { v.commit with drainTimer := .stopped }, parked := [] } with hdu
  set w := raiseNotice (.commitFailed reason v.store.generation s.parked.length)
    (answerAll .reconfig s.parked u) with hw
  have hfail : failDrain reason v = { w with commit := CommitControl.initial } := by
    rw [failDrain, hparked]
    dsimp only
    rw [answerAll_store]
  have A := answerAll_answered .reconfig s.parked (s := u) hp.parkedOnce fun i hi hmem => by
    have hready := (hp.waiting i).mp (hwait ▸ hmem)
    rw [(hp.parked i).mp hi] at hready
    cases hready
  have hwwait : w.up.waitList = (answerAll .reconfig s.parked u).up.waitList := by simp [hw]
  have hwslot : ∀ i, w.slot i = (answerAll .reconfig s.parked u).slot i := fun i => by simp [hw]
  have C := arbiterIfIdle_chosen (s := { w with commit := CommitControl.initial })
    (hwwait ▸ A.waitOnce (hwait ▸ hp.waitingOnce))
  rw [hfail]
  exact {
    commit := arbiterIfIdle_commit
    parked := by rw [arbiterIfIdle_parked]; simp [hw, hdu]
    replies := C.replies.trans (by
      show repliesOwed w = _
      rw [hw, raiseNotice_repliesOwed, A.replies]
      rfl)
    traffic := C.traffic.trans (by
      show trafficOwed w = _
      rw [hw, raiseNotice_trafficOwed, A.traffic]
      exact congrArg _ (List.map_congr_left fun i _ => congrArg (slotAnswer · _ _) (hslot i)))
    notices := C.notices.trans (by
      show noticesOwed w = _
      rw [hw, raiseNotice_noticesOwed]
      exact noticesWith_congr _ A.noticeQueue A.sending A.nextNotice A.pendingLost (by simp [hdu]) (by simp [hdu]))
    done := fun i hi => C.slotDone (by
      show slotDone _ (w.slot i) _ _
      rw [hwslot, ← hslot]
      exact A.slot i hi)
    others := fun i hi => by
      rcases C.slot i with hsame | ⟨hnone, hmem, -⟩
      · exact hsame.trans ((hwslot i).trans ((A.others i hi).trans (hslot i)))
      · have hidle : s.up.sending = none := by
          rw [← hsending]
          exact A.sending.symm.trans (by simpa [hw] using hnone)
        rcases A.wait i (hwwait ▸ hmem) with hans | hup
        · exact absurd hans hi
        · rw [show u.up.waitList = [] from hwait.trans (hu hr hidle).2.2.2] at hup
          cases hup
    agent := by rw [arbiterIfIdle_agent]; simp [hw, hdu]
    counters := by rw [arbiterIfIdle_counters]; simp [hw, hdu]
    store := by rw [arbiterIfIdle_store]; simp [hw, hdu]
    cache := by rw [arbiterIfIdle_cache]; simp [hw, hdu]
    seg0 := by rw [arbiterIfIdle_seg0]; simp [hw, hdu]
    seg1 := by rw [arbiterIfIdle_seg1]; simp [hw, hdu] }

theorem runAbortCommit_of_draining (h : s.commit.state = .draining) :
    runAbortCommit hd [] s = failDrain .aborted (answerStored hd .done [] s) := by
  rw [runAbortCommit, h]

/-- Settles O50: an abort and an expiry fail the drain alike, the abort with its reply placed before. -/
theorem failedDrainAnswersParkedRequestsReconfig : Obligations.FailedDrainAnswersParkedRequestsReconfig := by
  refine ⟨fun src seq s h hp hc => ?_, fun s hr hu hp hc hd => ?_⟩
  · have hexec : exec (.abortCommit src seq []) s =
        .next (arbiterIfIdle (failDrain .aborted (answerStored ⟨src, seq, 14⟩ .done [] (countReceived .u s)))) := by
      rw [← runAbortCommit_of_draining (s := countReceived .u s) hc]
      exact exec_ready (code := 14) h (by simp) (by decide)
    have F := drainFailed (v := answerStored ⟨src, seq, 14⟩ .done [] (countReceived .u s)) .aborted hp h.running h.rests
      rfl rfl rfl rfl
    refine ⟨_, hexec, F.commit, F.parked, F.replies.trans ?_, F.traffic, F.notices, F.done, F.others, F.agent,
      F.counters, F.store, F.cache, F.seg0, F.seg1⟩
    exact (List.append_assoc _ _ _).symm
  · have hexec : exec .drainExpiry s = .next (arbiterIfIdle (failDrain .drainTimeout s)) := by
      refine (whenRunning_of_running hr _).trans ?_
      rw [expireDrain, if_pos ⟨hc, hd⟩]
    have F := drainFailed (v := s) .drainTimeout hp hr hu rfl rfl rfl rfl
    exact ⟨_, hexec, F.commit, F.parked, F.replies, F.traffic, F.notices, F.done, F.others, F.agent, F.counters,
      F.store, F.cache, F.seg0, F.seg1⟩

end Sys2Proof.Safety
